-- ==== Sys2Proof/Word.lean ====
section
/-!
DEFINITION. The word types of the TN-960 (R3, R154, R202).
-/
namespace Sys2Proof

/-- A 64-bit register or memory word (x registers, p registers, special registers: R154). -/
abbrev Word := BitVec 64

/-- One byte of memory. -/
abbrev Byte := BitVec 8

/-- A 512-bit vector register or queue entry; byte 0 is the lowest byte (R154, R319). -/
abbrev Vec := BitVec 512

end Sys2Proof
end

