-- ==== Sys2Proof/Syntax.lean ====
section
/-!
DEFINITION. The instruction set as an inductive type: one constructor for every row of
spec/opcode_table.json. Rows 0 to 193 are instructions, each carrying the fields of its 96-bit word
(R222, R227, R232 to R237); rows 194 to 267 are the steps the machine takes by itself (file 95), each
carrying the names of what it acts on.
-/
namespace Sys2Proof

/-- TY of layout I (Table 11-3). -/
inductive IntTy | s32 | s64 | z32 | z64
  deriving DecidableEq, Repr

/-- ESZ codes 0 to 12 (R202, Table 06-1). -/
inductive Esz | s8 | s16 | s32 | s64 | z8 | z16 | z32 | z64 | fp16 | bf16 | fp32 | v64 | l128
  deriving DecidableEq, Repr

/-- Condition codes (Table 11-8). -/
inductive Cond | eq | ne | lt | le | gt | ge | un | ord
  deriving DecidableEq, Repr

/-- PLOG operations (Table 11-8). -/
inductive PlogOp | and | or | xor | andn | orn | not
  deriving DecidableEq, Repr

/-- Rounding modes (R205). -/
inductive Rm | rne | rtz | rup | rdn
  deriving DecidableEq, Repr

/-- ORD (Table 04-2). -/
inductive MemOrd | rlx | acq | rel | sc
  deriving DecidableEq, Repr

/-- SCOPE (Table 04-2). -/
inductive Scope | core | clu | die | pkg | sys
  deriving DecidableEq, Repr

/-- Addressing modes (R234). -/
inductive Am | imm | scaled | index | priv | pcrel
  deriving DecidableEq, Repr

/-- Atomic operations (Table 11-6). -/
inductive Aop | swap | add | and | or | xor | min | max | fadd
  deriving DecidableEq, Repr

/-- Reduction operations of VRED, VSCAN and SHRED (R240). -/
inductive RedOp | sum | max | min | and | or | xor
  deriving DecidableEq, Repr

/-- Operations of SHMAP (R240). -/
inductive MapOp | add | sub | mul | min | max | fma | abs | neg | exp2 | rcp | tanh | dqnt
  deriving DecidableEq, Repr

/-- Source width of SEXT and ZEXT (Table 11-3). -/
inductive SrcW | w8 | w16 | w32
  deriving DecidableEq, Repr

/-- Counter levels (R227, handle type 0100). -/
inductive Level | node | graph | phase | job
  deriving DecidableEq, Repr

/-- A planed integer format: signedness and precision minus one (R211, R233). -/
structure BlkFmt where
  z   : Bool
  pm1 : Fin 8
  deriving DecidableEq, Repr

/-- An operand field (Table 11-2). An unused field is all zero, which is `x 0` (R228). A long
immediate carries its whole imm32, MOD and B together (R231). -/
inductive Opd
  | x (n : Fin 64)
  | v (n : Fin 32)
  | q (n : Fin 16) (pk : Bool)
  | p (n : Fin 8)
  | imm (i : BitVec 17)
  | slot (n : Fin 16)
  | shape (n : Fin 16)
  | bar (n : Fin 32)
  | tile (n : Fin 32)
  | level (l : Level)
  | sreg (i : BitVec 12)
  | long (i : BitVec 32)
  deriving DecidableEq, Repr

/-- Guard and hints (R225, R226). -/
structure Hdr where
  gn    : Bool
  gp    : Fin 8
  stall : Fin 8
  yld   : Bool
  reu   : Fin 4
  deriving DecidableEq, Repr

/-- Layout I (R232). -/
structure OpI where
  h  : Hdr
  ty : IntTy
  d  : Opd
  a  : Opd
  b  : Opd
  deriving DecidableEq, Repr

/-- Layout V without its SUB field, which each constructor carries by its meaning (R233). -/
structure OpV where
  h   : Hdr
  et  : Esz
  rm  : Rm
  lp  : Fin 8
  sat : Bool
  bc  : Bool
  z   : Bool
  d   : Opd
  a   : Opd
  b   : Opd
  deriving DecidableEq, Repr

/-- Layout M (R234). -/
structure OpM where
  h     : Hdr
  ord   : MemOrd
  scope : Scope
  evp   : Fin 8
  esz   : Esz
  am    : Am
  d     : Opd
  a     : Opd
  b     : Opd
  deriving DecidableEq, Repr

/-- Layout A without its AOP field (R235). -/
structure OpA where
  h     : Hdr
  ord   : MemOrd
  scope : Scope
  evp   : Fin 8
  esz   : Esz
  d     : Opd
  a     : Opd
  b     : Opd
  deriving DecidableEq, Repr

/-- Layout S without its SEL field (R236). -/
structure OpS where
  h     : Hdr
  scope : Scope
  d     : Opd
  a     : Opd
  b     : Opd
  deriving DecidableEq, Repr

/-- Layout X without the MXCPY fields (R237). -/
structure OpX where
  h : Hdr
  d : Opd
  a : Opd
  b : Opd
  deriving DecidableEq, Repr

/-- Every row of the opcode table. The docstring of a group names the rule of its effect. -/
inductive Instr
  -- INT (R266 to R269)
  | iadd (o : OpI) | isub (o : OpI) | imul (o : OpI) | imulh (o : OpI) | imad (o : OpI)
  | idiv (o : OpI) | irem (o : OpI) | ineg (o : OpI) | iabs (o : OpI) | imin (o : OpI)
  | imax (o : OpI) | icmp (c : Cond) (dp : Fin 8) (o : OpI) | isel (dp : Fin 8) (o : OpI)
  | lea (sh : Fin 16) (o : OpI) | clz (o : OpI) | ctz (o : OpI) | popc (o : OpI) | brev (o : OpI)
  -- LOGIC (R270 to R273)
  | and (o : OpI) | or (o : OpI) | xor (o : OpI) | andn (o : OpI) | orn (o : OpI)
  | shl (o : OpI) | shr (o : OpI) | sar (o : OpI) | rol (o : OpI) | bfx (o : OpI) | bfi (o : OpI)
  | sext (w : SrcW) (o : OpI) | zext (w : SrcW) (o : OpI) | mov (o : OpI) | movi (o : OpI)
  | movhi (o : OpI) | plog (op : PlogOp) (o : OpI) | pmov (o : OpI)
  -- FP (R274 to R278)
  | fadd (o : OpV) | fsub (o : OpV) | fmul (o : OpV) | ffma (o : OpV) | fdiv (o : OpV)
  | fsqrt (o : OpV) | fmin (o : OpV) | fmax (o : OpV) | fcmp (c : Cond) (o : OpV)
  | fcvt (src : Esz) (o : OpV) | fclass (o : OpV)
  -- CTRL (R279 to R287)
  | nop (o : OpS) | br (o : OpS) | call (o : OpS) | calli (o : OpS) | ret (o : OpS)
  | jmpi (o : OpS) | loop (o : OpS) | fork (o : OpS) | spawn (o : OpS) | rspawn (o : OpS)
  | join (o : OpS) | yield (o : OpS) | halt (o : OpS) | haltRetain (o : OpS) | trap (o : OpS)
  | rte (o : OpS)
  -- MEM (R289 to R294)
  | ld (o : OpM) | st (o : OpM) | ldl (o : OpM) | stl (o : OpM) | prf (o : OpM) | wbk (o : OpM)
  | dis (o : OpM) | inv (o : OpM) | plf (o : OpM) | rgsync (h : Hdr)
  -- ATOM (R295 to R299)
  | amo (op : Aop) (o : OpA) | cas (o : OpA) | red (op : Aop) (o : OpA) | fput (o : OpA)
  | fget (o : OpA) | fpeek (pm : Fin 8) (o : OpA)
  -- SYNC (R300 to R305)
  | acq (o : OpS) | rel (o : OpS) | fence (o : OpS) | binit (o : OpS) | bexp (o : OpS)
  | barv (o : OpS) | bwait (o : OpS) | btest (o : OpS) | brarv (o : OpS) | bbindCopy (o : OpS)
  | bbindMxrow (o : OpS) | bbindSink (o : OpS) | bbindCnt (o : OpS)
  -- STRM (R306 to R314)
  | sopen (o : OpS) | sclose (o : OpS) | srclImm (o : OpS) | srclAt (o : OpS) | sfltAuto (o : OpS)
  | sfltNever (o : OpS) | sfltNear (o : OpS) | ssnk (o : OpS) | sstat (o : OpS) | sevt (o : OpS)
  | qput (o : OpS) | qget (o : OpS) | qpeek (o : OpS) | qcnt (o : OpS) | qbind (o : OpS)
  -- VEC (R322 to R326)
  | vadd (o : OpV) | vsub (o : OpV) | vmul (o : OpV) | vfma (o : OpV) | vmin (o : OpV)
  | vmax (o : OpV) | vabs (o : OpV) | vneg (o : OpV) | vand (o : OpV) | vor (o : OpV)
  | vxor (o : OpV) | vshl (o : OpV) | vshr (o : OpV) | vsar (o : OpV) | vcmp (c : Cond) (o : OpV)
  | vsel (o : OpV) | vcvt (src : Esz) (o : OpV) | vqnt (f : BlkFmt) (o : OpV)
  | vdqnt (f : BlkFmt) (o : OpV) | vplane (pm1 : Fin 8) (o : OpV) | vunpl (pm1 : Fin 8) (o : OpV)
  | vexp2 (o : OpV) | vlog2 (o : OpV) | vrcp (o : OpV) | vrsq (o : OpV) | vsin (o : OpV)
  | vcos (o : OpV) | vtanh (o : OpV)
  -- VDATA (R327 to R330)
  | vld (o : OpM) | vst (o : OpM) | vgth (o : OpM) | vsct (o : OpM) | vred (op : RedOp) (o : OpV)
  | vscan (op : RedOp) (o : OpV) | vperm (o : OpV) | vbcast (o : OpV) | vext (o : OpV)
  | vins (o : OpV) | vcprs (o : OpV)
  -- SHAPE (R331 to R337)
  | shdef (o : OpV) | shmap (op : MapOp) (o : OpV) | shred (op : RedOp) (o : OpV)
  | shqnt (f : BlkFmt) (o : OpV) | shcpy (o : OpV) | shstat (o : OpV)
  -- WIN (R338)
  | wclr (o : OpV) | wadd (o : OpV) | wsub (o : OpV) | wrnd (o : OpV) | waddv (o : OpV)
  | wstatWin (o : OpV)
  -- MX (R339 to R357)
  | mxcfg (o : OpX) | mxalloc (o : OpX) | mxfree (o : OpX) | mxzero (o : OpX) | mxmm (o : OpX)
  | mxgmm (o : OpX) | mxprom (o : OpX) | mxcpy (ofmt : Esz) (csv map : Bool) (o : OpX)
  | mxmap (o : OpX) | mxlda (o : OpX) | mxstat (o : OpX) | mxfence (o : OpX)
  -- COPY (R358 to R362)
  | cpstart (o : OpS) | cpstat (o : OpS) | cpcan (o : OpS)
  -- TASK (R364 to R375)
  | launch (o : OpS) | tnext (o : OpS) | split (o : OpS) | wstat (o : OpS) | cancel (o : OpS)
  | cntrd (o : OpS) | ahnd (o : OpS) | grpopGopen (o : OpS) | grpopGclose (o : OpS)
  | grpopPopen (o : OpS) | grpopPclose (o : OpS)
  -- SYS (R376 to R381)
  | csrr (o : OpS) | csrw (o : OpS) | tlbinvRange (o : OpS) | tlbinvSubpage (o : OpS)
  | tlbinvJob (o : OpS) | rdtime (o : OpS) | rdrand (o : OpS) | ebreak (o : OpS) | pmrd (o : OpS)
  | jmark (o : OpS)
  -- steps of the ordering machine (R70 to R106)
  | drain (ctx : Nat) | perform (ctx load piece : Nat) | deliver (k : Nat) | loopBackDeliver (core : Nat)
  | writeBack (clu line : Nat) | drop (clu line : Nat) | recallMerge (line : Nat)
  -- steps of streams (R117 to R125, R419)
  | fetch (ctx slot : Nat) | streamDeliver (ctx slot : Nat) | combine (ctx slot : Nat)
  | streamWrite (ctx slot : Nat) | float (ctx slot : Nat) | hop (ctx slot : Nat)
  | streamRecall (ctx slot cause : Nat) | streamLeaveBank (ctx slot : Nat)
  | ringTileReady (ctx slot : Nat) | ringSlotReturn (ctx slot : Nat)
  -- steps of the engines (R102, R341, R355)
  | mxCommandStart (clu job : Nat) | jobElement (clu job : Nat) | complete (clu job : Nat)
  | deferredFaultRaise (ctx : Nat)
  -- steps of the scheduler (R179 to R200)
  | nodeReady (job node : Nat) | leaseAcquire (job node : Nat) | arenaBirth (job node : Nat)
  | walkerCreate (job node : Nat) | handout (job node wid clu : Nat) | runStart (ctx source : Nat)
  | bankClearComplete (core bank : Nat) | dequeRefill (core : Nat) | cancelledHalt (ctx : Nat)
  | priorityAge (job node : Nat) | retainExpire (core : Nat) | nodeComplete (job node : Nat)
  -- arenas and discards (R136 to R149)
  | arenaDeath (job node : Nat) | discardClusterStep (id clu : Nat) | discardHomeStep (id home : Nat)
  | discardComplete (id : Nat) | arenaSweep (job : Nat)
  -- firmware and environment (R41, R48, R60 to R65)
  | shootdownAck (core : Nat) | pageMove (job page frame : Nat) | formatWindowWrite (win base len scb attr : Nat)
  | jobConfigure (job : Nat) | thermalHotSet (die : Nat) | thermalHotClear (die : Nat)
  -- pre-emption (R392 to R396)
  | preemptStop (job : Nat) | preemptWithdraw (job : Nat) | preemptDrain (job : Nat)
  | preemptSave (job : Nat) | restore (job : Nat)
  -- links and host (R400 to R409)
  | flitReceive (port : Nat) (ok : Bool) | linkBringup (node caps : Nat)
  | inboundRequest (node kind addr len data : Nat) | hostLaunch (job record : Nat)
  | hostCancel (job : Nat) (level : Level) (id : Nat) | hostCntrd (job : Nat) (level : Level) (id : Nat)
  | attest (job nonce : Nat) | tokenRefill (job : Nat)
  -- security, power and recovery (R408 to R415)
  | firmwareLoad (version : Nat) (file : Bool) | debugToken (level tenant : Nat) (file : Bool)
  | debugTokenExpire | provisioningFuse | coldReset | packageOff | securityAlarm (cause : Nat)
  | islandGate (island : Nat) | islandWake (island : Nat) | clockBoost (island : Nat)
  | dieRetention (die : Nat) | correctedError (die : Nat) | uncorrectableError (ctx line : Nat)
  | debugAccess (kind level ctx addr data : Nat) | hbmChannelAcknowledge (home : Nat)
  | dieRetentionExit (die : Nat) | healthTestFailure
  deriving DecidableEq, Repr

end Sys2Proof
end

