-- ==== Sys2Proof/Config.lean ====
section
/-!
DEFINITION. What an implementation fixes and the free values. A free value is a constant without a body:
nothing can be proved of which value it is, so a statement holds whatever the part does (the assumption
log names each one).
-/
namespace Sys2Proof.Config

/-- Free words, one for each value of the state's counter: RDRAND values, and what the counters of Table 20-6
that count clock cycles have counted since they were read (R378, R380). -/
opaque freeWord : Nat → BitVec 64

/-- Free choices, one for each value of the counter: whether a stale translation or a fresh one is used
(R48). -/
opaque freeBit : Nat → Bool

/-- The path the fabric chooses for a packet, from its source and destination stops and what distinguishes it
(R72). -/
opaque path : Nat → Nat → Nat → Nat

/-- The set of an L1 slice a line maps to (R52), and the set of a home slice; the sets of a home slice. -/
opaque l1Set : Nat → Nat
opaque homeSet : Nat → Nat
opaque homeSets : Nat

/-- Nanoseconds by which the time base has moved at one reading (R378). -/
opaque timeStep : Nat → Nat

/-- Arrival of random bits in time: whether the generator supplied 64 bits within 2 µs (R378). -/
opaque rbgInTime : Nat → Bool

/-- The part's FP32 result of a special function, by function number (Table 17-3) and input bits; the
model uses it where it lies within the bound of R326. -/
opaque special : Nat → BitVec 32 → BitVec 32

/-- The FP32 NaN rule leaves nothing open; MXMM after a fault leaves each position at a value before some
k-block (R355): the number of the first block not applied, by position. -/
opaque faultPrefix : Nat → Nat → Nat

/-- SHAKE256 to 64 bytes, as a number (R408): the spec names the function and does not define it. -/
opaque shake256 : List (BitVec 8) → BitVec 512

/-- The bytes of a firmware image, by version and by which of two files of that version it is, and the digest and the signature
it carries (R408, R409). -/
opaque firmwareImage : Nat → Bool → List (BitVec 8)
opaque imageDigest : Nat → Bool → BitVec 512
opaque imageSignature : Nat → Bool → BitVec 912

/-- The Ed448 test of a signature over a digest by a public key (R408), and the fused firmware key and debug key. -/
opaque verify : BitVec 456 → BitVec 512 → BitVec 912 → Bool
opaque firmwareKey : BitVec 456
opaque debugKey : BitVec 456

/-- Of a debug token, by its level, its tenant and which of two files it is: the bytes signed, the identity public key it names,
and its signature (R410). -/
opaque tokenBytes : Nat → Nat → Bool → List (BitVec 8)
opaque tokenIdentity : Nat → Nat → Bool → BitVec 456
opaque tokenSignature : Nat → Nat → Bool → BitVec 912

/-- The bytes of a job's configured context fields as FWDIG's neighbour JOBDIG covers them, from the fields'
values (R409): the spec does not say how they are laid out. -/
opaque jobImage : List Nat → List (BitVec 8)

/-- The public identity key derived from the fused identity seed (R409). -/
opaque identityPublic : Nat → BitVec 456

/-- The Ed448 signature of a digest under the identity key of a seed (R408, R409). -/
opaque sign : Nat → BitVec 512 → BitVec 912

end Sys2Proof.Config
end

