-- ==== Sys2Proof/Machine/Map.lean ====
section
/-!
DEFINITION. Sparse tables as plain data: a list of (key, value) pairs with strictly rising keys, and what
an unlisted key reads as. Registers, memory and every other indexed part of the state are such tables.
-/
namespace Sys2Proof.Machine

/-- A sparse table from numbers to values. -/
abbrev SMap (α : Type) := List (Nat × α)

/-- The value at a key; an unlisted key reads as d. -/
def SMap.get {α : Type} (d : α) : SMap α → Nat → α
  | [], _ => d
  | (k, v) :: r, j => if j = k then v else SMap.get d r j

/-- The value at a key, when the key is listed. -/
def SMap.get? {α : Type} : SMap α → Nat → Option α
  | [], _ => none
  | (k, v) :: r, j => if j = k then some v else SMap.get? r j

/-- The table without a key. -/
def SMap.erase {α : Type} : SMap α → Nat → SMap α
  | [], _ => []
  | (k, v) :: r, j => if j = k then SMap.erase r j else (k, v) :: SMap.erase r j

/-- A pair put in front of the first larger key. -/
def SMap.insert {α : Type} : SMap α → Nat → α → SMap α
  | [], j, w => [(j, w)]
  | (k, v) :: r, j, w => if j < k then (j, w) :: (k, v) :: r else (k, v) :: SMap.insert r j w

/-- The table with a key listed at a value. -/
def SMap.set {α : Type} (m : SMap α) (k : Nat) (v : α) : SMap α := (m.erase k).insert k v

/-- The table with a key at a value, where the value an unlisted key reads as is not listed. -/
def SMap.setD {α : Type} [DecidableEq α] (d : α) (m : SMap α) (k : Nat) (v : α) : SMap α :=
  if v = d then m.erase k else (m.erase k).insert k v

/-- Strictly rising keys. -/
def SMap.sorted {α : Type} : SMap α → Bool
  | [] => true
  | [_] => true
  | (k, _) :: (j, w) :: r => decide (k < j) && SMap.sorted ((j, w) :: r)

/-- The canonical form: strictly rising keys and no entry equal to what an unlisted key reads as. -/
def SMap.wf {α : Type} [DecidableEq α] (d : α) (m : SMap α) : Bool :=
  m.sorted && m.all fun p => decide (p.2 ≠ d)

end Sys2Proof.Machine
end

