-- ==== Sys2Proof/Machine/State.lean ====
section
/-!
DEFINITION. The state of the package as plain data: the contexts, cores and clusters, the homes and the
network of the ordering machine (Table 04-1), the streams and engines, the scheduler's levels of work, the
job contexts, and the links, power, security and replay state. Reset values stand with each field; a
register or table the spec gives no reset value reads as zero (assumption log 2).
-/
namespace Sys2Proof.Machine

/-! ## Places and packets -/

/-- Where the bytes of an access stand once its address has been decoded (Table 01-1, Table 01-5). Cores are
numbered (die × 48 + cluster) × 8 + core. -/
inductive Loc
  /-- a bank of the issuing run, by the private view of its banks (R15) -/
  | own (core bank off : Nat)
  /-- a bank of any core, by the local window (R12) -/
  | window (core bank off : Nat)
  /-- a job's carve-out on a stack die (R17) -/
  | scratch (job die off : Nat)
  /-- class 000, the stored view (R22) -/
  | hbm (pa : Nat)
  /-- class 000, the planed view of a stored address (R27) -/
  | planed (pa : Nat)
  /-- class 010, an address in the window of a host node (R23) -/
  | host (node addr : Nat)
  /-- class 011, a class-000 address of a peer node (R24) -/
  | peer (node addr : Nat)
  deriving DecidableEq, Repr

/-- The state a region entry gives a range; a range no entry covers is SHRW without an object (R45). -/
inductive Region | ro | priv | shrw
  deriving DecidableEq, Repr

/-- Packet classes (R72). -/
inductive Cls | req | wb | rsp
  deriving DecidableEq, Repr

/-- On whose behalf a packet travels, and where its reply goes. -/
inductive Who
  /-- a remote store, RED or arrival counted in the context's UNACK (R75, R93, R174) -/
  | store (ctx : Nat)
  /-- a piece of an open load (R77) -/
  | load (ctx id piece : Nat)
  /-- the blocked instruction of a context -/
  | instr (ctx : Nat)
  /-- a channel entry of a queue of a context (R314) -/
  | chan (ctx q : Nat)
  /-- a write of a stream (R117) -/
  | stream (ctx slot : Nat)
  /-- a write of an engine job (R102) -/
  | job (clu id : Nat)
  /-- a write-back of a cluster, by its number in the cluster (R80) -/
  | clu (clu id : Nat)
  /-- a line PRF fetches for a context into its cluster's view, by the key of its place (R292) -/
  | prf (ctx key evp : Nat)
  /-- a word the command agent reads for a link node's command (R87, R404) -/
  | host (node : Nat)
  /-- nobody waits: completion notifications (R152) -/
  | nobody
  deriving DecidableEq, Repr

/-- The operation of an ATOMIC step (R90, R92, R98, R167). -/
inductive AtomOp
  | op (o : Aop) | red (o : Aop) | cas | fput | fget | fpeek | join
  deriving DecidableEq, Repr

/-- A continuation record with what the scheduler keeps beside it (Table 08-4, R164, R169). -/
structure Task where
  code : Word
  fp   : Word
  jrec : Word
  arg  : Word
  /-- graph and node the task counts to -/
  graph : Nat
  node  : Nat
  /-- sender's packed coordinate, of a mailbox entry (R159) -/
  sender : Nat := 0
  /-- core that spilled it, and where its record stands in the spill ring (R166) -/
  core : Nat := 0
  slot : Option Nat := none
  deriving DecidableEq, Repr

/-- One tagged partial of an update-only line: byte offset, operation and type (R94). -/
structure RbWord where
  off : Nat
  op  : Aop
  esz : Esz
  val : Word
  deriving DecidableEq, Repr

/-- The event class of an arrival (R174, R175). -/
inductive ArrKind | plain | notice | copy | mxrow
  deriving DecidableEq, Repr

/-- What a packet carries. Its destination is the place its payload names. -/
inductive Payload
  | write (loc : Loc) (bytes : List Byte)
  | read (loc : Loc) (len : Nat) (fill : Bool)
  /-- slice names the cluster whose L1 slice is the place of a PRIV word (R89) -/
  | atomic (loc : Loc) (op : AtomOp) (esz : Esz) (b c : Word) (slice : Option Nat)
  /-- an update-only line joins the holder set of its home, under the number of its life (R94) -/
  | reg (line clu life : Nat)
  | acquire (pa va : Nat)
  | release (pa va : Nat)
  | arrive (core bar : Nat) (kind : ArrKind)
  /-- a row of MXCPY with its arrival (R353) -/
  | row (parts : List (Loc × List Byte)) (core bar : Nat)
  /-- a channel entry to a rank of a gang node (R314) -/
  | channel (job graph node rank q : Nat) (entry : Vec)
  | mail (core : Nat) (task : Task)
  | plf (line : Nat)
  | writeBack (line : Nat) (mask : BitVec 128) (data : BitVec 1024) (marks : Option (BitVec 16))
  | redBack (line clu life : Nat) (words : List RbWord) (recalled : Bool)
  | recallReq (line clu life : Nat)
  /-- a floated context on its way between banks (R72, R118): slot, number of the move, the banks, and Table 06-4 -/
  | hop (ctx slot no frm dst : Nat) (image : BitVec 384)
  /-- an alias notice on its way to a bank (R72, R127) -/
  | chase (ctx slot bank : Nat)
  /-- SRCL.at of an element, on its way to the opening with a number (R317) -/
  | srcl (ctx slot no elt bank : Nat)
  | ack (nd : Bool)
  /-- the acknowledgement of an arrival that met a free barrier, or one without the binding (R174, R175), with the not-delivered mark of a row's bytes (R353) -/
  | dropped (nd : Bool)
  | value (bytes : List Byte) (nd : Bool)
  | grant (nd : Bool)
  | error
  deriving DecidableEq, Repr

/-- A packet of NET, or an entry of a loop-back port (R28, R71, R72). -/
structure Packet where
  cls : Cls
  who : Who
  pl  : Payload
  evp : Nat := 3
  /-- number of a context's store, for the notices of R127 -/
  tag : Nat := 0
  /-- core and epoch whose count of translated stores holds the packet (R49) -/
  epo : Option (Nat × Bool) := none
  /-- the address the access formed and its instruction's own, for the record of an unreachable node (R391, R400) -/
  va  : Nat := 0
  pc  : Word := 0
  /-- source and destination stop, and the ridges and passes it rides (R71, R72); none in a loop-back port -/
  src   : Nat := 0
  dst   : Nat := 0
  ridge : Nat := 0
  deriving DecidableEq, Repr

/-! ## Contexts -/

/-- A store waiting in SB, or a RED on its way to the RB (R71, R94). -/
structure SbEntry where
  /-- the address as the access formed it (R77) -/
  va    : Nat
  loc   : Loc
  bytes : List Byte
  ord   : MemOrd
  scope : Scope
  evp   : Nat
  shrw  : Bool
  red   : Option (Aop × Esz × Word) := none
  epo   : Nat × Bool := (0, false)
  /-- number of the store, for the notices of R127 -/
  tag   : Nat := 0
  /-- address of its instruction (R391) -/
  pc    : Word := 0
  deriving DecidableEq, Repr

/-- How far a piece of an open load has come: bytes near it have been taken before a later store was performed, and the
others not asked for yet; its own bytes, or its whole line, have been asked for (R77); a line a stream has written since
then no longer fills the view (R129). -/
inductive PieceSt | waiting | begun | sent | sentLine | sentOld | fixed
  deriving DecidableEq, Repr

/-- One single-copy-atomic piece of an open load. -/
structure Piece where
  va    : Nat
  loc   : Loc
  size  : Nat
  st    : PieceSt := .waiting
  /-- bytes fixed so far -/
  bytes : List (Option Byte) := []
  /-- bytes, by number, that a later store of the context has written in a view or bank since (R77) -/
  past  : List Nat := []
  deriving DecidableEq, Repr

/-- Where the value of an open load goes. -/
inductive LdDst
  | x (n : Nat) (t : Esz)
  | v (n : Nat)
  /-- lanes of v n, one per piece; pieces carry their lane numbers here -/
  | lanes (n sz : Nat) (ls : List Nat)
  /-- the x63 slot of the handler bank: the load was made to x63 before the handler was entered (R386) -/
  | bank63 (t : Esz)
  /-- the instruction the context is blocked in takes the bytes (R79, R229) -/
  | rep
  /-- the same, as 64 bytes with the pieces in their lanes (R328) -/
  | repLanes (sz : Nat) (ls : List Nat)
  deriving DecidableEq, Repr

/-- An open load: issued and not yet performed in every piece (R71). -/
structure OpenLoad where
  id     : Nat
  dst    : LdDst
  evp    : Nat
  /-- ACQ or SC of scope DIE or wider: only dirty bytes are taken from the view (R77) -/
  wide   : Bool := false
  /-- address of its instruction (R391) -/
  pc     : Word := 0
  /-- it has been counted among the loads that missed L1, and those that missed their home slice (R380) -/
  missL1   : Bool := false
  missHome : Bool := false
  pieces : List Piece
  deriving DecidableEq, Repr

/-- Progress of the instruction a context is blocked in; withdrawn instructions start again (R365). -/
structure Stage where
  ph   : Nat := 0
  /-- write-backs awaited (R79); of SPLIT, the walker it has chosen (R197) -/
  ids  : List Nat := []
  /-- bytes of control blocks captured so far (R87) -/
  cap  : List Byte := []
  /-- requests sent and not answered -/
  out  : Nat := 0
  rep  : Option (List Byte) := none
  nd   : Bool := false
  a    : Nat := 0
  /-- of BWAIT, 2 plus the phase it waits in (R176, Table 21-7) -/
  b    : Nat := 0
  /-- barrier the instruction waits on or arrives at; nd says it has become free meanwhile (R174, R303) -/
  bar  : Option Nat := none
  /-- lines a line operation has visited (R292) -/
  keys : List Nat := []
  /-- destination handle of a shape instruction under way (R335) -/
  shp  : Option Nat := none
  deriving DecidableEq, Repr

/-- One fetched element of a stream: index, address, raw bytes (R117). -/
structure FbElt where
  idx : Nat
  va  : Nat
  raw : List Byte
  deriving DecidableEq, Repr

/-- An entry of a queue register; entries of LOAD and INDIRECT streams keep their raw elements, which
patches rewrite (R127). -/
structure QEnt where
  data : Vec
  elts : List FbElt := []
  slot : Nat := 0
  deriving DecidableEq, Repr

/-- Binding of a queue register (R155, Table 14-6). -/
inductive QBind
  | free
  | load (slot : Nat)
  | store (slot : Nat)
  | ringReady (slot : Nat) (loader : Bool)
  | ringFree (slot : Nat) (loader : Bool)
  | chan (rank pq : Nat)
  | reduce (slot : Nat)
  deriving DecidableEq, Repr

/-- A queue register of 8 entries (R154, R155). -/
structure Queue where
  ents : List QEnt := []
  bind : QBind := .free
  /-- the binding is that of a closed stream, kept for its unread entries (R122) -/
  closed : Bool := false
  /-- channel entries sent from here and not acknowledged (R313) -/
  sent : Nat := 0
  /-- entries travelling to this queue (R314) -/
  coming : Nat := 0
  deriving DecidableEq, Repr

/-- What a fault record says beside the run, the level and the PC (Tables 21-3 to 21-5). -/
structure FaultInfo where
  code : Nat
  det  : Nat := 0
  idx  : Nat := 0
  elem : Bool := false
  addr : Nat := 0
  org  : Nat := 0
  deriving DecidableEq, Repr

/-- A store of the opening context that an open stream must reflect (R127). -/
structure Notice where
  id     : Nat
  va     : Nat
  bytes  : List Byte
  remote : Bool
  deriving DecidableEq, Repr

/-- A tile a ring stream works on (R124, R125). -/
structure RingTile where
  slot : Nat
  tile : Nat
  /-- elements (and, in PLANE mode, scales) written so far -/
  at_  : Nat
  /-- UNS bit of the window that decoded it -/
  uns  : Bool := false
  deriving DecidableEq, Repr

/-- A translation held by a TLB (R36): its job, the core of a sub-page entry, page size as a power of two,
virtual page (with the slot and generation of an arena page), and frame address. -/
structure Tlb where
  job   : Nat
  core  : Option Nat
  shift : Nat
  page  : Nat
  frame : Nat
  deriving DecidableEq, Repr

/-- A stream slot (R107, R117, R130, Table 06-6). -/
structure Stream where
  /-- 0 closed, 1 open, 2 ended, 3 faulted -/
  st    : Nat := 0
  desc  : BitVec 512 := 0
  /-- next element to fetch or to write -/
  pos   : Nat := 0
  /-- oldest element not delivered, combined or written -/
  done  : Nat := 0
  fb    : List FbElt := []
  /-- what a STORE stream has not written yet of the entry it took (R113) -/
  ent   : List FbElt := []
  acc   : Word := 0
  sink  : Option Word := none
  extra : Bool := false
  bad   : Bool := false
  pin   : Bool := false
  /-- bank code of its place; 0 is the core (R120) -/
  place : Nat := 0
  /-- number of the move to its place, while the context is on its way there -/
  hop   : Option Nat := none
  /-- the translation it carries while it floats (R37) -/
  tr    : Option Tlb := none
  /-- number of the opening, and the addresses its pattern lies between: the filter (R71, R317) -/
  no    : Nat := 0
  filt  : Nat × Nat := (0, 2 ^ 64)
  /-- float policy now in force (R308) -/
  flt   : Nat := 0
  /-- element of a pending SRCL.at (R317) -/
  stop  : Option Nat := none
  notes : List Notice := []
  fault : Option FaultInfo := none
  /-- writes sent and not acknowledged -/
  out   : Nat := 0
  ring  : Option RingTile := none
  /-- slot fed by this stream, of an index stream (R114) -/
  feeds : Option Nat := none
  /-- SCLOSE or the end of the run has begun: nothing more is taken from the queue (R122) -/
  closing : Bool := false
  deriving DecidableEq, Repr

/-- A shape handle (R333, Table 17-5). -/
structure Shape where
  /-- 0 UNDEFINED, 1 DEFINED, 2 PARTIAL, 3 FAULTED -/
  st   : Nat := 0
  snap : BitVec 512 := 0
  prog : Nat := 0
  pc   : Word := 0
  deriving DecidableEq, Repr

/-- A matrix configuration and row-to-core map; PROMN minus one is 63 and every map entry 0xFFFF at reset
(Table 18-4, R352). -/
structure MxBank where
  cfg : Word := 0xFC0000
  /-- entries that differ from 0xFFFF -/
  map : SMap (BitVec 16) := []
  deriving DecidableEq, Repr

/-- A copy-job slot (R359, Table 18-10). -/
structure CpSlot where
  seq   : Nat := 0
  /-- 0 none, 1 QUEUED, 2 RUNNING, 3 DONE, 4 CANCELLED, 5 FAULTED -/
  st    : Nat := 0
  rdone : Nat := 0
  id    : Nat := 0
  deriving DecidableEq, Repr

/-- Kinds of run (R157); a context that no run owns is free (R154). -/
inductive RunKind | free | tile | gang | task | handler
  deriving DecidableEq, Repr

/-- Privilege levels (R382). Customer code never runs at FIRM; a context at FIRM is a management context, whose
run names the job it acts for (R48). -/
inductive Lvl | run | handler | firm
  deriving DecidableEq, Repr

/-- The indices of a hand-out a run holds (R193, R367). -/
structure Hand where
  next : Nat
  hi   : Nat
  wid  : Nat
  deriving DecidableEq, Repr

/-- The run that owns a context (R157, R159). -/
structure Run where
  kind  : RunKind := .free
  job   : Nat := 0
  graph : Nat := 0
  node  : Nat := 0
  /-- tile held, with the WID of its hand-out -/
  tile  : Option (Nat × Nat) := none
  hand  : Option Hand := none
  rank  : Nat := 0
  /-- physical banks in bank-map order (R15) -/
  banks : List Nat := []
  deriving DecidableEq, Repr

/-- A fault of an engine job waiting for the next instruction boundary (R355). -/
structure Deferred where
  info : FaultInfo
  pc   : Word
  lvl  : Lvl
  deriving DecidableEq, Repr

/-- The engine and handler side of a context. -/
structure CtxSys where
  lvl     : Lvl := .run
  cstat   : Word := 0
  fstat   : Word := 0
  epc     : Word := 0
  estat   : Word := 0
  x63     : Word := 0
  inlDepth : Nat := 0
  inlStack : List Word := []
  mxRun   : MxBank := {}
  mxHnd   : MxBank := {}
  cps     : SMap CpSlot := []
  cpSeq   : Nat := 0
  /-- queued matrix commands issued since run start (Table 21-5) -/
  mxOrd   : Nat := 0
  /-- next lane of an interrupted WADDV with its PC (R338) -/
  wlane   : Nat := 0
  wpc     : Word := 0
  /-- counters of Table 20-6, and whether the context has been blocked on a queue, or on anything else, since the
  counters of such cycles were read -/
  pm      : SMap Word := []
  blkQ    : Bool := false
  blkM    : Bool := false
  deferred : Option Deferred := none
  /-- the run is ending: 0 no, 1 by cancellation, 2 by a terminal fault, 3 by a re-execution, 4 by HALT
  (R153, R161, R388, R415) -/
  ending  : Nat := 0
  /-- successor node a HALT retains the banks for (R162) -/
  retain  : Option (Nat × Nat) := none
  /-- halted by a debugger (R379, R410) -/
  dbgHalt : Bool := false
  /-- a debugger is attached -/
  dbgOn   : Bool := false
  deriving DecidableEq, Repr

/-- A hardware context (Table 08-2, Table 04-1). x0 and p7 are never stored (R230). -/
structure Ctx where
  run     : Run := {}
  pc      : Word := 0
  x       : SMap Word := []
  v       : SMap Vec := []
  p       : SMap Word := []
  qs      : SMap Queue := []
  streams : SMap Stream := []
  shapes  : SMap Shape := []
  evq     : List (BitVec 128) := []
  evOvf   : Bool := false
  sb      : List SbEntry := []
  unack   : Nat := 0
  loads   : List OpenLoad := []
  nextId  : Nat := 0
  stage   : Stage := {}
  /-- bytes fetched of the instruction at the PC: it executes the words fetched (R224) -/
  fetched : List Byte := []
  /-- the instruction at the PC has issued and is counted (R380) -/
  begun   : Bool := false
  sys     : CtxSys := {}
  deriving DecidableEq, Repr

/-! ## Cores and clusters -/

/-- Event source of a barrier binding (R175). -/
inductive Bind
  | copy
  | mxrow
  | sink (slot : Nat)
  | cnt (l : Level) (id : Word)
  deriving DecidableEq, Repr

/-- A named barrier (Table 08-6). -/
structure Bar where
  own   : Bool := false
  exp   : Nat := 0
  cnt   : Nat := 0
  ph    : Bool := false
  ctx   : Nat := 0
  binds : List Bind := []
  deriving DecidableEq, Repr

/-- Banks kept for a successor node's first run (R162). -/
structure Kept where
  graph : Nat
  node  : Nat
  banks : List Nat
  deriving DecidableEq, Repr

/-- What an invalidation removes (R377). -/
inductive InvForm
  | range (lo hi : Nat)
  | subpage (core : Nat)
  | all
  | arena (slot gen : Nat)
  deriving DecidableEq, Repr

/-- A core (R32, R166, R169, R171, R339). -/
structure CoreSt where
  sprb : Word := 0
  sprl : Word := 0
  sptb : Word := 0
  /-- MXWGT.WGT, 4 at reset (Table 18-1) -/
  mxwgt : Nat := 4
  /-- MBOXLIM, default 8 (R169) -/
  mbox  : Nat := 8
  /-- oldest first -/
  deque : List Task := []
  mail  : List Task := []
  bars  : SMap Bar := []
  /-- banks under their clear path (R51) -/
  clearing : List Nat := []
  kept  : List Kept := []
  lp    : List Packet := []
  mxq   : List Nat := []
  epoch : Bool := false
  cnt0  : Nat := 0
  cnt1  : Nat := 0
  /-- invalidations received and not acknowledged, by number; the first has flipped the epoch (R49) -/
  inv   : List Nat := []
  /-- data TLB of 32 entries and instruction TLB of 16, oldest first (R36) -/
  tlb   : List Tlb := []
  itlb  : List Tlb := []
  deriving DecidableEq, Repr

/-- A line of a cluster view (R53, R56, R97). -/
structure CvLine where
  data  : BitVec 1024
  valid : BitVec 128
  dirty : BitVec 128
  marks : BitVec 16 := 0
  /-- the marks are those of the home, or later ones: a future has fetched them (R97) -/
  mknown : Bool := false
  /-- the marks differ from the home's -/
  mdirty : Bool := false
  prio  : Nat := 3
  retained : Bool := false
  /-- place among the retained lines of the cluster, the most recent highest (R57) -/
  ret   : Nat := 0
  /-- the virtual line addresses it was reached by, for the region rules (R45, R79, R84) -/
  vas   : List Nat := []
  /-- the cluster's count of uses at its latest use (R56) -/
  used  : Nat := 0
  deriving DecidableEq, Repr

/-- An update-only line (R94). -/
structure RbLine where
  line  : Nat
  words : List RbWord
  /-- number of its life, from its allocation to its return: it tells a return of this line from that of an earlier one -/
  life  : Nat := 0
  /-- the virtual line addresses it was reached by (R46) -/
  vas   : List Nat := []
  deriving DecidableEq, Repr

/-- An accumulator tile: 64 × 64 FP32 words by i × 64 + j, owner and status (R64, R343, Table 18-3). A tile
that no table lists is free and holds +0. -/
structure Tile where
  own  : Option (Nat × Lvl) := none
  /-- MXFREE has issued: the owner has no ownership left, and the tile is not free yet (R343) -/
  freeing : Bool := false
  data : SMap (BitVec 32) := []
  ovf  : Bool := false
  uf   : Bool := false
  deriving DecidableEq, Repr

/-- What an engine job does, with its captured operands (R348 to R351, R358). -/
inductive EKind
  | copy (card : BitVec 512) (slot : Nat)
  | mxzero (t : Nat)
  | mxfree (t : Nat)
  | mxprom (t : Nat)
  | mxmm (t : Nat) (a b : BitVec 256)
  | mxgmm (lists : BitVec 2048) (a b : BitVec 256)
  | mxlda (t src st : Nat)
  | mxcpy (t dst : Nat) (word : Word) (fmt : Esz) (csv toMap : Bool)
  deriving DecidableEq, Repr

/-- A job of a cluster's engine queue (R100 to R102). -/
structure EJob where
  id    : Nat
  ctx   : Nat
  lvl   : Lvl
  pc    : Word
  kind  : EKind
  bank  : MxBank := {}
  /-- unfinished jobs with an edge to this one -/
  edges : List Nat := []
  started : Bool := false
  /-- element reached -/
  pos   : Nat := 0
  /-- operand bytes read so far -/
  buf   : List Byte := []
  /-- bytes of the element under way that are read and not yet used (R407) -/
  part  : List Byte := []
  ended : Bool := false
  /-- rows of the remote writes not acknowledged -/
  outs  : List Nat := []
  fault : Option FaultInfo := none
  cancelled : Bool := false
  /-- ordinal among the context's queued commands (Table 21-5) -/
  ord   : Nat := 0
  deriving DecidableEq, Repr

/-- A walker, a spur, or (in the save table) a remainder (Table 09-3). -/
structure Walker where
  graph : Nat
  node  : Nat
  lo    : Nat
  next  : Nat
  hi    : Nat
  out   : Nat
  wid   : Nat
  spur  : Bool := false
  deriving DecidableEq, Repr

/-- A hand-out in a run queue that has not started, or a restored remainder (R179, R193, R199, R367). -/
structure Handout where
  graph : Nat
  node  : Nat
  next  : Nat
  hi    : Nat
  wid   : Nat
  /-- a restored remainder: issued tiles of it not completed -/
  rem   : Option Nat := none
  /-- the package's count when it entered the run queue, and the AGEINTs it has waited there (R182) -/
  since : Nat := 0
  aged  : Nat := 0
  deriving DecidableEq, Repr

/-- A cluster (Table 04-1, R55, R64, R94, R101, R192). -/
structure Clu where
  /-- job whose tenancy partition holds the cluster (R186) -/
  owner : Option Nat := none
  lines : SMap CvLine := []
  /-- dirty SHRW lines, oldest first -/
  dl    : List Nat := []
  rb    : List RbLine := []
  /-- write-backs sent and not acknowledged: number and line -/
  wbOut : List (Nat × Nat) := []
  wbSeq : Nat := 0
  jobs  : List EJob := []
  jobSeq : Nat := 0
  tiles : SMap Tile := []
  /-- walker unit of 16 entries -/
  walkers : List Walker := []
  runq  : List Handout := []
  /-- the second-level TLB of 2,048 entries, oldest first (R36) -/
  tlb2  : List Tlb := []
  /-- uses of lines so far, for the least recently used one (R56) -/
  uses  : Nat := 0
  deriving DecidableEq, Repr

/-! ## Homes -/

/-- A line's record at its home (R94, R95, R56). -/
structure HomeLine where
  /-- clusters in the holder set, each with the life of its line -/
  holders : List (Nat × Nat) := []
  /-- a RECALL in progress: clusters that have not returned their line -/
  recalls : Option (List (Nat × Nat)) := none
  /-- lines that have come home before their REG -/
  early   : List (Nat × Nat) := []
  /-- lines returned, by cluster -/
  back    : SMap (List RbWord) := []
  /-- accesses waiting for the RECALL, and REGs that arrived during it, oldest first -/
  waiting : List Packet := []
  /-- priority of the copy the slice holds; 0 while it holds none (R56, Table 03-2) -/
  prio    : Nat := 0
  /-- the slices' count of uses at its latest use (R56) -/
  used    : Nat := 0
  deriving DecidableEq, Repr

/-- The record of a sync object (R83). -/
structure SyncRec where
  va     : Nat := 0
  holder : Option Nat := none
  fifo   : List Nat := []
  deriving DecidableEq, Repr

/-- The home images beside their bytes. -/
structure Homes where
  /-- planed images by stored line address (R67) -/
  planed : SMap (BitVec 1024) := []
  /-- stored lines by address, and planed images by the address of their planed view -/
  lines  : SMap HomeLine := []
  syncs  : SMap SyncRec := []
  /-- contexts waiting in FGET, by word, oldest first (R98) -/
  fwait  : SMap (List Nat) := []
  /-- what the HBM channel holds for bytes its home slice holds dirty (R71, R145) -/
  chan   : SMap Byte := []
  /-- lines written to a channel and not acknowledged (R144) -/
  pend   : List Nat := []
  /-- uses of lines so far -/
  uses   : Nat := 0
  deriving DecidableEq, Repr

/-- A discard in progress (R144): ranges of class-000 lines. -/
structure Discard where
  job    : Nat
  ranges : List (Nat × Nat)
  /-- clusters that have not dropped their lines -/
  clus   : List Nat
  /-- clusters that have dropped them, with the write-backs they await -/
  waits  : SMap (List Nat) := []
  /-- homes that have not acknowledged; filled once every cluster has -/
  homes  : List Nat := []
  homed  : Bool := false
  done   : Bool := false
  deriving DecidableEq, Repr

/-! ## Jobs -/

/-- An inbound aperture (Table 24-1). -/
structure Aperture where
  pabase : Nat
  inbase : Nat
  len    : Nat
  node   : Nat
  en     : Bool
  /-- 1 R, 2 W, 3 RW -/
  acc    : Nat
  deriving DecidableEq, Repr

/-- The job-context fields firmware writes (Table 20-4, R24, R386, R389, R402, R407, R417). -/
structure JobCfg where
  hptb : Word := 0
  rgtb : Word := 0
  armb : Word := 0
  stk  : Word := 0
  retq : Nat := 1024
  arpool : Nat := 0
  retainns : Nat := 20000
  inlmax : Nat := 4
  ageint : Nat := 100000
  rsvb : Nat := 4
  resq : Nat := 0
  pmask : BitVec 192 := 0
  hentry : Word := 0
  fqb  : Word := 0
  fqn  : Nat := 16
  jrnb : Word := 0
  jrnl : Word := 0
  rlim : Word := 0
  host : Nat := 0
  /-- peer number to link node and class-000 base -/
  peers : SMap (Nat × Nat) := []
  aps  : List Aperture := []
  mbox : Nat := 8
  /-- SPRB, SPRL and SPTB of each core -/
  subs : SMap (Word × Word × Word) := []
  /-- first VA and length of the code image -/
  code : Nat × Nat := (0, 0)
  /-- heap ranges firmware has backed -/
  backed : List (Nat × Nat) := []
  /-- frames of the arena pool -/
  pool : List Nat := []
  /-- 0 none, 1 record, 2 replay (R417, R418) -/
  mode : Nat := 0
  /-- class-000 ranges of the fault queue, save areas and journal (R402) -/
  kept : List (Nat × Nat) := []
  /-- class-000 address of the walker save tables and the context save areas behind them; none is mapped otherwise -/
  save : Option Nat := none
  /-- graphs system software opens at configuration, each with its phase -/
  opened : List (Nat × Nat) := []
  deriving DecidableEq, Repr

/-- How far a node has come (R136, R179, R180). -/
inductive NodeSt | waiting | ready | leased | born | live | dying | done
  deriving DecidableEq, Repr

/-- A node (R150, R151, R187). -/
structure Node where
  graph   : Nat
  id      : Nat
  rcd     : BitVec 1024
  fpt     : List (BitVec 128) := []
  st      : NodeSt := .waiting
  counter : Nat := 0
  cancelled : Bool := false
  /-- nodes of its graph with an edge to it that have not completed -/
  preds   : List Nat := []
  /-- arena slots, by arena index -/
  arenas  : SMap Nat := []
  /-- pages and sub-pages pinned by its lease -/
  pins    : List Nat := []
  /-- the package's count when it became ready, for the order of R137 -/
  since   : Nat := 0
  /-- the mark of R415: a disqualifying step has been taken -/
  marked  : Bool := false
  attempt : Nat := 0
  /-- re-execution asked for, waiting for its runs to halt -/
  redo    : Bool := false
  /-- number of the discard of its arenas' death -/
  disc    : Option Nat := none
  deriving DecidableEq, Repr

/-- A graph (R150, R166, R374). -/
structure Graph where
  id      : Nat
  phase   : Nat
  parent  : Option (Nat × Nat) := none
  counter : Nat := 0
  cancelled : Bool := false
  closed  : Bool := false
  done    : Bool := false
  nextId  : Nat := 1
  spillq  : Nat := 0
  ring    : Nat := 0
  /-- spilled records, oldest first: their fields stand in the ring -/
  spill   : List Task := []
  /-- the ring is pinned -/
  held    : Bool := false
  deriving DecidableEq, Repr

/-- A phase (R150, R375). -/
structure Phase where
  id      : Nat
  counter : Nat := 0
  cancelled : Bool := false
  closed  : Bool := false
  done    : Bool := false
  deriving DecidableEq, Repr

/-- Arena slot states (Table 07-1). -/
inductive SlotSt | free | live | dying | quarantined
  deriving DecidableEq, Repr

/-- An arena slot (R134). -/
structure Slot where
  st     : SlotSt := .free
  gen    : Nat := 0
  size   : Nat := 0
  graph  : Nat := 0
  node   : Nat := 0
  frames : List Nat := []
  deriving DecidableEq, Repr

/-- An entry of the installed region image (Table 02-7). -/
structure RegEnt where
  base : Nat
  len  : Nat
  st   : Region
  sync : Nat
  cset : BitVec 192
  deriving DecidableEq, Repr

/-- Phases of pre-emption (Table 21-6). -/
inductive Pre | none | stopped | withdrawn | drained | saved
  deriving DecidableEq, Repr

/-- A saved context with its banks, marks, barriers, tiles, batch and copy jobs (Table 21-7). -/
structure Saved where
  /-- its number among all contexts ever saved, and the place it was saved from -/
  no    : Nat
  coord : Nat
  ctx   : Ctx
  banks : List (List Host.Cell) := []
  marks : List (List Nat) := []
  bars  : SMap Bar := []
  tiles : SMap Tile := []
  jobs  : List EJob := []
  deriving DecidableEq, Repr

/-- A shootdown in progress (R48, R49). -/
structure Shoot where
  id    : Nat
  job   : Nat
  form  : InvForm
  /-- cores that have not acknowledged -/
  cores : List Nat
  deriving DecidableEq, Repr

/-- A page move under way: its old frame, its new one, and its shootdown (R41). -/
structure Move where
  old   : Nat
  frame : Nat
  shoot : Nat
  deriving DecidableEq, Repr

/-- A journalled event: kind, context or place, value, and what more an input needs to come again (Table 24-8). -/
structure JEv where
  kind : Nat
  who  : Nat
  val  : Nat
  more : List Nat := []
  deriving DecidableEq, Repr

/-- A job (R150). -/
structure Job where
  cfg     : JobCfg := {}
  nodes   : List Node := []
  graphs  : List Graph := []
  phases  : List Phase := []
  counter : Nat := 0
  cancelled : Bool := false
  nextGraph : Nat := 1
  nextPhase : Nat := 1
  slots   : SMap Slot := []
  free    : List Nat := []
  /-- pin counts by page (R39) -/
  pins    : SMap Nat := []
  regions : List RegEnt := []
  pre     : Pre := .none
  saved   : List Saved := []
  savedTasks : List Task := []
  savedWalkers : List Walker := []
  savedHands : List Handout := []
  /-- request tokens, and packets that found none and wait at injection, oldest first (R407) -/
  tokens  : Nat := 0
  stalled : List Packet := []
  /-- firmware has taken a configuration of it (R401) -/
  configured : Bool := false
  /-- events recorded, or still to be followed in replay; bytes of the region that hold events, and those that found no room
  there (R417) -/
  journal : List JEv := []
  jrnAt   : Nat := 0
  jrnLate : List JEv := []
  /-- contexts queued for RGSYNC (R294) -/
  rgq     : List Nat := []
  /-- pages firmware has been asked to make resident (R39) -/
  asked   : List Nat := []
  /-- the shootdown an arena sweep waits for (R146) -/
  sweep   : Option Nat := none
  /-- pages being moved (R41) -/
  moves   : SMap Move := []
  deriving DecidableEq, Repr

/-! ## Package -/

/-- A link port (R400). -/
structure Port where
  node    : Nat := 0
  up      : Bool := true
  retries : Nat := 0
  deriving DecidableEq, Repr

/-- Security states (R410). -/
inductive SecSt | unprovisioned | locked | debug
  deriving DecidableEq, Repr

/-- A host command with its operand (Table 24-2). -/
inductive HostOp
  | launch (record : Nat)
  | cancel (l : Level) (id : Nat)
  | cntrd (l : Level) (id : Nat)
  | attest (nonce : Nat)
  deriving DecidableEq, Repr

/-- A command in the queue of its link node (R404). -/
structure HostCmd where
  job  : Nat
  op   : HostOp
  /-- bytes of the launch record and its footprint table captured so far (R87) -/
  cap  : List Byte := []
  /-- a word is being read -/
  wait : Bool := false
  /-- a word could not be read -/
  bad  : Bool := false
  deriving DecidableEq, Repr

/-- An inbound request: link node, kind, address, length, data (R402). -/
structure InReq where
  node : Nat
  kind : Nat
  addr : Nat
  len  : Nat
  data : Nat
  deriving DecidableEq, Repr

/-- A report to system software: what it is about and its number. -/
structure Report where
  kind : Nat
  val  : Nat
  deriving DecidableEq, Repr

/-- Links, thermal, security, power and error state (chapter 24, R62, R65, R378). -/
structure Package where
  /-- nanoseconds since the last cold reset -/
  time    : Nat := 0
  rbgBad  : Bool := false
  /-- format window records (Table 06's 32 bytes each), by number -/
  windows : SMap (BitVec 256) := []
  /-- window-miss counts of the stack controllers (R27) -/
  misses  : SMap Nat := []
  hot     : SMap Bool := []
  /-- WAS bits of each die's TSTAT -/
  was     : SMap (BitVec 4) := []
  ports   : SMap Port := []
  /-- HLCAP of host endpoints (Table 24-3) -/
  hlcap   : SMap Nat := []
  refusals : Nat := 0
  sec     : SecSt := .unprovisioned
  /-- 0 none, 1 non-invasive, 2 invasive -/
  dbg     : Nat := 0
  /-- tenant a debug token names -/
  tenant  : Option Nat := none
  keys    : Bool := true
  seedLock : Bool := false
  seed    : Nat := 0
  /-- version of the running firmware image, and which of two images of that version it is -/
  fwVer   : Nat := 0
  fwFile  : Bool := false
  fwMin   : Nat := 0
  dbgLog  : Nat := 0
  /-- what debug accesses have answered, newest first (R410, R411) -/
  dbgOut  : List Nat := []
  off     : Bool := false
  /-- gated islands (R412) -/
  gated   : List Nat := []
  boosted : List Nat := []
  retained : List Nat := []
  corrected : SMap Nat := []
  poison  : List Nat := []
  reports : List Report := []
  /-- replies to the host's commands, newest first -/
  replies : List (List Byte) := []
  /-- job configurations system software has asked firmware for (R60) -/
  requests : SMap JobCfg := []
  /-- commands of each link node, the one under way first (R404) -/
  cmds    : SMap (List HostCmd) := []
  /-- inbound requests that wait for RECALL, oldest first (R403) -/
  inbox   : List InReq := []
  /-- what replay makes of the step under way: 0 it goes on, 1 its turn has not come, 2 plus a job: that job's journal cannot be
  followed (R418) -/
  turn    : Nat := 0
  deriving DecidableEq, Repr

/-! ## The machine -/

/-- Which step the machine takes next: the next instruction of a context, or a step of its own. -/
inductive Turn
  | issue (ctx : Nat)
  /-- the next 32-bit word of a context's instruction is fetched, from its home or from its cluster's view (R224) -/
  | fetch (ctx : Nat) (home : Bool)
  | event (i : Instr)
  deriving DecidableEq, Repr

/-- The state of the machine. -/
structure State where
  /-- the context whose instruction runs -/
  cur    : Nat := 0
  /-- the steps to come: R70 lets any enabled step come next, so the choice is data of the state -/
  agenda : List Turn := []
  /-- the counter free values are drawn by -/
  free   : Nat := 0
  /-- bytes of homes, banks, carve-outs and endpoints, by place (assumption log 1) -/
  mem    : List Host.Cell := []
  /-- 8-byte words whose full/empty mark is full, by place (R97) -/
  full   : SMap Bool := []
  ctxs   : SMap Ctx := []
  cores  : SMap CoreSt := []
  clus   : SMap Clu := []
  jobs   : SMap Job := []
  net    : List Packet := []
  /-- packets injected so far, for the choice of their paths (R72) -/
  sent   : Nat := 0
  homes  : Homes := {}
  discards : SMap Discard := []
  shoots : List Shoot := []
  seq    : Nat := 0
  pkg    : Package := {}
  deriving DecidableEq, Repr

/-- The machine right after reset: no job is configured, every context is free, the network is empty. -/
def State.reset : State := {}

/-- Why the machine stops. -/
inductive Fault
  /-- raised by step after package off (R411): nothing executes until power-up (safe) -/
  | machineOff
  deriving DecidableEq, Repr

/-- Why a step is refused. -/
inductive Refusal
  /-- raised by the dispatch of an instruction without a meaning yet (safe) -/
  | notModelled (mnemonic : String)
  deriving DecidableEq, Repr

end Sys2Proof.Machine
end

