-- ==== Sys2Proof/Machine/Ops.lean ====
section
/-!
DEFINITION. The named operations over the parts of the state: contexts, cores, clusters and jobs by number,
registers, bytes of memory by place, and the fields of records.
-/
namespace Sys2Proof.Machine

/-! ## Numbers of contexts, cores and clusters (R83, R159) -/

def coreOf (ctx : Nat) : Nat := ctx / 4
def cluOf (ctx : Nat) : Nat := ctx / 32
def cluOfCore (core : Nat) : Nat := core / 8
def dieOfCore (core : Nat) : Nat := core / 384

/-- The packed coordinate of a context (R159). -/
def packCoord (ctx : Nat) : Nat :=
  ctx / 1536 * 2048 + ctx / 32 % 48 * 32 + ctx % 32

/-- The context a packed coordinate names; none when [63:13] is set or the cluster is 48 or more. -/
def unpackCoord (w : Nat) : Option Nat :=
  if w / 8192 = 0 ∧ w / 32 % 64 < 48 then some ((w / 2048 * 48 + w / 32 % 64) * 32 + w % 32) else none

/-! ## Parts of the state -/

def State.ctx (s : State) (n : Nat) : Ctx := s.ctxs.get {} n
def State.setCtx (s : State) (n : Nat) (c : Ctx) : State := { s with ctxs := s.ctxs.set n c }
def State.core (s : State) (n : Nat) : CoreSt := s.cores.get {} n
def State.setCore (s : State) (n : Nat) (c : CoreSt) : State := { s with cores := s.cores.set n c }
def State.clu (s : State) (n : Nat) : Clu := s.clus.get {} n
def State.setClu (s : State) (n : Nat) (c : Clu) : State := { s with clus := s.clus.set n c }
def State.job (s : State) (n : Nat) : Job := s.jobs.get {} n
def State.setJob (s : State) (n : Nat) (j : Job) : State := { s with jobs := s.jobs.set n j }

/-- The context whose instruction runs. -/
def State.me (s : State) : Ctx := s.ctx s.cur
def State.setMe (s : State) (c : Ctx) : State := s.setCtx s.cur c
def State.modMe (s : State) (f : Ctx → Ctx) : State := s.setCtx s.cur (f (s.ctx s.cur))
def State.modCtx (s : State) (n : Nat) (f : Ctx → Ctx) : State := s.setCtx n (f (s.ctx n))
def State.modCore (s : State) (n : Nat) (f : CoreSt → CoreSt) : State := s.setCore n (f (s.core n))
def State.modClu (s : State) (n : Nat) (f : Clu → Clu) : State := s.setClu n (f (s.clu n))
def State.modJob (s : State) (n : Nat) (f : Job → Job) : State := s.setJob n (f (s.job n))
def Ctx.modSys (c : Ctx) (f : CtxSys → CtxSys) : Ctx := { c with sys := f c.sys }

/-- The job of the running context. -/
def State.myJob (s : State) : Job := s.job s.me.run.job

/-! ## Registers (R154, R230) -/

def allOnes : Word := BitVec.allOnes 64

/-- x0 reads zero. -/
def Ctx.getX (c : Ctx) (n : Nat) : Word := if n = 0 then 0 else c.x.get 0 n
/-- A write of x0 is discarded. -/
def Ctx.setX (c : Ctx) (n : Nat) (w : Word) : Ctx := if n = 0 then c else { c with x := c.x.setD 0 n w }
def Ctx.getV (c : Ctx) (n : Nat) : Vec := c.v.get 0 n
def Ctx.setV (c : Ctx) (n : Nat) (w : Vec) : Ctx := { c with v := c.v.setD 0 n w }
/-- p7 reads all ones. -/
def Ctx.getP (c : Ctx) (n : Nat) : Word := if n = 7 then allOnes else c.p.get 0 n
/-- A write of p7 is discarded. -/
def Ctx.setP (c : Ctx) (n : Nat) (w : Word) : Ctx := if n = 7 then c else { c with p := c.p.setD 0 n w }
def Ctx.setPB (c : Ctx) (n : Nat) (b : Bool) : Ctx := c.setP n (if b then allOnes else 0)
def Ctx.getQ (c : Ctx) (n : Nat) : Queue := c.qs.get {} n
def Ctx.setQ (c : Ctx) (n : Nat) (q : Queue) : Ctx := { c with qs := c.qs.set n q }
def Ctx.getS (c : Ctx) (n : Nat) : Stream := c.streams.get {} n
def Ctx.setS (c : Ctx) (n : Nat) (t : Stream) : Ctx := { c with streams := c.streams.set n t }
def Ctx.getH (c : Ctx) (n : Nat) : Shape := c.shapes.get {} n
def Ctx.setH (c : Ctx) (n : Nat) (t : Shape) : Ctx := { c with shapes := c.shapes.set n t }
def CoreSt.bar (c : CoreSt) (n : Nat) : Bar := c.bars.get {} n
def CoreSt.setBar (c : CoreSt) (n : Nat) (b : Bar) : CoreSt := { c with bars := c.bars.set n b }
def Clu.tile (c : Clu) (n : Nat) : Tile := c.tiles.get {} n
def Clu.setTile (c : Clu) (n : Nat) (t : Tile) : Clu := { c with tiles := c.tiles.set n t }

/-- A counter of Table 20-6 rises (R380). -/
def Ctx.countBy (c : Ctx) (k n : Nat) : Ctx :=
  c.modSys fun y => { y with pm := SMap.setD 0 y.pm k (y.pm.get 0 k + BitVec.ofNat 64 n) }
def Ctx.count (c : Ctx) (k : Nat) : Ctx := c.countBy k 1
/-- Nothing of the instruction at the PC has been fetched or done. -/
def Ctx.anew (c : Ctx) : Ctx := { c with stage := {}, fetched := [], begun := false }
/-- Whether an operand field of the instruction fetched names a queue that has nothing to give, or no room (R229). -/
def Ctx.onQueue (c : Ctx) : Bool :=
  let w := c.fetched.zipIdx.foldl (fun a p => a + p.1.toNat * 256 ^ p.2) 0
  let q (lo : Nat) : Option Queue := if w / 2 ^ (lo + 17) % 8 = 2 then some (c.qs.get {} (w / 2 ^ lo % 16)) else none
  (q 0).any (·.ents.isEmpty) || (q 20).any (·.ents.isEmpty) || (q 40).any fun k => decide (8 ≤ k.ents.length)
/-- The instruction at the PC issues: counter 1 counts it once; one that has issued before has been blocked (R380). -/
def Ctx.issued (c : Ctx) : Ctx :=
  if c.begun then
    let q := c.onQueue
    c.modSys fun y => { y with blkQ := y.blkQ || q, blkM := y.blkM || !q }
  else { c.count 1 with begun := true }
/-- A word that proves ILLEGAL changes no architected state: the count is taken back (R242). -/
def Ctx.unissued (c : Ctx) : Ctx := if c.begun then { c.countBy 1 (2 ^ 64 - 1) with begun := false } else c
/-- An instruction completes: sequential issue adds 12 to the PC (R223). -/
def Ctx.advance (c : Ctx) : Ctx := { c.anew with pc := c.pc + 12 }
/-- An instruction completes at another PC (R280). -/
def Ctx.jump (c : Ctx) (t : Word) : Ctx := { c.anew with pc := t }
/-- A false guard adds 12 to the PC and does nothing else (R225). -/
def Ctx.skip (c : Ctx) : Ctx := { c with pc := c.pc + 12, fetched := [] }

/-- A sticky bit of CSTAT (Table 20-5). -/
def Ctx.setCstat (c : Ctx) (bit : Nat) : Ctx :=
  c.modSys fun y => { y with cstat := y.cstat ||| BitVec.twoPow 64 bit }
def cstatLwnd : Nat := 2
def cstatBarnd : Nat := 3
def cstatInh : Nat := 4
def cstatRndf : Nat := 5

/-- Sticky flags of FSTAT (Table 10-3). -/
def Ctx.orFstat (c : Ctx) (fl : Word) : Ctx :=
  c.modSys fun y => { y with fstat := y.fstat ||| fl }

/-! ## Bytes -/

/-- The value of bytes, lowest first. -/
def leNat : List Byte → Nat
  | [] => 0
  | b :: r => b.toNat + 256 * leNat r

/-- n bytes of a value, lowest first. -/
def leBytes : Nat → Nat → List Byte
  | 0, _ => []
  | n + 1, v => BitVec.ofNat 8 (v % 256) :: leBytes n (v / 256)

/-- Bytes of a bit vector, lowest first. -/
def bvBytes {w : Nat} (n : Nat) (v : BitVec w) : List Byte := leBytes n v.toNat

/-- Bits [hi:lo] of a number. -/
def fld (v hi lo : Nat) : Nat := (v >>> lo) % 2 ^ (hi + 1 - lo)

/-- A number of w bits read as signed. -/
def toSigned (w v : Nat) : Int := if v % 2 ^ w < 2 ^ (w - 1) then (v % 2 ^ w : Nat) else (v % 2 ^ w : Nat) - (2 ^ w : Nat)

/-- The value modulo 2^64 of an integer. -/
def mod64 (i : Int) : Nat := (i % (2 ^ 64 : Int)).toNat

/-! ## Memory by place -/

/-- The memory keeps its canonical form: rising addresses, no entry that reads as an unlisted byte does. -/
def Memory.wf (m : List Host.Cell) : Bool := SMap.wf (0 : Byte) m

/-- What a byte nothing has written reads as (assumption log 1). -/
def Memory.unlisted : Byte := 0

def State.byte (s : State) (k : Nat) : Byte := SMap.get Memory.unlisted s.mem k
def State.bytes (s : State) (k n : Nat) : List Byte := (List.range n).map fun i => s.byte (k + i)
def State.setByte (s : State) (k : Nat) (b : Byte) : State :=
  { s with mem := SMap.setD Memory.unlisted s.mem k b }
/-- Bytes stored from a place upward. -/
def State.setBytes (s : State) : Nat → List Byte → State
  | _, [] => s
  | k, b :: r => (s.setByte k b).setBytes (k + 1) r
/-- Lines written whole are poisoned no more (R414). -/
def State.heal (s : State) (k n : Nat) : State :=
  { s with pkg := { s.pkg with poison := s.pkg.poison.filter fun l => !(decide (k ≤ l) && decide (l + 128 ≤ k + n)) } }
/-- Bytes written to a scratchpad bank. -/
def State.bankPut (s : State) (k : Nat) (bs : List Byte) : State := (s.setBytes k bs).heal k bs.length
/-- The 8-byte little-endian word at a place. -/
def State.word (s : State) (k : Nat) : Nat := leNat (s.bytes k 8)

/-- Places of bytes in one space of keys: class-000 bytes at their physical address, banks, carve-outs,
host windows and peers above. -/
def bankKey (core bank off : Nat) : Nat := 2 ^ 48 + (core * 12 + bank) * 32768 + off
/-- The slice that holds an offset of stack scratch, and the place in its share of the carve-out (R18). -/
def scratchSlice (off : Nat) : Nat := off / 4096 % 16
def scratchPlace (off : Nat) : Nat := off / 65536 * 4096 + off % 4096
def scratchKey (job die off : Nat) : Nat := 2 ^ 50 + ((job * 4 + die) * 16 + scratchSlice off) * 2 ^ 28 + scratchPlace off
def Loc.key : Loc → Nat
  | .own c b o => bankKey c b o
  | .window c b o => bankKey c b o
  | .scratch j d o => scratchKey j d o
  | .hbm a => a
  | .planed a => 2 ^ 47 + a
  | .host n a => 2 ^ 56 + n * 2 ^ 44 + a
  | .peer n a => 2 ^ 58 + n * 2 ^ 44 + a

/-- The 128-byte line of a place. -/
def lineOf (k : Nat) : Nat := k / 128 * 128

/-- The home slice of a class-000 byte: die × 16 + slice (R22, R59). -/
def homeOf (pa : Nat) : Nat := pa / 2 ^ 17 % 4 * 16 + pa / 4096 % 16

/-- The context that holds a bank; a bank no context holds answers by R14. -/
def State.bankHolder (s : State) (core bank : Nat) : Option Nat :=
  (List.range 4).map (core * 4 + ·) |>.find? fun n =>
    (s.ctx n).run.kind != .free && (s.ctx n).run.banks.contains bank

/-! ## Full/empty marks (R97, R299) -/

def State.mark (s : State) (k : Nat) : Bool := s.full.get false (k / 8 * 8)
def State.setMark (s : State) (k : Nat) (b : Bool) : State :=
  { s with full := SMap.setD false s.full (k / 8 * 8) b }
/-- Marks of a range set empty. -/
def State.clearMarks (s : State) (k n : Nat) : State :=
  { s with full := s.full.filter fun p => !(decide (k ≤ p.1) && decide (p.1 < k + n)) }
/-- Bytes of a range read as zero again; a line cleared whole is poisoned no more (R414). -/
def State.zeroBytes (s : State) (k n : Nat) : State :=
  { s with mem := s.mem.filter fun p => !(decide (k ≤ p.1) && decide (p.1 < k + n)),
           pkg := { s.pkg with poison := s.pkg.poison.filter fun l => !(decide (k ≤ l) && decide (l + 128 ≤ k + n)) } }

/-! ## Free values -/

def State.bump (s : State) : State := { s with free := s.free + 1 }
def State.freeBit (s : State) : Bool := Config.freeBit s.free

/-! ## Jobs, graphs and nodes -/

def Job.node? (j : Job) (g n : Nat) : Option Node := j.nodes.find? fun x => x.graph == g && x.id == n
def Job.graph? (j : Job) (g : Nat) : Option Graph := j.graphs.find? fun x => x.id == g
def Job.phase? (j : Job) (g : Nat) : Option Phase := j.phases.find? fun x => x.id == g
def Job.modNode (j : Job) (g n : Nat) (f : Node → Node) : Job :=
  { j with nodes := j.nodes.map fun x => if x.graph == g && x.id == n then f x else x }
def Job.modGraph (j : Job) (g : Nat) (f : Graph → Graph) : Job :=
  { j with graphs := j.graphs.map fun x => if x.id == g then f x else x }
def Job.modPhase (j : Job) (g : Nat) (f : Phase → Phase) : Job :=
  { j with phases := j.phases.map fun x => if x.id == g then f x else x }
def Job.slot (j : Job) (n : Nat) : Slot := j.slots.get {} n
def Job.setSlot (j : Job) (n : Nat) (t : Slot) : Job := { j with slots := j.slots.set n t }

/-- Fields of a launch record (Table 09-1), by byte offset and bits. -/
def rcdFld (r : BitVec 1024) (off hi lo : Nat) : Nat := fld (r.toNat >>> (8 * off)) hi lo
def Node.fld (x : Node) (off hi lo : Nat) : Nat := rcdFld x.rcd off hi lo
def Node.entry (x : Node) : Nat := x.fld 0 63 0
def Node.prio (x : Node) : Nat := x.fld 8 1 0
def Node.gang (x : Node) : Bool := x.fld 8 2 2 == 1
def Node.early (x : Node) : Bool := x.fld 8 3 3 == 1
def Node.drain (x : Node) : Bool := x.fld 8 4 4 == 1
def Node.fpol (x : Node) : Nat := x.fld 8 6 5
def Node.order (x : Node) : Nat := x.fld 8 9 7
def Node.banks (x : Node) : Nat := x.fld 8 15 12
def Node.bandh (x : Node) : Nat := x.fld 8 23 16
def Node.smin (x : Node) : Nat := x.fld 8 31 24
def Node.grain (x : Node) : Nat := x.fld 8 47 32
def Node.parent (x : Node) : Nat := x.fld 96 31 0
def Node.param (x : Node) : Nat := x.fld 88 63 0
/-- Whether the placement mask holds a cluster. -/
def Node.places (x : Node) (clu : Nat) : Bool := x.rcd.getLsbD (320 + clu) && decide (clu < 192)

/-- The parent node, for a node with PARENT nonzero: the node that created its graph (R190). -/
def Job.parentOf (j : Job) (x : Node) : Option (Nat × Nat) :=
  if x.parent = 0 then none else (j.graph? x.graph).bind (·.parent)

/-- Whether node (g, n) is node (ag, an) or a descendant of it (R138). -/
def Job.descends (j : Job) : Nat → Nat → Nat → Nat → Nat → Bool
  | 0, _, _, _, _ => false
  | fuel + 1, g, n, ag, an =>
    (g == ag && n == an) ||
      match (j.node? g n).bind j.parentOf with
      | some (pg, pn) => j.descends fuel pg pn ag an
      | none => false

/-- Whether a cluster belongs to a job's tenancy partition (R13, R186). -/
def JobCfg.holds (c : JobCfg) (clu : Nat) : Bool := c.pmask.getLsbD clu && decide (clu < 192)

/-- Levels by number, in the model's own records. -/
def Level.code : Level → Nat
  | .node => 0 | .graph => 1 | .phase => 2 | .job => 3
def levelOf : Nat → Level
  | 0 => .node | 1 => .graph | 2 => .phase | _ => .job

/-! ## The network -/

/-! Stops of the fabric (R72): cores from 0, cluster agents from 2048, home and carve-out slices from 4096, link
nodes from 8192. -/

def cluStop (clu : Nat) : Nat := 2048 + clu
def homeStop (pa : Nat) : Nat := 4096 + homeOf pa
def Loc.stop : Loc → Nat
  | .own c _ _ | .window c _ _ => c
  | .scratch _ d o => 4096 + d * 16 + scratchSlice o
  | .hbm a | .planed a => homeStop a
  | .host n _ | .peer n _ => 8192 + n
/-- The stop of a bank of Table 06-5's codes: an HBM agent's from 12288. -/
def bankStop (b : Nat) : Nat :=
  let die := b / 4096 % 4
  match b / 0x4000 with
  | 0 => die * 384 + b % 512
  | 1 => cluStop (die * 48 + b / 8 % 64)
  | 2 => 4096 + die * 16 + b % 16
  | _ => 12288 + die * 256 + b % 256
def Who.stop : Who → Nat
  | .store n | .load n _ _ | .instr n | .chan n _ | .stream n _ | .prf n _ _ => coreOf n
  | .job c _ | .clu c _ => cluStop c
  | .host node => 8192 + node
  | .nobody => 0
/-- Where a request goes. -/
def Payload.stop : Payload → Nat
  | .write l _ | .read l _ _ | .atomic l _ _ _ _ none => l.stop
  | .atomic _ _ _ _ _ (some c) => cluStop c
  | .reg l _ _ | .plf l | .writeBack l _ _ _ | .redBack l _ _ _ _ => homeStop l
  | .acquire pa _ | .release pa _ => homeStop pa
  | .arrive c _ _ | .row _ c _ | .mail c _ => c
  | .channel _ _ _ r _ _ => 16384 + r
  | .recallReq _ c _ => cluStop c
  | .hop _ _ _ _ b _ | .chase _ _ b | .srcl _ _ _ _ b => bankStop b
  | _ => 0

/-- What forces packets on one path (R72, R75, R155): the writes of one context, or of one cluster's engines, to one
line, and the entries of one channel. -/
def Packet.tie (p : Packet) : Option Nat :=
  match p.cls, p.pl, p.who with
  | .req, .write loc _, .store n | .req, .write loc _, .instr n | .req, .write loc _, .stream n _ =>
    some (n * 2 ^ 64 + lineOf loc.key)
  | .req, .write loc _, .job clu _ => some ((2 ^ 20 + clu) * 2 ^ 64 + lineOf loc.key)
  | .req, .channel _ _ _ _ _ _, .chan n q => some ((2 ^ 21 + n) * 2 ^ 64 + q)
  | _, _, _ => none

/-- A packet as it enters NET: its stops, and the path the fabric chooses for it (R72). -/
def Packet.routed (p : Packet) (k : Nat) : Packet :=
  let p := match p.cls with
    | .rsp => { p with dst := p.who.stop }
    | _ => { p with src := (match p.pl with | .recallReq l _ _ => homeStop l | .hop _ _ _ b _ _ => bankStop b | _ => p.who.stop), dst := p.pl.stop }
  { p with ridge := match p.tie with
    | some w => Config.path p.src p.dst (2 * w)
    | none => Config.path p.src p.dst (2 * k + 1) }

def State.send (s : State) (p : Packet) : State := { s with net := s.net ++ [p.routed s.sent], sent := s.sent + 1 }

/-- Whether the job's token bucket lets a REQ packet in now (R407): RATE 0 is no limit, and packets that wait at
injection go first. -/
def State.tokensOk (s : State) (j : Nat) : Bool :=
  (s.job j).stalled.isEmpty && ((s.job j).cfg.rlim.toNat % 2 ^ 32 == 0 || decide (0 < (s.job j).tokens))
def State.takeToken (s : State) (j : Nat) : State :=
  if (s.job j).cfg.rlim.toNat % 2 ^ 32 = 0 then s
  else s.modJob j fun x => { x with tokens := x.tokens - 1 }

/-! ## Voltage and frequency islands (R176, R412): die × 128 + number in the die, core islands first, then engine
islands -/

def coreIsland (core : Nat) : Nat := core / 384 * 128 + core % 384 / 8 * 2 + core % 8 / 4
def engineIsland (clu : Nat) : Nat := clu / 48 * 128 + 96 + clu % 48 / 2
/-- An island is powered: work on it wakes it (R412). -/
def State.ungate (s : State) (i : Nat) : State := { s with pkg := { s.pkg with gated := s.pkg.gated.filter (· != i) } }

/-! ## Reports and the journal (R417, R418) -/

def State.report (s : State) (kind val : Nat) : State :=
  { s with pkg := { s.pkg with reports := s.pkg.reports ++ [⟨kind, val⟩] } }

/-! Kinds of journalled events (Table 24-8). -/

def jGrant : Nat := 1
def jMail : Nat := 2
def jFlush : Nat := 3
def jRecalled : Nat := 4
def jHand : Nat := 5
def jSplit : Nat := 6
def jTake : Nat := 7
def jSpill : Nat := 8
def jPlace : Nat := 9
def jHost : Nat := 10
def jInbound : Nat := 11
def jTime : Nat := 12
def jRand : Nat := 13
def jAtomic : Nat := 14
def jStrong : Nat := 15
def jFreeze : Nat := 16
def jRestore : Nat := 17
def jRedo : Nat := 18
def jMarker : Nat := 19

/-- The next event of a journal but the markers, which stand in the order of their own context's events (R381), and the
journal without it. -/
def nextEvent : List JEv → Option (JEv × List JEv)
  | [] => none
  | e :: r => if e.kind = jMarker then (nextEvent r).map fun p => (p.1, e :: p.2) else some (e, r)
/-- The next marker of a context, and the journal without it. -/
def nextMark (who : Nat) : List JEv → Option (JEv × List JEv)
  | [] => none
  | e :: r => if e.kind = jMarker ∧ e.who = who then some (e, r) else (nextMark who r).map fun p => (p.1, e :: p.2)

/-- The job is to be pre-empted: system software is told why (R417, R418). -/
def State.jrnStop (s : State) (kind j : Nat) : State :=
  (s.report kind j).modJob j fun x => { x with pre := if x.pre = .none then .stopped else x.pre }

/-- The words of an event in a journal region (assumption log 66): kind and number of further words, context or place, value,
and the further words. -/
def JEv.words (e : JEv) : List Nat := [e.kind + e.more.length * 2 ^ 16, e.who, e.val] ++ e.more
def JEv.size (e : JEv) : Nat := 8 * (3 + e.more.length)
/-- An event is written behind those that stand in its job's region, or kept until there is room for it: none is dropped
(R417). -/
def State.jrnPut (s : State) (j : Nat) (e : JEv) : State :=
  let x := s.job j
  if x.jrnLate.isEmpty && decide (x.jrnAt + e.size ≤ x.cfg.jrnl.toNat) then
    (s.setBytes (x.cfg.jrnb.toNat + x.jrnAt) (e.words.flatMap (leBytes 8))).setJob j { x with jrnAt := x.jrnAt + e.size }
  else s.setJob j { x with jrnLate := x.jrnLate ++ [e] }
/-- The region has no room for another event. -/
def Job.jrnFull (x : Job) : Bool := !x.jrnLate.isEmpty || decide (x.cfg.jrnl.toNat < x.jrnAt + 24)

/-- Replay takes the step under way back: its turn has not come, or a job's journal cannot be followed (R418). -/
def State.away (s : State) (w : Nat) : State := if s.pkg.turn = 0 then { s with pkg := { s.pkg with turn := w } } else s
/-- An event that a program alone decides: replay cannot follow a journal that has it no more (assumption log 67). -/
def JEv.ofProgram (e : JEv) : Bool := [jAtomic, jStrong, jTime, jRand].contains e.kind

/-- An event of a job in record mode joins the journal, and a full region pre-empts the job; in replay mode a step with an
event waits until it is the next one of the journal (R417, R418). -/
def State.jrn (s : State) (j : Nat) (e : JEv) : State :=
  let x := s.job j
  match x.cfg.mode with
  | 1 =>
    let s := (s.setJob j { x with journal := x.journal ++ [e] }).jrnPut j e
    if (s.job j).jrnFull then s.jrnStop 18 j else s
  | 2 =>
    match nextEvent x.journal with
    | none => s.away (j + 2)
    | some (f, r) =>
      if f = e then s.setJob j { x with journal := r } else s.away (if e.ofProgram && !x.journal.contains e then j + 2 else 1)
  | _ => s

/-- A value journalled in record mode; in replay mode the journalled value is returned (R378, R418). -/
def State.jrnVal (s : State) (j : Nat) (e : JEv) : JEv × State :=
  let x := s.job j
  let like (f : JEv) : Bool := f.kind == e.kind && f.who == e.who
  match x.cfg.mode, nextEvent x.journal with
  | 2, some (f, r) => if like f then (f, s.setJob j { x with journal := r }) else (e, s.away (if x.journal.any like then 1 else j + 2))
  | _, _ => (e, s.jrn j e)

/-- What a step comes to under replay: as it is, nothing yet, or the pre-emption of a job whose journal cannot be followed, with
the report of the step (R418). -/
def State.inTurn (s : State) (o : Host.Outcome State Fault Refusal) : Host.Outcome State Fault Refusal :=
  match o with
  | .next t => .next (if t.pkg.turn = 0 then t else if t.pkg.turn = 1 then s else s.jrnStop 17 (t.pkg.turn - 2))
  | _ => o

/-- The events that stand in a journal region (at most fuel of them). -/
def State.readJournal (s : State) (a fin : Nat) : Nat → List JEv
  | 0 => []
  | f + 1 =>
    let h := s.word a
    let n := h / 2 ^ 16
    if h % 2 ^ 16 = 0 ∨ fin < a + 8 * (3 + n) then []
    else ⟨h % 2 ^ 16, s.word (a + 8), s.word (a + 16), (List.range n).map fun i => s.word (a + 24 + 8 * i)⟩ :: s.readJournal (a + 8 * (3 + n)) fin f

/-! ## Fault classes (Table 21-3) -/

def clsIllegal : Nat := 1
def clsPriv : Nat := 2
def clsAlign : Nat := 3
def clsLease : Nat := 4
def clsRegion : Nat := 5
def clsOutlived : Nat := 6
def clsMxown : Nat := 7
def clsSpill : Nat := 8
def clsHostatom : Nat := 9
def clsQdead : Nat := 10
def clsTrap : Nat := 11
def clsSecurity : Nat := 12

/-- The Resumable column of Table 21-3. -/
def clsResumable (c : Nat) : Bool := [1, 2, 3, 5, 7, 9, 10, 11].contains c

/-- A fault of a class at an address, with DET 0. -/
def flt (code addr : Nat) : FaultInfo := { code := code, addr := addr }

/-- What a check answers: a value, or the first fault (R19). -/
abbrev Chk (α : Type) := Except FaultInfo α

/-! ## Translation (R31 to R36) -/

/-- A page-table walk: its result or the level at which it stopped (R35). -/
abbrev Walk := Except Nat Nat

/-- A pointer names class-000 memory with PLN clear (R35). -/
def ptrOk (pa : Nat) : Bool := decide (pa < 2 ^ 39)

/-- A table entry's address field [47:lo] when the entry is valid and no reserved bit is set. -/
def entryField (e lo : Nat) : Option Nat :=
  if e % 2 = 1 ∧ e / 2 % 2 ^ (lo - 1) = 0 ∧ e / 2 ^ 48 = 0 then some (e / 2 ^ lo * 2 ^ lo) else none

/-- The heap table of a job (R34). DESIGN CHOICE (assumption log 93): a table that does not lie in class-000 memory
stops the walk at its own level, not at the level of the entry that names it. -/
def State.walkHeap (s : State) (hptb va : Nat) : Walk := do
  let ptr (lvl tbl idx lo : Nat) : Walk :=
    if ptrOk tbl then
      match entryField (s.word (tbl + 8 * idx)) lo with
      | some f => .ok f
      | none => .error lvl
    else .error lvl
  let t2 ← ptr 1 hptb (va / 2 ^ 43) 14
  let t3 ← ptr 2 t2 (va / 2 ^ 32 % 2 ^ 11) 14
  let pg ← ptr 3 t3 (va / 2 ^ 21 % 2 ^ 11) 21
  .ok (pg + va % 2 ^ 21)

/-- Whether an address lies in a core's sub-page region (R31). -/
def CoreSt.inSub (c : CoreSt) (va : Nat) : Bool :=
  decide (c.sprl.toNat ≠ 0) && decide (c.sprb.toNat * 2 ^ 21 ≤ va)
    && decide (va < (c.sprb.toNat + c.sprl.toNat) * 2 ^ 21)

/-- The flat sub-page table of a core (R33). -/
def State.walkSub (s : State) (c : CoreSt) (va : Nat) : Walk :=
  let tbl := c.sptb.toNat
  if ptrOk tbl then
    match entryField (s.word (tbl + 8 * ((va - c.sprb.toNat * 2 ^ 21) / 1024))) 10 with
    | some f => if f < 2 ^ 47 then .ok (f + va % 1024) else .error 4
    | none => .error 4
  else .error 4

/-- The arena map of a slot (R35, R133). DESIGN CHOICE (assumption log 93): a walk that fails here reports level 3. -/
def State.walkArena (s : State) (armb slot off : Nat) : Walk :=
  if ptrOk (armb + slot * 16384) then
    match entryField (s.word (armb + slot * 16384 + 8 * (off / 2 ^ 21))) 21 with
    | some f => .ok (f + off % 2 ^ 21)
    | none => .error 3
  else .error 3

/-- The tables' own answer for a heap or arena address of a job, seen from a core. -/
def State.walk (s : State) (job core va : Nat) : Walk :=
  if va < 2 ^ 55 then
    if (s.core core).inSub va then s.walkSub (s.core core) va
    else s.walkHeap (s.job job).cfg.hptb.toNat va
  else s.walkArena (s.job job).cfg.armb.toNat (va / 2 ^ 40 % 4096) (va % 2 ^ 32)

/-- Whether an address is translated in sub-pages, as the shift of its page size. -/
def State.pageShift (s : State) (core va : Nat) : Nat :=
  if va < 2 ^ 55 ∧ (s.core core).inSub va then 10 else 21

/-- The entry for an address among those of a TLB (R36): entries are tagged with their job, sub-page entries with
their core. -/
def State.hit (s : State) (job core va : Nat) (ts : List Tlb) : Option Tlb :=
  let sh := s.pageShift core va
  ts.find? fun t => t.job == job && t.shift == sh && t.page == va / 2 ^ sh && (sh != 10 || t.core == some core)

/-- Whose first-level translations an access looks in before the second-level TLB of its cluster: its core's data TLB or
instruction TLB (R36); for an engine or a stream none but the one a floated stream carries (R37). -/
inductive Via
  | data | fetch
  | clu (held : Option Tlb)
  deriving DecidableEq, Repr
def CoreSt.tlbOf (c : CoreSt) : Via → List Tlb
  | .data => c.tlb
  | .fetch => c.itlb
  | .clu h => h.toList

/-- The entry an access finds, in its first-level TLB or in the second-level one of its cluster (R36, R37). -/
def State.entryFor (s : State) (job core va : Nat) (via : Via) : Option Tlb :=
  (s.hit job core va ((s.core core).tlbOf via)).orElse fun _ => s.hit job core va (s.clu (cluOfCore core)).tlb2
/-- The translation it gives. -/
def State.cached (s : State) (job core va : Nat) (via : Via) : Option Nat :=
  (s.entryFor job core va via).map fun t => t.frame + va % 2 ^ s.pageShift core va

/-- Whether a TLB holds a translation that the tables no longer give: then either may be used (R48). -/
def State.stale (s : State) (job core va : Nat) (via : Via) : Bool :=
  match s.cached job core va via, s.walk job core va with
  | some pa, .ok pb => pa != pb
  | some _, .error _ => true
  | none, _ => false

/-- The translation of an address: the tables', or a stale one where a TLB still holds it and the part uses
it (a free choice). -/
def State.translate (s : State) (job core va : Nat) (via : Via) : Walk :=
  if s.stale job core va via && s.freeBit then
    match s.cached job core va via with
    | some pa => .ok pa
    | none => s.walk job core va
  else s.walk job core va

/-- A new entry in a TLB of n entries; a full one loses its oldest. -/
def tlbAdd (n : Nat) (ts : List Tlb) (t : Tlb) : List Tlb := (ts ++ [t]).drop (ts.length + 1 - n)

/-- The entries an access leaves in its core's data or instruction TLB and in the second-level TLB, and the free
choice used up (R36); what a floated stream carries is the stream's (R37). -/
def State.tlbFill (s : State) (job core va : Nat) (via : Via := .data) : State :=
  if va / 2 ^ 48 ≥ 0xC0 then s
  else
    let u := if s.stale job core va via then s.bump else s
    let own (t : Tlb) (u : State) : State :=
      match via with
      | .data => u.modCore core fun c => { c with tlb := tlbAdd 32 c.tlb t }
      | .fetch => u.modCore core fun c => { c with itlb := tlbAdd 16 c.itlb t }
      | .clu _ => u
    match s.hit job core va ((s.core core).tlbOf via), s.hit job core va (s.clu (cluOfCore core)).tlb2, s.walk job core va with
    | some _, _, _ => u
    | none, some t, _ => own t u
    | none, none, .ok pa =>
      let sh := s.pageShift core va
      let t : Tlb := { job := job, core := if sh = 10 then some core else none, shift := sh, page := va / 2 ^ sh,
                       frame := pa / 2 ^ sh * 2 ^ sh }
      own t (u.modClu (cluOfCore core) fun c => { c with tlb2 := tlbAdd 2048 c.tlb2 t })
    | none, none, .error _ => u

/-! ## Leases (R43, R44, R138) -/

/-- What an access does, for the lease and the region check (R44, Table 02-8). -/
inductive Acc
  | load | fetch | store | atomic | prf | capture | rgsync
  deriving DecidableEq, Repr

/-- The TLB of an instruction's own access (R36). -/
def Acc.via : Acc → Via
  | .fetch => .fetch
  | _ => .data

def Acc.writes : Acc → Bool
  | .store | .atomic => true
  | _ => false

/-- Fields of a footprint entry (Table 09-2). -/
def fpBase (e : BitVec 128) : Nat := fld e.toNat 63 0
def fpLen (e : BitVec 128) : Nat := fld e.toNat 111 64
def fpAcc (e : BitVec 128) : Nat := fld e.toNat 113 112
def fpClass (e : BitVec 128) : Nat := fld e.toNat 115 114

/-- A footprint entry permits an access to a byte (R44, R188: EDGE admits none). -/
def fpPermits (w : Bool) (va : Nat) (e : BitVec 128) : Bool :=
  decide (fpClass e ≤ 1) && decide (fpBase e ≤ va) && decide (va < fpBase e + fpLen e)
    && (!w || decide (2 ≤ fpAcc e))

/-- Every byte lies in an entry that permits the access (R44). -/
def fpCovers (fpt : List (BitVec 128)) (w : Bool) (va size : Nat) : Bool :=
  fpt.any (fun e => fpPermits w va e && fpPermits w (va + size - 1) e)
    || (List.range size).all fun i => fpt.any (fpPermits w (va + i))

/-- The bytes of the record of the current fault, which a handler may load (R390). -/
def recordVA (c : JobCfg) (seq : Nat) : Nat := c.fqb.toNat + 64 + seq % c.fqn * 32
def State.ownRecord (s : State) (n : Nat) (va size : Nat) : Bool :=
  let c := s.ctx n
  let cfg := (s.job c.run.job).cfg
  let r := recordVA cfg (c.sys.estat.toNat / 2 ^ 32)
  c.sys.lvl == .handler && decide (r ≤ va) && decide (va + size ≤ r + 32)

/-- Whether an access lies in the fault queue of the job (R390). -/
def JobCfg.inQueue (c : JobCfg) (va size : Nat) : Bool :=
  decide (c.fqb.toNat ≠ 0) && decide (va < c.fqb.toNat + 64 + 32 * c.fqn) && decide (c.fqb.toNat < va + size)

/-- Step 5 of Table 01-4 for a heap address. -/
def State.leaseHeap (s : State) (n : Nat) (k : Acc) (va size : Nat) : Bool :=
  let c := s.ctx n
  let j := s.job c.run.job
  if j.cfg.inQueue va size then (k == .load && s.ownRecord n va size)
  else
    k == .rgsync
      || (match j.node? c.run.graph c.run.node with
          | some x => fpCovers x.fpt k.writes va size
          | none => false)
      || (s.core (coreOf n)).inSub va
      || (!k.writes && decide (j.cfg.code.1 ≤ va) && decide (va + size ≤ j.cfg.code.1 + j.cfg.code.2))

/-! ## Regions (R45, R47) -/

def Job.region (j : Job) (va : Nat) : Option RegEnt :=
  j.regions.find? fun r => decide (r.base ≤ va) && decide (va < r.base + r.len)

/-- The state of an address: a range no entry covers is SHRW (R45). -/
def Job.regionSt (j : Job) (va : Nat) : Region := ((j.region va).map (·.st)).getD .shrw

/-- Table 02-8 for a cluster. -/
def Job.regionOk (j : Job) (clu : Nat) (k : Acc) (va : Nat) : Bool :=
  match j.region va with
  | none => true
  | some r =>
    match r.st with
    | .ro => !k.writes
    | .priv => r.cset.getLsbD clu
    | .shrw => true

/-! ## The checks of Table 01-4 (R19) -/

/-- Class and bounds of a physical address, and the place it names (R22 to R27). -/
def State.classify (s : State) (job pa : Nat) : Option Loc :=
  let cls := pa / 2 ^ 44 % 8
  let pln := pa / 2 ^ 47
  let cfg := (s.job job).cfg
  if cls = 0 then
    if pa % 2 ^ 44 < 2 ^ 39 then some (if pln = 1 then .planed (pa % 2 ^ 39) else .hbm (pa % 2 ^ 39)) else none
  else if pln = 1 then none
  else if cls = 2 then some (.host cfg.host (pa % 2 ^ 44))
  else if cls = 3 then (SMap.get? cfg.peers (pa / 2 ^ 36 % 256)).map fun p => .peer p.1 (p.2 + pa % 2 ^ 36)
  else none

/-- A link node is unreachable when it has no port up (R400). -/
def State.linkDown (s : State) (node : Nat) : Bool := !(s.pkg.ports.any fun p => p.2.node == node && p.2.up)

/-- Whether an access takes from its node the promise of a restart (R415): scope SYS, classes 010 and 011, and
writes to stack scratch or to the window of a core outside the node's placement mask. -/
def Loc.disqualifies (l : Loc) (x : Node) (w sys : Bool) : Bool :=
  sys ||
    match l with
    | .host _ _ | .peer _ _ => true
    | .scratch _ _ _ => w
    | .window c _ _ => w && !x.places (cluOfCore c)
    | _ => false
/-- The node of a context has taken a disqualifying step (R415). -/
def State.markNode (s : State) (n : Nat) : State :=
  let r := (s.ctx n).run
  s.modJob r.job fun j => j.modNode r.graph r.node fun x => { x with marked := true }
/-- The mark of R415 for an access. -/
def State.markAt (s : State) (n : Nat) (l : Loc) (w sys : Bool) : State :=
  let r := (s.ctx n).run
  match (s.job r.job).node? r.graph r.node with
  | some x => if l.disqualifies x w sys && !x.marked then s.markNode n else s
  | none => s

/-- The stored line a place belongs to. -/
def Loc.line : Loc → Nat
  | .planed a => lineOf a
  | l => lineOf l.key
/-- Whether an access reads bytes of a line marked poisoned that its cluster does not hold dirty (R414). -/
def State.poisoned (s : State) (n : Nat) (l : Loc) (size : Nat) : Bool :=
  s.pkg.poison.contains l.line
    && match (s.clu (cluOf n)).lines.get? (lineOf l.key) with
       | some x => !(List.range size).all fun i => x.dirty.getLsbD ((l.key + i) % 128)
       | none => true
def Acc.reads : Acc → Bool
  | .load | .fetch | .atomic | .capture => true
  | _ => false
/-- The place of an access that has passed its checks, unless it reads poisoned data (R414, R415). -/
def State.sound (s : State) (n : Nat) (k : Acc) (va size : Nat) (l : Loc) : Chk Loc :=
  if k.reads && s.poisoned n l size then .error (flt clsSecurity va) else .ok l

def Loc.isPlaned : Loc → Bool | .planed _ => true | _ => false
def Loc.linkNode : Loc → Option Nat | .host n _ => some n | .peer n _ => some n | _ => none

/-- Steps 1 to 7 of Table 01-4 for an access of a context to size bytes at a multiple of al (R19). Engine and
stream accesses are made for the issuing context, through the TLB of its cluster (R37, R102). -/
def State.checkAt (s : State) (n : Nat) (k : Acc) (va size al : Nat) (via : Via := k.via) : Chk Loc := do
  let c := s.ctx n
  let core := coreOf n
  let jn := c.run.job
  let j := s.job jn
  let lease : FaultInfo := flt clsLease va
  let part := va / 2 ^ 48
  if va ≥ 2 ^ 56 then throw lease
  if part < 0x80 ∨ (0xA0 ≤ part ∧ part ≤ 0xAF) then
    if va % al ≠ 0 then throw (flt clsAlign va)
    if part < 0x80 then
      if !s.leaseHeap n k va size then throw lease
    else
      let sl := j.slot (va / 2 ^ 40 % 4096)
      let gen := va / 2 ^ 32 % 256
      if !(sl.st == .live && sl.gen == gen) then
        let stc := match sl.st with | .free => 0 | .live => 1 | .dying => 2 | .quarantined => 3
        throw { lease with code := clsOutlived, det := stc * 256 + sl.gen }
      if !(k == .rgsync || j.descends (j.nodes.length + 1) c.run.graph c.run.node sl.graph sl.node) then throw lease
      if va % 2 ^ 32 + size > sl.size * 2 ^ 21 then throw lease
    match s.translate jn core va via with
    | .error lvl => throw { lease with det := lvl }
    | .ok pa =>
      match s.classify jn pa with
      | none => throw { lease with det := (if va < 2 ^ 55 then (if (s.core core).inSub va then 4 else 3) else 3) }
      | some loc =>
        if (loc.linkNode.map s.linkDown).getD false then throw lease
        if k.writes && loc.isPlaned then throw (flt clsRegion va)
        if !(j.cfg.inQueue va size || j.regionOk (cluOf n) k va) then throw (flt clsRegion va)
        s.sound n k va size loc
  else if part = 0xC0 then
    let clu := va / 2 ^ 46 % 4 * 48 + va / 2 ^ 40 % 64
    let off := va % 2 ^ 20
    if va / 2 ^ 40 % 64 ≥ 48 ∨ va / 2 ^ 20 % 2 ^ 17 ≠ 0 ∨ off ≥ 0x60000 then throw lease
    if !j.cfg.holds clu then throw lease
    if va % al ≠ 0 then throw (flt clsAlign va)
    s.sound n k va size (.window (clu * 8 + va / 2 ^ 37 % 8) (off / 32768) (off % 32768))
  else if part = 0xC4 then
    let die := va / 2 ^ 46 % 4
    let units := fld j.cfg.stk.toNat (5 * die + 4) (5 * die)
    if va / 2 ^ 32 % 2 ^ 14 ≠ 0 ∨ va % 2 ^ 32 ≥ units * 2 ^ 24 then throw lease
    if va % al ≠ 0 then throw (flt clsAlign va)
    s.sound n k va size (.scratch jn die (va % 2 ^ 32))
  else if part = 0xC8 then
    let off := va % 2 ^ 20
    if va / 2 ^ 20 % 2 ^ 28 ≠ 0 then throw lease
    match c.run.banks[off / 32768]? with
    | none => throw lease
    | some b =>
      if va % al ≠ 0 then throw (flt clsAlign va)
      s.sound n k va size (.own core b (off % 32768))
  else throw lease

/-- Steps 1 to 7 of Table 01-4 for one naturally aligned access (R19). -/
def State.check (s : State) (n : Nat) (k : Acc) (va size : Nat) (via : Via := k.via) : Chk Loc := s.checkAt n k va size size via

/-! ## Taking an exception (R385 to R391) -/

/-- The words of a fault record (Table 21-4). -/
def recordWords (c : Ctx) (pc : Word) (res : Bool) (i : FaultInfo) : List Nat :=
  [pc.toNat % 2 ^ 56 / 4 * 4 + i.org + i.code * 2 ^ 56 + i.elem.toNat * 2 ^ 60
     + (decide (c.sys.lvl = .handler)).toNat * 2 ^ 61 + res.toNat * 2 ^ 62,
   i.addr % 2 ^ 64,
   i.det % 2 ^ 16 * 2 ^ 48 + i.idx % 2 ^ 48,
   c.run.graph % 2 ^ 31 * 2 ^ 32 + c.run.node % 2 ^ 32]

/-- A clean or dirty copy of a line leaves a cluster's view. -/
def State.dropLine (s : State) (clu line : Nat) : State :=
  s.modClu clu fun c => { c with lines := c.lines.erase line, dl := c.dl.filter (· != line) }

/-- A 64-bit word of the fault queue, at its home. -/
def State.queueWord (s : State) (j : Nat) (off : Nat) : Option Nat :=
  match s.walkHeap (s.job j).cfg.hptb.toNat ((s.job j).cfg.fqb.toNat + off) with
  | .ok pa => some pa
  | .error _ => none

/-- A record enters the job's fault queue: the sequence number it took, or none when the queue is full, and
LOST counts it (R389). A queue that firmware has not mapped takes no record (assumption log 20). -/
def State.post (s : State) (j clu : Nat) (ws : List Nat) : State × Option Nat :=
  let cfg := (s.job j).cfg
  match s.queueWord j 0, s.queueWord j 8, s.queueWord j 16 with
  | some put, some take, some lost =>
    let p := s.word put
    if (p + 2 ^ 64 - s.word take) % 2 ^ 64 = cfg.fqn then
      (s.setBytes lost (leBytes 8 (s.word lost + 1)), none)
    else
      match s.queueWord j (64 + p % cfg.fqn * 32) with
      | some slot =>
        (((s.setBytes slot (ws.flatMap (leBytes 8))).setBytes put (leBytes 8 (p + 1))).dropLine clu (lineOf slot),
          some p)
      | none => (s, none)
  | _, _, _ => (s, none)

/-- Whether a fault is resumable (R384). -/
def resumable (lvl : Lvl) (i : FaultInfo) : Bool :=
  i.org == 0 && lvl == .run && !(i.code == clsTrap && i.idx == 0x10000) && clsResumable i.code

/-- A context leaves the queue of RGSYNC (R294). -/
def State.leaveRgq (s : State) (n : Nat) : State :=
  let j := (s.ctx n).run.job
  if (s.job j).rgq.contains n then s.modJob j fun x => { x with rgq := x.rgq.filter (· != n) } else s

/-- A run begins to end: its context issues nothing more, and the steps of R161 follow (R388, R153). -/
def State.beginEnd (s : State) (n how : Nat) : State :=
  let s := s.leaveRgq n
  s.modCtx n fun c => { c.modSys (fun y => { y with ending := how, deferred := none }) with stage := { out := c.stage.out }, fetched := [], begun := false }

/-- Handler entry, steps 2 to 5 (R386). -/
def Ctx.enterHandler (c : Ctx) (cfg : JobCfg) (i : FaultInfo) (ret : Word) (seq : Nat) : Ctx :=
  let c := { c with loads := c.loads.map fun (l : OpenLoad) => match l.dst with | .x 63 t => { l with dst := .bank63 t } | _ => l }
  let c := c.modSys fun y =>
    { y with epc := ret, estat := BitVec.ofNat 64 (seq % 2 ^ 32 * 2 ^ 32 + 256 + i.code), x63 := c.getX 63,
             mxHnd := {}, lvl := .handler }
  { (c.setX 63 (BitVec.ofNat 64 (recordVA cfg seq))).anew with pc := cfg.hentry }

/-- Whether a node may be re-executed once more (R415): no disqualifying step, no RW entry, no R entry that
overlaps a W entry, fewer than two re-executions. -/
def Node.restartable (x : Node) : Bool :=
  let meets (a b : BitVec 128) : Bool :=
    decide (fpBase a < fpBase b + fpLen b) && decide (fpBase b < fpBase a + fpLen a)
  !x.marked && decide (x.attempt < 2) && x.fpt.all (fpAcc · != 3)
    && !(x.fpt.any fun a => fpAcc a == 1 && x.fpt.any fun b => fpAcc b == 2 && meets a b)

/-- The node of a run in which an uncorrectable error arose is to be executed again (R415). -/
def State.redoes (s : State) (n : Nat) (i : FaultInfo) : Bool :=
  let r := (s.ctx n).run
  i.code == clsSecurity
    && match (s.job r.job).node? r.graph r.node with
       | some x => x.redo || x.restartable
       | none => false
def State.redo (s : State) (n : Nat) : State :=
  let r := (s.ctx n).run
  s.modJob r.job fun j => j.modNode r.graph r.node fun x => { x with redo := true }

/-- Taking a fault in a context: its record, then the handler or the end of the run (R386, R388). The pc is
that of the faulting instruction and ret the one RTE resumes at. An uncorrectable error in a run of a
restartable node is no fault: the node is executed again (R415). -/
def State.raise (s : State) (n : Nat) (pc ret : Word) (i : FaultInfo) : State :=
  if s.redoes n i then s.redo n
  else
  let c := s.ctx n
  let cfg := (s.job c.run.job).cfg
  let res := resumable c.sys.lvl i
  match s.post c.run.job (cluOf n) (recordWords c pc res i) with
  | (t, some seq) =>
    if res && cfg.hentry != 0 then (t.leaveRgq n).modCtx n fun c => c.enterHandler cfg i ret seq else t.beginEnd n 2
  | (t, none) => t.beginEnd n 2

/-- A fault of the running instruction at its own PC (R385). -/
def State.fault (s : State) (i : FaultInfo) : State := s.raise s.cur s.me.pc s.me.pc i

/-- A record of the scheduler, with no run (R42, R137, R139, R413). -/
def State.postSched (s : State) (j : Nat) (i : FaultInfo) (graph node : Nat) : State :=
  (s.post j 0 [i.code * 2 ^ 56 + i.elem.toNat * 2 ^ 60 + 2 ^ 63, i.addr % 2 ^ 64, i.det % 2 ^ 16 * 2 ^ 48 + i.idx % 2 ^ 48,
    graph % 2 ^ 31 * 2 ^ 32 + node % 2 ^ 32]).1

/-- An instruction the word of which encodes nothing, or whose own checks raise ILLEGAL: its three words
stand in the record (Table 21-5). -/
def illegalInfo (w : BitVec 96) : FaultInfo :=
  { code := clsIllegal, addr := w.toNat % 2 ^ 64, idx := w.toNat / 2 ^ 64 }

/-- Return from the handler: x63, the run's matrix bank, the level and the PC (R387, steps 2 to 4). -/
def Ctx.leaveHandler (c : Ctx) : Ctx :=
  let d := (c.setX 63 c.sys.x63).modSys fun y => { y with lvl := .run }
  { d.jump c.sys.epc with
    loads := c.loads.map fun (l : OpenLoad) => match l.dst with | .bank63 t => { l with dst := .x 63 t } | _ => l }

/-- The word of the running instruction, as it was fetched, for the record of an ILLEGAL fault (R224). -/
def State.curWord (s : State) : BitVec 96 := BitVec.ofNat 96 (leNat s.me.fetched)

/-- The fault of a word that encodes nothing, and of checks that raise ILLEGAL (R242, R228). -/
def State.illegal (s : State) : State := (s.modMe Ctx.unissued).fault (illegalInfo s.curWord)

/-- The clusters that a job's partition holds. -/
def State.clusOf (s : State) (job : Nat) : List Nat := (s.clus.filter fun p => p.2.owner == some job).map (·.1)

/-- PRIV at the running instruction (R382). -/
def State.priv (s : State) : State := s.fault { code := clsPriv }

/-- An instruction that Table 20-1 admits at RUN and HANDLER alone: PRIV at FIRM (R364, R382). -/
def State.belowFirm (s : State) (f : State → Host.Outcome State Fault Refusal) : Host.Outcome State Fault Refusal :=
  if s.me.sys.lvl = .firm then .next s.priv else f s

end Sys2Proof.Machine
end

