-- ==== Sys2Proof/WellFormed.lean ====
section
/-!
DEFINITION. Which instructions the opcode map admits: the type, selector, flag and operand-kind
checks of steps 4 and 5 of R242, as one decidable predicate over the decoded form (R227 to R240,
Tables 13-1, 13-2, 14-1, 17-1, 18-2 and 20-1).
-/
namespace Sys2Proof

/-! Operand kinds. -/

/-- An unused field is all zero (R228). -/
def Opd.isNone (o : Opd) : Bool := o == .x 0
def Opd.isX : Opd → Bool | .x _ => true | _ => false
def Opd.isV : Opd → Bool | .v _ => true | _ => false
def Opd.isQ : Opd → Bool | .q _ _ => true | _ => false
/-- A queue with PK 0 (R227: the only form a destination admits). -/
def Opd.isQ0 : Opd → Bool | .q _ pk => !pk | _ => false
def Opd.isP : Opd → Bool | .p _ => true | _ => false
def Opd.isI : Opd → Bool | .imm _ => true | _ => false
def Opd.isL : Opd → Bool | .long _ => true | _ => false
def Opd.isSlot : Opd → Bool | .slot _ => true | _ => false
def Opd.isShape : Opd → Bool | .shape _ => true | _ => false
def Opd.isBar : Opd → Bool | .bar _ => true | _ => false
def Opd.isTile : Opd → Bool | .tile _ => true | _ => false
def Opd.isLevel : Opd → Bool | .level _ => true | _ => false
def Opd.isXQ (o : Opd) : Bool := o.isX || o.isQ
def Opd.isXQI (o : Opd) : Bool := o.isX || o.isQ || o.isI
def Opd.isXQIL (o : Opd) : Bool := o.isXQI || o.isL
def Opd.isXI (o : Opd) : Bool := o.isX || o.isI
def Opd.isVQ (o : Opd) : Bool := o.isV || o.isQ
def Opd.isXVQ (o : Opd) : Bool := o.isX || o.isVQ
/-- Destinations X or Q with PK 0. -/
def Opd.dXQ (o : Opd) : Bool := o.isX || o.isQ0
def Opd.dVQ (o : Opd) : Bool := o.isV || o.isQ0
def Opd.dXVQ (o : Opd) : Bool := o.isX || o.dVQ

/-- The special registers that Table 20-4 assigns (R376). -/
def sregAssigned (i : BitVec 12) : Bool :=
  [0x000, 0x001, 0x002, 0x004, 0x005, 0x010, 0x011, 0x012, 0x013, 0x014, 0x020, 0x030, 0x031,
   0x032, 0x033, 0x034, 0x035, 0x036, 0x037, 0x038, 0x039, 0x03A, 0x03B, 0x03C, 0x03D].contains i.toNat

def Opd.isSreg : Opd → Bool | .sreg i => sregAssigned i | _ => false

/-! Types. -/

def IntTy.isW (t : IntTy) : Bool := t == .s32 || t == .s64
def Esz.isS : Esz → Bool | .s8 | .s16 | .s32 | .s64 => true | _ => false
def Esz.isZ : Esz → Bool | .z8 | .z16 | .z32 | .z64 => true | _ => false
/-- ESZ 0 to 7 (IN of R240). -/
def Esz.isInt (t : Esz) : Bool := t.isS || t.isZ
/-- F of R240. -/
def Esz.isF : Esz → Bool | .fp16 | .bf16 | .fp32 => true | _ => false
/-- N of R240: ESZ 0 to 10. -/
def Esz.isN (t : Esz) : Bool := t.isInt || t.isF
/-- I4 of R240 as an ESZ. -/
def Esz.isI4 : Esz → Bool | .s32 | .s64 | .z32 | .z64 => true | _ => false
def Esz.isX64 : Esz → Bool | .s64 | .z64 => true | _ => false

/-! Layout I. -/

def OpI.dab (o : OpI) (d a b : Bool) (ty : Bool) : Bool :=
  d && a && b && ty && (!o.b.isL || o.ty == .s64)

/-- IADD and its like: a long immediate is admitted and takes TY S64 (R231). -/
def OpI.wfL (o : OpI) (ty : Bool) : Bool := o.dab o.d.dXQ o.a.isXQI o.b.isXQIL ty
def OpI.wf2 (o : OpI) (ty : Bool) : Bool := o.dab o.d.dXQ o.a.isXQI o.b.isXQI ty
def OpI.wfAcc (o : OpI) (ty : Bool) : Bool := o.dab o.d.isX o.a.isXQI o.b.isXQI ty
def OpI.wf1 (o : OpI) (ty : Bool) : Bool := o.dab o.d.dXQ o.a.isXQI o.b.isNone ty

def Cond.isInt (c : Cond) : Bool := c != .un && c != .ord

/-! Layout V. -/

/-- FLG as admitted: each flag set only where its argument allows it (R233, R320). -/
def OpV.flg (o : OpV) (sat bc z : Bool) : Bool := (!o.sat || sat) && (!o.bc || bc) && (!o.z || z)
def OpV.rm0 (o : OpV) : Bool := o.rm == .rne
/-- RM is zero wherever the result is not rounded (R320): every integer type. -/
def OpV.rmF (o : OpV) : Bool := o.et.isF || o.rm0
/-- Scalar FP: FLG zero, LP zero (R265). -/
def OpV.scal (o : OpV) : Bool := o.flg false false false && o.lp == 0
def OpV.bVec (o : OpV) : Bool := o.b.isVQ || (o.bc && o.b.isXI)
/-- All of MOD zero (R240). -/
def OpV.mod0 (o : OpV) : Bool := o.et == .s8 && o.rm0 && o.lp == 0 && o.flg false false false

def OpV.wfFp2 (o : OpV) (ty : Bool) : Bool :=
  o.scal && ty && o.d.dXQ && o.a.isXQI && o.b.isXQI
def OpV.wfFp1 (o : OpV) (ty : Bool) : Bool :=
  o.scal && ty && o.d.dXQ && o.a.isXQI && o.b.isNone
/-- VADD and its like (Table 17-1). -/
def OpV.wfLane (o : OpV) (ty sat : Bool) : Bool :=
  ty && o.d.dVQ && o.a.isVQ && o.bVec && o.flg sat true true
def OpV.wfUn (o : OpV) (ty sat : Bool) : Bool :=
  ty && o.d.dVQ && o.a.isVQ && o.b.isNone && o.flg sat false true && o.rm0

def RedOp.isArith : RedOp → Bool | .sum | .max | .min => true | _ => false
/-- The type rule of VRED: SUM, MAX and MIN on N, the bitwise operations on Z (R240). -/
def redTy (op : RedOp) (t : Esz) : Bool := if op.isArith then t.isN else t.isZ
/-- RM of a reduction is used only by a floating SUM (R320, R329). -/
def OpV.rmRed (o : OpV) (op : RedOp) : Bool := (o.et.isF && op == .sum) || o.rm0

def MapOp.hasB : MapOp → Bool | .add | .sub | .mul | .min | .max | .fma => true | _ => false
def mapTy (op : MapOp) (t : Esz) : Bool :=
  match op with
  | .add | .sub | .mul | .min | .max => t.isN
  | .fma => t.isF
  | .abs | .neg => t.isS || t.isF
  | .exp2 | .rcp | .tanh => t.isF
  | .dqnt => t == .fp32
def mapRm (op : MapOp) (t : Esz) : Bool :=
  match op with
  | .add | .sub | .mul | .fma => t.isF
  | .dqnt => true
  | _ => false
def mapSat (op : MapOp) (t : Esz) : Bool :=
  match op with
  | .add | .sub | .mul => t.isInt
  | .abs | .neg => t.isS
  | _ => false

/-! Layout M. -/

/-- The register kind suits ESZ (R289); an immediate only as store data. -/
def ldData (d : Opd) (t : Esz) (store : Bool) : Bool :=
  match d with
  | .x _ => t.isN
  | .v _ => t == .v64
  | .q _ pk => !pk
  | .imm _ => store && t.isN
  | _ => false

def OpM.addrWf (o : OpM) : Bool :=
  match o.am with
  | .imm | .priv => o.a.isX && o.b.isI
  | .scaled | .index => o.a.isX && o.b.isX
  | .pcrel => o.a.isNone && o.b.isI

def OpM.line (o : OpM) : Bool :=
  o.esz == .l128 && o.ord == .rlx && o.scope == .core && o.d.isX && o.addrWf
    && (o.am == .imm || o.am == .scaled || o.am == .index)

def OpM.rank (o : OpM) (store : Bool) : Bool :=
  o.esz != .l128 && ldData o.d o.esz store && o.addrWf && (o.am == .imm || o.am == .scaled)

def gthTy : Esz → Bool
  | .s16 | .s32 | .s64 | .z16 | .z32 | .z64 | .fp16 | .bf16 | .fp32 => true
  | _ => false

def OpM.gather (o : OpM) (d : Bool) : Bool :=
  gthTy o.esz && (o.am == .scaled || o.am == .index) && d && o.a.isX && o.b.isVQ

/-! Layout S. -/

def OpS.wf (o : OpS) (d a b : Bool) : Bool := o.scope == .core && d && a && b
def OpS.wfSync (_o : OpS) (d a b : Bool) : Bool := d && a && b

/-- Every check of steps 4 and 5 of R242 on a decoded instruction. A step of the machine (rows 194 to
267) is no instruction word and is well formed. -/
def Instr.wf : Instr → Bool
  | .iadd o | .isub o | .imul o => o.wfL true
  | .imulh o | .idiv o | .irem o | .imin o | .imax o => o.wf2 true
  | .imad o => o.wfAcc true
  | .ineg o | .iabs o => o.wf1 o.ty.isW
  | .icmp c _ o => o.wf2 c.isInt
  | .isel _ o => o.wf2 true
  | .lea _ o => o.wf2 (o.ty == .s64)
  | .clz o | .ctz o | .popc o | .brev o => o.wf1 o.ty.isW
  | .and o | .or o | .xor o => o.wfL o.ty.isW
  | .andn o | .orn o | .shl o | .shr o | .sar o | .rol o => o.wf2 o.ty.isW
  | .bfx o => o.wf2 true
  | .bfi o => o.wfAcc o.ty.isW
  | .sext _ o | .zext _ o => o.wf1 (o.ty == .s64)
  | .mov o => o.wf1 (o.ty == .s64)
  | .movi o => o.dab o.d.dXQ o.a.isNone (o.b.isI || o.b.isL) (o.ty == .s64)
  | .movhi o => o.dab o.d.dXQ o.a.isXQ (o.b.isI || o.b.isL) (o.ty == .s64)
  | .plog op o =>
      o.dab o.d.isP o.a.isP (if op == .not then o.b.isNone else o.b.isP) (o.ty == .s64)
  | .pmov o =>
      o.dab (o.d.isX || o.d.isP) (o.a.isX || o.a.isP || o.a.isI) o.b.isNone
        (o.ty == .s64 && !(o.d.isX && o.a.isX))
  | .fadd o | .fsub o | .fmul o => o.wfFp2 o.et.isF
  | .ffma o => o.scal && o.et.isF && o.d.isX && o.a.isXQI && o.b.isXQI
  | .fdiv o => o.wfFp2 (o.et == .fp32)
  | .fsqrt o => o.wfFp1 (o.et == .fp32)
  | .fmin o | .fmax o => o.wfFp2 (o.et.isF && o.rm0)
  | .fcmp _ o =>
      o.flg false false false && o.et.isF && o.rm0 && o.d.dXQ && o.a.isXQI && o.b.isXQI
  | .fcvt src o =>
      o.wfFp1 ((src.isF && o.et.isN && o.et != src) || (src.isInt && o.et.isF))
  | .fclass o => o.wfFp1 (o.et.isF && o.rm0)
  | .nop o | .ret o | .yield o | .halt o | .rte o => o.wf o.d.isNone o.a.isNone o.b.isNone
  | .br o | .call o => o.wf o.d.isNone o.a.isNone (o.b.isI || o.b.isL)
  | .calli o | .jmpi o => o.wf o.d.isNone o.a.isXQ o.b.isNone
  | .loop o => o.wf o.d.isX o.a.isNone o.b.isI
  | .fork o => o.wf o.d.isP o.a.isP o.b.isI
  | .spawn o => o.wf o.d.isP o.a.isX o.b.isXQI
  | .rspawn o => o.wf o.d.isP (o.a.isX && o.a != .x 63) o.b.isXQI
  | .join o | .haltRetain o => o.wf o.d.isNone o.a.isX o.b.isNone
  | .trap o =>
      o.wf o.d.isNone o.a.isNone (match o.b with | .imm i => decide (i.toNat ≤ 65535) | _ => false)
  | .ld o => ldData o.d o.esz false && o.addrWf
  | .st o => ldData o.d o.esz true && o.addrWf
  | .ldl o => o.rank false
  | .stl o => o.rank true
  | .prf o => o.line
  | .wbk o | .dis o | .inv o | .plf o => o.line && o.evp == 0
  | .rgsync _ => true
  | .amo op o =>
      (if op == .fadd then o.esz == .fp32 else o.esz.isI4) && o.d.dXQ && o.a.isX && o.b.isXQI
  | .cas o => o.esz.isI4 && o.d.isX && o.a.isX && o.b.isXQI
  | .red op o =>
      (if op == .fadd then o.esz == .fp32 else o.esz.isI4) && op != .swap
        && (o.ord == .rlx || o.ord == .rel) && o.d.isNone && o.a.isX && o.b.isXQI
  | .fput o => o.esz.isX64 && o.d.isP && o.a.isX && o.b.isXQI
  | .fget o | .fpeek _ o => o.esz.isX64 && o.d.dXQ && o.a.isX && o.b.isNone
  | .acq o | .rel o => o.wfSync o.d.isNone o.a.isX o.b.isNone
  | .fence o => o.wfSync o.d.isNone o.a.isNone o.b.isNone
  | .binit o => o.wf o.d.isP o.a.isBar o.b.isXI
  | .bexp o => o.wf o.d.isNone o.a.isBar o.b.isXI
  | .barv o => o.wfSync o.d.isNone o.a.isBar o.b.isNone
  | .bwait o => o.wfSync o.d.isNone o.a.isBar o.b.isXI
  | .btest o => o.wf o.d.dXQ o.a.isBar o.b.isNone
  | .brarv o => o.wfSync o.d.isNone o.a.isX o.b.isXI
  | .bbindCopy o | .bbindMxrow o => o.wf o.d.isNone o.a.isBar o.b.isNone
  | .bbindSink o => o.wf o.d.isNone o.a.isBar o.b.isSlot
  | .bbindCnt o => o.wf o.d.isX o.a.isBar o.b.isLevel
  | .sopen o => o.wf o.d.isSlot o.a.isX o.b.isNone
  | .sclose o | .srclImm o | .sfltAuto o | .sfltNever o | .sfltNear o =>
      o.wf o.d.isNone o.a.isSlot o.b.isNone
  | .srclAt o => o.wf o.d.isNone o.a.isSlot o.b.isXI
  | .ssnk o | .sstat o => o.wf o.d.dXQ o.a.isSlot o.b.isNone
  | .sevt o => o.wf o.d.dVQ o.a.isNone o.b.isNone
  | .qput o => o.wf o.d.isQ0 (o.a.isXVQ || o.a.isI) o.b.isNone
  | .qget o => o.wf o.d.dXVQ o.a.isQ o.b.isNone
  | .qpeek o => o.wf o.d.dXVQ o.a.isQ0 o.b.isNone
  | .qcnt o => o.wf o.d.isX o.a.isQ0 o.b.isNone
  | .qbind o => o.wf o.d.isQ0 o.a.isX o.b.isNone
  | .vadd o | .vsub o | .vmul o => o.wfLane o.et.isN o.et.isInt && o.rmF
  | .vmin o | .vmax o => o.wfLane o.et.isN false && o.rm0
  | .vfma o => o.wfLane (o.et.isF && o.d.isV) false
  | .vabs o | .vneg o => o.wfUn (o.et.isS || o.et.isF) o.et.isS
  | .vand o | .vor o | .vxor o | .vshl o | .vshr o => o.wfLane o.et.isZ false && o.rm0
  | .vsar o => o.wfLane o.et.isS false && o.rm0
  | .vcmp c o =>
      o.et.isN && (c.isInt || o.et.isF) && o.d.isP && o.a.isVQ && o.bVec && o.flg false true true
        && o.rm0
  | .vsel o => o.et.isZ && o.d.dVQ && o.a.isVQ && o.bVec && o.flg false true false && o.rm0
  | .vcvt src o =>
      src.isN && o.et.isN && src != o.et && o.d.dVQ && o.a.isVQ && (o.b.isI || o.b.isNone)
        && o.flg false false true && (o.et.isF || src.isF || o.rm0)
  | .vqnt _ o =>
      o.et == .fp32 && o.d.dVQ && o.a.isVQ && o.b.isVQ && o.flg false false false && o.lp == 7 && o.rm0
  | .vdqnt _ o =>
      o.et == .fp32 && o.d.dVQ && o.a.isVQ && (o.b.isI || o.b.isNone) && o.flg false false true
  | .vplane _ o | .vunpl _ o =>
      o.et == .s8 && o.d.dVQ && o.a.isVQ && o.b.isNone && o.flg false false false && o.lp == 7 && o.rm0
  | .vexp2 o | .vlog2 o | .vrcp o | .vrsq o | .vsin o | .vcos o | .vtanh o => o.wfUn o.et.isF false
  | .vld o => o.esz != .l128 && o.d.dVQ && o.addrWf
  | .vst o => o.esz != .l128 && o.d.dVQ && o.addrWf
  | .vgth o => o.gather o.d.dVQ
  | .vsct o => o.gather o.d.dVQ
  | .vred op o =>
      redTy op o.et && o.d.dXVQ && o.a.isVQ && o.b.isNone
        && o.flg (o.et.isInt && op == .sum) false false && o.rmRed op
  | .vscan op o =>
      op.isArith && o.et.isN && o.d.dVQ && o.a.isVQ && o.b.isNone && o.flg false false true
        && o.rmRed op
  | .vperm o => o.et.isZ && o.d.dVQ && o.a.isVQ && o.b.isVQ && o.flg false false true && o.rm0
  | .vbcast o =>
      o.et.isZ && o.d.dVQ && ((o.a.isVQ && o.b.isI) || (o.a.isXI && o.b.isNone))
        && o.flg false false true && o.rm0
  | .vext o =>
      o.et.isZ && o.d.isX && o.a.isVQ && o.b.isXI && o.flg false false false && o.lp == 7 && o.rm0
  | .vins o =>
      o.et.isZ && o.d.isV && o.a.isXI && o.b.isXI && o.flg false false false && o.lp == 7 && o.rm0
  | .vcprs o => o.et.isZ && o.d.dVQ && o.a.isVQ && o.b.isNone && o.flg false false false && o.rm0
  | .shdef o => o.mod0 && o.d.isShape && o.a.isX && o.b.isNone
  | .shmap op o =>
      mapTy op o.et && o.lp == 7 && o.d.isShape && o.a.isShape
        && (if op.hasB then (if o.bc then o.b.isXI else o.b.isShape) else o.b.isNone)
        && o.flg (mapSat op o.et) op.hasB false && (mapRm op o.et || o.rm0)
  | .shred op o =>
      op.isArith && o.et.isN && o.lp == 7 && o.d.isShape && o.a.isShape && o.b.isNone
        && o.flg (o.et.isInt && op == .sum) false false && o.rmRed op
  | .shqnt _ o =>
      o.et == .fp32 && o.lp == 7 && o.d.isShape && o.a.isShape && o.b.isNone
        && o.flg false false false && o.rm0
  | .shcpy o =>
      o.et.isZ && o.lp == 7 && o.d.isShape && o.a.isShape && o.b.isNone && o.flg false false false
        && o.rm0
  | .shstat o => o.mod0 && o.d.dXQ && o.a.isShape && o.b.isNone
  | .wclr o => o.mod0 && o.d.isX && o.a.isNone && o.b.isNone
  | .wadd o | .wsub o =>
      o.et == .fp32 && o.rm0 && o.scal && o.d.isX && o.a.isXQI && o.b.isXQI
  | .wrnd o => o.et == .s8 && o.scal && o.d.dXQ && o.a.isX && o.b.isNone
  | .waddv o =>
      o.et == .fp32 && o.rm0 && o.flg false false false && o.d.isX && o.a.isVQ && o.b.isVQ
  | .wstatWin o => o.mod0 && o.d.dXQ && o.a.isX && o.b.isNone
  | .mxcfg o | .mxmap o => o.d.isNone && o.a.isX && o.b.isNone
  | .mxalloc o => o.d.isP && o.a.isTile && o.b.isNone
  | .mxfree o => o.d.isNone && o.a.isTile && o.b.isNone
  | .mxzero o | .mxprom o => o.d.isTile && o.a.isNone && o.b.isNone
  | .mxmm o => o.d.isTile && o.a.isX && o.b.isX
  | .mxgmm o => o.d.isX && o.a.isX && o.b.isX
  | .mxcpy ofmt _ _ o => ofmt.isF && o.d.isX && o.a.isTile && o.b.isX
  | .mxlda o => o.d.isTile && o.a.isX && o.b.isXI
  | .mxstat o => o.d.dXQ && o.a.isTile && o.b.isNone
  | .mxfence o => o.d.isNone && o.a.isNone && o.b.isNone
  | .cpstart o | .cpstat o => o.wf o.d.dXQ o.a.isX o.b.isNone
  | .cpcan o => o.wf o.d.isNone o.a.isX o.b.isNone
  | .launch o => o.wf o.d.isP o.a.isX o.b.isX
  | .tnext o => o.wf o.d.isP o.a.isNone o.b.isNone
  | .split o => o.wf o.d.isP o.a.isX o.b.isXI
  | .wstat o => o.wf o.d.dVQ o.a.isX o.b.isXI
  | .cancel o => o.wf o.d.isNone o.a.isLevel o.b.isX
  | .cntrd o => o.wf o.d.dXQ o.a.isLevel o.b.isX
  | .ahnd o =>
      o.wf o.d.dXQ (match o.a with | .x _ => true | .imm i => decide (i.toNat ≤ 3) | _ => false)
        o.b.isNone
  | .grpopGopen o => o.wf o.d.isX o.a.isX o.b.isNone
  | .grpopGclose o | .grpopPclose o => o.wf o.d.isNone o.a.isX o.b.isNone
  | .grpopPopen o => o.wf o.d.isX o.a.isNone o.b.isNone
  | .csrr o => o.wf o.d.dXQ o.a.isSreg o.b.isNone
  | .csrw o => o.wf o.d.isSreg o.a.isXI o.b.isNone
  | .tlbinvRange o => o.wf o.d.isNone o.a.isX o.b.isX
  | .tlbinvSubpage o => o.wf o.d.isNone o.a.isX o.b.isNone
  | .tlbinvJob o => o.wf o.d.isNone o.a.isNone o.b.isNone
  | .rdtime o | .rdrand o => o.wf o.d.dXQ o.a.isNone o.b.isNone
  | .ebreak o => o.wf o.d.isNone o.a.isNone o.b.isNone
  | .pmrd o =>
      o.wf o.d.dXQ (match o.a with | .x _ => true | .imm i => decide (i.toNat ≤ 15) | _ => false)
        o.b.isNone
  | .jmark o => o.wf o.d.isNone o.a.isNone (o.b.isI || o.b.isL)
  | .drain .. | .perform .. | .deliver .. | .loopBackDeliver .. | .writeBack .. | .drop ..
  | .recallMerge .. | .fetch .. | .streamDeliver .. | .combine .. | .streamWrite .. | .float ..
  | .hop .. | .streamRecall .. | .streamLeaveBank .. | .ringTileReady .. | .ringSlotReturn ..
  | .mxCommandStart .. | .jobElement .. | .complete .. | .deferredFaultRaise .. | .nodeReady ..
  | .leaseAcquire .. | .arenaBirth .. | .walkerCreate .. | .handout .. | .runStart ..
  | .bankClearComplete .. | .dequeRefill .. | .cancelledHalt .. | .priorityAge .. | .retainExpire ..
  | .nodeComplete .. | .arenaDeath .. | .discardClusterStep .. | .discardHomeStep ..
  | .discardComplete .. | .arenaSweep .. | .shootdownAck .. | .pageMove .. | .formatWindowWrite ..
  | .jobConfigure .. | .thermalHotSet .. | .thermalHotClear .. | .preemptStop .. | .preemptWithdraw ..
  | .preemptDrain .. | .preemptSave .. | .restore .. | .flitReceive .. | .linkBringup ..
  | .inboundRequest .. | .hostLaunch .. | .hostCancel .. | .hostCntrd .. | .attest .. | .tokenRefill ..
  | .firmwareLoad .. | .debugToken .. | .debugTokenExpire | .provisioningFuse | .coldReset
  | .packageOff | .securityAlarm .. | .islandGate .. | .islandWake .. | .clockBoost ..
  | .dieRetention .. | .correctedError .. | .uncorrectableError .. | .debugAccess ..
  | .hbmChannelAcknowledge .. | .dieRetentionExit .. | .healthTestFailure => true

end Sys2Proof
end

