-- ==== Sys2Proof/Machine/Flags.lean ====
section
/-!
DEFINITION. Number formats, rounding and the floating flags (R202 to R209): exact arithmetic on integers,
one rounding at the end, and the flags it sets.
-/
namespace Sys2Proof.Machine

/-! ## Flags of FSTAT (Table 10-3) -/

def fNX : Nat := 1
def fUF : Nat := 2
def fOF : Nat := 4
def fDZ : Nat := 8
def fNV : Nat := 16

/-- A result with the flags it raises. -/
abbrev Flagged := Nat × Nat

/-! ## Formats (Table 10-2) -/

/-- Exponent and fraction widths of a floating format. -/
structure Fmt where
  eb : Nat
  fb : Nat
  deriving DecidableEq, Repr

def fp32 : Fmt := ⟨8, 23⟩
def fp16 : Fmt := ⟨5, 10⟩
def bf16 : Fmt := ⟨8, 7⟩

def Fmt.width (f : Fmt) : Nat := f.eb + f.fb + 1
def Fmt.bias (f : Fmt) : Int := (2 ^ (f.eb - 1) : Nat) - 1
/-- Least normal exponent. -/
def Fmt.emin (f : Fmt) : Int := 1 - f.bias
/-- The canonical NaN (R204). -/
def Fmt.nan (f : Fmt) : Nat := (2 ^ f.eb - 1) * 2 ^ f.fb + 2 ^ (f.fb - 1)
def Fmt.inf (f : Fmt) (neg : Bool) : Nat := neg.toNat * 2 ^ (f.eb + f.fb) + (2 ^ f.eb - 1) * 2 ^ f.fb
def Fmt.zero (f : Fmt) (neg : Bool) : Nat := neg.toNat * 2 ^ (f.eb + f.fb)
def Fmt.one (f : Fmt) (neg : Bool) : Nat := neg.toNat * 2 ^ (f.eb + f.fb) + (2 ^ (f.eb - 1) - 1) * 2 ^ f.fb
/-- The largest finite magnitude. -/
def Fmt.big (f : Fmt) (neg : Bool) : Nat := f.inf neg - 1

/-- A floating value: a NaN, an infinity, or ± m × 2^e. -/
inductive FVal
  | nan
  | inf (neg : Bool)
  | fin (neg : Bool) (m : Nat) (e : Int)
  deriving DecidableEq, Repr

/-- The value of a bit pattern (R203). -/
def Fmt.val (f : Fmt) (w : Nat) : FVal :=
  let neg := w / 2 ^ (f.eb + f.fb) % 2 == 1
  let ex := w / 2 ^ f.fb % 2 ^ f.eb
  let fr := w % 2 ^ f.fb
  if ex = 2 ^ f.eb - 1 then (if fr = 0 then .inf neg else .nan)
  else if ex = 0 then .fin neg fr (f.emin - f.fb)
  else .fin neg (2 ^ f.fb + fr) (f.emin - f.fb + (ex - 1 : Nat))

def FVal.isNan : FVal → Bool | .nan => true | _ => false
def FVal.isInf : FVal → Bool | .inf _ => true | _ => false
def FVal.isZero : FVal → Bool | .fin _ m _ => m == 0 | _ => false
def FVal.neg? : FVal → Bool | .nan => false | .inf n => n | .fin n _ _ => n
def FVal.negate : FVal → FVal | .nan => .nan | .inf n => .inf !n | .fin n m e => .fin (!n) m e

/-! ## Rounding (R205) -/

/-- Whether the magnitude is rounded up: r is the quotient, half compares the remainder with one half
(less, equal, greater), exact says there is no remainder. -/
def roundUp (rm : Rm) (neg : Bool) (r : Nat) (half : Ordering) (exact : Bool) : Bool :=
  !exact &&
    match rm with
    | .rne => half == .gt || (half == .eq && r % 2 == 1)
    | .rtz => false
    | .rup => !neg
    | .rdn => neg

/-- m × 2^-sh rounded to an integer, and whether that is inexact; sticky says the true magnitude lies
strictly between m and m + 1. -/
def roundShift (rm : Rm) (neg : Bool) (m sh : Nat) (sticky : Bool) : Nat × Bool :=
  let r := m >>> sh
  let rem := m % 2 ^ sh
  let exact := rem == 0 && !sticky
  let half : Ordering :=
    if sh = 0 then .lt
    else if rem = 2 ^ (sh - 1) then (if sticky then .gt else .eq)
    else if rem < 2 ^ (sh - 1) then .lt else .gt
  ((if roundUp rm neg r half exact then r + 1 else r), !exact)

/-- Overflow (R205). -/
def Fmt.overflow (f : Fmt) (rm : Rm) (neg : Bool) : Nat :=
  match rm with
  | .rne => f.inf neg
  | .rtz => f.big neg
  | .rup => if neg then f.big neg else f.inf neg
  | .rdn => if neg then f.inf neg else f.big neg

/-- RND of ± m × 2^e (a sticky magnitude has more than fb + 2 bits), with OF, UF and NX (R205, R207). -/
def Fmt.rnd (f : Fmt) (rm : Rm) (neg : Bool) (m : Nat) (e : Int) (sticky : Bool) : Flagged :=
  if m = 0 ∧ sticky = false then (f.zero neg, 0)
  else
    let top : Int := e + (Nat.log2 m : Nat)
    let q : Int := max (top - f.fb) (f.emin - f.fb)
    let (r, inexact) :=
      if q ≤ e then (m <<< (e - q).toNat, sticky) else roundShift rm neg m (q - e).toNat sticky
    let (r, q) := if r = 2 ^ (f.fb + 1) then (2 ^ f.fb, q + 1) else (r, q)
    let nx := if inexact then fNX else 0
    if r < 2 ^ f.fb then
      (f.zero neg + r, nx ||| (if inexact then fUF else 0))
    else
      let ex := (q + f.fb - f.emin + 1).toNat
      if ex ≥ 2 ^ f.eb - 1 then (f.overflow rm neg, fOF ||| fNX)
      else
        let tiny :=
          decide (top < f.emin) &&
            !(decide (top = f.emin - 1) &&
              (roundShift rm neg m (top - f.fb - e).toNat sticky).1 == 2 ^ (f.fb + 1))
        (f.zero neg + ex * 2 ^ f.fb + (r - 2 ^ f.fb), nx ||| (if tiny && inexact then fUF else 0))

/-! ## Arithmetic (R274) -/

/-- The exact sum of two finite values, as an integer multiple of a power of two. -/
def sumExact (an : Bool) (am : Nat) (ae : Int) (bn : Bool) (bm : Nat) (be : Int) : Int × Int :=
  let e := min ae be
  let a : Int := (am <<< (ae - e).toNat : Nat)
  let b : Int := (bm <<< (be - e).toNat : Nat)
  ((if an then -a else a) + (if bn then -b else b), e)

/-- a + b rounded once; an exact zero has IEEE 754's sign (R205). -/
def Fmt.addV (f : Fmt) (rm : Rm) (a b : FVal) : Flagged :=
  match a, b with
  | .nan, _ | _, .nan => (f.nan, 0)
  | .inf x, .inf y => if x = y then (f.inf x, 0) else (f.nan, fNV)
  | .inf x, _ => (f.inf x, 0)
  | _, .inf y => (f.inf y, 0)
  | .fin an am ae, .fin bn bm be =>
    let (v, e) := sumExact an am ae bn bm be
    if v = 0 then
      (f.zero (if am = 0 ∧ bm = 0 ∧ an = bn then an else rm == .rdn), 0)
    else f.rnd rm (decide (v < 0)) v.natAbs e false

/-- The exact product. -/
def mulV (a b : FVal) : FVal × Nat :=
  match a, b with
  | .nan, _ | _, .nan => (.nan, 0)
  | .inf x, .inf y => (.inf (x != y), 0)
  | .inf x, .fin y m _ => if m = 0 then (.nan, fNV) else (.inf (x != y), 0)
  | .fin x m _, .inf y => if m = 0 then (.nan, fNV) else (.inf (x != y), 0)
  | .fin x m e, .fin y k d => (.fin (x != y) (m * k) (e + d), 0)

/-- A value rounded to a format. -/
def Fmt.rndV (f : Fmt) (rm : Rm) (v : FVal) : Flagged :=
  match v with
  | .nan => (f.nan, 0)
  | .inf n => (f.inf n, 0)
  | .fin n m e => f.rnd rm n m e false

def Fmt.add (f : Fmt) (rm : Rm) (a b : Nat) : Flagged := f.addV rm (f.val a) (f.val b)
def Fmt.sub (f : Fmt) (rm : Rm) (a b : Nat) : Flagged := f.addV rm (f.val a) (f.val b).negate
def Fmt.mul (f : Fmt) (rm : Rm) (a b : Nat) : Flagged :=
  let (p, fl) := mulV (f.val a) (f.val b)
  let (r, g) := f.rndV rm p
  (r, fl ||| g)
/-- a × b + d, rounded once; 0 × ∞ is invalid whatever d is (R274). -/
def Fmt.fma (f : Fmt) (rm : Rm) (a b d : Nat) : Flagged :=
  let (p, fl) := mulV (f.val a) (f.val b)
  if fl ≠ 0 then (f.nan, fl) else f.addV rm p (f.val d)

/-- a / b rounded once (R274). -/
def Fmt.div (f : Fmt) (rm : Rm) (a b : Nat) : Flagged :=
  match f.val a, f.val b with
  | .nan, _ | _, .nan => (f.nan, 0)
  | .inf _, .inf _ => (f.nan, fNV)
  | .inf x, .fin y _ _ => (f.inf (x != y), 0)
  | .fin x _ _, .inf y => (f.zero (x != y), 0)
  | .fin x m e, .fin y k d =>
    if k = 0 then (if m = 0 then (f.nan, fNV) else (f.inf (x != y), fDZ))
    else if m = 0 then (f.zero (x != y), 0)
    else
      let n := m <<< 64
      f.rnd rm (x != y) (n / k) (e - d - 64) (n % k != 0)

/-- The integer square root, bit by bit from the top. -/
def isqrt : Nat → Nat → Nat → Nat
  | 0, _, r => r
  | k + 1, n, r =>
    let t := r + 2 ^ k
    isqrt k n (if t * t ≤ n then t else r)

/-- √a rounded once; √−0 is −0 (R274). -/
def Fmt.sqrt (f : Fmt) (rm : Rm) (a : Nat) : Flagged :=
  match f.val a with
  | .nan => (f.nan, 0)
  | .inf n => if n then (f.nan, fNV) else (f.inf false, 0)
  | .fin n m e =>
    if m = 0 then (f.zero n, 0)
    else if n then (f.nan, fNV)
    else
      let (m, e) := if e % 2 = 0 then (m, e) else (2 * m, e - 1)
      let w := m <<< 64
      let r := isqrt 50 w 0
      f.rnd rm false r (e / 2 - 32) (r * r != w)

/-! ## Comparison (R275, R276, R278) -/

/-- Order of two values that are not NaN, zeros equal. -/
def FVal.cmp (a b : FVal) : Ordering :=
  match a, b with
  | .inf x, .inf y => if x = y then .eq else if x then .lt else .gt
  | .inf x, _ => if x then .lt else .gt
  | _, .inf y => if y then .gt else .lt
  | .fin an am ae, .fin bn bm be =>
    let (v, _) := sumExact an am ae (!bn) bm be
    if v < 0 then .lt else if v = 0 then .eq else .gt
  | _, _ => .eq

/-- FMIN and FMAX: a NaN operand gives the canonical NaN, −0 orders below +0 (R275). -/
def Fmt.minmax (f : Fmt) (mx : Bool) (a b : Nat) : Nat :=
  let x := f.val a
  let y := f.val b
  if x.isNan || y.isNan then f.nan
  else
    let lt := match x.cmp y with
      | .lt => true | .gt => false | .eq => x.neg? && !y.neg?
    if lt != mx then a % 2 ^ f.width else b % 2 ^ f.width

/-- FCMP (R276): the truth and NV. -/
def Fmt.compare (f : Fmt) (c : Cond) (a b : Nat) : Bool × Nat :=
  let x := f.val a
  let y := f.val b
  if x.isNan || y.isNan then
    match c with
    | .ne | .un => (true, 0)
    | .eq | .ord => (false, 0)
    | .lt | .le | .gt | .ge => (false, fNV)
  else
    let o := x.cmp y
    match c with
    | .eq => (o == .eq, 0) | .ne => (o != .eq, 0) | .lt => (o == .lt, 0) | .le => (o != .gt, 0)
    | .gt => (o == .gt, 0) | .ge => (o != .lt, 0) | .un => (false, 0) | .ord => (true, 0)

/-- FCLASS (R278): the number of the class bit. -/
def Fmt.cls (f : Fmt) (a : Nat) : Nat :=
  match f.val a with
  | .nan => 8
  | .inf n => if n then 0 else 7
  | .fin n m _ =>
    if m = 0 then (if n then 3 else 4)
    else if m < 2 ^ f.fb then (if n then 2 else 5)
    else (if n then 1 else 6)

/-- SAT (R202). -/
def sat (lo hi v : Int) : Int := if v < lo then lo else if v > hi then hi else v
/-- The low w bits of an integer. -/
def lowBits (w : Nat) (v : Int) : Nat := (v % (2 ^ w : Nat)).toNat

end Sys2Proof.Machine

namespace Sys2Proof

/-! ## Integers (R202, R262) -/

/-- Width of a type in bits. -/
def Esz.width : Esz → Nat
  | .s8 | .z8 => 8 | .s16 | .z16 | .fp16 | .bf16 => 16 | .s32 | .z32 | .fp32 => 32
  | .s64 | .z64 => 64 | .v64 => 512 | .l128 => 1024
/-- Size in bytes (R289). -/
def Esz.size (t : Esz) : Nat := t.width / 8

/-- The integer a bit pattern of a type stands for (R202). -/
def Esz.toInt (t : Esz) (v : Nat) : Int :=
  if t.isS then Machine.toSigned t.width v else (v % 2 ^ t.width : Nat)
def Esz.lo (t : Esz) : Int := if t.isS then -(2 ^ (t.width - 1) : Nat) else 0
def Esz.hi (t : Esz) : Int := if t.isS then (2 ^ (t.width - 1) : Nat) - 1 else (2 ^ t.width : Nat) - 1
/-- A value of a type, wrapped or saturated. -/
def Esz.fit (t : Esz) (s : Bool) (v : Int) : Nat :=
  Machine.lowBits t.width (if s then Machine.sat t.lo t.hi v else v)

def Esz.fmt? : Esz → Option Machine.Fmt
  | .fp16 => some Machine.fp16 | .bf16 => some Machine.bf16 | .fp32 => some Machine.fp32 | _ => none

end Sys2Proof

namespace Sys2Proof.Machine

/-! ## Conversions (R110, R206, R277) -/

/-- ± m × 2^e rounded to an integer, and whether that is inexact. -/
def roundInt (rm : Rm) (neg : Bool) (m : Nat) (e : Int) : Int × Bool :=
  let (r, nx) := if 0 ≤ e then (m <<< e.toNat, false) else roundShift rm neg m (-e).toNat false
  ((if neg then -(r : Int) else r), nx)

/-- A floating value to an integer type: saturating, NaN gives 0; NV on NaN or saturation, else NX (R277). -/
def toIntTy (t : Esz) (rm : Rm) (v : FVal) : Flagged :=
  match v with
  | .nan => (0, fNV)
  | .inf n => (lowBits (t.width) (if n then t.lo else t.hi), fNV)
  | .fin n m e =>
    if e > 70 ∧ m ≠ 0 then (lowBits (t.width) (if n then t.lo else t.hi), fNV)
    else
      let (i, nx) := roundInt rm n m e
      if i < t.lo ∨ i > t.hi then (lowBits (t.width) (sat t.lo t.hi i), fNV)
      else (lowBits (t.width) i, if nx then fNX else 0)

/-- One conversion between two formats of Tables 10-1 and 10-2 (R110, R206). Integer to integer saturates. -/
def convert (src dst : Esz) (rm : Rm) (v : Nat) : Flagged :=
  match src.fmt?, dst.fmt? with
  | none, none => (dst.fit true (src.toInt v), 0)
  | none, some f =>
    let i := src.toInt v
    f.rnd rm (decide (i < 0)) i.natAbs 0 false
  | some g, none => toIntTy dst rm (g.val v)
  | some g, some f => f.rndV rm (g.val v)

/-! ## FP26 (R208, R209) -/

/-- An FP26 value as a sign, magnitude and exponent; the inner accumulator of the matrix array. -/
inductive V26
  | nan
  | fin (neg : Bool) (m : Nat) (e : Int)
  deriving DecidableEq, Repr

/-- FIT26 of ± m × 2^e: 18 significant bits, ties to even; OVF and UF beside the value. -/
def fit26 (neg : Bool) (m : Nat) (e : Int) : V26 × Bool × Bool :=
  if m = 0 then (.fin neg 0 0, false, false)
  else
    let sh := Nat.log2 m - 17
    let (r, _) := roundShift .rne neg m sh false
    let (r, e) := (r, e + (sh : Nat))
    let top : Int := e + (Nat.log2 r : Nat)
    if top ≥ 128 then (.fin neg (2 ^ 18 - 1) 110, true, false)
    else if top < -126 then (.fin neg 0 0, false, true)
    else (.fin neg r e, false, false)

/-- SCALE26 of the exact integer I by 2^k, FP26(I) first (R209). -/
def scale26 (i k : Int) : V26 × Bool × Bool :=
  match fit26 (decide (i < 0)) i.natAbs 0 with
  | (.fin n m e, o, u) => if m = 0 then (.fin n 0 0, o, u) else
      let (v, o2, u2) := fit26 n m (e + k)
      (v, o || o2, u || u2)
  | (.nan, o, u) => (.nan, o, u)

/-- ADD26 (R209). -/
def add26 (u v : V26) : V26 × Bool × Bool :=
  match u, v with
  | .nan, _ | _, .nan => (.nan, false, false)
  | .fin an am ae, .fin bn bm be =>
    let (w, e) := sumExact an am ae bn bm be
    if w = 0 then (.fin (am == 0 && bm == 0 && an && bn) 0 0, false, false)
    else fit26 (decide (w < 0)) w.natAbs e

/-- The FP32 value equal to an FP26 value, exactly (R209). -/
def V26.toFVal : V26 → FVal
  | .nan => .nan
  | .fin n m e => .fin n m e

/-! ## Block scales and planed formats (R210 to R216) -/

/-- Bytes of a block of precision p, and blocks of a line (Table 10-5). -/
def bpl (p : Nat) : Nat := 128 / (4 * p)

/-- Element e of a stored block of precision p, as p raw bits (R211). -/
def storedElt (p : Nat) (blk e : Nat) : Nat := blk / 2 ^ (e * p) % 2 ^ p
/-- Element e of a planed block read at precision d (R212, R213). -/
def planedElt (d : Nat) (blk e : Nat) : Nat :=
  (List.range d).foldl (fun a j => a + blk / 2 ^ (32 * j + e) % 2 * 2 ^ j) 0
/-- A p-bit element as a value of its signedness (R211). -/
def eltVal (z : Bool) (p raw : Nat) : Int := if z then (raw % 2 ^ p : Nat) else toSigned p raw

/-- A stored block transposed into planes, and back (R212). -/
def toPlanes (p blk : Nat) : Nat :=
  (List.range 32).foldl (fun a e =>
    (List.range p).foldl (fun a j => a + storedElt p blk e / 2 ^ j % 2 * 2 ^ (32 * j + e)) a) 0
def fromPlanes (p blk : Nat) : Nat :=
  (List.range 32).foldl (fun a e => a + planedElt p blk e * 2 ^ (e * p)) 0

/-- The planed image of a stored line of precision p, padding zero (R66). -/
def planeLine (p line : Nat) : Nat :=
  (List.range (bpl p)).foldl (fun a k =>
    a + toPlanes p (line / 2 ^ (8 * (k * 4 * p)) % 2 ^ (32 * p)) * 2 ^ (8 * (k * 4 * p))) 0

/-- QUANT (R215): the stored block and the scale byte. -/
def quant (p : Nat) (z : Bool) (xs : List Nat) : Nat × Nat :=
  let vs := xs.map fp32.val
  if vs.any FVal.isNan then (0, 255)
  else
    let lg (v : FVal) : Option Int :=
      match v with
      | .fin _ m e => if m = 0 then none else some (e + (Nat.log2 m : Nat))
      | _ => some 1000
    let top := vs.foldl (fun (a : Option Int) v =>
      match a, lg v with
      | none, x => x
      | x, none => x
      | some x, some y => some (max x y)) none
    match top with
    | none => (0, 127)
    | some t =>
      let e := sat (-126) 127 (t - (if z then (p : Int) - 1 else (p : Int) - 2))
      let lo : Int := if z then 0 else -(2 ^ (p - 1) : Nat)
      let hi : Int := if z then (2 ^ p : Nat) - 1 else (2 ^ (p - 1) : Nat) - 1
      let q (v : FVal) : Int :=
        match v with
        | .inf n => if n then lo else hi
        | .fin n m x => if x - e > 40 ∧ m ≠ 0 then (if n then lo else hi) else sat lo hi (roundInt .rne n m (x - e)).1
        | .nan => 0
      ((vs.zipIdx).foldl (fun a v => a + lowBits p (q v.1) * 2 ^ (v.2 * p)) 0, (e + 127).toNat)

/-- Dequantisation of an element value under an E8 scale (R216). -/
def dequant (rm : Rm) (elt : Int) (scale : Nat) : Nat :=
  if scale = 255 then fp32.nan
  else (fp32.rnd rm (decide (elt < 0)) elt.natAbs ((scale : Int) - 127) false).1

/-! ## Operations of atomics, streams and reductions (R92, R111, R329) -/

/-- Table 05-2 at a width: the new value. -/
def aopVal (op : Aop) (t : Esz) (old b : Nat) : Nat :=
  let w := t.width
  match op with
  | .swap => b % 2 ^ w
  | .add => (old + b) % 2 ^ w
  | .and => (old % 2 ^ w) &&& (b % 2 ^ w)
  | .or => (old % 2 ^ w) ||| (b % 2 ^ w)
  | .xor => (old % 2 ^ w) ^^^ (b % 2 ^ w)
  | .min => if t.toInt old ≤ t.toInt b then old % 2 ^ w else b % 2 ^ w
  | .max => if t.toInt old ≤ t.toInt b then b % 2 ^ w else old % 2 ^ w
  | .fadd => (fp32.add .rne old b).1

/-- Identity for RB partials (Table 05-2). -/
def aopId (op : Aop) (t : Esz) : Nat :=
  let w := t.width
  match op with
  | .and => 2 ^ w - 1
  | .min => lowBits w t.hi
  | .max => lowBits w t.lo
  | .fadd => 0x80000000
  | _ => 0

/-- Identity of a reduction (R329): for a floating type −0, −∞ and +∞. -/
def redId (op : RedOp) (t : Esz) : Nat :=
  match t.fmt?, op with
  | some f, .sum => f.zero true
  | some f, .max => f.inf true
  | some f, .min => f.inf false
  | some _, _ => 0
  | none, .sum => 0
  | none, .max => lowBits (t.width) t.lo
  | none, .min => lowBits (t.width) t.hi
  | none, .and => 2 ^ t.width - 1
  | none, .or => 0
  | none, .xor => 0

/-- One step of a reduction (R329): integer SUM is kept exact by the caller. -/
def redStep (op : RedOp) (t : Esz) (rm : Rm) (acc x : Nat) : Flagged :=
  match t.fmt?, op with
  | some f, .sum => f.add rm acc x
  | some f, .max => (f.minmax true acc x, 0)
  | some f, .min => (f.minmax false acc x, 0)
  | some _, _ => (acc, 0)
  | none, .sum => (aopVal .add t acc x, 0)
  | none, .max => (aopVal .max t acc x, 0)
  | none, .min => (aopVal .min t acc x, 0)
  | none, .and => (acc &&& x, 0)
  | none, .or => (acc ||| x, 0)
  | none, .xor => (acc ^^^ x, 0)

/-- The IEEE 754 sign of a value's written form at a width, for a vector or scalar operation's flags. -/
def Ctx.raiseFlags (c : Ctx) (fl : Nat) : Ctx := if fl = 0 then c else c.orFstat (BitVec.ofNat 64 fl)

end Sys2Proof.Machine
end

