-- ==== Sys2Proof/Machine/Desc.lean ====
section
/-!
DEFINITION. Fields of a stream descriptor (Table 06-1), the element addresses of its pattern (R108, R124)
and its checks at SOPEN (R109, R114).
-/
namespace Sys2Proof.Machine

/-- Bits [hi:lo] of the word at a byte offset of a stream descriptor. -/
def dsc (d : BitVec 512) (off hi lo : Nat) : Nat := fld (d.toNat >>> (8 * off)) hi lo

def dBase (d : BitVec 512) : Nat := dsc d 0 63 0
def dIsrc (d : BitVec 512) : Nat := dsc d 8 35 32
def dQf (d : BitVec 512) : Nat := dsc d 8 31 28
def dQr (d : BitVec 512) : Nat := dsc d 8 27 24
def dRm (d : BitVec 512) : Nat := dsc d 8 23 22
def dOutt (d : BitVec 512) : Nat := dsc d 8 21 18
def dNdm1 (d : BitVec 512) : Nat := dsc d 8 17 16
def dEvp (d : BitVec 512) : Nat := dsc d 8 15 13
def dFlt (d : BitVec 512) : Nat := dsc d 8 12 11
def dOp (d : BitVec 512) : Nat := dsc d 8 10 8
def dKind (d : BitVec 512) : Nat := dsc d 8 6 4
def dElt (d : BitVec 512) : Nat := dsc d 8 3 0
def dOpnd (d : BitVec 512) : Nat := dsc d 48 63 0
def dRbase (d : BitVec 512) : Nat := dsc d 56 19 0
def dNsm1 (d : BitVec 512) : Nat := dsc d 56 22 20
def dRmode (d : BitVec 512) : Nat := dsc d 56 23 23
def dPm1 (d : BitVec 512) : Nat := dsc d 56 26 24
def dSlotu (d : BitVec 512) : Nat := dsc d 56 43 32

def kLoad : Nat := 0
def kStore : Nat := 1
def kReduce : Nat := 2
def kRingLoad : Nat := 3
def kRingStore : Nat := 4
def kIndirect : Nat := 5

def dRing (d : BitVec 512) : Bool := dKind d == kRingLoad || dKind d == kRingStore
/-- LOAD and INDIRECT deliver entries (R112). -/
def dDelivers (d : BitVec 512) : Bool := dKind d == kLoad || dKind d == kIndirect
def dPlane (d : BitVec 512) : Bool := dKind d == kRingLoad && dRmode d == 1

/-- ESZ by code. -/
def eszOf : Nat → Option Esz
  | 0 => some .s8 | 1 => some .s16 | 2 => some .s32 | 3 => some .s64
  | 4 => some .z8 | 5 => some .z16 | 6 => some .z32 | 7 => some .z64
  | 8 => some .fp16 | 9 => some .bf16 | 10 => some .fp32 | 11 => some .v64 | 12 => some .l128
  | _ => none
/-- The element type; reserved codes do not pass SOPEN. -/
def dEsz (d : BitVec 512) : Esz := (eszOf (dElt d)).getD .s8
def rmOf (n : Nat) : Rm := match n % 4 with | 0 => .rne | 1 => .rtz | 2 => .rup | _ => .rdn

/-- Count and stride of a dimension; an unused dimension counts 1 (R108). -/
def dCount (d : BitVec 512) (i : Nat) : Nat :=
  if i ≤ dNdm1 d then dsc d (16 + 4 * i) 31 0 else 1
def dStride (d : BitVec 512) (i : Nat) : Int := toSigned 32 (dsc d (32 + 4 * i) 31 0)
/-- N (R108). -/
def dN (d : BitVec 512) : Nat := dCount d 0 * dCount d 1 * dCount d 2 * dCount d 3

/-- The indices of element e, dimension 0 fastest. -/
def dIdx (d : BitVec 512) (e i : Nat) : Nat :=
  match i with
  | 0 => e % dCount d 0
  | 1 => e / dCount d 0 % dCount d 1
  | 2 => e / dCount d 0 / dCount d 1 % dCount d 2
  | _ => e / dCount d 0 / dCount d 1 / dCount d 2

/-- Elements of a tile of a ring stream, and tiles of the pattern (R124). -/
def dTile (d : BitVec 512) : Nat := dCount d 0 * dCount d 1
def dTiles (d : BitVec 512) : Nat := dCount d 2 * dCount d 3

/-- Precision of PLANE mode, and its block offset o (R124). -/
def dP (d : BitVec 512) : Nat := dPm1 d + 1
def dPlaneOff (d : BitVec 512) (e : Nat) : Int :=
  let p := dP d
  dStride d 1 * (dIdx d e 1 : Nat) + dStride d 2 * (dIdx d e 2 : Nat) + dStride d 3 * (dIdx d e 3 : Nat)
    + ((dIdx d e 0 / bpl p * 128 + dIdx d e 0 % bpl p * (4 * p) : Nat) : Int)
/-- The scale VA of element e in PLANE mode (R124). -/
def dScaleAddr (d : BitVec 512) (e : Nat) : Nat :=
  let o := dPlaneOff d e
  let p := dP d
  mod64 ((dOpnd d : Nat) + (o / 128) * (bpl p : Nat) + o % 128 / (4 * p : Nat))

/-- ADDR(e) (R108), or the block VA of PLANE mode (R124). -/
def dAddr (d : BitVec 512) (e : Nat) : Nat :=
  if dPlane d then mod64 ((dBase d : Nat) + dPlaneOff d e)
  else mod64 ((dBase d : Nat) + dStride d 0 * (dIdx d e 0 : Nat) + dStride d 1 * (dIdx d e 1 : Nat)
    + dStride d 2 * (dIdx d e 2 : Nat) + dStride d 3 * (dIdx d e 3 : Nat))

/-- The addresses the elements of a pattern lie between; all where the pattern wraps, or an index gives the address. -/
def dBounds (d : BitVec 512) : Nat × Nat :=
  let span (f : Int → Int → Int) : Int :=
    (List.range 4).foldl (fun a i => a + f 0 (dStride d i * ((dCount d i : Nat) - 1 : Int))) 0
  let lo : Int := (dBase d : Nat) + span min
  let hi : Int := (dBase d : Nat) + span max + ((dEsz d).size : Nat)
  if dKind d = kIndirect ∨ dPlane d ∨ lo < 0 ∨ 2 ^ 64 < hi then (0, 2 ^ 64) else (lo.toNat, hi.toNat)

/-- Bytes of an element access. -/
def dSize (d : BitVec 512) : Nat := if dPlane d then 4 * dP d else (dEsz d).size

/-- The delivered type T (R112, R113). -/
def dT (d : BitVec 512) : Esz :=
  match dOp d with
  | 5 => .fp32
  | 6 => (eszOf (dOutt d)).getD .s8
  | _ => dEsz d
/-- Elements of one queue entry, and entries of one element (L128 fills two). -/
def dEpe (d : BitVec 512) : Nat := if dT d = .l128 then 1 else 64 / (dT d).size
def dPpe (d : BitVec 512) : Nat := if dT d = .l128 then 2 else 1

/-- Scale offset of a plane tile in its slot (R124). -/
def dScaleOff (d : BitVec 512) : Nat := (dTile d * (4 * dP d) + 127) / 128 * 128

/-- Where element e of a tile lies in its slot, from the base of the own-bank range (R124). -/
def dSlotAddr (d : BitVec 512) (slot e : Nat) : Nat :=
  let base := dRbase d + slot * dSlotu d * 128
  if dPlane d then base + (dIdx d e 0 * dCount d 1 + dIdx d e 1) * (4 * dP d)
  else base + (dIdx d e 1 * dCount d 0 + dIdx d e 0) * (dEsz d).size
def dSlotScale (d : BitVec 512) (slot e : Nat) : Nat :=
  dRbase d + slot * dSlotu d * 128 + dScaleOff d + dIdx d e 0 * dCount d 1 + dIdx d e 1

/-- Table 06-2. -/
def dKindOk (d : BitVec 512) : Bool :=
  let op := dOp d
  let elt := dElt d
  let n := decide (elt ≤ 10)
  let a := decide (elt ≤ 12)
  match dKind d with
  | 0 | 5 => (op == 0 && a) || ((op == 5 || op == 6) && n)
  | 1 => (op == 0 && a) || (op == 6 && n)
  | 2 => (op == 1 || op == 2 || op == 3 || op == 4) && n
  | 3 => op == 0 && (if dRmode d == 1 then elt == 0 else a)
  | 4 => op == 0 && a && dRmode d == 0
  | _ => false

/-- Reserved fields, and fields that are zero for the kind (Table 06-1). -/
def dZeroOk (d : BitVec 512) : Bool :=
  let unused := (List.range 4).all fun i =>
    decide (i ≤ dNdm1 d) || (dsc d (16 + 4 * i) 31 0 == 0 && dsc d (32 + 4 * i) 31 0 == 0)
  dsc d 56 63 44 == 0 && dsc d 56 31 27 == 0 && dsc d 8 63 36 == 0 && dsc d 8 7 7 == 0
    && dFlt d != 3 && unused
    && (dRing d || (dSlotu d == 0 && dRmode d == 0 && dRbase d == 0 && dQf d == 0))
    && (dPlane d || dPm1 d == 0)
    && (dPlane d || dOp d == 5 || dOpnd d == 0)
    && (dOp d == 6 || dOutt d == 0)
    && (dKind d == kIndirect || dIsrc d == 0)

/-- The ring conditions of R114. DESIGN CHOICE (assumption log 118): a base off a 128-byte line, and slots of no line, are refused
as its other conditions are. -/
def dRingOk (d : BitVec 512) : Bool :=
  !dRing d ||
    (decide (1 ≤ dSlotu d ∧ dSlotu d ≤ 3072) && dRbase d % 128 == 0
      && decide (dRbase d + (dNsm1 d + 1) * dSlotu d * 128 ≤ 0x60000)
      && (if dPlane d then
            dsc d 32 31 0 == 0 && dsc d 36 31 0 % 128 == 0 && decide (dScaleOff d + dTile d ≤ dSlotu d * 128)
          else decide (dTile d * (dEsz d).size ≤ dSlotu d * 128))
      && dQf d != dQr d)

/-- The checks of R114 on the descriptor alone. -/
def dscOk (d : BitVec 512) : Bool :=
  dKindOk d && dZeroOk d && decide (dN d ≤ 2 ^ 48 - 1) && (dOp d != 6 || decide (dOutt d ≤ 10)) && dRingOk d
    && dBase d % (if dPlane d then 128 else (dEsz d).size) == 0
    && (dKind d != kIndirect || dNdm1 d == 0)

/-! ## The attached operation (R110) -/

/-- What a stream delivers for one raw element. -/
def dApply (d : BitVec 512) (raw : List Byte) : List Byte :=
  let v := leNat raw
  let t := dEsz d
  let rm := rmOf (dRm d)
  match dOp d with
  | 5 =>
    let x := (convert t .fp32 rm v).1
    let x := if t = .fp32 then v else x
    leBytes 4 (fp32.fma rm (dOpnd d % 2 ^ 32) x (dOpnd d / 2 ^ 32)).1
  | 6 =>
    let o := dT d
    leBytes o.size (convert t o rm v).1
  | _ => raw

/-- What a STORE stream writes for one element taken from the queue. -/
def dUnapply (d : BitVec 512) (raw : List Byte) : List Byte :=
  if dOp d = 6 then leBytes (dEsz d).size (convert (dT d) (dEsz d) (rmOf (dRm d)) (leNat raw)).1
  else raw

/-- The entries that consecutive raw elements fill (R112). -/
def dPack (d : BitVec 512) (es : List FbElt) : List Vec :=
  let bs := es.flatMap fun e => dApply d e.raw
  if dT d = .l128 then [BitVec.ofNat 512 (leNat (bs.take 64)), BitVec.ofNat 512 (leNat (bs.drop 64))]
  else [BitVec.ofNat 512 (leNat bs)]

/-! ## Reductions (R111) -/

def redInit (d : BitVec 512) : Nat :=
  let t := dEsz d
  match dOp d, t.fmt? with
  | 1, none => 0
  | 1, some _ => fp32.zero true
  | 2, none => mod64 t.lo
  | 2, some _ => fp32.inf true
  | 3, none => mod64 t.hi
  | 3, some _ => fp32.inf false
  | _, _ => 0

/-- One element into the accumulator. -/
def redAcc (d : BitVec 512) (acc v : Nat) : Nat :=
  let t := dEsz d
  match dOp d, t.fmt? with
  | 1, none => (acc + mod64 (t.toInt v)) % 2 ^ 64
  | 1, some f => (fp32.addV (rmOf (dRm d)) (fp32.val acc) (f.val v)).1
  | 4, none => if v % 2 ^ t.width = 0 then acc else acc + 1
  | 4, some f => if (f.val v).isZero then acc else acc + 1
  | op, none =>
    let a := if t.isS then toSigned 64 acc else (acc : Int)
    let b := t.toInt v
    mod64 (if op = 2 then max a b else min a b)
  | op, some f => fp32.minmax (op == 2) acc (fp32.rndV .rne (f.val v)).1

/-! ## Job cards -/

/-- Fields of a job card (Table 18-9). -/
def cardSrc (d : BitVec 512) : Nat := dsc d 0 63 0
def cardDst (d : BitVec 512) : Nat := dsc d 8 63 0
def cardC0 (d : BitVec 512) : Nat := dsc d 16 31 0
def cardC1 (d : BitVec 512) : Nat := dsc d 16 63 32
def cardSstr (d : BitVec 512) : Int := toSigned 32 (dsc d 24 31 0)
def cardDstr (d : BitVec 512) : Int := toSigned 32 (dsc d 24 63 32)
def cardEvp (d : BitVec 512) : Nat := dsc d 32 2 0
def cardBen (d : BitVec 512) : Bool := dsc d 32 8 8 == 1
def cardBar (d : BitVec 512) : Nat := dsc d 32 13 9
def cardOp (d : BitVec 512) : Nat := dsc d 32 17 16
def cardFv (d : BitVec 512) : Nat := dsc d 32 31 24
def cardFill (d : BitVec 512) : Bool := cardOp d == 1
/-- Addresses of byte c of row r on the two sides (R360). -/
def cardS (d : BitVec 512) (r c : Nat) : Nat := mod64 ((cardSrc d : Nat) + cardSstr d * (r : Nat) + (c : Nat))
def cardD (d : BitVec 512) (r c : Nat) : Nat := mod64 ((cardDst d : Nat) + cardDstr d * (r : Nat) + (c : Nat))
/-- Lines of a row from an address on. -/
def lineCount (va n : Nat) : Nat := if n = 0 then 0 else (va + n - 1) / 128 - va / 128 + 1
/-- Index of the line of byte c of row r among the lines of its side. -/
def lineIndex (at_ : Nat → Nat → Nat) (c0 r c : Nat) : Nat :=
  (List.range r).foldl (fun a k => a + lineCount (at_ k 0) c0) 0 + (at_ r c / 128 - at_ r 0 / 128)

end Sys2Proof.Machine
end

