-- ==== Sys2Proof/Machine/Operands.lean ====
section
/-!
DEFINITION. Operand values and results (R227 to R231, R262, R263) and the queue registers behind them
(R115, R155, R229, R310): reading a source, writing a destination, and how an instruction ends.
-/
namespace Sys2Proof.Machine

/-- Why an instruction does not complete at this turn: it waits, or it faults. -/
inductive Stop
  | wait
  | illegal
  | flt (i : FaultInfo)
  deriving DecidableEq, Repr

abbrev Op (α : Type) := Except Stop α

/-- An instruction's turn: its next state; a wait leaves the state as it was (R74); a fault is taken. -/
def State.finish (s : State) (r : Op State) : Host.Outcome State Fault Refusal :=
  match r with
  | .ok t => .next t
  | .error .wait => .next s
  | .error .illegal => .next s.illegal
  | .error (.flt i) => .next (s.fault i)

/-- An instruction completes and the next one follows. -/
def State.advance (s : State) : State := s.modMe Ctx.advance

def Op.check (b : Bool) (e : Stop) : Op Unit := if b then .ok () else .error e

/-! ## Immediates -/

def sext17 (i : BitVec 17) : Word := i.signExtend 64
/-- The 64-bit value of an immediate of kind 100 or 111 (R227, R231). -/
def Opd.immVal : Opd → Word
  | .imm i => sext17 i
  | .long i => i.signExtend 64
  | _ => 0

/-! ## Queue registers -/

/-- Whether a queue may be read by a program (Table 14-5). -/
def Queue.readable (q : Queue) : Bool :=
  match q.bind with
  | .free | .load _ | .ringReady _ true | .ringFree _ false => true
  | _ => false
/-- Whether a program may put entries into a queue (Table 14-5). -/
def Queue.writable (q : Queue) : Bool :=
  match q.bind with
  | .free | .store _ | .ringFree _ true | .ringReady _ false | .chan _ _ => true
  | _ => false

/-- Direction rules of every queue operand (R115, R229). -/
def Ctx.srcOk (c : Ctx) : Opd → Bool
  | .q n _ => (c.getQ n.val).readable
  | _ => true
def Ctx.dstOk (c : Ctx) : Opd → Bool
  | .q n _ => (c.getQ n.val).writable
  | _ => true

/-- The slot a queue is bound to. -/
def QBind.slot : QBind → Option Nat
  | .load s | .store s | .reduce s | .ringReady s _ | .ringFree s _ => some s
  | .free | .chan _ _ => none

/-- The head entry leaves; a queue kept for a closed stream's entries is free once they are read (R122). -/
def Queue.pop (q : Queue) : Queue :=
  let r := q.ents.tail
  if q.closed && r.isEmpty then { q with ents := r, bind := .free, closed := false } else { q with ents := r }

/-- Whether a full entry of the elements before a stream's faulting one is still to come: of FB, or read again after RECALL
(R112, R121, R123). -/
def Stream.moreEntries (t : Stream) : Bool :=
  match t.fault with
  | some i => decide (t.done + dEpe t.desc ≤ i.idx)
  | none => decide (dEpe t.desc ≤ t.fb.length)

/-- The fault of the stream a queue is bound to, once nothing before the faulting element is left (R123). -/
def Ctx.queueFault (c : Ctx) (q : Queue) : Option FaultInfo :=
  match q.bind.slot with
  | some k =>
    let t := c.getS k
    if t.st = 3 ∧ !q.closed ∧ !(dDelivers t.desc && t.moreEntries) then t.fault else none
  | none => none

/-- A queue operand as a source: the head entry, dequeued without PK (R229). -/
def Ctx.take (c : Ctx) (n : Nat) (pk : Bool) : Op (Vec × Ctx) :=
  let q := c.getQ n
  match q.ents with
  | e :: _ => .ok (e.data, if pk then c else c.setQ n q.pop)
  | [] =>
    match c.queueFault q with
    | some i => .error (.flt i)
    | none => .error .wait

/-- A scalar result as an entry (R229). -/
def entryOf (w : Word) : Vec := w.zeroExtend 512
def entryWord (v : Vec) : Word := v.truncate 64

/-- The context that holds a rank of a gang node (R155, R291). -/
def State.gangCtx (s : State) (job graph node rank : Nat) : Option Nat :=
  (s.ctxs.find? fun p =>
    p.2.run.kind == .gang && p.2.run.job == job && p.2.run.graph == graph && p.2.run.node == node
      && p.2.run.rank == rank && p.2.sys.ending == 0).map (·.1)
/-- The same for the gang of a context's node. -/
def State.rankCtx (s : State) (n rank : Nat) : Option Nat :=
  let r := (s.ctx n).run
  s.gangCtx r.job r.graph r.node rank

/-- Whether the job of a context may inject a REQ packet now (R407). -/
def State.mayInject (s : State) (n : Nat) : Bool := s.tokensOk (s.ctx n).run.job
/-- A REQ packet of a context enters NET and takes a token, or waits at injection until one comes (R407). -/
def State.inject (s : State) (n : Nat) (p : Packet) : State :=
  let j := (s.ctx n).run.job
  if s.tokensOk j then (s.takeToken j).send p else s.modJob j fun x => { x with stalled := x.stalled ++ [p] }
/-- The token of a request that is served in the step that makes it (R407). -/
def State.spend (s : State) (n : Nat) : State := s.takeToken (s.ctx n).run.job

/-- Entries of a STORE stream's queue beyond its last element are discarded (R113). -/
def Ctx.beyondEnd (c : Ctx) (q : Queue) (k : Nat) : Bool :=
  let t := c.getS k
  decide (dN t.desc ≤ t.pos + t.ent.length + q.ents.length / dPpe t.desc * dEpe t.desc)

/-- A queue operand as a destination: one entry appended (R229, R113, R155, R314). -/
def State.put (s : State) (me n : Nat) (e : Vec) : Op State :=
  let c := s.ctx me
  let q := c.getQ n
  let push : State := s.setCtx me (c.setQ n { q with ents := q.ents ++ [{ data := e, slot := 0 }] })
  match q.bind with
  | .free => if q.ents.length + q.coming < 8 then .ok push else .error .wait
  | .store k =>
    let t := c.getS k
    match t.fault with
    | some i => .error (.flt i)
    | none =>
      if c.beyondEnd q k then .ok (s.setCtx me (c.setS k { t with extra := true }))
      else if q.ents.length < 8 then .ok push else .error .wait
  | .ringFree _ true => if q.ents.length < 8 then .ok push else .error .wait
  | .ringReady k false =>
    match (c.getS k).fault with
    | some i => .error (.flt i)
    | none => if q.ents.length < 8 then .ok push else .error .wait
  | .chan rank pq =>
    match s.rankCtx me rank with
    | none => .error (.flt { code := clsQdead })
    | some p =>
      let peer := (s.ctx p).getQ pq
      if peer.bind = .free ∧ peer.ents.length + peer.coming < 8 ∧ s.mayInject me then
        let s := s.modCtx p fun d => d.setQ pq { peer with coming := peer.coming + 1 }
        let s := s.modCtx me fun d => { d.setQ n { d.getQ n with sent := (d.getQ n).sent + 1 } with unack := d.unack + 1 }
        .ok (s.inject me { cls := .req, who := .chan me n, pl := .channel c.run.job c.run.graph c.run.node rank pq e })
      else .error .wait
  | _ => .error .illegal

/-! ## Sources -/

/-- VAL of a source operand (R262, R231), and the context after its dequeue. -/
def Ctx.val (c : Ctx) : Opd → Op (Word × Ctx)
  | .x n => .ok (c.getX n.val, c)
  | .p n => .ok (c.getP n.val, c)
  | .q n pk => (c.take n.val pk).map fun r => (entryWord r.1, r.2)
  | o => .ok (Opd.immVal o, c)

/-- A source of vector width (R229). -/
def Ctx.valV (c : Ctx) : Opd → Op (Vec × Ctx)
  | .v n => .ok (c.getV n.val, c)
  | .q n pk => c.take n.val pk
  | o => (c.val o).map fun r => (entryOf r.1, r.2)

/-- The queue registers after an instruction's dequeues. -/
def State.commitQ (s : State) (c : Ctx) : State := s.modMe fun d => { d with qs := c.qs }

/-! ## Destinations -/

/-- A scalar result into its destination (R230, R262). -/
def State.wr (s : State) (d : Opd) (w : Word) : Op State :=
  match d with
  | .x n => .ok (s.modMe fun c => c.setX n.val w)
  | .p n => .ok (s.modMe fun c => c.setP n.val w)
  | .q n _ => s.put s.cur n.val (entryOf w)
  | .v n => .ok (s.modMe fun c => c.setV n.val (entryOf w))
  | _ => .ok s

/-- A vector result, or an entry, into its destination. -/
def State.wrV (s : State) (d : Opd) (v : Vec) : Op State :=
  match d with
  | .v n => .ok (s.modMe fun c => c.setV n.val v)
  | .q n _ => s.put s.cur n.val v
  | .x n => .ok (s.modMe fun c => c.setX n.val (entryWord v))
  | _ => .ok s

/-! ## Integer operands (R262) -/

end Sys2Proof.Machine

namespace Sys2Proof

def IntTy.width : IntTy → Nat
  | .s32 | .z32 => 32
  | .s64 | .z64 => 64
def IntTy.signed : IntTy → Bool
  | .s32 | .s64 => true
  | _ => false
/-- SRC: the low w bits as the type reads them. -/
def IntTy.src (t : IntTy) (w : Word) : Int :=
  match t with
  | .s32 => (w.truncate 32).toInt
  | .s64 => w.toInt
  | .z32 => ((w.truncate 32).toNat : Int)
  | .z64 => (w.toNat : Int)
/-- The low w bits as a number. -/
def IntTy.raw (t : IntTy) (w : Word) : Nat := w.toNat % 2 ^ t.width
/-- RES. -/
def IntTy.res (t : IntTy) (v : Int) : Word :=
  match t with
  | .s32 => (BitVec.ofInt 32 v).signExtend 64
  | .z32 => (BitVec.ofInt 32 v).zeroExtend 64
  | .s64 | .z64 => BitVec.ofInt 64 v

end Sys2Proof

namespace Sys2Proof.Machine

/-- Source and destination directions of a scalar instruction (step 6 of R242). -/
def State.dirs (s : State) (d a b : Opd) : Op Unit :=
  Op.check (s.me.srcOk a && s.me.srcOk b && s.me.dstOk d) .illegal

/-- A and B in order, then a result into D (R228, R229). -/
def State.alu2 (s : State) (d a b : Opd) (f : Word → Word → Word) : Op State := do
  s.dirs d a b
  let (x, c) ← s.me.val a
  let (y, c) ← c.val b
  let t ← (s.setMe c).wr d (f x y)
  pure t.advance

/-- A, B, then D as a third source (R228). -/
def State.alu3 (s : State) (d a b : Opd) (f : Word → Word → Word → Word) : Op State := do
  s.dirs d a b
  let (x, c) ← s.me.val a
  let (y, c) ← c.val b
  let (z, c) ← c.val d
  let t ← (s.setMe c).wr d (f x y z)
  pure t.advance

/-- A, then a result into D. -/
def State.alu1 (s : State) (d a : Opd) (f : Word → Word) : Op State := do
  s.dirs d a a
  let (x, c) ← s.me.val a
  let t ← (s.setMe c).wr d (f x)
  pure t.advance

/-! ## Scalar floating operands (R263) -/

/-- A result with flags into D (R207, R263). -/
def State.wrF (s : State) (d : Opd) (r : Flagged) : Op State := do
  let t ← s.wr d (BitVec.ofNat 64 r.1)
  pure ((t.modMe fun c => c.raiseFlags r.2).advance)

def State.fpu2 (s : State) (d a b : Opd) (f : Nat → Nat → Flagged) : Op State := do
  s.dirs d a b
  let (x, c) ← s.me.val a
  let (y, c) ← c.val b
  (s.setMe c).wrF d (f x.toNat y.toNat)

def State.fpu1 (s : State) (d a : Opd) (f : Nat → Flagged) : Op State := do
  s.dirs d a a
  let (x, c) ← s.me.val a
  (s.setMe c).wrF d (f x.toNat)

def State.fpu3 (s : State) (d a b : Opd) (f : Nat → Nat → Nat → Flagged) : Op State := do
  s.dirs d a b
  let (x, c) ← s.me.val a
  let (y, c) ← c.val b
  let (z, c) ← c.val d
  (s.setMe c).wrF d (f x.toNat y.toNat z.toNat)

end Sys2Proof.Machine
end

