-- ==== Sys2Proof/Machine/Views.lean ====
section
/-!
DEFINITION. The images an access meets: home lines with their holder sets and channels (R54, R59, R66, R95,
R145), cluster views (R53 to R58, R80), reduction buffers (R94) and the halves of ordered accesses (R79, R82).
-/
namespace Sys2Proof.Machine

/-! ## Bytes of a line -/

def lineByte (d : BitVec 1024) (i : Nat) : Byte := d.extractLsb' (8 * i) 8
def lineSet (d : BitVec 1024) (i : Nat) (b : Byte) : BitVec 1024 :=
  (d &&& ~~~(BitVec.ofNat 1024 255 <<< (8 * i))) ||| (b.zeroExtend 1024 <<< (8 * i))
def maskSet (m : BitVec 128) (i : Nat) : BitVec 128 := m ||| BitVec.twoPow 128 i
def lineOfBytes (bs : List Byte) : BitVec 1024 := BitVec.ofNat 1024 (leNat bs)

/-- Lines of class 000 have keys below 2^47; planed images follow them, link lines stand above. -/
def keyIsHome (k : Nat) : Bool := decide (k < 2 ^ 47)
def keyIsLink (k : Nat) : Bool := decide (2 ^ 56 ≤ k)

/-- Places that lie in a cluster view when cached (Table 03-1). -/
def Loc.cacheable : Loc → Bool
  | .hbm _ | .planed _ | .host _ _ | .peer _ _ => true
  | _ => false
def Loc.isHbm : Loc → Bool | .hbm _ => true | _ => false
def Loc.isLink : Loc → Bool | .host _ _ | .peer _ _ => true | _ => false
def Loc.isBank : Loc → Bool | .own _ _ _ | .window _ _ _ => true | _ => false

/-! ## Homes -/

def Homes.line (h : Homes) (l : Nat) : HomeLine := h.lines.get {} l
def Homes.setLine (h : Homes) (l : Nat) (r : HomeLine) : Homes := { h with lines := h.lines.set l r }
def State.home (s : State) (l : Nat) : HomeLine := s.homes.line l
def State.setHome (s : State) (l : Nat) (r : HomeLine) : State := { s with homes := s.homes.setLine l r }

/-- Priority a home line takes (Table 03-2): 0 means the slice does not hold the line. -/
def homePrio (old evp : Nat) : Nat :=
  if evp = 0 then (if old = 0 then 1 else old) else min evp 6
/-- Lines a home slice of a die can hold: its 16 MiB less 1 MiB for each unit of the die's carve-outs (R18, R59, R60). -/
def State.homeCap (s : State) (die : Nat) : Nat :=
  (16 - (s.jobs.map fun p => fld p.2.cfg.stk.toNat (5 * die + 4) (5 * die)).foldl (· + ·) 0) * 8192
/-- The sets of its slices, no more than their lines, and the lines each set can hold. -/
def State.homeSets (s : State) (die : Nat) : Nat := max 1 (min Config.homeSets (s.homeCap die))
def State.homeWays (s : State) (die : Nat) : Nat := s.homeCap die / s.homeSets die
/-- The die of the home of a line, stored or planed, and whether its slice holds lines at all: a die whose slices are carved
out whole does not. -/
def homeDie (l : Nat) : Nat := homeOf (l % 2 ^ 47) / 16
def State.homeTakes (s : State) (l : Nat) : Bool := s.homeCap (homeDie l) != 0
/-- Whether two lines share a set of a home slice. -/
def State.homeMates (s : State) (a b : Nat) : Bool :=
  homeOf (a % 2 ^ 47) == homeOf (b % 2 ^ 47)
    && Config.homeSet a % s.homeSets (homeDie a) == Config.homeSet b % s.homeSets (homeDie a)
/-- The copy of a line leaves its home slice: its dirty bytes are written to the channel, whose acknowledgement the
home awaits (R59, R144); a planed image is dropped. -/
def State.evictHome (s : State) (l : Nat) : State :=
  let s := s.setHome l { s.home l with prio := 0 }
  if keyIsHome l then
    if s.homes.chan.any fun p => lineOf p.1 == l then
      { s with homes := { s.homes with chan := s.homes.chan.filter fun p => lineOf p.1 != l, pend := s.homes.pend ++ [l] } }
    else s
  else { s with homes := { s.homes with planed := s.homes.planed.erase (l - 2 ^ 47) } }
/-- The victim among lines with their priority and latest use: the lowest priority, and among equals the least
recently used (R56). -/
def victim (ls : List (Nat × Nat × Nat)) : Option Nat :=
  (ls.foldl (fun (b : Option (Nat × Nat × Nat)) c =>
    match b with
    | none => some c
    | some d => if c.2.1 < d.2.1 || (c.2.1 == d.2.1 && decide (c.2.2 < d.2.2)) then some c else some d) none).map (·.1)
/-- A full set of a home slice gives up a line before one more is held. -/
def State.homeRoom (s : State) (l : Nat) : State :=
  let mates := (s.homes.lines.filter fun p => p.2.prio != 0 && s.homeMates p.1 l).map fun p => (p.1, p.2.prio, p.2.used)
  match victim mates with
  | some v => if mates.length < s.homeWays (homeDie l) then s else s.evictHome v
  | none => s
/-- An access reaches the home slice of a line, stored or planed: the line is allocated or hit (Table 03-2). -/
def State.touchHome (s : State) (l evp : Nat) : State :=
  if s.homeTakes l then
    let s := if (s.home l).prio = 0 then s.homeRoom l else s
    let s := s.setHome l { s.home l with prio := homePrio (s.home l).prio evp, used := s.homes.uses + 1 }
    { s with homes := { s.homes with uses := s.homes.uses + 1 } }
  else s

/-- One byte at its home; what the channel holds of it stays as it was (R145). -/
def State.homeByte (s : State) (k : Nat) (b : Byte) : State :=
  let s :=
    match s.homes.chan.get? k with
    | some _ => s
    | none => { s with homes := { s.homes with chan := s.homes.chan.set k (s.byte k) } }
  s.setByte k b

/-- Bytes under a mask, from a key upward. -/
def State.homeBytes (s : State) : Nat → List (Option Byte) → State
  | _, [] => s
  | k, none :: r => s.homeBytes (k + 1) r
  | k, some b :: r => (s.homeByte k b).homeBytes (k + 1) r

/-- A write of a whole line clears its poison (R414). -/
def State.healed (s : State) (k : Nat) (bs : List (Option Byte)) : State :=
  if bs.all (·.isSome) then s.heal k bs.length else s

/-- A masked write at a home, as one step (R54); an endpoint keeps no channel. DESIGN CHOICE (assumption log 113): it has the
home priority of EVP 0, as a write-back, a merge of partials and a mirror write carry no EVP of their own (R56). -/
def State.homeWrite (s : State) (k : Nat) (bs : List (Option Byte)) : State :=
  let s := s.healed k bs
  if keyIsHome k then
    let s := (s.touchHome (lineOf k) 0).homeBytes k bs
    if s.homeTakes (lineOf k) then s else s.evictHome (lineOf k)
  else
    (bs.zipIdx).foldl (fun t p => match p.1 with | some b => t.setByte (k + p.2) b | none => t) s

/-- The bytes of a line under a mask. -/
def maskedBytes (mask : BitVec 128) (data : BitVec 1024) : List (Option Byte) :=
  (List.range 128).map fun i => if mask.getLsbD i then some (lineByte data i) else none

/-- Whether a home may serve an access of the kinds of R95 on a line. -/
def State.homeFree (s : State) (l : Nat) : Bool :=
  (s.home l).holders.isEmpty && (s.home l).recalls.isNone

/-- RECALL begins: a request to every holder (R95, steps 1 and 2). -/
def State.beginBack (s : State) (l : Nat) : State :=
  let h := s.home l
  if h.recalls.isSome then s
  else
    (h.holders.foldl (fun t c => t.send { cls := .req, who := .nobody, pl := .recallReq l c.1 c.2 })
      (s.setHome l { h with recalls := some h.holders, back := [] }))

/-! ## The planed view (R65 to R67, R27) -/

/-- Fields of a format window record (Table 03-6). -/
def winBase (w : BitVec 256) : Nat := fld w.toNat 38 0
def winLen (w : BitVec 256) : Nat := fld w.toNat 102 64
def winScb (w : BitVec 256) : Nat := fld w.toNat 166 128
def winEn (w : BitVec 256) : Bool := w.getLsbD 192
def winPm1 (w : BitVec 256) : Nat := fld w.toNat 195 193
def winUns (w : BitVec 256) : Bool := w.getLsbD 196

/-- The enabled window over a stored address (R66). -/
def Package.window (p : Package) (pa : Nat) : Option (BitVec 256) :=
  (p.windows.find? fun e => winEn e.2 && decide (winBase e.2 ≤ pa) && decide (pa < winBase e.2 + winLen e.2)).map (·.2)

/-- A planed read at the home of a stored line: the image there, or the line decoded in one step and held (R66). -/
def State.planeRead (s : State) (l evp : Nat) : BitVec 1024 × State :=
  match s.homes.planed.get? l with
  | some d => (d, s.touchHome (2 ^ 47 + l) evp)
  | none =>
    match s.pkg.window l with
    | none =>
      let st := l / 2 ^ 16 % 8
      (0, { s with pkg := { s.pkg with misses := s.pkg.misses.set st (s.pkg.misses.get 0 st + 1) } })
    | some w =>
      let d := BitVec.ofNat 1024 (planeLine (winPm1 w + 1) (leNat (s.bytes l 128)))
      let s := s.touchHome (2 ^ 47 + l) evp
      (d, if s.homeTakes l then { s with homes := { s.homes with planed := s.homes.planed.set l d } } else s)

/-- Planed images of the stored lines a test picks leave their home slices (R67, R104). -/
def State.dropImages (s : State) (p : Nat → Bool) : State :=
  { s with homes := { s.homes with
      planed := s.homes.planed.filter fun e => !p e.1,
      lines := s.homes.lines.map fun e => if !keyIsHome e.1 && p (e.1 - 2 ^ 47) then (e.1, { e.2 with prio := 0 }) else e } }

/-- The bytes a home or endpoint gives for a place, as an access of a priority finds them (R50, R56). -/
def State.homeRead (s : State) (loc : Loc) (len evp : Nat) : List Byte × State :=
  match loc with
  | .planed a =>
    let (d, t) := s.planeRead (lineOf a) evp
    ((List.range len).map fun i => lineByte d (a % 128 + i), t)
  | .hbm a => (s.bytes a len, s.touchHome (lineOf a) evp)
  | _ => (s.bytes loc.key len, s)

/-- Whether the home slice of a place holds its line: the part of counter 5 of Table 20-6. -/
def State.homeHolds (s : State) (loc : Loc) : Bool :=
  match loc with
  | .hbm a => (s.home (lineOf a)).prio != 0
  | .planed a => (s.homes.planed.get? (lineOf a)).isSome
  | _ => true

/-- The whole line a cacheable place belongs to. -/
def Loc.whole : Loc → Loc
  | .hbm a => .hbm (lineOf a)
  | .planed a => .planed (lineOf a)
  | .host n a => .host n (lineOf a)
  | .peer n a => .peer n (lineOf a)
  | l => l

/-- The stored line whose holder set governs a place, when one does. -/
def Loc.heldLine : Loc → Option Nat
  | .hbm a => some (lineOf a)
  | .planed a => some (lineOf a)
  | _ => none

/-- A direct read that needs the holder set empty: free to go, or RECALL begun. -/
def State.homeAsk (s : State) (loc : Loc) : Bool × State :=
  match loc.heldLine with
  | some l => if s.homeFree l then (true, s) else (false, s.beginBack l)
  | none => (true, s)

/-! ## Cluster views -/

def State.cv (s : State) (clu k : Nat) : Option CvLine := (s.clu clu).lines.get? k
def State.setCv (s : State) (clu k : Nat) (l : CvLine) : State :=
  s.modClu clu fun c => { c with lines := c.lines.set k l, uses := c.uses + 1 }

def CvLine.isDirty (l : CvLine) : Bool := l.dirty != 0 || l.mdirty
/-- A byte of a line when it is valid, or only when it is dirty. -/
def CvLine.byte? (l : CvLine) (onlyDirty : Bool) (i : Nat) : Option Byte :=
  if (if onlyDirty then l.dirty else l.valid).getLsbD i then some (lineByte l.data i) else none

/-- RETQ of the job that owns a cluster. -/
def State.retq (s : State) (clu : Nat) : Nat :=
  match (s.clu clu).owner with
  | some j => (s.job j).cfg.retq
  | none => 1024

/-- EVP acts on a line allocated or hit (Table 03-2, R57). -/
def State.evpLine (s : State) (clu evp : Nat) (l : CvLine) : CvLine :=
  let l := { l with used := (s.clu clu).uses + 1 }
  if evp = 0 then l
  else if evp = 7 ∧ !l.retained then
    let rs := (s.clu clu).lines.filter fun p => p.2.retained
    if rs.length < s.retq clu then { l with retained := true, ret := (rs.map (·.2.ret)).foldl max 0 + 1 }
    else { l with prio := 6 }
  else if evp = 7 then l else { l with prio := evp }

/-- A name a line is reached by. -/
def CvLine.named (l : CvLine) (va : Nat) : CvLine :=
  let v := lineOf va
  if l.vas.contains v then l else { l with vas := l.vas ++ [v] }

/-- WRITE-BACK of one line: its dirty bytes and marks leave in a WB packet (R80, R97). -/
def State.writeBack (s : State) (clu k : Nat) : State :=
  match s.cv clu k with
  | none => s
  | some l =>
    if l.isDirty then
      let id := (s.clu clu).wbSeq
      let s := s.send { cls := .wb, who := .clu clu id,
                        pl := .writeBack k l.dirty l.data (if l.mdirty then some l.marks else none) }
      s.modClu clu fun c =>
        { c with lines := c.lines.set k { l with dirty := 0, mdirty := false },
                 dl := c.dl.filter (· != k), wbSeq := id + 1, wbOut := c.wbOut ++ [(id, k)] }
    else s.modClu clu fun c => { c with dl := c.dl.filter (· != k) }

/-- The clean bytes of a line leave; a line without dirty bytes goes whole (R79, R80). -/
def State.dropClean (s : State) (clu k : Nat) : State :=
  match s.cv clu k with
  | none => s
  | some l =>
    if l.isDirty then s.setCv clu k { l with valid := l.dirty }
    else s.modClu clu fun c => { c with lines := c.lines.erase k }

/-- A line joins DL; a full list first writes back its oldest line (R55). -/
def State.joinDl (s : State) (clu k : Nat) : State :=
  let dl := (s.clu clu).dl
  if dl.contains k then s
  else
    let s :=
      match dl with
      | o :: _ => if 4096 ≤ dl.length then s.writeBack clu o else s
      | [] => s
    s.modClu clu fun c => { c with dl := c.dl ++ [k] }

/-- Bytes written into a line as dirty (R53, R76). -/
def CvLine.write (l : CvLine) : Nat → List Byte → CvLine
  | _, [] => l
  | i, b :: r => ({ l with data := lineSet l.data i b, valid := maskSet l.valid i, dirty := maskSet l.dirty i }).write (i + 1) r
/-- Bytes written into the valid bytes of a line without marking them dirty (R76, last case). -/
def CvLine.writeThrough (l : CvLine) : Nat → List Byte → CvLine
  | _, [] => l
  | i, b :: r => ({ l with data := lineSet l.data i b, valid := maskSet l.valid i }).writeThrough (i + 1) r
/-- Bytes written over the valid bytes of a line that are not dirty (R129). -/
def CvLine.overClean (l : CvLine) : Nat → List Byte → CvLine
  | _, [] => l
  | i, b :: r => (if l.dirty.getLsbD i || !l.valid.getLsbD i then l else { l with data := lineSet l.data i b }).overClean (i + 1) r
/-- Bytes of a reply fill what is not dirty (R53, R77). -/
def CvLine.fill (l : CvLine) (bs : List Byte) : CvLine :=
  { l with
    data := lineOfBytes ((List.range 128).map fun i =>
      if l.dirty.getLsbD i then lineByte l.data i else (bs.getD i 0)),
    valid := BitVec.allOnes 128 }

/-- A line with no byte valid. -/
def CvLine.blank : CvLine := { data := 0, valid := 0, dirty := 0 }

/-- The slice of a cluster's L1 that holds a line (R52). -/
def l1Slice (k : Nat) : Nat := k / 2 ^ 7 % 8 ^^^ k / 2 ^ 13 % 8
/-- Whether two lines share one of the 64 sets of an L1 slice (R52). -/
def l1Mates (a b : Nat) : Bool := l1Slice a == l1Slice b && Config.l1Set a % 64 == Config.l1Set b % 64
/-- Room for a line in its set of eight ways (R52, R56): a full set gives up its victim, written back and dropped;
a set whose ways are all retained takes no line. -/
def State.cvRoom (s : State) (clu k : Nat) : Bool × State :=
  let mates := (s.clu clu).lines.filter fun p => p.1 != k && l1Mates p.1 k
  if (s.cv clu k).isSome || decide ((s.clu clu).lines.length < 8) || decide (mates.length < 8) then (true, s)
  else
    match victim ((mates.filter fun p => !p.2.retained).map fun p => (p.1, p.2.prio, p.2.used)) with
    | none => (false, s)
    | some v =>
      let s := s.writeBack clu v
      (true, s.modClu clu fun c => { c with lines := c.lines.erase v })

/-- An access that hits a line of a view, by a name and at a priority (Table 03-2). -/
def State.cvTouch (s : State) (clu k va evp : Nat) : State :=
  match s.cv clu k with
  | some l => s.setCv clu k ((s.evpLine clu evp l).named va)
  | none => s

/-- A store performed in the view of a cluster where its line is present or has room (R76). -/
def State.cvStore (s : State) (clu k va : Nat) (bs : List Byte) (evp : Nat) (shrw : Bool) : State :=
  let l := (s.cv clu (lineOf k)).getD .blank
  let l := ((s.evpLine clu evp l).named va).write (k % 128) bs
  let s := s.setCv clu (lineOf k) l
  if shrw then s.joinDl clu (lineOf k) else s

/-- A reply fills a line of a view, allocating it where it is absent and its set has room (R53, R56, R77). -/
def State.cvFill (s : State) (clu k va : Nat) (bs : List Byte) (evp : Nat) : State :=
  match s.cvRoom clu k with
  | (false, s) => s
  | (true, s) =>
    let l := (s.cv clu k).getD .blank
    s.setCv clu k (((s.evpLine clu evp l).named va).fill bs)

/-! ## Reduction buffers (R94) -/

def State.rbLine (s : State) (clu l : Nat) : Option RbLine := (s.clu clu).rb.find? fun r => r.line == l

/-- An update-only line leaves its buffer for its home, by FLUSH or for a RECALL, in a WB packet that is acknowledged (R94,
R95, R144): under l + 1 a FLUSH, under l + 2 a line recalled. -/
def State.rbHome (s : State) (clu : Nat) (r : RbLine) (back : Bool) : State :=
  let id := (s.clu clu).wbSeq
  let s := s.send { cls := .wb, who := .clu clu id, pl := .redBack r.line clu r.life r.words back }
  s.modClu clu fun c =>
    { c with rb := c.rb.filter (·.line != r.line), wbSeq := id + 1,
             wbOut := c.wbOut ++ [(id, r.line + (if back then 2 else 1))] }
/-- FLUSH: the update-only line leaves for its home. -/
def State.flushRb (s : State) (clu l : Nat) : State :=
  match s.rbLine clu l with
  | none => s
  | some r => s.rbHome clu r false

/-- Any other access of the cluster to a line held in its RB first flushes it and waits for the
acknowledgement: whether the access may go on, and the state after (R94). -/
def State.rbClear (s : State) (clu : Nat) (loc : Loc) : Bool × State :=
  match loc with
  | .hbm a =>
    let l := lineOf a
    if (s.rbLine clu l).isSome then (false, s.flushRb clu l)
    else (!((s.clu clu).wbOut.any fun p => p.2 == l + 1), s)
  | _ => (true, s)

/-- The identity of an operation's partial combined with an operand, into a tagged word (R94). -/
def rbCombine (ws : List RbWord) (off : Nat) (op : Aop) (t : Esz) (b : Nat) : List RbWord :=
  if ws.any (fun w => w.off == off) then
    ws.map fun w => if w.off == off then { w with val := BitVec.ofNat 64 (aopVal op t w.val.toNat b) } else w
  else ws ++ [{ off := off, op := op, esz := t, val := BitVec.ofNat 64 (aopVal op t (aopId op t) b) }]

/-- Whether a RED meets a word tagged otherwise (R94, tag conflict). -/
def rbConflict (ws : List RbWord) (off : Nat) (op : Aop) (t : Esz) : Bool :=
  ws.any fun w =>
    decide (w.off < off + t.size) && decide (off < w.off + w.esz.size)
      && !(w.off == off && w.op == op && w.esz == t)

/-- A name an update-only line is reached by. -/
def RbLine.named (r : RbLine) (va : Nat) : RbLine :=
  if r.vas.contains (lineOf va) then r else { r with vas := r.vas ++ [lineOf va] }

/-- A RED drained into the reduction buffer of its cluster (R94). -/
def State.rbAdd (s : State) (n : Nat) (pa va : Nat) (op : Aop) (t : Esz) (b : Nat) : State :=
  let clu := cluOf n
  let l := lineOf pa
  let s :=
    match s.rbLine clu l with
    | some r => if rbConflict r.words (pa % 128) op t then s.flushRb clu l else s
    | none => s
  match s.rbLine clu l with
  | some _ =>
    s.modClu clu fun c =>
      { c with rb := c.rb.map fun r =>
          if r.line == l then { r.named va with words := rbCombine r.words (pa % 128) op t b } else r }
  | none =>
    let s :=
      match (s.clu clu).rb with
      | o :: _ => if 256 ≤ (s.clu clu).rb.length then s.flushRb clu o.line else s
      | [] => s
    let life := s.sent
    let s := s.modClu clu fun c =>
      { c with rb := c.rb ++ [{ line := l, words := rbCombine [] (pa % 128) op t b, life := life, vas := [lineOf va] }] }
    let s := s.modCtx n fun c => { c with unack := c.unack + 1 }
    s.inject n { cls := .req, who := .store n, pl := .reg l clu life, va := va }

/-- Partials merged at a home, one word after another (R96). -/
def State.rbMerge (s : State) (l : Nat) (ws : List RbWord) : State :=
  ws.foldl (fun t w =>
    let k := l + w.off
    let old := leNat (t.bytes k w.esz.size)
    t.homeWrite k ((leBytes w.esz.size (aopVal w.op w.esz old w.val.toNat)).map some)) s

/-! ## Halves (Table 04-4) -/

/-- SB empty and UNACK zero (R84, R87). -/
def Ctx.settled (c : Ctx) : Bool := c.sb.isEmpty && c.unack == 0
/-- The release half of scope CORE or CLU. -/
def Ctx.quiet (c : Ctx) : Bool := c.settled && c.loads.isEmpty

end Sys2Proof.Machine

namespace Sys2Proof

def Scope.wide : Scope → Bool | .core | .clu => false | _ => true
def MemOrd.hasRel : MemOrd → Bool | .rel | .sc => true | _ => false
def MemOrd.hasAcq : MemOrd → Bool | .acq | .sc => true | _ => false

end Sys2Proof

namespace Sys2Proof.Machine

/-- Write-backs of a cluster by number that have not been acknowledged. -/
def Clu.awaits (c : Clu) (ids : List Nat) : Bool := ids.any fun i => c.wbOut.any fun p => p.1 == i

/-- The release half at a turn of a blocked context: met, or the state in which it waits. Phase 0 of the
stage has not begun it, phase 1 waits for write-backs; later phases have met it. The lines are those of DL
that a test picks. -/
def State.relHalf (s : State) (n : Nat) (wide : Bool) (pick : CvLine → Bool) : Bool × State :=
  let c := s.ctx n
  let clu := cluOf n
  match c.stage.ph with
  | 0 =>
    if !c.quiet then (false, s)
    else if !wide then (true, s)
    else
      let ls := (s.clu clu).dl.filter fun k => match s.cv clu k with | some l => pick l | none => false
      let s := ls.foldl (fun t k => t.writeBack clu k) s
      let ids := ((s.clu clu).wbOut.filter fun w => w.2 % 128 == 0).map (·.1)
      let s := s.modCtx n fun c => { c with stage := { c.stage with ph := 1, ids := ids } }
      (ids.isEmpty, s)
  | 1 => (!(s.clu clu).awaits c.stage.ids, s)
  | _ => (true, s)

/-- Whether every name of a line lies in RO ranges (R45). -/
def CvLine.inRo (l : CvLine) (j : Job) : Bool :=
  !l.vas.isEmpty && l.vas.all fun v => j.regionSt v == .ro

/-- The acquire half after its access: clean bytes outside RO ranges are dropped, for SYS the lines of the
link windows too (R79). -/
def State.acqHalf (s : State) (n : Nat) (sc : Scope) : State :=
  if sc.wide then
    let clu := cluOf n
    let j := s.job (s.ctx n).run.job
    (s.clu clu).lines.foldl (fun t p =>
      if !p.2.inRo j || (sc == .sys && keyIsLink p.1) then t.dropClean clu p.1 else t) s
  else s

/-- Whether a line lies in a region bound to a sync object (R83). -/
def CvLine.boundTo (l : CvLine) (j : Job) (va : Nat) : Bool :=
  l.vas.any fun v => match j.region v with | some r => r.st == .shrw && r.sync == va | none => false

/-! ## Own accesses and streams (R127, R128) -/

/-- Elements of a stream from its oldest unfinished one whose bytes a store covers. -/
def covers (va n wa wn : Nat) : Bool := decide (va < wa + wn) && decide (wa < va + n)

/-- A search for an element a store covers, from an index on (at most fuel elements). -/
def Stream.hits (t : Stream) (va n : Nat) : Nat → Nat → Bool
  | 0, _ => false
  | f + 1, e => decide (e < dN t.desc) && (covers va n (dAddr t.desc e) (dSize t.desc) || t.hits va n f (e + 1))

/-- Whether a store hits the filter the core keeps for a stream (R71, 06). -/
def Stream.near (t : Stream) (va n : Nat) : Bool := covers va n t.filt.1 (t.filt.2 - t.filt.1)

/-- Whether a store may cover an element a FETCH to come reads: one that is not delivered, as RECALL reads the others
of FB again (R121), or any index a stream is fed; where an INDIRECT stream reads next is not known before its indices
are. -/
def Stream.mayHit (t : Stream) (va n : Nat) : Bool :=
  let e := if t.feeds.isSome then 0 else t.done
  dKind t.desc == kIndirect || (t.near va n && t.hits va n (dN t.desc - e) e)

/-- A REDUCE stream of a context that has not combined an element these bytes belong to (R128). -/
def Ctx.reduceHolds (c : Ctx) (va n : Nat) : Bool :=
  c.streams.any fun p =>
    p.2.st == 1 && p.2.fault.isNone && dKind p.2.desc == kReduce
      && p.2.near va n && p.2.hits va n (dN p.2.desc - p.2.done) p.2.done

/-- The bytes of a store written over a raw element. -/
def patchRaw (e : FbElt) (va : Nat) (bs : List Byte) : FbElt :=
  { e with raw := e.raw.zipIdx.map fun p =>
      if va ≤ e.va + p.2 ∧ e.va + p.2 < va + bs.length then bs.getD (e.va + p.2 - va) p.1 else p.1 }

/-! ## Stream events and RECALL (R120, R121) -/

/-- An event record enters the context's event queue; a full queue loses its oldest (R120). -/
def Ctx.postEvent (c : Ctx) (slot typ cause eidx data : Nat) : Ctx :=
  let r : BitVec 128 := BitVec.ofNat 128
    (slot % 16 + typ % 8 * 16 + cause % 256 * 256 + eidx % 2 ^ 48 * 2 ^ 16 + data % 2 ^ 64 * 2 ^ 64)
  if 16 ≤ c.evq.length then { c with evq := c.evq.drop 1 ++ [r], evOvf := true }
  else { c with evq := c.evq ++ [r] }

/-- RECALL of a stream away from the core, in a bank or on its way (Table 06-3, R121): FB is discarded, the position
goes back to the oldest element not delivered, combined or written, and a pinning cause, or a pending SRCL.at that now
finds the stream at the core, pins it. -/
def Ctx.bringBack (c : Ctx) (k cause : Nat) : Ctx :=
  let t := c.getS k
  let pin := t.pin || cause == 0 || cause == 1
  if t.place = 0 then c.setS k { t with pin := pin }
  else
    (c.setS k { t with place := 0, hop := none, tr := none, fb := [], pos := t.done, pin := pin || t.stop.isSome, stop := none,
                       notes := t.notes.filter (·.remote) }).postEvent k 4 cause t.done t.acc.toNat

/-- SRCL.at of an element reaches the stream it was sent to (R317): at the core it pins it, past the element it recalls
it, and otherwise the stream stops there. -/
def Ctx.srclArrive (c : Ctx) (k no e : Nat) : Ctx :=
  let t := c.getS k
  if t.no ≠ no ∨ t.st = 0 ∨ t.st = 2 then c
  else if t.place = 0 ∨ e < t.pos then c.bringBack k 1
  else c.setS k { t with stop := some (min e (t.stop.getD e)) }

/-- A floated context reaches the bank it was sent to, with the position and the accumulator of its packet (R118,
Table 06-4). -/
def Ctx.hopArrive (c : Ctx) (k no : Nat) (image : BitVec 384) : Ctx :=
  let t := c.getS k
  if t.hop = some no then
    c.setS k { t with hop := none, pos := image.toNat % 2 ^ 48, acc := image.extractLsb' 320 64 }
  else c

end Sys2Proof.Machine
end

