-- ==== Sys2Proof/Machine/Network.lean ====
section
/-!
DEFINITION. Packets at their destinations (R14, R71 to R77, R90 to R99, R104, R169, R173, R314): what a
request does where it arrives, and what a reply does for the one that waits for it.
-/
namespace Sys2Proof.Machine

/-! ## Open loads (R71, R77) -/

/-- The value of an open load, in its destination (R289, R327). -/
def loadWord (t : Esz) (bs : List Byte) : Word :=
  if t.isS then BitVec.ofInt 64 (toSigned t.width (leNat bs)) else BitVec.ofNat 64 (leNat bs % 2 ^ t.width)

/-- Lane k of a vector, of sz bytes. -/
def vecLane (v : Vec) (sz k : Nat) : Nat := v.toNat / 2 ^ (8 * sz * k) % 2 ^ (8 * sz)
def vecSetLane (v : Vec) (sz k x : Nat) : Vec :=
  (v &&& ~~~(BitVec.ofNat 512 (2 ^ (8 * sz) - 1) <<< (8 * sz * k))) ||| (BitVec.ofNat 512 (x % 2 ^ (8 * sz)) <<< (8 * sz * k))

def Piece.value (p : Piece) : List Byte := p.bytes.map (·.getD 0)
def Piece.whole (p : Piece) : Bool := p.bytes.length == p.size && p.bytes.all (·.isSome)

/-- The vector of a gather: its pieces in their lanes, the other lanes zero (R328). -/
def lanesVec (sz : Nat) (ls : List Nat) (ps : List Piece) : Vec :=
  (ls.zip ps).foldl (fun v p => vecSetLane v sz p.1 (leNat p.2.value)) 0

/-- An open load whose pieces are all fixed writes its destination and is open no more (R77). -/
def Ctx.closeLoad (c : Ctx) (id : Nat) : Ctx :=
  match c.loads.find? (·.id == id) with
  | none => c
  | some l =>
    if l.pieces.all (fun p => p.st == .fixed) then
      let bs := l.pieces.flatMap Piece.value
      let c := { c with loads := c.loads.filter (·.id != id) }
      match l.dst with
      | .x n t => c.setX n (loadWord t bs)
      | .v n => c.setV n (BitVec.ofNat 512 (leNat bs))
      | .lanes n sz ls => c.setV n (lanesVec sz ls l.pieces)
      | .repLanes sz ls => { c with stage := { c.stage with rep := some (bvBytes 64 (lanesVec sz ls l.pieces)) } }
      | .bank63 t => c.modSys fun y => { y with x63 := loadWord t bs }
      | .rep => { c with stage := { c.stage with rep := some bs } }
    else c

/-- A load missed L1, or its home slice: counter 4 or 5 of Table 20-6 counts it once (R380). -/
def Ctx.loadMissed (c : Ctx) (id : Nat) (l1 : Bool) : Ctx :=
  let new := c.loads.any fun l => l.id == id && !(if l1 then l.missL1 else l.missHome)
  let c := { c with loads := c.loads.map fun l =>
    if l.id == id then { l with missL1 := l.missL1 || l1, missHome := l.missHome || !l1 } else l }
  if new then c.count (if l1 then 4 else 5) else c

/-- A piece of an open load changes. -/
def Ctx.modPiece (c : Ctx) (id k : Nat) (f : Piece → Piece) : Ctx :=
  { c with loads := c.loads.map fun l =>
      if l.id == id then { l with pieces := l.pieces.zipIdx.map fun p => if p.2 == k then f p.1 else p.1 } else l }

/-- A piece with its missing bytes taken from a run of bytes whose first byte is that of the piece. -/
def Piece.take (p : Piece) (bs : List Byte) : Piece :=
  { p with st := .fixed,
           bytes := (List.range p.size).map fun i => some (((p.bytes.getD i none)).getD (bs.getD i 0)) }

/-- The youngest SB entry that covers a byte under the same name, among the stores that a test picks. -/
def Ctx.sbFind (c : Ctx) (p : SbEntry → Bool) (va : Nat) : Option Byte :=
  (c.sb.reverse.find? fun e => e.red.isNone && p e && decide (e.va ≤ va) && decide (va < e.va + e.bytes.length)).map fun e =>
    e.bytes.getD (va - e.va) 0
/-- The youngest SB entry that covers a byte under the same name. -/
def Ctx.sbByte (c : Ctx) (va : Nat) : Option Byte := c.sbFind (fun _ => true) va
/-- The same for a load: no store that follows it in program order (R77, 1). -/
def Ctx.sbByteBy (c : Ctx) (id va : Nat) : Option Byte := c.sbFind (fun e => decide (e.tag ≤ id)) va

/-- Whether an earlier open load of the same bytes is not performed yet (R77). -/
def Ctx.loadWaits (c : Ctx) (id : Nat) (p : Piece) : Bool :=
  (c.loads.takeWhile (·.id != id)).any fun l =>
    l.pieces.any fun q => q.st != .fixed && covers p.va p.size q.va q.size

/-- Whether a place is read through the cluster view: link lines only in RO ranges (R58, Table 03-1). -/
def State.viewed (s : State) (n : Nat) (loc : Loc) (va : Nat) : Bool :=
  loc.cacheable && (!loc.isLink || (s.job (s.ctx n).run.job).regionSt va == .ro)

/-- The bytes a context's view and SB hold of a piece of a load, youngest name first. -/
def State.nearBytes (s : State) (n id : Nat) (p : Piece) (onlyDirty : Bool) : List (Option Byte) :=
  let c := s.ctx n
  let line := s.cv (cluOf n) (lineOf p.loc.key)
  (List.range p.size).map fun i =>
    match c.sbByteBy id (p.va + i) with
    | some b => some b
    | none => line.bind fun l => l.byte? onlyDirty ((p.loc.key + i) % 128)

/-- What a context's view, SB and own banks hold of a piece of a load now. -/
def State.nearOf (s : State) (n : Nat) (l : OpenLoad) (p : Piece) : List (Option Byte) :=
  match p.loc with
  | .own _ _ _ => (List.range p.size).map fun i => some (((s.ctx n).sbByteBy l.id (p.va + i)).getD (s.byte (p.loc.key + i)))
  | _ => s.nearBytes n l.id p l.wide

/-- Bytes of a piece fix its value (R77). -/
def State.fixPiece (s : State) (n id k : Nat) (bs : List (Option Byte)) : State :=
  s.modCtx n fun c => (c.modPiece id k fun p => { p with st := .fixed, bytes := bs }).closeLoad id

/-- The request of a piece of a load has been sent and not been served yet. -/
def State.asking (s : State) (n id k : Nat) : Bool :=
  let it (p : Packet) : Bool := p.cls == .req && p.who == .load n id k
  s.net.any it || s.homes.lines.any (fun h => h.2.waiting.any it) || (s.job (s.ctx n).run.job).stalled.any it

/-! A store is performed without waiting for earlier loads of its bytes, and none of them takes its value (R76, R77;
assumption log 99): such a load takes what is near it first, and what it still asks for is read before the store's bytes
reach the home. -/

/-- Pieces of loads that precede a store and have to be seen to before it is performed, in program order: those of its
bytes that are not fixed, and waiting ones of bytes that such a piece shares by its address. -/
def Ctx.earlier (c : Ctx) (tag key len : Nat) : List (Nat × Nat × Piece) :=
  (c.loads.filter fun l => decide (l.id < tag)).foldr (fun l acc =>
    ((l.pieces.zipIdx.filter fun q =>
        (q.1.st != .fixed && covers q.1.loc.key q.1.size key len)
          || (q.1.st == .waiting && acc.any fun a => covers q.1.va q.1.size a.2.2.va a.2.2.size)).map
      fun q => (l.id, q.2, q.1)) ++ acc) []

/-- One of them takes the bytes near it, and is performed where they are all; the bytes the store covers are past. -/
def State.readNear (s : State) (n key len id k : Nat) : State :=
  let c := s.ctx n
  match (c.loads.find? (·.id == id)).bind (fun l => (l.pieces[k]?).map fun p => (l, p)) with
  | none => s
  | some (l, p) =>
    let late := (List.range p.size).filter fun i => decide (key ≤ p.loc.key + i) && decide (p.loc.key + i < key + len)
    if p.st == .waiting && ((match p.loc with | .own _ _ _ => true | _ => false) || s.viewed n p.loc p.va) then
      let bs := s.nearOf n l p
      if bs.all (·.isSome) && !c.loadWaits id p then
        (match p.loc with | .own _ _ _ => s | loc => s.cvTouch (cluOf n) (lineOf loc.key) p.va l.evp).fixPiece n id k bs
      else s.modCtx n fun c => c.modPiece id k fun p => { p with st := .begun, bytes := bs, past := late }
    else s.modCtx n fun c => c.modPiece id k fun p => { p with past := p.past ++ late }

/-- What comes before a store of a context in a view or a bank. -/
def State.readFirst (s : State) (n tag key len : Nat) : State :=
  ((s.ctx n).earlier tag key len).foldl (fun t q => t.readNear n key len q.1 q.2.1) s

/-- A write-back that would bring its home a store's byte which an earlier load of the context still asks for. -/
def State.heldBack (s : State) (clu k : Nat) (mask : BitVec 128) : Bool :=
  (List.range 32).any fun i =>
    let n := clu * 32 + i
    (s.ctx n).loads.any fun l => l.pieces.zipIdx.any fun q =>
      lineOf q.1.loc.key == k && (q.1.st == .begun || s.asking n l.id q.2)
        && q.1.past.any fun j => (q.1.bytes.getD j none).isNone && mask.getLsbD ((q.1.loc.key + j) % 128)

/-- Some bytes of a store are those of an earlier open load of its context whose value is not fixed: no load
takes its value from a store that follows it (R77). -/
def State.unread (s : State) (n tag key len : Nat) : Bool :=
  (s.ctx n).loads.any fun l =>
    decide (l.id < tag) && l.pieces.zipIdx.any fun p =>
      covers p.1.loc.key p.1.size key len && (p.1.st == .waiting || p.1.st == .begun || s.asking n l.id p.2)

/-! ## Epoch counts (R49) -/

def CoreSt.count (c : CoreSt) (e : Bool) (up : Bool) : CoreSt :=
  let f (n : Nat) : Nat := if up then n + 1 else n - 1
  if e then { c with cnt1 := f c.cnt1 } else { c with cnt0 := f c.cnt0 }
/-- A translated store leaves the count once its destination holds it. -/
def State.epochDone (s : State) (e : Option (Nat × Bool)) : State :=
  match e with
  | some (core, b) => s.modCore core fun c => c.count b false
  | none => s
/-- A translated store joins the count of the current epoch of its core. -/
def State.epochAdd (s : State) (core : Nat) : State × (Nat × Bool) :=
  let e := (s.core core).epoch
  (s.modCore core fun c => c.count e true, (core, e))

/-! ## Barriers (R171 to R175) -/

/-- CHECK and ARRIVE (R173). -/
def Bar.test (b : Bar) : Bar :=
  if b.exp > 0 ∧ b.cnt ≥ b.exp then { b with cnt := b.cnt - b.exp, ph := !b.ph } else b
def Bar.arrive (b : Bar) : Bar := ({ b with cnt := min (b.cnt + 1) 65535 } : Bar).test
/-- Whether an arrival of a class is counted: the barrier is owned, and a copy or row arrival has its class
bound (R174, R175). -/
def Bar.takes (b : Bar) (k : ArrKind) : Bool :=
  b.own &&
    match k with
    | .copy => b.binds.contains .copy
    | .mxrow => b.binds.contains .mxrow
    | _ => true
/-- An arrival at a barrier of a core, and whether it was counted. -/
def State.arriveAt (s : State) (core bar : Nat) (k : ArrKind) : Bool × State :=
  let b := (s.core core).bar bar
  if b.takes k then (true, s.modCore core fun c => c.setBar bar b.arrive) else (false, s)

/-- Every event of a bound source is one arrival on each barrier bound to it (R175). -/
def State.arriveBound (s : State) (core : Nat) (p : Nat → Bar → Bool) : State :=
  (s.core core).bars.foldl (fun t e =>
    if e.2.own && p e.1 e.2 then t.modCore core fun c => c.setBar e.1 (c.bar e.1).arrive else t) s

/-- A counter reaches zero: one arrival on every barrier of the job's cores bound to it (R152, R175). -/
def State.counterZero (s : State) (job : Nat) (l : Level) (id : Word) : State :=
  (s.cores.map (·.1)).foldl (fun t core =>
    if (t.clu (cluOfCore core)).owner = some job then
      t.arriveBound core fun _ b => b.binds.any fun x =>
        match x with
        | .cnt l2 id2 => l2 == l && (l == .job || id2 == id)
        | _ => false
    else t) s

/-! ## The ATOMIC step (R90, R92, R98, R167) -/

/-- What an atomic finds and leaves: value, whether the word is written, mark, and what it replies; a waiting FGET
has no reply, and an FPUT may hand its value to a waiter. -/
structure AtomRes where
  val   : Nat
  wr    : Bool := true
  mark  : Bool
  reply : Option (List Byte)
  hand  : Bool := false
  deriving DecidableEq, Repr

/-- Bytes an atomic touches. -/
def AtomOp.size (o : AtomOp) (t : Esz) : Nat :=
  match o with
  | .join => 16
  | .fput | .fget | .fpeek => 8
  | _ => t.size

def AtomOp.returns : AtomOp → Bool
  | .red _ => false
  | _ => true
def AtomOp.future : AtomOp → Bool
  | .fput | .fget | .fpeek => true
  | _ => false

/-- The indivisible step on a word's value and mark. -/
def AtomOp.run (o : AtomOp) (t : Esz) (old : Nat) (mark waiters : Bool) (b c : Nat) : AtomRes :=
  let w := t.width
  match o with
  | .op f => { val := aopVal f t old b, mark := mark, reply := some (leBytes t.size old) }
  | .red f => { val := aopVal f t old b, mark := mark, reply := some [] }
  | .cas =>
    { val := if old % 2 ^ w = c % 2 ^ w then b % 2 ^ w else old, mark := mark, reply := some (leBytes t.size old) }
  | .fput =>
    if mark then { val := old, wr := false, mark := true, reply := some [0] }
    else if waiters then { val := old, wr := false, mark := false, reply := some [1], hand := true }
    else { val := b % 2 ^ 64, mark := true, reply := some [1] }
  | .fget =>
    if mark then { val := old, wr := false, mark := false, reply := some (leBytes 8 old) }
    else { val := old, wr := false, mark := false, reply := none }
  | .fpeek => { val := old, wr := false, mark := mark, reply := some (leBytes 8 old ++ [if mark then 1 else 0]) }
  | .join =>
    let cnt := toSigned 64 (old % 2 ^ 64)
    let cpc := old / 2 ^ 64
    { val := if cnt ≤ 0 ∨ cpc % 4 ≠ 0 then old else old - 1, wr := !(decide (cnt ≤ 0) || cpc % 4 != 0), mark := mark, reply := some (leBytes 16 old) }

/-- What a request comes to at its destination. -/
inductive Served
  /-- the destination does not serve it yet -/
  | stay
  /-- it does not serve it yet, and has begun what it waits for -/
  | later (s : State)
  /-- it waits at its home -/
  | held (s : State)
  /-- served, with the reply if there is one now -/
  | done (s : State) (reply : Option Payload)

/-- Effects of an ATOMIC step on waiters: the requester joins, or the oldest waiter is handed the value. -/
def State.futureStep (s : State) (k : Nat) (o : AtomOp) (r : AtomRes) (who : Who) (b : Nat) : State :=
  let ws := s.homes.fwait.get [] k
  let put (l : List Nat) : State := { s with homes := { s.homes with fwait := SMap.setD [] s.homes.fwait k l } }
  match o, r.hand, r.reply, who with
  | .fput, true, _, _ =>
    match ws with
    | n :: rest => (put rest).send { cls := .rsp, who := .instr n, pl := .value (leBytes 8 b) false }
    | [] => s
  | .fget, _, none, .instr n => put (ws ++ [n])
  | _, _, _, _ => s

/-- The ATOMIC step at a home, bank, carve-out or endpoint. -/
def State.atomicHome (s : State) (loc : Loc) (o : AtomOp) (t : Esz) (b c : Nat) (who : Who) : Served :=
  let k := loc.key
  let n := o.size t
  let old := leNat (s.bytes k n)
  let r := o.run t old (s.mark k) (!(s.homes.fwait.get [] k).isEmpty) b c
  let s := match who with
    | .instr n | .store n => s.jrn (s.ctx n).run.job ⟨jAtomic, n, k, []⟩
    | _ => s
  let s1 := if r.wr then s.homeWrite k ((leBytes n r.val).map some) else s
  let s1 := if o.future then s1.setMark k r.mark else s1
  .done (s1.futureStep k o r who b) (r.reply.map fun x => .value x false)

/-- The marks of a line at its home. -/
def State.homeMarks (s : State) (l : Nat) : BitVec 16 :=
  (List.range 16).foldl (fun (m : BitVec 16) i => if s.mark (l + 8 * i) then m ||| BitVec.twoPow 16 i else m) 0

/-- A line of a view with every byte valid and its marks known, fetched from the home in one step where a byte or
the marks are missing (R53, R97); a home that must first take RECALL begins it. -/
def State.wholeLine (s : State) (clu pa va evp : Nat) : Option CvLine × State :=
  let l := lineOf pa
  let x := (s.cv clu l).getD .blank
  if x.valid = BitVec.allOnes 128 ∧ x.mknown then (some (x.named va), s)
  else
    let (ok, s) := s.homeAsk (.hbm l)
    if ok then
      let (bs, s) := s.homeRead (.hbm l) 128 evp
      let x := (x.named va).fill bs
      (some (if x.mknown then x else { x with marks := s.homeMarks l, mknown := true }), s)
    else (none, s)

/-- The ATOMIC step at an L1 slice: the bytes written become valid and dirty in the owning view (R90), and
the mark is the line's (R97). DESIGN CHOICE (assumption log 94): where every way of the set is retained (R56) the
slice passes the written bytes and the mark to the home in the same step. -/
def State.atomicSlice (s : State) (clu : Nat) (pa va evp : Nat) (o : AtomOp) (t : Esz) (b c : Nat) (who : Who) : Served :=
  match s.wholeLine clu pa va evp with
  | (none, s) => .later s
  | (some x, s) =>
    let l := lineOf pa
    let i := pa % 128
    let n := o.size t
    let old := leNat ((List.range n).map fun j => lineByte x.data (i + j))
    let r := o.run t old (x.marks.getLsbD (i / 8)) (!(s.homes.fwait.get [] pa).isEmpty) b c
    let y := if r.wr then x.write i (leBytes n r.val) else x
    let m := BitVec.twoPow 16 (i / 8)
    let y :=
      if o.future ∧ x.marks.getLsbD (i / 8) ≠ r.mark then
        { y with marks := if r.mark then y.marks ||| m else y.marks &&& ~~~m, mdirty := true }
      else y
    let keep (s : State) : State :=
      match s.cvRoom clu l with
      | (true, s) => s.setCv clu l (s.evpLine clu evp y)
      | (false, s) =>
        let s := if r.wr then s.homeWrite pa ((leBytes n r.val).map some) else s
        if o.future then s.setMark pa r.mark else s
    let s := match who with
      | .instr n | .store n => s.jrn (s.ctx n).run.job ⟨jAtomic, n, pa, []⟩
      | _ => s
    .done ((keep s).futureStep pa o r who b) (r.reply.map fun y => .value y false)

/-! ## Sync objects (R83 to R86) -/

/-- The mirror word of a sync object. The number of a waiting context that is saved, whose number savedNo has no coordinate, is
DESIGN CHOICE (assumption log 117): its low 16 bits, plus 1. -/
def State.mirror (s : State) (pa : Nat) (h : Option Nat) : State :=
  s.homeWrite pa ((leBytes 8 (match h with | some n => n % 2 ^ 16 + 1 | none => 0)).map some)
def State.sync (s : State) (pa : Nat) : SyncRec := s.homes.syncs.get {} pa
def State.setSync (s : State) (pa : Nat) (r : SyncRec) : State :=
  { s with homes := { s.homes with syncs := s.homes.syncs.set pa r } }

/-- Numbers of saved contexts in holder records and FIFOs (R394), from their job and their own number. -/
def savedNo (job no : Nat) : Nat := 2 ^ 48 * no + 2 ^ 16 * (job + 1)
/-- The job of a context that waits at a home, saved or not. -/
def State.jobOfNo (s : State) (n : Nat) : Nat := if n < 2 ^ 16 then (s.ctx n).run.job else n / 2 ^ 16 % 2 ^ 32 - 1
/-- A blocked context changes, where it stands: on its core, or in its save area. -/
def State.modInstr (s : State) (n : Nat) (f : Ctx → Ctx) : State :=
  if n < 2 ^ 16 then s.modCtx n f
  else s.modJob (s.jobOfNo n) fun j =>
    { j with saved := j.saved.map fun v => if v.no == n / 2 ^ 48 then { v with ctx := f v.ctx } else v }

/-- A free object is granted to the head of its FIFO (R84, step 2). -/
def State.grant (s : State) (pa : Nat) : State :=
  let r := s.sync pa
  match r.holder, r.fifo with
  | none, n :: rest =>
    let s := (s.setSync pa { r with holder := some n, fifo := rest }).mirror pa (some n)
    let s := s.jrn (s.jobOfNo n) ⟨jGrant, n, pa, []⟩
    s.send { cls := .rsp, who := .instr n, pl := .grant false, src := homeStop pa }
  | _, _ => s

/-! ## Requests -/

/-- A bank access from outside its context: none while the bank is being cleared (R51), not delivered when no
context holds the bank (R14). -/
inductive BankAt | clearing | gone | held
  deriving DecidableEq, Repr
def State.bankAt (s : State) (core bank : Nat) : BankAt :=
  if (s.core core).clearing.contains bank then .clearing
  else if (s.bankHolder core bank).isNone then .gone
  else .held

/-- Core and bank of a place in a scratchpad. -/
def Loc.bank? : Loc → Option (Nat × Nat)
  | .own c b _ => some (c, b)
  | .window c b _ => some (c, b)
  | _ => none

/-- An access that R95 orders after RECALL: it waits at the home, which starts the RECALL. -/
def State.hold (s : State) (l : Nat) (p : Packet) : Served :=
  let s := s.beginBack l
  let h := s.home l
  .held (s.setHome l { h with waiting := h.waiting ++ [p] })

/-- The job that owns the cluster of a core. -/
def State.ownerOf (s : State) (core : Nat) : Nat := ((s.clu (cluOfCore core)).owner).getD 0

/-- A node's completion counter rises (Table 08-1). -/
def State.nodeUp (s : State) (job graph node : Nat) : State :=
  s.modJob job fun j => j.modNode graph node fun x => { x with counter := x.counter + 1 }

/-- Whether a node takes no continuation record any more: it is marked cancelled, its attempt is abandoned, or it is no
more (R153, R415). -/
def Job.takesNone (j : Job) (g n : Nat) : Bool := ((j.node? g n).map fun x => x.cancelled || x.redo || x.st == .done).getD true

/-- A continuation record reaches a mailbox (R169). One of a node that has been cancelled meanwhile has no effect, and its
predicate reports false (R153, step 4). -/
def State.mailIn (s : State) (core : Nat) (t : Task) : Bool × State :=
  let c := s.core core
  let j := s.ownerOf core
  if c.mail.length < c.mbox ∧ !(s.job j).takesNone t.graph t.node then
    (true, ((s.modCore core fun c => { c with mail := c.mail ++ [t] }).nodeUp j t.graph t.node).jrn j ⟨jMail, core, 1, []⟩)
  else (false, s.jrn j ⟨jMail, core, 0, []⟩)

/-- A stream's write has been performed at the home of a line (R129): its context's cluster keeps no older clean byte
of it, and no line asked for before fills the view any more. -/
def State.streamWrote (s : State) (n pa : Nat) (bs : List Byte) : State :=
  let clu := cluOf n
  let l := lineOf pa
  let s := match s.cv clu l with
    | some x => s.setCv clu l (x.overClean (pa % 128) bs)
    | none => s
  let old (p : Piece) : Piece := if p.st = .sentLine ∧ lineOf p.loc.key = l then { p with st := .sentOld } else p
  let s := (List.range 32).foldl (fun (t : State) i => t.modCtx (clu * 32 + i) fun c =>
    { c with loads := c.loads.map fun x => { x with pieces := x.pieces.map old } }) s
  { s with net := s.net.map fun p =>
      match p.who with
      | .prf m key _ => if p.cls = .rsp ∧ cluOf m = clu ∧ key = l then { p with who := .nobody } else p
      | _ => p }

/-- What a request does where it is delivered. DESIGN CHOICE (assumption log 97): a cluster asked for a line that a discard
has dropped answers with an empty return; one whose line is on its way home answers nothing more. -/
def State.serve (s : State) (p : Packet) : Served :=
  match p.pl with
  | .write loc bs =>
    match loc.bank? with
    | some (c, b) =>
      match s.bankAt c b with
      | .clearing => .stay
      | .gone => .done s (some (.ack true))
      | .held =>
        let s := match p.who with
          | .store n | .instr n => s.readFirst n p.tag loc.key bs.length
          | _ => s
        .done (s.bankPut loc.key bs) (some (.ack false))
    | none =>
      let s := if loc.isHbm then s.touchHome (lineOf loc.key) p.evp else s
      let s := s.homeWrite loc.key (bs.map some)
      .done (match p.who with
        | .stream n _ => if loc.isHbm then s.streamWrote n loc.key bs else s
        | _ => s) (some (.ack false))
  | .read loc len _ =>
    match loc.bank? with
    | some (c, b) =>
      match s.bankAt c b with
      | .clearing => .stay
      | .gone => .done s (some (.value (List.replicate len 0) true))
      | .held => .done s (some (.value (s.bytes loc.key len) false))
    | none =>
      match loc.heldLine with
      | some l =>
        if s.homeFree l then
          let s := match p.who with
            | .load n id _ => if s.homeHolds loc then s else s.modCtx n fun c => c.loadMissed id false
            | _ => s
          let (bs, t) := s.homeRead loc len p.evp
          .done t (some (.value bs false))
        else s.hold l p
      | none => .done s (some (.value (s.bytes loc.key len) false))
  | .atomic loc o t b c slice =>
    match loc.bank? with
    | some (cr, bk) =>
      match s.bankAt cr bk with
      | .clearing => .stay
      | .gone => .done s (some (.value (List.replicate (o.size t + 1) 0) true))
      | .held => s.atomicHome loc o t b.toNat c.toNat p.who
    | none =>
      match slice, loc with
      | some clu, .hbm pa => s.atomicSlice clu pa p.va p.evp o t b.toNat c.toNat p.who
      | _, _ =>
        match loc.heldLine with
        | some l =>
          if o.returns && !s.homeFree l then s.hold l p
          else s.atomicHome loc o t b.toNat c.toNat p.who
        | none => s.atomicHome loc o t b.toNat c.toNat p.who
  | .reg l clu life =>
    let h := s.home l
    if h.early.contains (clu, life) then .done (s.setHome l { h with early := h.early.erase (clu, life) }) (some (.ack false))
    else if h.recalls.isSome then .held (s.setHome l { h with waiting := h.waiting ++ [p] })
    else
      .done (s.setHome l { h with holders := h.holders ++ [(clu, life)] }) (some (.ack false))
  | .acquire pa va =>
    match p.who with
    | .instr n =>
      let r := s.sync pa
      .done ((s.setSync pa { r with va := va, fifo := r.fifo ++ [n] }).grant pa) none
    | _ => .done s none
  | .release pa _ =>
    let r := s.sync pa
    .done (((s.setSync pa { r with holder := none }).mirror pa none).grant pa) (some (.grant false))
  | .arrive core bar k =>
    let (ok, t) := s.arriveAt core bar k
    .done t (match p.who with
      | .nobody => none
      | _ => some (if ok then .ack false else .dropped false))
  | .row parts core bar =>
    let at_ (q : Loc × List Byte) : BankAt := match q.1.bank? with | some (c, b) => s.bankAt c b | none => .gone
    if parts.any fun q => at_ q == .clearing then .stay
    else
      let nd := parts.any fun q => at_ q == .gone
      let s := parts.foldl (fun t q => if at_ q == .held then t.bankPut q.1.key q.2 else t) s
      let (ok, s) := s.arriveAt core bar .mxrow
      .done s (some (if ok then .ack nd else .dropped nd))
  | .channel j g nd r q e =>
    match s.gangCtx j g nd r with
    | some n =>
      .done (s.modCtx n fun c =>
        let k := c.getQ q
        c.setQ q { k with ents := k.ents ++ [{ data := e }], coming := k.coming - 1 }) (some (.ack false))
    | none => .done s (some (.ack true))
  | .mail core t =>
    let (ok, u) := s.mailIn core t
    .done u (some (.value [if ok then 1 else 0] false))
  | .plf l =>
    if s.homeFree l then
      .done (s.dropImages (· == l)) (some (.grant false))
    else s.hold l p
  | .writeBack k mask data marks =>
    let s := s.homeWrite k (maskedBytes mask data)
    let s :=
      match marks with
      | some m => (List.range 16).foldl (fun t i => t.setMark (k + 8 * i) (m.getLsbD i)) s
      | none => s
    .done s (some (.ack false))
  | .redBack l clu life ws back =>
    let h := s.home l
    let called := match h.recalls with | some r => r.contains (clu, life) | none => false
    if back then
      .done (if called then
        s.setHome l { h with recalls := h.recalls.map fun r => r.erase (clu, life), back := h.back.set clu (h.back.get [] clu ++ ws) }
        else s) (some (.ack false))
    else
      let s := (s.rbMerge l ws).jrn (s.ownerOf (clu * 8)) ⟨jFlush, clu, l, []⟩
      let h := s.home l
      let early := if h.holders.contains (clu, life) then h.early else h.early ++ [(clu, life)]
      .done (s.setHome l { h with holders := h.holders.erase (clu, life), early := early,
                                  recalls := h.recalls.map fun r => r.erase (clu, life) }) (some (.ack false))
  | .hop n k no _ _ image => .done (s.modCtx n fun c => c.hopArrive k no image) none
  | .srcl n k no e _ => .done (s.modCtx n fun c => c.srclArrive k no e) none
  | .chase _ _ _ => .done s none
  | .recallReq l clu life =>
    match (s.clu clu).rb.find? (fun r => r.line == l && r.life == life) with
    | some r => .done (s.rbHome clu r true) none
    | none =>
      let coming (q : Packet) : Bool := match q.pl with | .redBack k c i _ _ => k == l && c == clu && i == life | _ => false
      .done (if s.net.any coming then s else s.rbHome clu { line := l, words := [], life := life } true) none
  | .ack _ | .dropped _ | .value _ _ | .grant _ | .error => .done s none

/-! ## Replies -/

/-- The reply to a read of an open load: the missing bytes are fixed, and the view is filled (R77). -/
def State.loadReply (s : State) (n id k : Nat) (bs : List Byte) (nd : Bool) : State :=
  let c := s.ctx n
  match (c.loads.find? (·.id == id)).bind (fun l => (l.pieces[k]?).map fun p => (l, p)) with
  | none => s
  | some (l, p) =>
    let line := p.st == .sentLine
    let off := if line || p.st == .sentOld then p.loc.key % 128 else 0
    let s := if line && l.evp != 0 then s.cvFill (cluOf n) (lineOf p.loc.key) p.va bs l.evp else s
    if s.poisoned n p.loc p.size ∧ c.sys.ending = 0 then
      (s.modCtx n fun c => { c with loads := c.loads.filter (·.id != id) }).raise n l.pc l.pc (flt clsSecurity p.va)
    else
    s.modCtx n fun c =>
      let c := (c.modPiece id k fun p => p.take (bs.drop off)).closeLoad id
      if nd then c.setCstat cstatLwnd else c

/-- A STORE stream whose last element is written and acknowledged has ended (R117). -/
def Stream.settle (t : Stream) : Stream :=
  if t.st = 1 ∧ dKind t.desc = kStore ∧ t.done = dN t.desc ∧ t.out = 0 then { t with st := 2 } else t

/-- Whether a storing stream still has writes not acknowledged, or, no fault having stopped it, elements taken and not
written (R122, R123). -/
def Stream.draining (t : Stream) : Bool :=
  t.st != 0
    && match dKind t.desc with
      | 1 => t.out != 0 || (t.fault.isNone && !t.ent.isEmpty)
      | 4 => t.out != 0 || (t.fault.isNone && match t.ring with | some r => decide (r.at_ < dTile t.desc) | none => false)
      | _ => false

/-- The acknowledgement of a remote store removes the notices kept for it (R127). -/
def Ctx.noticeDone (c : Ctx) (tag : Nat) : Ctx :=
  if tag = 0 then c
  else { c with streams := c.streams.map fun e => (e.1, { e.2 with notes := e.2.notes.filter fun x => x.id != tag }) }

/-- A copy job, and no matrix command. -/
def EJob.isCopy (j : EJob) : Bool := match j.kind with | .copy _ _ => true | _ => false

/-- The tag of a matrix command (Table 21-5). -/
def EJob.mxTag (j : EJob) : Nat := 0x8000 + j.ord % 2 ^ 15
/-- The tag of a copy job (R359). -/
def State.cpTag (s : State) (n slot : Nat) : Nat := ((s.ctx n).sys.cps.get {} slot).seq * 8 + slot
/-- The fields a fault of an engine job's write of a row has, at a virtual address (Table 21-5). -/
def State.writeInfo (s : State) (j : EJob) (row va : Nat) (i : FaultInfo) : FaultInfo :=
  match j.kind with
  | .copy d slot =>
    let c := (va + 2 ^ 64 - cardD d row 0) % 2 ^ 64
    { i with det := s.cpTag j.ctx slot, idx := lineIndex (cardD d) (cardC0 d) row c, addr := lineOf va, elem := true, org := 2 }
  | _ => { i with det := j.mxTag, idx := row, addr := va, elem := true, org := 3 }

/-- The command under way of a link node changes (R404). -/
def State.modHead (s : State) (node : Nat) (f : HostCmd → HostCmd) : State :=
  match s.pkg.cmds.get [] node with
  | [] => s
  | c :: r => { s with pkg := { s.pkg with cmds := s.pkg.cmds.set node (f c :: r) } }

/-- An error reply of a link (R400): the access ends its run with a LEASE fault, and the counts that held it
fall. A write of a stream or an engine job is a fault of its element. -/
def State.linkError (s : State) (p : Packet) : State :=
  let s := s.epochDone p.epo
  let i : FaultInfo := flt clsLease p.va
  let dead (t : State) (n : Nat) (pc : Word) : State :=
    if (t.ctx n).sys.ending = 0 ∧ (t.ctx n).run.kind ≠ .free then t.raise n pc pc i else t
  match p.who with
  | .store n => dead (s.modCtx n fun c => ({ c with unack := c.unack - 1 } : Ctx).noticeDone p.tag) n p.pc
  | .load n id _ => dead (s.modCtx n fun c => { c with loads := c.loads.filter (·.id != id) }) n p.pc
  | .instr n =>
    let w := if p.tag = 0 then 0 else 1
    dead (s.modInstr n fun c => { c with unack := c.unack - w, stage := { c.stage with out := c.stage.out - 1 } }) n p.pc
  | .chan n _ => s.modCtx n fun c => { c with unack := c.unack - 1 }
  | .stream n k =>
    s.modCtx n fun c =>
      let t := c.getS k
      c.setS k { t with out := t.out - 1, st := 3,
                        fault := t.fault.orElse fun _ => some { i with det := k, idx := p.tag, elem := true, org := 1 } }
  | .job clu id =>
    s.modClu clu fun c => { c with jobs := c.jobs.map fun j =>
      if j.id == id then
        { j with outs := j.outs.erase p.tag,
                 fault := j.fault.orElse fun _ => some (s.writeInfo j (p.tag - 1) p.va i) }
      else j }
  | .clu clu id => s.modClu clu fun c => { c with wbOut := c.wbOut.filter (·.1 != id) }
  | .host node => s.modHead node fun c => { c with wait := false, bad := true }
  | .prf _ _ _ | .nobody => s

/-- What a reply does where it is delivered (R75, R77, R90). -/
def State.reply (s : State) (p : Packet) : State :=
  if p.pl = .error then s.linkError p
  else
  match p.who with
  | .store n =>
    s.modCtx n fun c =>
      let c := ({ c with unack := c.unack - 1 } : Ctx).noticeDone p.tag
      match p.pl with
      | .ack true => c.setCstat cstatLwnd
      | .value _ true => c.setCstat cstatLwnd
      | .dropped nd => let c := c.setCstat cstatBarnd; if nd then c.setCstat cstatLwnd else c
      | _ => c
  | .load n id k =>
    match p.pl with
    | .value bs nd => s.loadReply n id k bs nd
    | _ => s
  | .instr n =>
    s.modInstr n fun c =>
      match p.pl with
      | .ack nd =>
        let c := ({ c with unack := c.unack - 1, stage := { c.stage with out := c.stage.out - 1 } } : Ctx).noticeDone p.tag
        if nd then c.setCstat cstatLwnd else c
      | .value bs nd =>
        let c := { c with stage := { c.stage with rep := some bs, out := c.stage.out - 1 } }
        if nd then c.setCstat cstatLwnd else c
      | .grant nd => { c with stage := { c.stage with rep := some [], nd := nd, out := c.stage.out - 1 } }
      | _ => c
  | .chan n q =>
    s.modCtx n fun c =>
      let c := { c with unack := c.unack - 1 }
      let c := c.setQ q { c.getQ q with sent := (c.getQ q).sent - 1 }
      match p.pl with
      | .ack true => c.setCstat cstatLwnd
      | _ => c
  | .stream n k =>
    s.modCtx n fun c =>
      let c := c.setS k (Stream.settle { c.getS k with out := (c.getS k).out - 1 })
      match p.pl with
      | .ack true => c.setCstat cstatLwnd
      | _ => c
  | .job clu id =>
    let js := (s.clu clu).jobs
    let s := s.modClu clu fun c => { c with jobs := c.jobs.map fun j => if j.id == id then { j with outs := j.outs.erase p.tag } else j }
    match js.find? (·.id == id), p.pl with
    | some j, .ack true => s.modCtx j.ctx fun c => c.setCstat cstatLwnd
    | some j, .dropped nd =>
      s.modCtx j.ctx fun c => let c := c.setCstat cstatBarnd; if nd then c.setCstat cstatLwnd else c
    | _, _ => s
  | .clu clu id => s.modClu clu fun c => { c with wbOut := c.wbOut.filter (·.1 != id) }
  | .prf n key evp =>
    match p.pl with
    | .value bs _ => if evp = 0 then s else s.cvFill (cluOf n) key p.va bs evp
    | _ => s
  | .host node =>
    match p.pl with
    | .value bs _ => s.modHead node fun c => { c with wait := false, cap := c.cap ++ bs }
    | _ => s
  | .nobody => s

/-! ## DELIVER -/

/-- Two packets of one class, one source and one destination on one path (R72). -/
def Packet.follows (p q : Packet) : Bool :=
  p.cls == q.cls && p.src == q.src && p.dst == q.dst && p.ridge == q.ridge

/-- Whether a packet may be delivered: packets of one path keep their order of injection (R72, R75), and a
store's bytes wait for the earlier loads of them (R77). -/
def State.mayDeliver (s : State) (k : Nat) : Bool :=
  match s.net[k]? with
  | none => true
  | some p =>
    !((s.net.take k).any p.follows)
      && match p.cls, p.pl, p.who with
         | .req, .write loc bs, .store n => !s.unread n p.tag loc.key bs.length
         | .req, .write loc bs, .instr n => !s.unread n p.tag loc.key bs.length
         | .wb, .writeBack k mask _ _, .clu clu _ => !s.heldBack clu k mask
         | _, _, _ => true

/-- A reply packet travels back in class RSP, from where the request was served. -/
def Packet.answer (p : Packet) (pl : Payload) : Packet :=
  { cls := .rsp, who := p.who, pl := pl, tag := p.tag, va := p.va, pc := p.pc, src := p.dst }

/-- Removing a packet from NET and applying it at its destination (R72). -/
def State.deliver (s : State) (k : Nat) : State :=
  match s.net[k]? with
  | none => s
  | some p =>
    if !s.mayDeliver k then s
    else
      let s1 := { s with net := s.net.eraseIdx k }
      match p.cls with
      | .rsp => s1.reply p
      | _ =>
        match s1.serve p with
        | .stay => s
        | .later t => { t with net := t.net.take k ++ p :: t.net.drop k }
        | .held t => t
        | .done t (some r) => (t.epochDone p.epo).send (p.answer r)
        | .done t none => t.epochDone p.epo

/-- The head of a loop-back port reaches its bank, or a reply its context (R28, R29). -/
def State.loopBack (s : State) (core : Nat) : State :=
  match (s.core core).lp with
  | [] => s
  | p :: r =>
    let s1 := s.modCore core fun c => { c with lp := r }
    match p.cls with
    | .rsp => s1.reply p
    | _ =>
      match s1.serve p with
      | .stay => s
      | .later t => t.modCore core fun c => { c with lp := p :: c.lp }
      | .held t => t
      | .done t (some x) => (t.epochDone p.epo).modCore core fun c => { c with lp := c.lp ++ [p.answer x] }
      | .done t none => t.epochDone p.epo

/-- RECALL_MERGE: every line has arrived; partials merge in ascending order of cluster, the holder set is
emptied, and what waited is served in order, accesses before registrations (R95, R96). -/
def State.mergeBack (s : State) (l : Nat) : State :=
  let h := s.home l
  if h.recalls = some [] then
    let s := h.back.foldl (fun t e => t.rbMerge l e.2) s
    let s := s.jrn (((s.clu (((h.holders.head?).getD (0, 0)).1)).owner).getD 0) ⟨jRecalled, 0, l, []⟩
    let s := s.setHome l { s.home l with holders := [], recalls := none, back := [], waiting := [] }
    let isReg (p : Packet) : Bool := match p.pl with | .reg _ _ _ => true | _ => false
    let acc := h.waiting.filter (!isReg ·)
    let regs := h.waiting.filter isReg
    (acc ++ regs).foldl (fun t p =>
      match t.serve p with
      | .stay => t.send p
      | .later u => u.send p
      | .held u => u
      | .done u (some r) => (u.epochDone p.epo).send (p.answer r)
      | .done u none => u.epochDone p.epo) s
  else s

end Sys2Proof.Machine
end

