-- ==== Sys2Proof/Machine/Access.lean ====
section
/-!
DEFINITION. Loads and stores on their way (R71 to R79): issue, DRAIN, PERFORM, WRITE-BACK and DROP, CAPTURE
(R87), and what a store does to the open streams of its own context (R127).
-/
namespace Sys2Proof.Machine

/-! ## Addresses (R234) -/

/-- EA of layout M; the size is that of the address scale. -/
def Ctx.ea (c : Ctx) (o : OpM) (size : Nat) : Nat :=
  let a : Nat := match o.a with | .x n => (c.getX n.val).toNat | _ => 0
  let bx : Nat := match o.b with | .x n => (c.getX n.val).toNat | _ => 0
  let bi : Int := (Opd.immVal o.b).toInt
  let ai : Int := a
  match o.am with
  | .imm => mod64 (ai + bi)
  | .scaled => (a + bx * size) % 2 ^ 64
  | .index => (a + bx) % 2 ^ 64
  | .priv => mod64 (0x00C8000000000000 + ai + bi)
  | .pcrel => mod64 ((c.pc.toNat : Int) + bi * 4)

/-! ## Patches of own stores (R127) -/

/-- An entry of a queue after a store, its data made again from the patched elements. -/
def QEnt.patch (e : QEnt) (d : BitVec 512) (part va : Nat) (bs : List Byte) : QEnt :=
  if e.elts.any (fun x => covers va bs.length x.va x.raw.length) then
    let es := e.elts.map fun x => patchRaw x va bs
    { e with elts := es, data := ((dPack d es)[part]?).getD e.data }
  else e

/-- Which half of an L128 element an entry holds: entries of one element alternate. -/
def patchEnts (d : BitVec 512) (va : Nat) (bs : List Byte) : List QEnt → Nat → List QEnt
  | [], _ => []
  | e :: r, part => e.patch d part va bs :: patchEnts d va bs r (if dPpe d = 2 then 1 - part else 0)

/-- A patch of an index that an INDIRECT stream has consumed, its data element not dequeued: that data element
and those after it are fetched again, from their indices on (R127). -/
def Ctx.reFetch (c : Ctx) (k d va n : Nat) : Ctx :=
  let t := c.getS k
  let u := c.getS d
  let q := c.getQ (dQr u.desc)
  let live := (q.ents.flatMap fun e => e.elts.map (·.idx)) ++ u.fb.map (·.idx)
  let hit := live.filter fun e => covers va n (dAddr t.desc e) (dSize t.desc)
  match hit with
  | [] => c
  | h :: r =>
    let e0 := r.foldl min h
    let keep := q.ents.takeWhile fun x => x.elts.all fun y => decide (y.idx < e0)
    let e1 := match q.ents.drop keep.length with
      | x :: _ => ((x.elts.head?).map (·.idx)).getD e0
      | [] => e0
    let back := min e1 u.done
    let c := c.setQ (dQr u.desc) { q with ents := keep }
    let c := c.setS d { u with st := if u.fault.isSome then 3 else 1, pos := e1, done := if q.ents.length = keep.length then u.done else back,
                               fb := u.fb.filter fun e => e.idx < e1 }
    c.setS k { t with st := if t.fault.isSome then 3 else 1, pos := e1, done := e1, fb := [] }

/-- A younger store over the bytes of a notice. -/
def Notice.overlay (x : Notice) (va : Nat) (bs : List Byte) : Notice :=
  { x with bytes := (patchRaw { idx := 0, va := x.va, raw := x.bytes } va bs).raw }

/-- One open LOAD or INDIRECT stream of the context after a store of it: elements delivered or fetched are
patched; elements to come take a notice where the stream is away, or the store is remote (R127). DESIGN CHOICE (assumption log
119): what a closed stream has left in its queue is not patched. -/
def Ctx.patchStream (c : Ctx) (k id va : Nat) (bs : List Byte) (remote : Bool) : Ctx :=
  let t := c.getS k
  if t.st = 0 ∨ !dDelivers t.desc then c
  else
    let qn := dQr t.desc
    let q := c.getQ qn
    let odd := if dPpe t.desc = 2 ∧ q.ents.length % 2 = 1 then 1 else 0
    let c := if q.bind = .load k then c.setQ qn { q with ents := patchEnts t.desc va bs q.ents odd } else c
    let t : Stream := { t with fb := t.fb.map fun e => if covers va bs.length e.va e.raw.length then patchRaw e va bs else e }
    let t : Stream := { t with notes := t.notes.map fun x => x.overlay va bs }
    let t : Stream :=
      if (t.place != 0 || remote) && t.mayHit va bs.length then
        { t with notes := t.notes ++ [{ id := id, va := va, bytes := bs, remote := remote }] }
      else t
    let c := c.setS k t
    match t.feeds with
    | some d => c.reFetch k d va bs.length
    | none => c

def Ctx.patchAll (c : Ctx) (id va : Nat) (bs : List Byte) (remote : Bool) : Ctx :=
  (List.range 16).foldl (fun c k => if (c.streams.get? k).isSome then c.patchStream k id va bs remote else c) c

/-- A store that leaves SB as a packet is in no image until it is acknowledged: streams of the context keep a
notice of it till then, with the bytes of younger stores of SB (R116, R127). -/
def Ctx.noticeSent (c : Ctx) (tag va : Nat) (bs : List Byte) : Ctx :=
  let fresh := c.sb.foldl (fun (x : Notice) e => x.overlay e.va e.bytes) { id := tag, va := va, bytes := bs, remote := true }
  { c with streams := c.streams.map fun e =>
      let t := e.2
      if t.st = 0 ∨ !dDelivers t.desc then e
      else if t.notes.any (·.id == tag) then
        (e.1, { t with notes := t.notes.map fun x => if x.id == tag then { x with remote := true } else x })
      else if t.mayHit va bs.length then (e.1, { t with notes := t.notes ++ [fresh] })
      else e }

/-- A remote store that would add a seventeenth kept notice waits at issue (R127). -/
def Ctx.noticeFull (c : Ctx) (va n : Nat) : Bool :=
  c.streams.any fun p =>
    p.2.st != 0 && dDelivers p.2.desc && decide (16 ≤ (p.2.notes.filter (·.remote)).length)
      && p.2.mayHit va n

/-- The floated streams that a store sends an alias notice after (R72, R127). -/
def Ctx.chased (c : Ctx) (va n : Nat) : List (Nat × Nat) :=
  (c.streams.filter fun p => p.2.st != 0 && dDelivers p.2.desc && p.2.place != 0 && p.2.mayHit va n).map fun p => (p.1, p.2.place)

/-- A stream away from the core whose notice list is full takes RECALL before a seventeenth notice joins
(R127): the slots. -/
def Ctx.listFull (c : Ctx) (va n : Nat) : List Nat :=
  (c.streams.filter fun p =>
    p.2.st == 1 && dDelivers p.2.desc && p.2.place != 0 && decide (16 ≤ p.2.notes.length)
      && p.2.mayHit va n).map (·.1)

/-! ## Stores (R75) -/

inductive Route | sb | lp | net
  deriving DecidableEq, Repr
/-- Table 04-3. -/
def Loc.route (core : Nat) : Loc → Route
  | .own _ _ _ | .hbm _ | .planed _ => .sb
  | .window c _ _ => if c = core then .lp else .net
  | .scratch _ _ _ | .host _ _ | .peer _ _ => .net

/-- Whether a store may take its route now: the token of a REQ, its own or an alias notice's (R407), the hold of a
REDUCE stream and the notices of R127 for remote stores. -/
def State.storeMay (s : State) (n : Nat) (loc : Loc) (va len : Nat) : Bool :=
  match loc.route (coreOf n) with
  | .sb => ((s.ctx n).chased va len).isEmpty || s.mayInject n
  | r => !(s.ctx n).reduceHolds va len && !(s.ctx n).noticeFull va len && (r == .lp || s.mayInject n)

/-- Alias notices chase the floated streams a store may cover (R127). -/
def State.chase (s : State) (n va len : Nat) : State :=
  ((s.ctx n).chased va len).foldl (fun t k =>
    t.inject n { cls := .req, who := .stream n k.1, pl := .chase n k.1 k.2, va := va }) s

/-- A packet into NET or, for the issuing core's own banks, the tail of its loop-back port (R75). -/
def State.sendTo (s : State) (n : Nat) (loc : Loc) (p : Packet) : State :=
  if loc.route (coreOf n) = .lp then s.modCore (coreOf n) fun c => { c with lp := c.lp ++ [p] } else s.inject n p

/-- No copy of a link line is kept in the cluster's view once an access of a PRIV or SHRW range meets it (R58). -/
def State.dropLink (s : State) (n : Nat) (loc : Loc) : State :=
  if loc.isLink then s.dropLine (cluOf n) (lineOf loc.key) else s

/-- A store issues: it patches the streams of its context and takes its route (R75, R127). An ACQ or SC store
is answered to the blocked instruction. -/
def State.storeIssue (s : State) (n : Nat) (loc : Loc) (va : Nat) (bs : List Byte) (ord : MemOrd) (sc : Scope)
    (evp : Nat) : State :=
  let remote := loc.route (coreOf n) != .sb
  let s := s.markAt n loc true (sc == .sys)
  let s := ((s.ctx n).listFull va bs.length).foldl (fun t k => t.modCtx n fun c => c.bringBack k 4) s
  let s := s.chase n va bs.length
  let tag := (s.ctx n).nextId + 1
  let s := s.modCtx n fun c => ({ c with nextId := tag } : Ctx).patchAll tag va bs remote
  let s := s.tlbFill (s.ctx n).run.job (coreOf n) va
  let (s, e) := if decide (va < 0x00C0000000000000) then s.epochAdd (coreOf n) else (s, (0, false))
  match loc.route (coreOf n) with
  | .sb =>
    let shrw := (s.job (s.ctx n).run.job).regionSt va == .shrw
    s.modCtx n fun c =>
      { c with sb := c.sb ++ [{ va := va, loc := loc, bytes := bs, ord := ord, scope := sc, evp := evp, shrw := shrw, epo := e, tag := tag, pc := c.pc }] }
  | _ =>
    let who := if ord.hasAcq then Who.instr n else Who.store n
    let s := s.dropLink n loc
    let s := s.modCtx n fun c =>
      { c with unack := c.unack + 1, stage := if ord.hasAcq then { c.stage with out := c.stage.out + 1 } else c.stage }
    s.sendTo n loc { cls := .req, who := who, pl := .write loc bs, evp := evp, tag := tag, va := va, pc := (s.ctx n).pc,
                     epo := if decide (va < 0x00C0000000000000) then some e else none }

/-- An earlier load of the context of some bytes stands in the loop-back port of its core. -/
def State.inPort (s : State) (n tag key len : Nat) : Bool :=
  (s.core (coreOf n)).lp.any fun p => p.cls == .req && match p.who, p.pl with
    | .load m id _, .read loc l _ => m == n && decide (id < tag) && covers loc.key l key len
    | _, _ => false
/-- The port serves what stands before such a load, and that load (R28, R77): at most fuel entries of it. -/
def State.portFirst (s : State) (n tag key len : Nat) : Nat → State
  | 0 => s
  | f + 1 => if s.inPort n tag key len then (s.loopBack (coreOf n)).portFirst n tag key len f else s

/-- The oldest entry of SB is performed (R76), after the earlier loads of its bytes (R77; assumption log 99). -/
def State.drainHead (s : State) (n : Nat) (e : SbEntry) : State :=
  let clu := cluOf n
  let pop (t : State) : State := t.modCtx n fun c => { c with sb := c.sb.drop 1 }
  let first (t : State) : State := t.readFirst n e.tag e.loc.key e.bytes.length
  let done := some e.epo
  let toHome (t : State) : State :=
    let who := if e.ord.hasAcq then Who.instr n else Who.store n
    let t := t.modCtx n fun c =>
      ({ c with unack := c.unack + 1, stage := if e.ord.hasAcq then { c.stage with out := c.stage.out + 1 } else c.stage } : Ctx).noticeSent
        e.tag e.va e.bytes
    t.inject n { cls := .req, who := who, pl := .write e.loc e.bytes, evp := e.evp, tag := e.tag, epo := done, va := e.va, pc := e.pc }
  match e.loc with
  | .hbm pa =>
    match e.red with
    | some (op, t, b) =>
      if (s.rbLine clu (lineOf pa)).isNone && !s.mayInject n then s
      else ((pop s).rbAdd n pa e.va op t b.toNat).epochDone done
    | none =>
      let (ok, s2) := s.rbClear clu e.loc
      if !ok then s2
      else
        let line := s.cv clu (lineOf pa)
        if e.ord.hasRel && e.scope.wide then
          if s.mayInject n then
            toHome (match line with
              | some l => (first (pop s)).setCv clu (lineOf pa) (((s.evpLine clu e.evp l).named e.va).writeThrough (pa % 128) e.bytes)
              | none => pop s)
          else s
        else
          let (room, s2) := (first (pop s)).cvRoom clu (lineOf pa)
          if line.isNone && (e.evp == 0 || !room) then (if s.mayInject n then toHome (pop s) else s)
          else (s2.cvStore clu pa e.va e.bytes e.evp e.shrw).epochDone done
  | loc =>
    let s := s.portFirst n e.tag loc.key e.bytes.length (s.core (coreOf n)).lp.length
    if s.inPort n e.tag loc.key e.bytes.length then s
    else (first (pop s)).bankPut loc.key e.bytes

/-- DRAIN (R76): the oldest entry of SB, unless a REDUCE stream holds it (R128). -/
def State.drain (s : State) (n : Nat) : State :=
  match (s.ctx n).sb with
  | [] => s
  | e :: _ => if e.red.isNone && (s.ctx n).reduceHolds e.va e.bytes.length then s else s.drainHead n e

/-! ## Loads (R77) -/

/-- A piece of a load as it issues: one of the issuing core's own window has entered the loop-back port (R28). -/
def pieceOf (core : Nat) (p : Nat × Loc × Nat) : Piece :=
  { va := p.1, loc := p.2.1, size := p.2.2, st := if p.2.1.route core = .lp then .sent else .waiting }

/-- The request of a loop-back piece. -/
def lpRead (n id evp : Nat) (pc : Word) (k : Nat) (p : Nat × Loc × Nat) : Packet :=
  { cls := .req, who := .load n id k, pl := .read p.2.1 p.2.2 false, evp := evp, va := p.1, pc := pc }

/-- An open load joins the context's list, and its loop-back pieces enter their port (R28, R77). -/
def State.loadIssue (s : State) (n : Nat) (dst : LdDst) (evp : Nat) (wide : Bool) (ps : List (Nat × Loc × Nat)) : State :=
  let s := ps.foldl (fun t p => t.tlbFill (t.ctx n).run.job (coreOf n) p.1) s
  let id := (s.ctx n).nextId
  let lp := (ps.zipIdx.filter fun p => p.1.2.1.route (coreOf n) == .lp).map fun p => lpRead n id evp (s.ctx n).pc p.2 p.1
  let s := s.modCtx n fun c =>
    { c with nextId := id + 1,
             loads := c.loads ++ [{ id := id, dst := dst, evp := evp, wide := wide, pc := c.pc, pieces := ps.map (pieceOf (coreOf n)) }] }
  if lp.isEmpty then s else s.modCore (coreOf n) fun c => { c with lp := c.lp ++ lp }

/-- Counter 4 of Table 20-6: a load that missed L1 asks for its bytes. -/
def State.missed (t s : State) (n id : Nat) : State :=
  if t.net.length = s.net.length then t else t.modCtx n fun c => c.loadMissed id true

/-- PERFORM of one piece of an open load (R77). -/
def State.perform (s : State) (n id k : Nat) : State :=
  let c := s.ctx n
  match (c.loads.find? (·.id == id)).bind (fun l => (l.pieces[k]?).map fun p => (l, p)) with
  | none => s
  | some (l, p) =>
    if !(p.st == .waiting || p.st == .begun) || c.loadWaits id p then s
    else
      let near (_ : Unit) : List (Option Byte) := if p.st == .begun then p.bytes else s.nearOf n l p
      let ask (t : State) (line : Bool) (bs : List (Option Byte)) : State :=
        if p.loc.route (coreOf n) != .lp && !s.mayInject n then s
        else
          let t := t.modCtx n fun c => c.modPiece id k fun p => { p with st := if line then .sentLine else .sent, bytes := bs }
          let loc := if line then p.loc.whole else p.loc
          t.sendTo n p.loc { cls := .req, who := .load n id k, pl := .read loc (if line then 128 else p.size) line, evp := l.evp,
                             va := p.va, pc := l.pc }
      match p.loc with
      | .own _ _ _ => s.fixPiece n id k (near ())
      | loc =>
        if s.viewed n loc p.va then
          let (ok, s2) := s.rbClear (cluOf n) loc
          if !ok then s2
          else
            let bs := near ()
            if bs.all (·.isSome) then (s.cvTouch (cluOf n) (lineOf loc.key) p.va l.evp).fixPiece n id k bs
            else (ask s (l.evp != 0) bs).missed s n id
        else ask (s.dropLink n loc) false []

/-! ## WRITE-BACK and DROP (R80) -/

/-- DROP of a line whose dirty mask is zero and whose marks are the home's (R80, R97). -/
def State.dropCv (s : State) (clu k : Nat) : State :=
  match s.cv clu k with
  | some l => if l.isDirty then s else s.modClu clu fun c => { c with lines := c.lines.erase k }
  | none => s

/-! ## CAPTURE (R87) -/

/-- A control block to capture: its address, its length and its alignment. -/
structure Block where
  va  : Nat
  len : Nat
  al  : Nat
  deriving DecidableEq, Repr

/-- One naturally aligned word of a control block, as CAPTURE reads it: the bytes, a wait in a state, or a
fault. -/
inductive Cap
  | got (bs : List Byte) (s : State)
  | wait (s : State)
  | bad (i : FaultInfo)

/-- Bytes of a local window or of stack scratch, read as a load would read them: through the loop-back port or the
network (R28, R87). -/
def State.farRead (s : State) (n : Nat) (loc : Loc) (va size evp : Nat) : Cap :=
  match (s.ctx n).stage.rep with
  | some bs => .got (bs.take size) (s.modCtx n fun c => { c with stage := { c.stage with rep := none } })
  | none =>
    if (s.ctx n).stage.out ≠ 0 ∨ (loc.route (coreOf n) ≠ .lp ∧ ¬ s.mayInject n) then .wait s
    else
      let s := s.modCtx n fun c => { c with stage := { c.stage with out := 1 } }
      .wait (s.sendTo n loc { cls := .req, who := .instr n, pl := .read loc size false, evp := evp, va := va, pc := (s.ctx n).pc })

/-- The word at an address of a block: the block is checked as one access of its instruction, and the word read from
the dirty bytes of the view and from its home, by a request with its token (R407). -/
def State.capWord (s : State) (n : Nat) (k : Acc) (b : Block) (va : Nat) : Cap :=
  match (s.checkAt n k b.va b.len b.al).bind fun _ => s.check n k va 8 with
  | .error i => .bad { i with addr := b.va }
  | .ok loc =>
    let s := s.markAt n loc false false
    match loc with
    | .window _ _ _ | .scratch _ _ _ => s.farRead n loc va 8 0
    | .own _ _ _ => .got (s.bytes loc.key 8) s
    | .hbm _ | .planed _ | .host _ _ | .peer _ _ =>
      let (ok, s) := s.rbClear (cluOf n) loc
      if !ok then .wait s
      else
        let (ok, s) := s.homeAsk loc
        if !ok || !s.mayInject n then .wait s
        else
          let (bs, s) := ((if s.viewed n loc va then s else s.dropLink n loc).spend n).homeRead loc 8 0
          let line := s.cv (cluOf n) (lineOf loc.key)
          .got (bs.zipIdx.map fun p =>
            match line.bind fun l => l.byte? true ((loc.key + p.2) % 128) with
            | some b => b
            | none => p.1) s

/-- What a capturing instruction has at its turn. -/
inductive Capture
  | ready (bs : List Byte) (s : State)
  | wait (s : State)
  | bad (i : FaultInfo)

/-- CAPTURE of blocks one after another, one word at a turn: it waits for SB and UNACK, then reads word after word into
the stage; with every word read the bytes are the snapshot. The bytes of the blocks already read are counted by the
last argument. -/
def State.captures (s : State) (n : Nat) (k : Acc) : List Block → Nat → Capture
  | [], _ => .ready (s.ctx n).stage.cap s
  | b :: r, before =>
    let got := (s.ctx n).stage.cap.length
    if before + b.len ≤ got then s.captures n k r (before + b.len)
    else if !(s.ctx n).settled then
      match s.checkAt n k b.va b.len b.al with
      | .error i => .bad i
      | .ok _ => .wait s
    else
      match s.capWord n k b ((b.va + (got - before)) % 2 ^ 64) with
      | .bad i => .bad i
      | .wait t => .wait t
      | .got bs t =>
        let t := t.modCtx n fun c => { c with stage := { c.stage with cap := c.stage.cap ++ bs } }
        if r.isEmpty && decide (before + b.len ≤ got + 8) then .ready ((s.ctx n).stage.cap ++ bs) t else .wait t

/-- CAPTURE(va, len) of one block. -/
def State.capture (s : State) (n : Nat) (k : Acc) (va len al : Nat) : Capture := s.captures n k [⟨va, len, al⟩] 0

end Sys2Proof.Machine
end

