-- ==== Sys2Proof/Machine/Lease.lean ====
section
/-!
DEFINITION. Pages of a lease (R39, R42): what a range covers, what is resident, pin counts and the resident
quota. Pages go by keys: a 2 MiB page by its number, a sub-page by its core and its 1 KiB number.
-/
namespace Sys2Proof.Machine

/-- Whether a 2 MiB page lies in the sub-page region of a core of the job (R31). -/
def inRegion (p : Nat) (t : Word × Word × Word) : Bool :=
  decide (t.2.1.toNat ≠ 0) && decide (t.1.toNat ≤ p) && decide (p < t.1.toNat + t.2.1.toNat)

/-- Numbers from one to another, both included. -/
def spanNats (a b : Nat) : List Nat := (List.range (b + 1 - a)).map (a + ·)

/-- The key of the sub-page of a core that holds an address; a 2 MiB page has its number. -/
def subKey (core va : Nat) : Nat := 2 ^ 45 * (core + 1) + va / 1024
def keySub (k : Nat) : Bool := decide (2 ^ 45 ≤ k)
def keyCore (k : Nat) : Nat := k / 2 ^ 45 - 1
/-- The 2 MiB page a key counts as (R42). -/
def pageOfKey (k : Nat) : Nat := if keySub k then k % 2 ^ 45 / 2048 else k
/-- First address of a key's page. -/
def keyVA (k : Nat) : Nat := if keySub k then k % 2 ^ 45 * 1024 else k * 2 ^ 21

/-- Pages and sub-pages a range overlaps (R39): each 2 MiB page, and the sub-pages of every core whose region holds it. -/
def JobCfg.pagesOf (c : JobCfg) (va len : Nat) : List Nat :=
  if len = 0 then []
  else
    (spanNats (va / 2 ^ 21) ((va + len - 1) / 2 ^ 21)).flatMap fun p =>
      p :: ((c.subs.filter fun e => inRegion p e.2).flatMap fun e =>
        (spanNats (max va (p * 2 ^ 21) / 1024) (min (va + len - 1) (p * 2 ^ 21 + 2 ^ 21 - 1) / 1024)).map fun n => subKey e.1 (n * 1024))

/-- Pages pinned at configuration: the code image and every sub-page region (R40). -/
def JobCfg.fixedPages (c : JobCfg) : List Nat :=
  ((if c.code.2 = 0 then [] else spanNats (c.code.1 / 2 ^ 21) ((c.code.1 + c.code.2 - 1) / 2 ^ 21))
    ++ c.subs.flatMap fun e => (List.range e.2.2.1.toNat).map (e.2.1.toNat + ·)).eraseDups

/-- Whether firmware has backed a page for the job (R42). -/
def JobCfg.isBacked (c : JobCfg) (k : Nat) : Bool :=
  c.fixedPages.contains (pageOfKey k) || c.backed.any fun r => decide (r.1 ≤ keyVA k) && decide (keyVA k < r.1 + r.2)

/-- A page is resident when its translation is valid (R39, step 1). -/
def State.resident (s : State) (job k : Nat) : Bool :=
  match (if keySub k then s.walkSub (s.core (keyCore k)) (keyVA k) else s.walkHeap (s.job job).cfg.hptb.toNat (keyVA k)) with
  | .ok pa => (s.classify job pa).isSome
  | .error _ => false

/-- Whether a set of pages can never be held beside those of configuration (R42). -/
def JobCfg.overQuota (c : JobCfg) (ks : List Nat) : Bool :=
  decide (c.resq ≠ 0) && decide (c.resq < ((ks.map pageOfKey) ++ c.fixedPages).eraseDups.length)
/-- Whether a set of pages fits beside other pages held. -/
def Job.quotaFits (j : Job) (ks held : List Nat) : Bool := !j.cfg.overQuota (ks ++ held)

def Job.pin (j : Job) (ks : List Nat) : Job :=
  { j with pins := ks.foldl (fun m k => SMap.setD 0 m k (m.get 0 k + 1)) j.pins }
def Job.unpin (j : Job) (ks : List Nat) : Job :=
  { j with pins := ks.foldl (fun m k => SMap.setD 0 m k (m.get 0 k - 1)) j.pins }

/-- Firmware is asked to make pages resident (R39, step 2). -/
def Job.ask (j : Job) (ks : List Nat) : Job := { j with asked := (j.asked ++ ks).eraseDups }
/-- Pages of a set whose translation is valid and that are not being moved (R39, R41). -/
def State.ready (s : State) (job : Nat) (ks : List Nat) : List Nat :=
  ks.filter fun k => s.resident job k && ((s.job job).moves.get? k).isNone

/-- One try of a lease taken at once: the pages are pinned when every one is resident and the quota has room;
otherwise firmware is asked for what is missing (R39, R42, R374; assumption log 106). -/
def State.tryPin (s : State) (job : Nat) (ks : List Nat) : Bool × State :=
  let j := s.job job
  let miss := ks.filter fun k => !s.resident job k
  if !miss.isEmpty then (false, s.setJob job (j.ask miss))
  else if (s.ready job ks).length < ks.length || !j.quotaFits ks (j.pins.map (·.1)) then (false, s)
  else (true, s.setJob job (j.pin ks))

/-- Pages of a graph's spill ring (R374). -/
def Graph.ringPages (g : Graph) (c : JobCfg) : List Nat := c.pagesOf g.ring (32 * g.spillq)

end Sys2Proof.Machine
end

