-- ==== Sys2Proof/Machine/Work.lean ====
section
/-!
DEFINITION. The levels of work as shared operations: tiles and walkers (R189 to R199), counters and
cancellation (R151, R153), the end of a run (R161, R357, R367, R388), and atomics driven from a blocked
instruction (R89, R90).
-/
namespace Sys2Proof.Machine

/-! ## The iteration space (R189, R191) -/

def Node.dm1 (x : Node) : Nat := x.fld 8 11 10
def Node.ext (x : Node) (d : Nat) : Nat := x.fld (16 + 4 * d) 31 0
def Node.ts (x : Node) (d : Nat) : Nat := x.fld (32 + 2 * d) 15 0
/-- n_d. -/
def Node.nd (x : Node) (d : Nat) : Nat :=
  if d ≤ x.dm1 then (if x.ts d = 0 then 0 else (x.ext d + x.ts d - 1) / x.ts d) else 1
def Node.tiles (x : Node) : Nat := x.nd 0 * x.nd 1 * x.nd 2 * x.nd 3
/-- The smallest power of two at or above a number. -/
def powUp (n : Nat) : Nat := if n ≤ 1 then 1 else 2 ^ (Nat.log2 (n - 1) + 1)
def Node.morton (x : Node) : Bool := x.order == 2
/-- The index count: padded for MORTON (R191). -/
def Node.count (x : Node) : Nat :=
  if x.morton then powUp (x.nd 0) * powUp (x.nd 1) else x.tiles

/-- Even bits of an index, k of them. -/
def evenBits : Nat → Nat → Nat
  | 0, _ => 0
  | k + 1, i => i % 2 + 2 * evenBits k (i / 4)

/-- Coordinates of an index (R191). -/
def Node.coords (x : Node) (i : Nat) : Nat × Nat × Nat × Nat :=
  let n0 := x.nd 0
  let n1 := x.nd 1
  let n2 := x.nd 2
  let n3 := x.nd 3
  match x.order with
  | 0 => (i % n0, i / n0 % n1, i / (n0 * n1) % n2, i / (n0 * n1 * n2))
  | 1 => (i / (n3 * n2 * n1), i / (n3 * n2) % n1, i / n3 % n2, i % n3)
  | 2 =>
    let l0 := Nat.log2 (powUp n0)
    let l1 := Nat.log2 (powUp n1)
    let m := min l0 l1
    let rest := i >>> (2 * m)
    (evenBits m i + (if l1 < l0 then rest <<< m else 0),
      evenBits m (i / 2) + (if l1 < l0 then 0 else rest <<< m), 0, 0)
  | _ =>
    let bh := x.bandh
    let a := n0 * n1
    let j := i % a
    let up := i / a
    let b := j / (bh * n0)
    let r := j - b * bh * n0
    let hb := min bh (n1 - b * bh)
    let c0 := r / hb
    let w := r % hb
    (c0, (if c0 % 2 = 0 then b * bh + w else b * bh + hb - 1 - w), up % n2, up / n2)

/-- Whether an index is issued: MORTON skips indices outside the space (R191). -/
def Node.valid (x : Node) (i : Nat) : Bool :=
  !x.morton || (let c := x.coords i; decide (c.1 < x.nd 0) && decide (c.2.1 < x.nd 1))
/-- Issued indices of a range. -/
def Node.issued (x : Node) (lo hi : Nat) : Nat :=
  if x.morton then ((List.range (hi - lo)).filter fun k => x.valid (lo + k)).length else hi - lo
/-- The first issued index of a range, and the rest of the range behind it. -/
def Node.first (x : Node) : Nat → Nat → Nat → Option (Nat × Nat)
  | 0, _, _ => none
  | f + 1, lo, hi => if hi ≤ lo then none else if x.valid lo then some (lo, lo + 1) else x.first f (lo + 1) hi

/-! ## Walkers (R192, R193, R196) -/

def Walker.is (w : Walker) (g n : Nat) : Bool := w.graph == g && w.node == n
/-- The walkers and spurs of a node, each with its home. -/
def State.walkersOf (s : State) (job g n : Nat) : List (Nat × Walker) :=
  s.clus.flatMap fun p => if p.2.owner = some job then (p.2.walkers.filter (·.is g n)).map fun w => (p.1, w) else []
def State.walker? (s : State) (job g n wid : Nat) : Option (Nat × Walker) :=
  (s.walkersOf job g n).find? fun p => p.2.wid == wid
/-- A walker changes; one with NEXT = HI and OUT = 0 frees its entry (R193). -/
def State.putWalker (s : State) (clu : Nat) (w : Walker) : State :=
  s.modClu clu fun c =>
    { c with walkers :=
        (c.walkers.map fun v => if v.is w.graph w.node && v.wid == w.wid then w else v).filter fun v =>
          !(v.next == v.hi && v.out == 0) }

/-- HANDOUT (R193): the range taken, if any, and the walker after; ranges without an issued index are passed
over. -/
def Walker.handOut (w : Walker) (x : Node) : Nat → Option (Nat × Nat) × Walker
  | 0 => (none, w)
  | f + 1 =>
    if w.next = w.hi then (none, w)
    else
      let e := min (w.next + x.grain) w.hi
      let k := x.issued w.next e
      let v := { w with next := e, out := w.out + k }
      if k = 0 then Walker.handOut v x f else (some (w.next, e), v)
/-- HANDOUT at a walker's home. -/
def State.takeOut (s : State) (clu : Nat) (w : Walker) (x : Node) : Option (Nat × Nat) × State :=
  let (h, v) := w.handOut x (w.hi - w.next + 1)
  (h, s.putWalker clu v)

/-- OUT of the walker, spur or remainder with a WID falls as k of its tiles complete (R193). -/
def State.outDown (s : State) (job g n wid k : Nat) : State :=
  match s.walker? job g n wid with
  | some (clu, w) => s.putWalker clu { w with out := w.out - k }
  | none =>
    (s.clus.map (·.1)).foldl (fun t clu =>
      if (t.clu clu).owner = some job then
        t.modClu clu fun c =>
          let q := c.runq.map fun h =>
            if h.graph == g && h.node == n && h.wid == wid then { h with rem := h.rem.map (· - k) } else h
          { c with runq := q.filter fun h => !(h.rem == some 0 && h.next == h.hi) }
      else t) s

def State.nodeDown (s : State) (job g n k : Nat) : State :=
  s.modJob job fun j => j.modNode g n fun x => { x with counter := x.counter - k }
/-- Tiles of a hand-out complete (R157, R193). -/
def State.tilesDone (s : State) (job g n wid k : Nat) : State := (s.nodeDown job g n k).outDown job g n wid k

def State.nodeOf (s : State) (n : Nat) : Option Node :=
  let r := (s.ctx n).run
  (s.job r.job).node? r.graph r.node
def State.cancelledRun (s : State) (n : Nat) : Bool := ((s.nodeOf n).map (·.cancelled)).getD false

/-- SPLIT at a walker's home for a requester's cluster (R196). -/
def State.split (s : State) (job : Nat) (x : Node) (clu : Nat) (w : Walker) (q : Nat) : Bool × State :=
  let r := w.hi - w.next
  let all := s.walkersOf job x.graph x.id
  if x.smin = 0 ∨ x.gang = true ∨ r < 2 * x.grain * x.smin ∨ 16 ≤ (s.clu q).walkers.length ∨ 64 ≤ all.length then (false, s)
  else
    let mid := w.next + (r / 2 + x.grain - 1) / x.grain * x.grain
    let wid := ((List.range 64).find? fun k => !all.any fun p => p.2.wid == k).getD 0
    let s := s.putWalker clu { w with hi := mid }
    (true, s.modClu q fun c =>
      { c with walkers := c.walkers ++ [{ graph := x.graph, node := x.id, lo := mid, next := mid, hi := w.hi, out := 0, wid := wid, spur := true }] })

/-- The walker or spur that SPLIT of node 0 names for a cluster: largest remaining range on the die, then the
lowest cluster, then the lowest WID (R197). DESIGN CHOICE (assumption log 120): of two nodes' walkers that are equal in all
three, the one that stands first in the unit. -/
def State.bestSplit (s : State) (job q : Nat) : Option (Node × Nat × Walker) :=
  let j := s.job job
  let cand := s.clus.flatMap fun p =>
    if p.2.owner = some job ∧ p.1 / 48 = q / 48 then
      p.2.walkers.filterMap fun w =>
        match j.node? w.graph w.node with
        | some x => if x.places q then some (x, p.1, w) else none
        | none => none
    else []
  cand.foldl (fun (b : Option (Node × Nat × Walker)) c =>
    match b with
    | none => some c
    | some (x, k, w) =>
      let r := c.2.2.hi - c.2.2.next
      let t := w.hi - w.next
      if t < r ∨ (t = r ∧ (c.2.1 < k ∨ (c.2.1 = k ∧ c.2.2.wid < w.wid))) then some c else some (x, k, w)) none

/-- A hand-out enters a cluster's run queue (R179, R182). -/
def State.queueHand (s : State) (clu : Nat) (h : Handout) : State :=
  { s with seq := s.seq + 1 }.modClu clu fun c => { c with runq := c.runq ++ [{ h with since := s.seq, aged := 0 }] }

/-! ## Spill rings (R166, R168, R374) -/

/-- The bytes of a continuation record (Table 08-4). -/
def Task.record (t : Task) : List Byte := bvBytes 8 t.code ++ bvBytes 8 t.fp ++ bvBytes 8 t.jrec ++ bvBytes 8 t.arg
/-- Where a record of a graph's ring stands, by the tables of a core's job. -/
def State.ringPlace (s : State) (job core : Nat) (g : Graph) (slot : Nat) : Option Loc :=
  (s.walk job core (g.ring + 32 * slot)).toOption.bind (s.classify job)
/-- A spilled record as it is read from its ring. -/
def State.ringRead (s : State) (job core : Nat) (g : Graph) (t : Task) : Task :=
  match t.slot.bind (s.ringPlace job core g) with
  | some loc =>
    let bs := (s.homeRead loc 32 0).1
    let w (k : Nat) : Word := BitVec.ofNat 64 (leNat ((bs.drop (8 * k)).take 8))
    { t with code := w 0, fp := w 1, jrec := w 2, arg := w 3, slot := none }
  | none => { t with slot := none }
/-- Places of a ring that no record holds, from a place of the part's choice on. -/
def Graph.freeSlots (g : Graph) (from_ n : Nat) : List Nat :=
  (((List.range (g.spill.length + n)).map fun i => (from_ + i) % g.spillq).filter fun k => !g.spill.any (·.slot == some k)).take n
/-- Records written to a graph's ring, in their order; each write is made at the record's home. A restored record beyond
the ring's capacity has no place in it (R395: SPILLQ is not checked). -/
def State.ringPut (s : State) (job core g : Nat) (ts : List Task) : State :=
  match (s.job job).graph? g with
  | none => s
  | some h =>
    let ps := ts.zip ((h.freeSlots (Config.freeWord s.free).toNat ts.length).map some ++ ts.map fun _ => none)
    let s := ps.foldl (fun t p =>
      match p.2.bind (t.ringPlace job core h) with
      | some loc => t.homeWrite loc.key (p.1.record.map some)
      | none => t) s.bump
    s.modJob job fun j => j.modGraph g fun h =>
      { h with spill := h.spill ++ ps.map fun p => { p.1 with core := core, slot := p.2 } }
/-- Rings of completed graphs that hold no record are pinned no longer (R374). -/
def Job.freeRings (j : Job) : Job :=
  let gone := j.graphs.filter fun g => g.held && g.done && g.spill.isEmpty
  let j := gone.foldl (fun (j : Job) g => j.unpin (g.ringPages j.cfg)) j
  { j with graphs := j.graphs.map fun g => if g.held && g.done && g.spill.isEmpty then { g with held := false } else g }
/-- Records taken from a graph's ring: the rest stays. -/
def State.ringTaken (s : State) (job g : Nat) (rest : List Task) : State :=
  s.modJob job fun j => (j.modGraph g fun h => { h with spill := rest }).freeRings

/-! ## Cancellation (R153) -/

/-- Work of a marked node that has not started is discarded and counts as completed. -/
def State.dropWork (s : State) (job : Nat) (x : Node) : State :=
  let g := x.graph
  let n := x.id
  let early := match x.st with | .waiting | .ready | .leased | .born => true | _ => false
  let s := if early then s.nodeDown job g n x.tiles else s
  let s := (s.walkersOf job g n).foldl (fun t p =>
    (t.nodeDown job g n (x.issued p.2.next p.2.hi)).putWalker p.1 { p.2 with next := p.2.hi }) s
  let s := s.clus.foldl (fun t p =>
    if p.2.owner = some job then
      let mine := p.2.runq.filter fun h => h.graph == g && h.node == n
      let t := t.modClu p.1 fun c => { c with runq := c.runq.filter fun h => !(h.graph == g && h.node == n) || h.rem.isSome }
      mine.foldl (fun u h =>
        let k := x.issued h.next h.hi
        let u := if h.rem.isSome then u.modClu p.1 fun c => { c with runq := c.runq.map fun v => if v == h then { v with next := v.hi } else v } else u
        u.tilesDone job g n h.wid k) t
    else t) s
  let isMine (t : Task) : Bool := t.graph == g && t.node == n
  let s := s.cores.foldl (fun t p =>
    if (t.clu (cluOfCore p.1)).owner = some job then
      let k := (p.2.deque.filter isMine).length + (p.2.mail.filter isMine).length
      (t.modCore p.1 fun c => { c with deque := c.deque.filter (!isMine ·), mail := c.mail.filter (!isMine ·) }).nodeDown job g n k
    else t) s
  let j := s.job job
  let k := (((j.graphs.flatMap (·.spill)) ++ j.savedTasks).filter isMine).length
  -- what a pre-empted job has saved
  let ws := (j.savedWalkers.filter (·.is g n)).map fun w => x.issued w.next w.hi
  let hs := (j.savedHands.filter fun h => h.graph == g && h.node == n).map fun h => x.issued h.next h.hi
  let rest (h : Handout) : Handout := { h with next := h.hi, rem := h.rem.map (· - x.issued h.next h.hi) }
  (s.modJob job fun j =>
    { j with graphs := j.graphs.map fun h => { h with spill := h.spill.filter (!isMine ·) },
             savedTasks := j.savedTasks.filter (!isMine ·),
             savedWalkers := (j.savedWalkers.map fun w => if w.is g n then { w with next := w.hi } else w).filter fun w =>
               !(w.next == w.hi && w.out == 0),
             savedHands := (j.savedHands.map fun h => if h.graph == g && h.node == n then rest h else h).filter fun h =>
               !(h.rem == some 0 && h.next == h.hi) : Job }.freeRings).nodeDown job g n (k + ws.sum + hs.sum)

/-- Whether live runs, saved ones included, are counted to a node (R180, R393). -/
def State.nodeBusy (s : State) (job g n : Nat) : Bool :=
  (s.ctxs.any fun p => p.2.run.kind != .free && p.2.run.job == job && p.2.run.graph == g && p.2.run.node == n)
    || (s.job job).saved.any fun v => v.ctx.run.graph == g && v.ctx.run.node == n
/-- Whether work that has not started, saved or not, is counted to a node (R375). -/
def State.nodePending (s : State) (job g n : Nat) : Bool :=
  let mine (t : Task) : Bool := t.graph == g && t.node == n
  let j := s.job job
  !(s.walkersOf job g n).isEmpty
    || ((j.node? g n).map fun x => !x.cancelled && (x.st matches .waiting | .ready | .leased | .born)) == some true
    || (j.savedWalkers.any fun w => w.is g n) || (j.savedHands.any fun h => h.graph == g && h.node == n) || j.savedTasks.any mine
    || (s.clus.any fun p => p.2.owner == some job && p.2.runq.any fun h => h.graph == g && h.node == n)
    || (s.cores.any fun p => (s.clu (cluOfCore p.1)).owner == some job && (p.2.deque.any mine || p.2.mail.any mine))
    || ((s.job job).graphs.any fun h => h.spill.any mine)

/-- A cancelled node releases its lease when its last run has halted (R40). -/
def State.cancelledLease (s : State) (job g n : Nat) : State :=
  match (s.job job).node? g n with
  | some x =>
    if x.cancelled && !x.pins.isEmpty && !s.nodeBusy job g n && !s.nodePending job g n then
      s.modJob job fun j => (j.unpin x.pins).modNode g n fun y => { y with pins := [] }
    else s
  | none => s

/-- A job has ended: its clusters' retained lines are so no more (R57). -/
def State.endRetained (s : State) (job : Nat) : State :=
  { s with clus := s.clus.map fun p =>
      if p.2.owner == some job then
        (p.1, { p.2 with lines := p.2.lines.map fun l => if l.2.retained then (l.1, { l.2 with retained := false, prio := 6 }) else l })
      else p }

/-- Steps a phase takes when its counter is zero and it is closed (R151, Table 08-1). -/
def State.settlePhase (s : State) (job p : Nat) : State :=
  match (s.job job).phase? p with
  | some ph =>
    if ph.counter = 0 ∧ ph.closed ∧ !ph.done then
      let s := s.modJob job fun j => { j.modPhase p fun x => { x with done := true } with counter := j.counter - 1 }
      if (s.job job).counter = 0 then (s.counterZero job .job 0).endRetained job else s
    else s
  | none => s
/-- A graph of a phase completes: the counter falls, and its reaching zero is an event of R175, open or closed. -/
def State.phaseDown (s : State) (job p : Nat) : State :=
  let s := s.modJob job fun j => j.modPhase p fun x => { x with counter := x.counter - 1 }
  let zero := (((s.job job).phase? p).map (·.counter)) == some 0
  (if zero then s.counterZero job .phase (BitVec.ofNat 64 p) else s).settlePhase job p
/-- Steps a graph takes when its counter is zero and it is closed; its ring is pinned no longer once no record stands
there (R151, R168). -/
def State.settleGraph (s : State) (job g : Nat) : State :=
  match (s.job job).graph? g with
  | some h =>
    if h.counter = 0 ∧ h.closed ∧ !h.done then
      (s.modJob job fun j => (j.modGraph g fun x => { x with done := true }).freeRings).phaseDown job h.phase
    else s
  | none => s
/-- A node of a graph completes. -/
def State.graphDown (s : State) (job g : Nat) : State :=
  let s := s.modJob job fun j => j.modGraph g fun x => { x with counter := x.counter - 1 }
  let zero := (((s.job job).graph? g).map (·.counter)) == some 0
  (if zero then s.counterZero job .graph (BitVec.ofNat 64 g) else s).settleGraph job g

/-- Child graphs still open close when no run of their creating node can arise any more (R375). -/
def State.closeKids (s : State) (job g n : Nat) : State :=
  if s.nodeBusy job g n || s.nodePending job g n then s
  else
    let kids := ((s.job job).graphs.filter fun h => h.parent == some (g, n) && !h.closed).map (·.id)
    let s := s.modJob job fun j => { j with graphs := j.graphs.map fun h => if kids.contains h.id then { h with closed := true } else h }
    kids.foldl (fun t k => t.settleGraph job k) s

/-- CANCEL of nodes picked by a test, with their child graphs (R153). -/
def State.cancelWhere (s : State) (job : Nat) : Nat → (Node → Bool) → State
  | 0, _ => s
  | f + 1, pick =>
    let hit := ((s.job job).nodes.filter fun x => pick x && !x.cancelled && x.st != .done)
    let s := hit.foldl (fun t x =>
      (((t.modJob job fun j => j.modNode x.graph x.id fun y => { y with cancelled := true }).dropWork job x).closeKids
        job x.graph x.id).cancelledLease job x.graph x.id) s
    if hit.isEmpty then s
    else
      let kids := (s.job job).graphs.filter fun g => hit.any fun x => g.parent == some (x.graph, x.id)
      let s := s.modJob job fun j =>
        { j with graphs := j.graphs.map fun g => if kids.any (·.id == g.id) then { g with cancelled := true } else g }
      s.cancelWhere job f fun x => kids.any (·.id == x.graph)

/-- CANCEL (R371) of a level: an id that names nothing live has no effect. -/
def State.cancel (s : State) (job : Nat) (l : Level) (hi lo : Nat) : State :=
  let f := (s.job job).graphs.length + 1
  match l with
  | .node => s.cancelWhere job f fun x => x.graph == hi && x.id == lo
  | .graph =>
    let s := s.modJob job fun j => j.modGraph lo fun g => if g.done then g else { g with cancelled := true }
    s.cancelWhere job f fun x => x.graph == lo
  | .phase =>
    let gs := ((s.job job).graphs.filter fun g => g.phase == lo).map (·.id)
    let s := s.modJob job fun j =>
      { j with phases := j.phases.map fun p => if p.id == lo && !p.done then { p with cancelled := true } else p,
               graphs := j.graphs.map fun g => if g.phase == lo && !g.done then { g with cancelled := true } else g }
    s.cancelWhere job f fun x => gs.contains x.graph
  | .job =>
    let s := s.modJob job fun j =>
      { j with cancelled := true, phases := j.phases.map fun p => { p with cancelled := p.cancelled || !p.done },
               graphs := j.graphs.map fun g => { g with cancelled := g.cancelled || !g.done } }
    s.cancelWhere job f fun _ => true

/-- The fault policy of a node (R388). -/
def State.faultPolicy (s : State) (job g n : Nat) : State :=
  match (s.job job).node? g n with
  | some x =>
    match x.fpol with
    | 1 => s.cancel job .node g n
    | 2 => s.cancel job .graph 0 g
    | _ => s
  | none => s

/-- Every bank of a run has been zeroed (R51, R158); a gang waits for every rank, restored ones included
(R363, R395). -/
def State.banksReady (s : State) (n : Nat) : Bool :=
  let r := (s.ctx n).run
  let clear (p : Nat × Ctx) : Bool := p.2.run.banks.all fun b => !(s.core (coreOf p.1)).clearing.contains b
  let mate (q : Run) : Bool := q.kind == .gang && q.job == r.job && q.graph == r.graph && q.node == r.node
  clear (n, s.ctx n)
    && (r.kind != .gang
      || ((s.ctxs.all fun p => !mate p.2.run || clear p) && (s.job r.job).saved.all fun v => !mate v.ctx.run))

/-- An instruction in progress whose request has been taken, or whose reply stands: it completes (R365, R377). -/
def Stage.taken (g : Stage) : Bool := g.out != 0 || g.rep.isSome || g.ph == 5

/-! ## Inline children (R282) -/

/-- Whether commands that the handler of a context has issued are not complete (R356). -/
def State.handlerBusy (s : State) (n : Nat) : Bool :=
  (s.clu (cluOf n)).jobs.any fun j => j.ctx == n && j.lvl == .handler && !j.isCopy
/-- The handler is left: its tiles become free, and the run goes on at EPC (R356, R387). -/
def State.exitHandler (s : State) (n : Nat) : State :=
  (s.modClu (cluOf n) fun k => { k with tiles := k.tiles.filter fun t => t.2.own != some (n, .handler) }).modCtx n Ctx.leaveHandler

/-- INLINE-RETURN(t). -/
def State.inlineReturn (s : State) (n : Nat) (t : Word) : State :=
  let r := (s.ctx n).run
  let s := s.modCtx n fun c =>
    (c.modSys fun y => { y with inlDepth := y.inlDepth - 1, inlStack := y.inlStack.drop 1 }).jump t
  s.nodeDown r.job r.graph r.node 1

/-! ## The end of a run (R161, R357, R367, R388) -/

/-- Requests a withdrawn context had waiting: FGETs leave their lists, ACQs their FIFOs (R86, R99, R153). -/
def State.withdraw (s : State) (n : Nat) (acq : Bool) : State :=
  let inF := s.homes.fwait.any fun p => p.2.contains n
  let inS := acq && s.homes.syncs.any fun p => p.2.fifo.contains n
  let s := { s with homes := { s.homes with
      fwait := (s.homes.fwait.map fun p => (p.1, p.2.filter (· != n))).filter fun p => !p.2.isEmpty,
      syncs := if acq then s.homes.syncs.map fun p => (p.1, { p.2 with fifo := p.2.fifo.filter (· != n) }) else s.homes.syncs } }
  if inF || inS then s.modCtx n fun c => { c with stage := { c.stage with out := c.stage.out - 1 } } else s

/-- Unstarted matrix commands of a context go, and its copy jobs are cancelled (R355, R357). -/
def State.dropJobs (s : State) (n : Nat) (copies : Bool) : State :=
  let clu := cluOf n
  let gone := ((s.clu clu).jobs.filter fun j =>
    j.ctx == n && !j.started && !j.isCopy).map (·.id)
  let s := s.modClu clu fun c =>
    { c with jobs := (c.jobs.filter fun j => !gone.contains j.id).map fun j =>
        { j with edges := j.edges.filter (!gone.contains ·),
                 cancelled := j.cancelled || (copies && j.ctx == n && j.isCopy) } }
  s.modCore (coreOf n) fun c => { c with mxq := c.mxq.filter (!gone.contains ·) }

/-- The barriers a context owns become free; contexts of the core that wait on one learn of it (R174, R303). -/
def State.freeBars (s : State) (n : Nat) : State :=
  let core := coreOf n
  let gone := ((s.core core).bars.filter fun b => b.2.own && b.2.ctx == n % 4).map (·.1)
  let s := s.modCore core fun k => { k with bars := k.bars.filter fun b => !gone.contains b.1 }
  ((List.range 4).map (core * 4 + ·)).foldl (fun t m =>
    match (t.ctx m).stage.bar with
    | some b => if gone.contains b then t.modCtx m fun c => { c with stage := { c.stage with nd := true } } else t
    | none => t) s

/-- Steps 3 and 4 of R161: the barriers and the accumulator tiles of a context become free. -/
def State.freeOwned (s : State) (n : Nat) : State :=
  (s.freeBars n).modClu (cluOf n) fun k =>
    { k with tiles := k.tiles.filter fun t => match t.2.own with | some (m, _) => m != n | none => true }

/-- Steps 6 and 7 of R161 with no wait left: the context is free afterwards. -/
def State.leaveRun (s : State) (n : Nat) : State :=
  let c := s.ctx n
  let r := c.run
  let core := coreOf n
  let clu := cluOf n
  let how := c.sys.ending
  let node := (s.job r.job).node? r.graph r.node
  let dead := (node.map (·.cancelled)).getD true
  -- banks
  let s := match c.sys.retain with
    | some (g, m) => if how = 4 then s.modCore core fun k => { k with kept := k.kept ++ [({ graph := g, node := m, banks := r.banks } : Kept)] } else s
    | none => s
  -- counters and the rest of a hand-out
  let s :=
    if how = 3 then s
    else
      let s := s.nodeDown r.job r.graph r.node c.sys.inlDepth
      let s := match r.kind with
        | .task | .handler => s.nodeDown r.job r.graph r.node 1
        | _ =>
          match r.tile with
          | some (_, wid) => s.tilesDone r.job r.graph r.node wid 1
          | none => s
      match r.hand, node with
      | some h, some x =>
        let k := x.issued h.next h.hi
        if k = 0 then s
        else if dead then s.tilesDone r.job r.graph r.node h.wid k
        else s.queueHand clu { graph := r.graph, node := r.node, next := h.next, hi := h.hi, wid := h.wid }
      | _, _ => s
  let s := s.setCtx n { nextId := c.nextId }
  let s := if how = 2 then s.faultPolicy r.job r.graph r.node else s
  (s.closeKids r.job r.graph r.node).cancelledLease r.job r.graph r.node

/-- Sync objects a context holds, in ascending order of VA (R86). -/
def State.heldSyncs (s : State) (n : Nat) : List (Nat × SyncRec) :=
  (s.homes.syncs.filter fun p => p.2.holder == some n).mergeSort fun a b => decide (a.2.va ≤ b.2.va)

/-- One turn of a run that is ending: it waits for its engine jobs, its STORE and RING-STORE streams, its
replies, SB and UNACK, frees its barriers and tiles, then releases its sync objects one by one, each until its reply
has come, and leaves (R85, R86, R161, R357, R388). -/
def State.endStep (s : State) (n : Nat) : State :=
  let how := (s.ctx n).sys.ending
  if how = 0 ∨ (s.ctx n).run.kind = .free then s
  else
    let s := if how = 4 then s else (s.dropJobs n true).withdraw n true
    let s := s.modCtx n fun c => (c.streams.foldl (fun (d : Ctx) p => if p.2.place = 0 then d else d.bringBack p.1 5) c)
    let s := s.modCtx n fun c => { c with streams := c.streams.map fun p => (p.1, { p.2 with closing := true }) }
    let c := s.ctx n
    let drains := c.streams.any fun p => p.2.draining
    if ((s.clu (cluOf n)).jobs.any (·.ctx == n)) || (how == 4 && c.sys.deferred.isSome) || drains || (c.stage.ph != 3 && c.stage.out != 0) then s
    else
      let s := s.modCtx n fun c => { c with streams := [], loads := [] }
      if !(s.ctx n).settled then s
      else
        let s := s.freeOwned n
        if (s.ctx n).stage.ph = 3 then
          (if (s.ctx n).stage.out = 0 then s.modCtx n fun c => { c with stage := {} } else s)
        else
          match s.heldSyncs n with
          | [] => s.leaveRun n
          | (pa, r) :: _ =>
            let j := s.job (s.ctx n).run.job
            let (ok, s) := s.relHalf n true fun l => l.boundTo j r.va
            if ok && s.mayInject n then
              let s := s.modCtx n fun c => { c with stage := { ph := 3, out := 1 } }
              s.inject n { cls := .req, who := .instr n, pl := .release pa r.va }
            else s

/-- Whether a halt still waits: one that returns inline from the handler leaves it first, as RTE does (R285, R387; assumption
log 115). -/
def State.haltWaits (s : State) (n : Nat) : Bool :=
  (s.ctx n).sys.lvl == .handler && !(s.ctx n).sys.inlStack.isEmpty && s.handlerBusy n

/-- A run that halts: HALT, or the arm of a JOIN that does not continue; an inline child returns inline (R161, R282), and a
halt of its handler returns from it as a halt of the run itself (R285). -/
def State.halt (s : State) (n : Nat) (retain : Option (Nat × Nat)) : State :=
  match (s.ctx n).sys.inlStack with
  | t :: _ => (if (s.ctx n).sys.lvl = .handler then s.exitHandler n else s).inlineReturn n t
  | [] =>
    ((s.leaveRgq n).modCtx n fun c => { c.modSys (fun y => { y with ending := 4, retain := retain }) with stage := {}, fetched := [], begun := false }).endStep n

/-! ## Atomics from a blocked instruction (R89, R90) -/

/-- Where an atomic executes, or why it may not (Table 05-1, R106). -/
inductive AtPlace
  | bank (loc : Loc)
  | home (loc : Loc)
  | slice (clu : Nat) (pa : Nat)
  | far (loc : Loc)
  deriving DecidableEq, Repr

/-- The owning cluster of a PRIV range: the lowest of its CSET (R89). -/
def RegEnt.owner (r : RegEnt) : Nat := ((List.range 192).find? fun k => r.cset.getLsbD k).getD 0

/-- Capabilities of a host endpoint (Table 05-4, Table 24-3). -/
def State.hostAtom (s : State) (node : Nat) (o : AtomOp) : Bool :=
  let cap := s.pkg.hlcap.get 0 node
  match o with
  | .op .fadd | .red .fadd => cap / 2 % 2 == 1
  | .op _ | .red _ | .cas => cap % 2 == 1
  | _ => false

def State.atPlace (s : State) (n : Nat) (va : Nat) (o : AtomOp) (loc : Loc) : Except FaultInfo AtPlace :=
  match loc with
  | .own _ _ _ => .ok (.bank loc)
  | .hbm pa =>
    match (s.job (s.ctx n).run.job).region va with
    | some r => if r.st = .priv then .ok (.slice r.owner pa) else .ok (.home loc)
    | none => .ok (.home loc)
  | .host node _ => if s.hostAtom node o then .ok (.far loc) else .error (flt clsHostatom va)
  | .peer _ _ => if o.future then .error (flt clsHostatom va) else .ok (.home loc)
  | _ => .ok (.far loc)

/-- What a blocked instruction has at its turn. -/
inductive Drive
  | wait (s : State)
  | bad (i : FaultInfo)
  | got (bs : List Byte) (s : State)

/-- Preparation at the issuing cluster: no copy of the line is left there (R90, step 2). -/
def State.prepLine (s : State) (clu k : Nat) : Bool × State :=
  match s.cv clu k with
  | some l =>
    if l.isDirty then (false, s.writeBack clu k)
    else if (s.clu clu).wbOut.any fun w => w.2 == k then (false, s)
    else (true, s.modClu clu fun c => { c with lines := c.lines.erase k })
  | none => (true, s)

/-- A request leaves for its place and the instruction waits. -/
def State.ask (s : State) (n : Nat) (loc : Loc) (p : Packet) : State :=
  let s := s.modCtx n fun c => { c with stage := { c.stage with ph := 2, out := c.stage.out + 1 } }
  s.sendTo n loc p

/-- What the issue of an atomic comes to: its ATOMIC step at once, at the context's own bank or its own
slice, or a request to its place. -/
inductive AtomGo
  | wait (s : State)
  | bad (i : FaultInfo)
  | now (r : Served)
  | send (loc : Loc) (slice : Option Nat) (s : State)

/-- Steps 1 and 2 of R90: checks, release half, drained SB, and preparation. -/
def State.atomGo (s : State) (n va size : Nat) (o : AtomOp) (t : Esz) (ord : MemOrd) (sc : Scope) (b c : Word)
    (who : Who) : AtomGo :=
  match (do let loc ← s.check n .atomic va size; s.atPlace n va o loc) with
  | .error i => .bad i
  | .ok place =>
    let (ok, s) := if ord.hasRel then s.relHalf n sc.wide fun _ => true else (true, s)
    let s := match place with
      | .bank l | .home l | .far l => s.markAt n l true (sc == .sys)
      | .slice _ pa => s.markAt n (.hbm pa) true (sc == .sys)
    if !ok then .wait s
    else if (s.ctx n).sb.any fun e => lineOf e.va == lineOf va || lineOf e.loc.key == lineOf (match place with
        | .bank l | .home l | .far l => l.key | .slice _ pa => pa) then .wait s
    else
      let req (loc : Loc) (sl : Option Nat) (s : State) : AtomGo :=
        if loc.route (coreOf n) != .lp && !s.mayInject n then .wait s else .send loc sl s
      match place with
      | .bank loc => .now (s.atomicHome loc o t b.toNat c.toNat who)
      | .home loc =>
        let (ok, s) := s.rbClear (cluOf n) loc
        if !ok then .wait s
        else
          let (ok, s) := s.prepLine (cluOf n) (lineOf loc.key)
          if !ok then .wait s else req loc none s
      | .slice clu pa =>
        let (ok, s) := s.rbClear (cluOf n) (.hbm pa)
        if !ok then .wait s
        else if clu = cluOf n then .now (s.atomicSlice clu pa va 3 o t b.toNat c.toNat who)
        else req (.hbm pa) (some clu) s
      | .far loc => req loc none (s.dropLink n loc)

/-- The payload of a sent atomic, with the epoch count of a translated address (R49). -/
def State.atomPacket (s : State) (n va : Nat) (loc : Loc) (o : AtomOp) (t : Esz) (b c : Word) (sl : Option Nat)
    (who : Who) : Packet × State :=
  let s := s.tlbFill (s.ctx n).run.job (coreOf n) va
  if va < 0x00C0000000000000 then
    let (s, e) := s.epochAdd (coreOf n)
    ({ cls := .req, who := who, pl := .atomic loc o t b c sl, epo := some e, va := va }, s)
  else ({ cls := .req, who := who, pl := .atomic loc o t b c sl, va := va }, s)

/-- The steps of R90 up to the reply, for a returning atomic of the blocked context. -/
def State.driveAtomic (s : State) (n va size : Nat) (o : AtomOp) (t : Esz) (ord : MemOrd) (sc : Scope) (b c : Word) : Drive :=
  match (s.ctx n).stage.rep with
  | some bs => .got bs s
  | none =>
    if 2 ≤ (s.ctx n).stage.ph then .wait s
    else
      match s.atomGo n va size o t ord sc b c (.instr n) with
      | .wait t => .wait t
      | .bad i => .bad i
      | .now (.done t (some (.value bs _))) => .got bs t
      | .now (.done t _) => .wait (t.modCtx n fun c => { c with stage := { c.stage with ph := 2, out := 1 } })
      | .now .stay => .wait s
      | .now (.later t) | .now (.held t) => .wait t
      | .send loc sl u =>
        let (p, u) := u.atomPacket n va loc o t b c sl (.instr n)
        .wait (u.ask n loc p)

end Sys2Proof.Machine
end

