-- ==== Sys2Proof/Machine/Discard.lean ====
section
/-!
DEFINITION. The discard of DIS and of arena death (R144, R145): its steps at clusters and homes, and the
acknowledgement of a write by an HBM channel.
-/
namespace Sys2Proof.Machine

def inRanges (rs : List (Nat × Nat)) (a : Nat) : Bool := rs.any fun r => decide (r.1 ≤ a) && decide (a < r.1 + r.2)

/-- A discard of class-000 ranges begins, directed to every cluster of the job. -/
def State.beginDiscard (s : State) (job : Nat) (rs : List (Nat × Nat)) : Nat × State :=
  let cl := (s.clus.filter fun p => p.2.owner == some job).map (·.1)
  (s.seq, { s with seq := s.seq + 1, discards := s.discards.set s.seq { job := job, ranges := rs, clus := cl } })

def Discard.dropAt (d : Discard) (s : State) (clu : Nat) : State :=
  s.modClu clu fun c =>
    { c with lines := c.lines.filter fun p => !(keyIsHome p.1 && inRanges d.ranges p.1),
             dl := c.dl.filter fun k => !inRanges d.ranges k,
             rb := c.rb.filter fun r => !inRanges d.ranges r.line }

/-- DISCARD_CLUSTER_STEP: a cluster drops its lines of the range, and acknowledges once every write-back it
sent for them has been acknowledged. -/
def execDiscardClusterStep (id clu : Nat) (s : State) : Host.Outcome State Fault Refusal :=
  match s.discards.get? id with
  | none => .next s
  | some d =>
    if !d.clus.contains clu then .next s
    else
      let (d, s) : Discard × State :=
        match SMap.get? d.waits clu with
        | some _ => (d, s)
        | none =>
          let ids := ((s.clu clu).wbOut.filter fun (w : Nat × Nat) => inRanges d.ranges (lineOf w.2)).map (·.1)
          ({ d with waits := SMap.set d.waits clu ids }, d.dropAt s clu)
      let d := if (s.clu clu).awaits (SMap.get [] d.waits clu) then d else { d with clus := d.clus.filter (· != clu) }
      let d := if d.clus.isEmpty && !d.homed then { d with homed := true, homes := List.range 64 } else d
      .next { s with discards := s.discards.set id d }

/-- A home drops its lines of a range: its bytes are those of the channel again, holder sets and marks are
emptied (R144, step 2). DESIGN CHOICE (assumption log 98): an FGET that waits on a word of the range stays in the list
of its waiters. -/
def State.homeDrop (s : State) (rs : List (Nat × Nat)) (home : Nat) : State :=
  let mine (k : Nat) : Bool := inRanges rs k && homeOf k == home
  let old := s.homes.chan.filter fun p => mine p.1
  let s := old.foldl (fun t p => t.setByte p.1 p.2) s
  { s with
    full := s.full.filter fun p => !mine p.1,
    homes := { s.homes with
      chan := s.homes.chan.filter fun p => !mine p.1,
      lines := s.homes.lines.map fun p =>
        if mine p.1 then (p.1, { p.2 with holders := [], recalls := p.2.recalls.map fun _ => [], back := [], prio := 0 }) else p } }

/-- DISCARD_HOME_STEP: once every cluster has acknowledged, a home drops its lines, and acknowledges when no
write of it to HBM in the range is on its way. -/
def execDiscardHomeStep (id home : Nat) (s : State) : Host.Outcome State Fault Refusal :=
  match s.discards.get? id with
  | none => .next s
  | some d =>
    let (d, s) : Discard × State :=
      if d.homes.contains home then
        ({ d with homes := d.homes.map fun h => if h = home then home + 64 else h }, s.homeDrop d.ranges home)
      else (d, s)
    let d :=
      if s.homes.pend.any fun l => inRanges d.ranges l && homeOf l == home then d
      else { d with homes := d.homes.filter (· != home + 64) }
    .next { s with discards := s.discards.set id d }

/-- DISCARD_COMPLETE: every home has acknowledged (R144, step 3). -/
def execDiscardComplete (id : Nat) (s : State) : Host.Outcome State Fault Refusal :=
  match s.discards.get? id with
  | some d =>
    if d.homed && d.homes.isEmpty then .next { s with discards := s.discards.set id { d with done := true } } else .next s
  | none => .next s

/-- HBM_CHANNEL_ACKNOWLEDGE: the oldest write a home has sent to HBM is acknowledged. -/
def execHbmChannelAcknowledge (home : Nat) (s : State) : Host.Outcome State Fault Refusal :=
  match s.homes.pend.findIdx? fun l => homeOf l == home with
  | some i => .next { s with homes := { s.homes with pend := s.homes.pend.eraseIdx i } }
  | none => .next s

end Sys2Proof.Machine
end

