-- ==== Sys2Proof/Machine/MemOps.lean ====
section
/-!
DEFINITION. Meanings of the MEM class (R288 to R294) and of the steps of store buffers, views and loads
(DRAIN, PERFORM, DELIVER, LOOP_BACK_DELIVER, WRITE_BACK, DROP, RECALL_MERGE).
-/
namespace Sys2Proof.Machine

/-! ## Loads -/

/-- Whether a destination has room for what a load appends (R290). -/
def State.destRoom (s : State) (n : Nat) (d : Opd) (t : Esz) : Op Unit :=
  match d with
  | .q k _ => do
    Op.check ((s.ctx n).getQ k.val).writable .illegal
    let u ← s.put n k.val 0
    if t = .l128 then discard (u.put n k.val 0)
  | _ => .ok ()

/-- A loaded value into its destination (R289). -/
def State.wrLoad (s : State) (d : Opd) (t : Esz) (bs : List Byte) : Op State :=
  match d with
  | .q k _ =>
    if t = .l128 then do
      let u ← s.put s.cur k.val (BitVec.ofNat 512 (leNat (bs.take 64)))
      u.put s.cur k.val (BitVec.ofNat 512 (leNat (bs.drop 64)))
    else if t = .v64 then s.put s.cur k.val (BitVec.ofNat 512 (leNat bs))
    else s.put s.cur k.val (entryOf (loadWord t bs))
  | .v k => .ok (s.modMe fun c => c.setV k.val (BitVec.ofNat 512 (leNat bs)))
  | .x k => .ok (s.modMe fun c => c.setX k.val (loadWord t bs))
  | _ => .ok s

/-- The end of a load its context is blocked in: the value, the acquire half, the next instruction. -/
def State.endLoad (s : State) (d : Opd) (t : Esz) (ord : MemOrd) (sc : Scope) (bs : List Byte) : Host.Outcome State Fault Refusal :=
  let s := if ord = .sc then s.jrn s.me.run.job ⟨jStrong, s.cur, s.me.pc.toNat, []⟩ else s
  s.finish ((s.wrLoad d t bs).map fun u =>
    ((if ord.hasAcq then u.acqHalf s.cur sc else u)).advance)

/-- A load of pieces issues (R289, R327): an ACQ or SC load, and one to a queue, blocks its context until it is
performed. -/
def State.loadPieces (s : State) (d : Opd) (free block : LdDst) (ord : MemOrd) (sc : Scope) (evp : Nat)
    (ps : List (Nat × Loc × Nat)) : Host.Outcome State Fault Refusal :=
  let n := s.cur
  let (ok, s) := if ord.hasRel then s.relHalf n sc.wide fun _ => true else (true, s)
  if !ok then .next s
  else
    let wide := ord.hasAcq && sc.wide
    let s := ps.foldl (fun t p => t.markAt n p.2.1 false (sc == .sys)) s
    if ord.hasAcq || d.isQ then
      .next ((s.loadIssue n block evp wide ps).modMe fun c => { c with stage := { c.stage with ph := 2 } })
    else .next (s.loadIssue n free evp wide ps).advance

/-- Where an unblocked load of one element goes. -/
def loadDst (d : Opd) (t : Esz) : LdDst :=
  match d with
  | .v k => .v k.val
  | .x k => .x k.val t
  | _ => .rep

def State.loadTurn (s : State) (d : Opd) (t : Esz) (ord : MemOrd) (sc : Scope) (evp : Nat) (va : Nat) (loc : Loc) :
    Host.Outcome State Fault Refusal :=
  s.loadPieces d (loadDst d t) .rep ord sc evp [(va, loc, t.size)]

/-- LD (R289, R290). -/
def execLd (o : OpM) (s : State) : Host.Outcome State Fault Refusal :=
  match s.me.stage.rep with
  | some bs => s.endLoad o.d o.esz o.ord o.scope bs
  | none =>
    if 2 ≤ s.me.stage.ph then .next s
    else
      match s.destRoom s.cur o.d o.esz with
      | .error e => s.finish (.error e)
      | .ok _ =>
        let va := s.me.ea o o.esz.size
        match s.check s.cur .load va o.esz.size with
        | .error i => .next (s.fault i)
        | .ok loc => s.loadTurn o.d o.esz o.ord o.scope o.evp.val va loc

/-! ## Stores -/

/-- The data of a store (R289): bytes, and the context after its dequeues. -/
def Ctx.storeData (c : Ctx) (d : Opd) (t : Esz) : Op (List Byte × Ctx) :=
  match d with
  | .v k => .ok (bvBytes 64 (c.getV k.val), c)
  | .q k _ =>
    if t = .l128 then do
      let (a, c1) ← c.take k.val false
      let (b, c2) ← c1.take k.val false
      .ok (bvBytes 64 a ++ bvBytes 64 b, c2)
    else do
      let (a, c1) ← c.take k.val false
      .ok ((bvBytes 64 a).take t.size, c1)
  | o => do
    let (w, c1) ← c.val o
    .ok ((bvBytes 8 w).take t.size, c1)

/-- A store issues (R75, R79): an ACQ or SC store blocks its context until it is performed. -/
def State.storeTurn (s : State) (k : Ctx) (bs : List Byte) (ord : MemOrd) (sc : Scope) (evp va : Nat) (loc : Loc) :
    Host.Outcome State Fault Refusal :=
  let n := s.cur
  let (ok, s) := if ord.hasRel then s.relHalf n sc.wide fun _ => true else (true, s)
  if !ok || !s.storeMay n loc va bs.length then .next s
  else
    let s := (s.modMe fun c => { c with qs := k.qs }).storeIssue n loc va bs ord sc evp
    if ord.hasAcq then .next (s.modMe fun c => { c with stage := { c.stage with ph := 5 } })
    else .next s.advance

/-- The end of a store its context is blocked in. -/
def State.endStore (s : State) (sc : Scope) : Host.Outcome State Fault Refusal :=
  if s.me.sb.isEmpty && s.me.stage.out == 0 then
    .next ((s.jrn s.me.run.job ⟨jStrong, s.cur, s.me.pc.toNat, []⟩).acqHalf s.cur sc).advance
  else .next s

/-- ST (R289, R290). -/
def execSt (o : OpM) (s : State) : Host.Outcome State Fault Refusal :=
  if 2 ≤ s.me.stage.ph then s.endStore o.scope
  else if !(s.me.srcOk o.d) then .next s.illegal
  else
    match s.me.storeData o.d o.esz with
    | .error e => s.finish (.error e)
    | .ok (bs, k) =>
      let va := s.me.ea o o.esz.size
      match s.check s.cur .store va o.esz.size with
      | .error i => .next (s.fault i)
      | .ok loc => s.storeTurn k bs o.ord o.scope o.evp.val va loc

/-! ## Rank-relative accesses (R291) -/

/-- The local-window address of a bank byte. -/
def windowVA (core bank off : Nat) : Nat :=
  0x00C0 * 2 ^ 48 + core / 384 * 2 ^ 46 + core / 8 % 48 * 2 ^ 40 + core % 8 * 2 ^ 37 + bank * 32768 + off

/-- Where a rank pointer leads: the place, or no core where the rank's run has halted. -/
def State.rankLoc (s : State) (o : OpM) : Chk (Option (Nat × Loc)) := do
  let c := s.me
  let w := match o.a with | .x n => (c.getX n.val).toNat | _ => 0
  let lease : FaultInfo := flt clsLease 0
  if w / 2 ^ 40 ≠ 0 ∨ w / 2 ^ 20 % 2 ^ 12 ≠ 0 then throw lease
  match s.nodeOf s.cur with
  | none => throw lease
  | some x =>
    let rank := w / 2 ^ 32 % 256
    let off := match o.am, o.b with
      | .imm, b => mod64 ((w % 2 ^ 20 : Nat) + (Opd.immVal b).toInt)
      | _, .x k => (w % 2 ^ 20 + (c.getX k.val).toNat * o.esz.size) % 2 ^ 64
      | _, _ => w % 2 ^ 20
    if !x.gang ∨ x.tiles ≤ rank ∨ off ≥ 0x60000 ∨ off / 32768 ≥ x.banks then throw lease
    if off % o.esz.size ≠ 0 then throw (flt clsAlign off)
    match s.rankCtx s.cur rank with
    | none => pure none
    | some p =>
      match (s.ctx p).run.banks[off / 32768]? with
      | none => throw lease
      | some b => pure (some (windowVA (coreOf p) b (off % 32768), .window (coreOf p) b (off % 32768)))

/-- LDL (R291): a rank whose run has halted answers zero at the issuing core. -/
def execLdl (o : OpM) (s : State) : Host.Outcome State Fault Refusal :=
  match s.me.stage.rep with
  | some bs => s.endLoad o.d o.esz o.ord o.scope bs
  | none =>
    if 2 ≤ s.me.stage.ph then .next s
    else
      match s.destRoom s.cur o.d o.esz with
      | .error e => s.finish (.error e)
      | .ok _ =>
        match s.rankLoc o with
        | .error i => .next (s.fault i)
        | .ok (some (va, loc)) => s.loadTurn o.d o.esz o.ord o.scope o.evp.val va loc
        | .ok none =>
          let (ok, s) := if o.ord.hasRel then s.relHalf s.cur o.scope.wide fun _ => true else (true, s)
          if ok then
            (s.modMe fun c => c.setCstat cstatLwnd).endLoad o.d o.esz o.ord o.scope (List.replicate o.esz.size 0)
          else .next s

/-- STL (R291): a store to a rank whose run has halted is discarded. -/
def execStl (o : OpM) (s : State) : Host.Outcome State Fault Refusal :=
  if 2 ≤ s.me.stage.ph then s.endStore o.scope
  else if !(s.me.srcOk o.d) then .next s.illegal
  else
    match s.me.storeData o.d o.esz with
    | .error e => s.finish (.error e)
    | .ok (bs, k) =>
      match s.rankLoc o with
      | .error i => .next (s.fault i)
      | .ok (some (va, loc)) => s.storeTurn k bs o.ord o.scope o.evp.val va loc
      | .ok none =>
        let (ok, s) := if o.ord.hasRel then s.relHalf s.cur o.scope.wide fun _ => true else (true, s)
        if ok then
          let s := s.modMe fun c => ({ c with qs := k.qs } : Ctx).setCstat cstatLwnd
          .next (if o.ord.hasAcq then s.acqHalf s.cur o.scope else s).advance
        else .next s

/-! ## Line operations (R292, R293) -/

/-- Base and length of a line operation. -/
def Ctx.lineRange (c : Ctx) (o : OpM) : Nat × Nat :=
  let len := match o.d with | .x n => (c.getX n.val).toNat | _ => 0
  (c.ea o 128, if len = 0 then 128 else len)
def lineRangeOk (r : Nat × Nat) : Bool := r.1 % 128 == 0 && r.2 % 128 == 0 && decide (r.2 ≤ 2 ^ 32)

/-- One line of PRF: a line that fails a check is dropped, another is asked of its home, once the request has a token
(R292, R407). -/
def State.prfLine (s : State) (evp va : Nat) : Bool × State :=
  let n := s.cur
  match s.check n .prf va 128 with
  | .error _ => (true, s)
  | .ok loc =>
    let s := s.tlbFill s.me.run.job (coreOf n) va
    if !s.viewed n loc va then (true, s)
    else if !s.mayInject n then (false, s)
    else
      let s := s.markAt n loc false false
      (true, s.inject n { cls := .req, who := .prf n loc.key evp, pl := .read loc 128 true, evp := evp, va := va })

/-- Lines of PRF from the one its stage names, until one must wait (at most fuel lines). -/
def State.prfLines (s : State) (evp base len : Nat) : Nat → Host.Outcome State Fault Refusal
  | 0 => .next s.advance
  | fuel + 1 =>
    let k := s.me.stage.a
    if len ≤ 128 * k then .next s.advance
    else
      match s.prfLine evp ((base + 128 * k) % 2 ^ 64) with
      | (true, t) => (t.modMe fun c => { c with stage := { c.stage with a := k + 1 } }).prfLines evp base len fuel
      | (false, t) => .next t

/-- PRF: lines are fetched into the view and the home, those of EVP 0 into the home only (R292). -/
def execPrf (o : OpM) (s : State) : Host.Outcome State Fault Refusal :=
  let r := s.me.lineRange o
  if lineRangeOk r then s.prfLines o.evp.val r.1 r.2 (r.2 / 128 + 1) else .next s.advance

/-- The line operations that wait. -/
inductive LineOp | wbk | inv | dis | plf
  deriving DecidableEq, Repr

def LineOp.acc : LineOp → Acc | .plf => .load | _ => .store

/-- The fault of one line, with its index (R293). -/
def lineFault (i : FaultInfo) (k : Nat) : FaultInfo :=
  if i.code = clsOutlived then { i with idx := k, elem := true } else { i with det := 0, idx := k, elem := true }

/-- Whether line k of the range may be worked on: its place, or its fault. WBK, INV and DIS need W or RW,
PLF R; a planed line is a REGION fault (R27, R292). -/
def State.lineCheck (s : State) (op : LineOp) (va : Nat) : Chk Loc := do
  let loc ← s.check s.cur op.acc va 128
  if loc.isPlaned then throw (flt clsRegion va)
  pure loc

/-- Lines leave the views of every cluster of a job (R104, Table 14-3). -/
def State.dropAll (s : State) (job : Nat) (ls : List Nat) : State :=
  (s.clus.map (·.1)).foldl (fun t c =>
    if (t.clu c).owner = some job then t.modClu c fun k => { k with lines := k.lines.filter fun p => !ls.contains p.1 } else t) s

/-- The part of a line operation that comes after its lines have been visited: k of them without a fault. -/
def State.lineTail (s : State) (op : LineOp) (k : Nat) (bad : Option FaultInfo) : Host.Outcome State Fault Refusal :=
  let n := s.cur
  let clu := cluOf n
  let done (t : State) : Host.Outcome State Fault Refusal :=
    match bad with
    | some i => .next (t.fault (lineFault i k))
    | none => .next t.advance
  if (s.clu clu).awaits s.me.stage.ids then .next s
  else
    let ls := s.me.stage.keys
    match op with
    | .wbk => done s
    | .inv => done (ls.foldl (fun t l => (t.dropCv clu l).dropCv clu (l + 2 ^ 47)) s)
    | .dis =>
      match s.me.stage.ph with
      | 5 =>
        match s.discards.get? s.me.stage.b with
        | some d => if d.done then done { s with discards := s.discards.erase s.me.stage.b } else .next s
        | none => done s
      | _ =>
        let s := s.dropAll s.me.run.job (ls.filter keyIsLink)
        let (id, s) := s.beginDiscard s.me.run.job ((ls.filter keyIsHome).map fun l => (l, 128))
        .next (s.modMe fun c => { c with stage := { c.stage with ph := 5, b := id } })
    | .plf =>
      let hs := ls.filter keyIsHome
      match s.me.stage.ph with
      | 5 =>
        if s.me.stage.b < hs.length then
          if s.mayInject n then
            let l := hs.getD s.me.stage.b 0
            let s := s.modMe fun c => { c with stage := { c.stage with b := c.stage.b + 1, out := c.stage.out + 1 } }
            .next (s.inject n { cls := .req, who := .instr n, pl := .plf l })
          else .next s
        else if s.me.stage.out ≠ 0 then .next s
        else
          done (s.dropAll s.me.run.job (hs.map (· + 2 ^ 47)))
      | _ => .next (s.modMe fun c => { c with stage := { c.stage with ph := 5, b := 0 } })

/-- One turn of WBK, INV, DIS or PLF: the next line of the range is visited, in ascending order (R292, R104). -/
def State.lineTurn (s : State) (op : LineOp) (o : OpM) : Host.Outcome State Fault Refusal :=
  let n := s.cur
  let clu := cluOf n
  let r := s.me.lineRange o
  let k := s.me.stage.a
  if !lineRangeOk r then .next (s.fault (flt clsAlign r.1))
  else if op = .plf ∧ !s.me.settled ∧ s.me.stage.ph = 0 then .next s
  else if r.2 / 128 ≤ k then s.lineTail op k none
  else
    match s.lineCheck op ((r.1 + 128 * k) % 2 ^ 64) with
    | .error i => s.lineTail op k (some i)
    | .ok loc =>
      let s := s.tlbFill s.me.run.job (coreOf n) ((r.1 + 128 * k) % 2 ^ 64)
      let next (t : State) (ids : List Nat) : Host.Outcome State Fault Refusal :=
        .next (t.modMe fun c =>
          { c with stage := { c.stage with ph := 4, a := k + 1, ids := c.stage.ids ++ ids,
                                           keys := c.stage.keys ++ (if loc.cacheable then [loc.key] else []) } })
      if !loc.cacheable then next s []
      else if s.me.sb.any fun e => lineOf e.loc.key == lineOf loc.key then .next s
      else
        let (ok, s) := if op = .dis then (true, s) else s.rbClear clu loc
        if !ok then .next s
        else
          match op with
          | .dis => next s []
          | _ =>
            let s := s.writeBack clu loc.key
            let s := match s.cv clu loc.key with
              | some l => if op = .plf ∨ !l.retained then s else s.setCv clu loc.key { l with retained := false, prio := 6 }
              | none => s
            next s (((s.clu clu).wbOut.filter fun w => w.2 == loc.key).map (·.1))

/-- WBK (R292, Table 14-3). -/
def execWbk (o : OpM) (s : State) : Host.Outcome State Fault Refusal := s.lineTurn .wbk o
/-- INV (R292, Table 14-3). -/
def execInv (o : OpM) (s : State) : Host.Outcome State Fault Refusal := s.lineTurn .inv o
/-- DIS (R292, R144). -/
def execDis (o : OpM) (s : State) : Host.Outcome State Fault Refusal := s.lineTurn .dis o
/-- PLF (R292, R104). -/
def execPlf (o : OpM) (s : State) : Host.Outcome State Fault Refusal := s.lineTurn .plf o

/-! ## RGSYNC (R46, R294, R140) -/

/-- One entry of the region table as its 64 bytes give it (Table 02-7). -/
def entWord (bs : List Byte) (i off n : Nat) : Nat := leNat ((bs.drop (64 * i + off)).take n)

/-- Where a partition of the heap or of arena space ends for a range starting at an address. -/
def partEnd (j : Job) (base : Nat) : Option Nat :=
  if base < 2 ^ 55 then some (2 ^ 55)
  else if 0xA0 ≤ base / 2 ^ 48 ∧ base / 2 ^ 48 ≤ 0xAF then
    let sl := j.slot (base / 2 ^ 40 % 4096)
    if sl.st = .live ∧ sl.gen = base / 2 ^ 32 % 256 then some (base / 2 ^ 32 * 2 ^ 32 + sl.size * 2 ^ 21)
    else some ((base / 2 ^ 32 + 1) * 2 ^ 32)
  else none

/-- A used entry, or none where the entry breaks Table 02-7 or R46. -/
def regEntry (j : Job) (bs : List Byte) (i : Nat) : Option (Option RegEnt) :=
  let base := entWord bs i 0 8
  let len := entWord bs i 8 8
  let st := entWord bs i 16 8
  let sync := entWord bs i 24 8
  let cset := entWord bs i 32 24
  let rsv := entWord bs i 56 8
  if st % 4 = 0 then some none
  else
    let okEnd : Bool := match partEnd j base with | some e => decide (base + len ≤ e) | none => false
    let okSt : Bool :=
      match st % 4 with
      | 1 => sync == 0 && cset == 0
      | 2 => sync == 0 && cset != 0
      | _ => sync != 0 && sync % 8 == 0 && cset == 0
    if st / 4 == 0 && rsv == 0 && base % 128 == 0 && len % 128 == 0 && len != 0 && okEnd && okSt then
      some (some { base := base, len := len, st := (match st % 4 with | 1 => .ro | 2 => .priv | _ => .shrw),
                   sync := sync, cset := BitVec.ofNat 192 cset })
    else none

/-- Range of entry i of a region table, for a used entry: well formed or not. -/
def usedRange (bs : List Byte) (i : Nat) : Option (Nat × Nat) :=
  if entWord bs i 16 8 % 4 = 0 then none else some (entWord bs i 0 8, entWord bs i 0 8 + entWord bs i 8 8)

/-- The region image a table gives, or the index of its lowest offending entry (R46, step 2). -/
def regImage (j : Job) (bs : List Byte) : Except Nat (List RegEnt) :=
  let used := (List.range 256).filterMap fun i => (usedRange bs i).map fun r => (i, r)
  let bad := used.find? fun p =>
    (regEntry j bs p.1).isNone || used.any fun q => q.1 != p.1 && decide (max p.2.1 q.2.1 < min p.2.2 q.2.2)
  match bad with
  | some p => .error p.1
  | none => .ok (used.filterMap fun p => (regEntry j bs p.1).join)

/-- The state, set and object an image gives an address. -/
def regAt (im : List RegEnt) (va : Nat) : Option (Region × Nat × BitVec 192) :=
  (im.find? fun r => decide (r.base ≤ va) && decide (va < r.base + r.len)).map fun r => (r.st, r.sync, r.cset)
def RegEnt.core (r : RegEnt) : Region × Nat × BitVec 192 := (r.st, r.sync, r.cset)
/-- Whether a line's region changes between two images under any of its names. -/
def namesChange (vas : List Nat) (a b : List RegEnt) : Bool := vas.any fun v => regAt a v != regAt b v
def CvLine.changes (l : CvLine) (a b : List RegEnt) : Bool := namesChange l.vas a b

/-- Step 3 of R46 is under way: lines of changed ranges that are dirty or update-only, in a cluster. -/
def State.rgDirty (s : State) (c : Nat) (a b : List RegEnt) : List Nat :=
  ((s.clu c).lines.filter fun p => p.2.changes a b && p.2.isDirty).map (·.1)
def State.rgReds (s : State) (c : Nat) (a b : List RegEnt) : List Nat :=
  ((s.clu c).rb.filter fun r => namesChange r.vas a b).map (·.line)
/-- Dirty bytes of changed ranges leave for their homes, and the homes take RECALL on the update-only lines (R46, R95). -/
def State.rgPush (s : State) (c : Nat) (a b : List RegEnt) : State :=
  let t := (s.rgDirty c a b).foldl (fun u k => u.writeBack c k) s
  (s.rgReds c a b).foldl (fun u l => if (u.home l).holders.isEmpty then u else u.beginBack l) t
/-- Clean copies of changed ranges are invalidated. -/
def State.rgDrop (s : State) (c : Nat) (a b : List RegEnt) : State :=
  s.modClu c fun k => { k with lines := k.lines.filter fun p => !p.2.changes a b }

/-- RGSYNC: capture of the table, checks, write-back and RECALL of what changes, the new image (R46). DESIGN CHOICE
(assumption log 95): ADDR of the REGION record of a malformed entry is the address of that entry. -/
def execRgsync (_ : Hdr) (s : State) : Host.Outcome State Fault Refusal :=
  let n := s.cur
  let job := s.me.run.job
  let j := s.job job
  let s := if j.rgq.contains n then s else s.modJob job fun x => { x with rgq := x.rgq ++ [n] }
  if (s.job job).rgq.head? ≠ some n then .next s
  else
    match s.capture n .rgsync j.cfg.rgtb.toNat 16384 64 with
    | .bad i => .next ((s.leaveRgq n).fault i)
    | .wait t => .next t
    | .ready bs s =>
      match regImage j bs with
      | .error k => .next ((s.leaveRgq n).fault { code := clsRegion, idx := k, elem := true, addr := j.cfg.rgtb.toNat + 64 * k })
      | .ok im =>
        let cl := s.clusOf job
        let reds := cl.flatMap fun c => s.rgReds c j.regions im
        if !reds.isEmpty || cl.any fun c => !(s.rgDirty c j.regions im).isEmpty then
          -- the lines whose RECALL is awaited, for the merges that complete it
          let s := s.modCtx n fun c => { c with stage := { c.stage with keys := (c.stage.keys ++ reds).eraseDups } }
          .next (cl.foldl (fun t c => t.rgPush c j.regions im) s)
        else if (cl.any fun c => !((s.clu c).wbOut.isEmpty)) || s.me.stage.keys.any (fun l => (s.home l).recalls.isSome) then .next s
        else
          let s := cl.foldl (fun t c => t.rgDrop c j.regions im) s
          .next ((s.leaveRgq n).modJob job fun x => { x with regions := im }).advance

/-! ## Steps of the ordering machine -/

/-- DRAIN (R76). -/
def execDrain (ctx : Nat) (s : State) : Host.Outcome State Fault Refusal := .next (s.drain ctx)
/-- PERFORM (R77). -/
def execPerform (ctx load piece : Nat) (s : State) : Host.Outcome State Fault Refusal := .next (s.perform ctx load piece)
/-- LOOP_BACK_DELIVER (R28). -/
def execLoopBackDeliver (core : Nat) (s : State) : Host.Outcome State Fault Refusal := .next (s.loopBack core)
/-- WRITE_BACK (R80). -/
def execWriteBack (clu line : Nat) (s : State) : Host.Outcome State Fault Refusal := .next (s.writeBack clu line)
/-- DROP (R80). -/
def execDrop (clu line : Nat) (s : State) : Host.Outcome State Fault Refusal := .next (s.dropCv clu line)

end Sys2Proof.Machine
end

