-- ==== Sys2Proof/Machine/AtomOps.lean ====
section
/-!
DEFINITION. Meanings of the ATOM class (R89 to R99, R295 to R299).
-/
namespace Sys2Proof.Machine

/-- The address of layout A is x(A). -/
def Ctx.aAddr (c : Ctx) (o : OpA) : Nat := match o.a with | .x n => (c.getX n.val).toNat | _ => 0

/-- The end of a returning atomic: its results, the acquire half, the next instruction (R90, steps 5 and 6). -/
def State.endAtom (s : State) (o : OpA) (f : State → Op State) : Op State :=
  (f s).map fun t => (if o.ord.hasAcq then t.acqHalf s.cur o.scope else t).advance

/-- A returning atomic at its turn. The operand queue is dequeued when the atomic issues (R297); the results
are written when it completes. -/
def State.atomTurn (s : State) (o : OpA) (op : AtomOp) (c : Word) (f : List Byte → State → Op State) :
    Host.Outcome State Fault Refusal :=
  let n := s.cur
  match s.me.stage.rep with
  | some bs => s.finish (s.endAtom o (f bs))
  | none =>
    if 2 ≤ s.me.stage.ph then .next s
    else if !(s.me.srcOk o.b && s.me.dstOk o.d) then .next s.illegal
    else
      match s.me.val o.b with
      | .error e => s.finish (.error e)
      | .ok (b, k) =>
        match (s.setMe k).destRoom n o.d o.esz with
        | .error e => s.finish (.error e)
        | .ok _ =>
          match s.driveAtomic n (s.me.aAddr o) (op.size o.esz) op o.esz o.ord o.scope b c with
          | .bad i => .next (s.fault i)
          | .wait t => .next (if 2 ≤ t.me.stage.ph then t.commitQ k else t)
          | .got bs t => s.finish ((t.commitQ k).endAtom o (f bs))

/-- AMO (R296). -/
def execAmo (op : Aop) (o : OpA) (s : State) : Host.Outcome State Fault Refusal :=
  s.atomTurn o (.op op) 0 fun bs t => t.wr o.d (loadWord o.esz bs)

/-- CAS compares with the destination's old value (R296). -/
def execCas (o : OpA) (s : State) : Host.Outcome State Fault Refusal :=
  let c := match o.d with | .x n => s.me.getX n.val | _ => 0
  s.atomTurn o .cas c fun bs t => t.wr o.d (loadWord o.esz bs)

/-- FPUT (R298). -/
def execFput (o : OpA) (s : State) : Host.Outcome State Fault Refusal :=
  s.atomTurn o .fput 0 fun bs t =>
    .ok (match o.d with | .p n => t.modMe fun c => c.setPB n.val (bs.head? == some 1) | _ => t)

/-- FGET (R298). -/
def execFget (o : OpA) (s : State) : Host.Outcome State Fault Refusal :=
  s.atomTurn o .fget 0 fun bs t => t.wr o.d (BitVec.ofNat 64 (leNat (bs.take 8)))

/-- FPEEK writes its value, then its predicate (R298). -/
def execFpeek (pm : Fin 8) (o : OpA) (s : State) : Host.Outcome State Fault Refusal :=
  s.atomTurn o .fpeek 0 fun bs t =>
    (t.wr o.d (BitVec.ofNat 64 (leNat (bs.take 8)))).map fun u => u.modMe fun c => c.setPB pm.val (bs[8]? == some 1)

/-- Whether a RED forms or joins an update-only line (R93). -/
def State.redJoins (s : State) (o : OpA) (loc : Loc) (va : Nat) : Bool :=
  loc.isHbm && s.myJob.regionSt va == .shrw && o.evp != 0 && o.ord == .rlx

/-- RED: an update-only line by way of SB, or a no-return atomic at its place (R93, R296). -/
def execRed (op : Aop) (o : OpA) (s : State) : Host.Outcome State Fault Refusal :=
  let n := s.cur
  if !(s.me.srcOk o.b) then .next s.illegal
  else
    match s.me.val o.b with
    | .error e => s.finish (.error e)
    | .ok (b, k) =>
      let va := s.me.aAddr o
      match s.check n .atomic va o.esz.size with
      | .error i => .next (s.fault i)
      | .ok loc =>
        if s.redJoins o loc va then
          let s := (s.tlbFill s.me.run.job (coreOf n) va).markAt n loc true (o.scope == .sys)
          let (s, e) := s.epochAdd (coreOf n)
          let ent : SbEntry :=
            { va := va, loc := loc, bytes := (bvBytes 8 b).take o.esz.size, ord := .rlx, scope := o.scope, evp := o.evp.val,
              shrw := true, red := some (op, o.esz, b), epo := e }
          .next ((s.commitQ k).modMe fun c => { c with sb := c.sb ++ [ent] }).advance
        else
          match s.atomGo n va o.esz.size (.red op) o.esz o.ord o.scope b 0 (.store n) with
          | .bad i => .next (s.fault i)
          | .wait t => .next t
          | .now .stay => .next s
          | .now (.later t) | .now (.held t) => .next t
          | .now (.done t _) => .next (t.commitQ k).advance
          | .send loc sl t =>
            let t := t.modCtx n fun c => { c with unack := c.unack + 1 }
            let (p, t) := t.atomPacket n va loc (.red op) o.esz b 0 sl (.store n)
            .next ((t.sendTo n loc p).commitQ k).advance

end Sys2Proof.Machine
end

