-- ==== Sys2Proof/Machine/CtrlOps.lean ====
section
/-!
DEFINITION. Meanings of the CTRL class (R279 to R287): transfers, tasks, joins, the end of a run, traps and
the return from the handler.
-/
namespace Sys2Proof.Machine

/-- A PC-relative target: the immediate counts 4-byte units from the instruction (R223). -/
def relTarget (pc : Word) (b : Opd) : Word := pc + Opd.immVal b * 4
def aligned4 (t : Word) : Bool := t.toNat % 4 == 0

/-- A transfer to a target; a misaligned one is an ALIGN fault without any effect (R223, R280). -/
def State.transfer (s : State) (t : Word) (f : Ctx → Ctx) : Op State := do
  Op.check (aligned4 t) (.flt (flt clsAlign t.toNat))
  pure (s.modMe fun c => (f c).jump t)

/-- NOP (R285). -/
def execNop (_ : OpS) (s : State) : Host.Outcome State Fault Refusal := .next s.advance
/-- YIELD has no architected effect (R285). -/
def execYield (_ : OpS) (s : State) : Host.Outcome State Fault Refusal := .next s.advance
/-- BR (R280). -/
def execBr (o : OpS) (s : State) : Host.Outcome State Fault Refusal :=
  s.finish (s.transfer (relTarget s.me.pc o.b) id)
/-- CALL: the link register is x61 (R280). -/
def execCall (o : OpS) (s : State) : Host.Outcome State Fault Refusal :=
  s.finish (s.transfer (relTarget s.me.pc o.b) fun c => c.setX 61 (c.pc + 12))
/-- CALLI reads its target before it writes the link (R280). -/
def execCalli (o : OpS) (s : State) : Host.Outcome State Fault Refusal :=
  s.finish do
    s.dirs o.d o.a o.a
    let (t, k) ← s.me.val o.a
    s.transfer t fun c => { c with qs := k.qs }.setX 61 (c.pc + 12)
/-- JMPI takes a queue entry in the step that removes it (R280, R156). -/
def execJmpi (o : OpS) (s : State) : Host.Outcome State Fault Refusal :=
  s.finish do
    s.dirs o.d o.a o.a
    let (t, k) ← s.me.val o.a
    s.transfer t fun c => { c with qs := k.qs }
/-- RET, with the inline return check (R280, R282). -/
def execRet (_ : OpS) (s : State) : Host.Outcome State Fault Refusal :=
  let t := s.me.getX 61
  if s.me.sys.inlStack.head? = some t ∧ aligned4 t then .next (s.inlineReturn s.cur t)
  else s.finish (s.transfer t id)
/-- LOOP (R280). -/
def execLoop (o : OpS) (s : State) : Host.Outcome State Fault Refusal :=
  match o.d with
  | .x n =>
    let k := s.me.getX n.val - 1
    if k = 0 then .next (s.modMe fun c => (c.setX n.val k).advance)
    else s.finish (s.transfer (relTarget s.me.pc o.b) fun c => c.setX n.val k)
  | _ => .next s.illegal

/-! ## Tasks (R281 to R283) -/

/-- A predicate result and the next instruction. -/
def State.answerP (s : State) (d : Opd) (b : Bool) : State :=
  s.modMe fun c =>
    (match d with | .p n => c.setPB n.val b | _ => c).advance

/-- An inline child (R282). -/
def Ctx.goInline (c : Ctx) (t : Task) : Ctx :=
  let r := c.pc + 12
  let c := c.modSys fun y => { y with inlStack := r :: y.inlStack, inlDepth := y.inlDepth + 1 }
  ((((c.setX 61 r).setX 1 t.arg).setX 10 t.fp).setX 11 t.jrec).jump t.code

/-- A record pushed on the young end of the issuing core's deque (R164). -/
def State.pushTask (s : State) (core : Nat) (t : Task) : State :=
  s.modCore core fun c => { c with deque := c.deque ++ [t] }

/-- The spill of the 8 oldest entries to the graph's ring (R166). -/
def State.spillOld (s : State) (core job g : Nat) : State :=
  let old := (s.core core).deque.take 8
  ((s.modCore core fun c => { c with deque := c.deque.drop 8 }).jrn job ⟨jSpill, core, 8, []⟩).ringPut job core g old

/-- Table 13-3; an inline child is a transfer of the context, so a misaligned CODE is its ALIGN (R223). -/
def State.spawnTask (s : State) (k : Ctx) (d : Opd) (code arg : Word) : Host.Outcome State Fault Refusal :=
  let n := s.cur
  let core := coreOf n
  let c := s.me
  let r := c.run
  let t : Task := { code := code, fp := c.getX 10, jrec := c.getX 11, arg := arg, graph := r.graph, node := r.node }
  if s.cancelledRun n then .next ((s.commitQ k).answerP d false)
  else
    let (ok, s) := s.relHalf n false fun _ => true
    if !ok then .next s
    else if (s.core core).deque.length < 16 then
      .next ((((s.commitQ k).pushTask core t).nodeUp r.job r.graph r.node).answerP d true)
    else if c.sys.inlDepth < (s.job r.job).cfg.inlmax then
      if !aligned4 code then .next (s.fault (flt clsAlign code.toNat))
      else .next (((s.commitQ k).modMe fun c =>
        Ctx.goInline (match d with | .p p => c.setPB p.val true | _ => c) t).nodeUp r.job r.graph r.node)
    else
      match (s.job r.job).graph? r.graph with
      | none => .next (s.fault { code := clsSpill })
      | some g =>
        if g.spillq < g.spill.length + 8 then .next (s.fault { code := clsSpill })
        else
          let (ok, s) := s.relHalf n true fun _ => true
          if !ok then .next s
          else
            .next (((((s.commitQ k).spillOld core r.job r.graph).pushTask core t).nodeUp r.job r.graph r.node).answerP d true)

/-- SPAWN (R281). -/
def execSpawn (o : OpS) (s : State) : Host.Outcome State Fault Refusal :=
  if !(s.me.srcOk o.b) then .next s.illegal
  else
    match s.me.val o.b with
    | .error e => s.finish (.error e)
    | .ok (arg, k) =>
      match s.me.val o.a with
      | .ok (code, _) => s.spawnTask k o.d code arg
      | .error e => s.finish (.error e)

/-- FORK creates a task only when bit 0 of p(A) is 1 (R281). -/
def execFork (o : OpS) (s : State) : Host.Outcome State Fault Refusal :=
  match o.a with
  | .p n =>
    if (s.me.getP n.val).getLsbD 0 then s.spawnTask s.me o.d (relTarget s.me.pc o.b) (s.me.getX 1)
    else .next (s.answerP o.d false)
  | _ => .next s.illegal

/-- A packed coordinate that must name a core of the tenancy partition (R13, R283, R304). -/
def State.coordCore (s : State) (w : Nat) : Option Nat :=
  match unpackCoord w with
  | some n => if s.myJob.cfg.holds (cluOf n) then some (coreOf n) else none
  | none => none

/-- RSPAWN (R283, R169). -/
def execRspawn (o : OpS) (s : State) : Host.Outcome State Fault Refusal :=
  let n := s.cur
  match s.me.stage.rep with
  | some bs => .next (s.answerP o.d (bs.head? == some 1))
  | none =>
    if 2 ≤ s.me.stage.ph then .next s
    else if !(s.me.srcOk o.b) then .next s.illegal
    else
      match o.a, s.me.val o.b with
      | .x a, .ok (arg, k) =>
        match s.coordCore (s.me.getX a.val).toNat with
        | none => .next (s.fault (flt clsLease 0))
        | some core =>
          if s.cancelledRun n then .next ((s.commitQ k).answerP o.d false)
          else
            let (ok, s) := s.relHalf n true fun _ => true
            if !ok || !s.mayInject n then .next s
            else
              let c := s.me
              let t : Task := { code := c.getX (a.val + 1), fp := c.getX 10, jrec := c.getX 11, arg := arg,
                                graph := c.run.graph, node := c.run.node, sender := packCoord n }
              let s := if ((s.nodeOf n).map fun x => x.places (cluOfCore core)).getD true then s else s.markNode n
              let s := (s.commitQ k).modMe fun c => { c with stage := { c.stage with ph := 2, out := c.stage.out + 1 } }
              .next (s.inject n { cls := .req, who := .instr n, pl := .mail core t })
      | _, .error e => s.finish (.error e)
      | _, _ => .next s.illegal

/-! ## Join, end, trap (R284 to R286) -/

/-- JOIN (R167, R284). -/
def execJoin (o : OpS) (s : State) : Host.Outcome State Fault Refusal :=
  let n := s.cur
  match o.a with
  | .x a =>
    if s.haltWaits n then .next s
    else
    match s.driveAtomic n (s.me.getX a.val).toNat 16 .join .s64 .sc .pkg 0 0 with
    | .wait t => .next t
    | .bad i => .next (s.fault i)
    | .got bs t =>
      let cnt := toSigned 64 (leNat (bs.take 8))
      let cpc := BitVec.ofNat 64 (leNat (bs.drop 8))
      if cnt ≤ 0 then .next (t.fault { code := clsTrap, idx := 0x10000 })
      else if !aligned4 cpc then .next (t.fault (flt clsAlign cpc.toNat))
      else if cnt = 1 then .next ((t.acqHalf n .pkg).modMe fun c => c.jump cpc)
      else .next (t.halt n none)
  | _ => .next s.illegal

/-- HALT (R161, R285). -/
def execHalt (_ : OpS) (s : State) : Host.Outcome State Fault Refusal :=
  .next (if s.haltWaits s.cur then s else s.halt s.cur none)
/-- HALT.retain names the successor node (R162, R285). -/
def execHaltRetain (o : OpS) (s : State) : Host.Outcome State Fault Refusal :=
  match o.a with
  | .x a =>
    let w := (s.me.getX a.val).toNat
    .next (if s.haltWaits s.cur then s else s.halt s.cur (some (w / 2 ^ 32, w % 2 ^ 32)))
  | _ => .next s.illegal

/-- TRAP: a resumable fault that RTE resumes after (R286). -/
def execTrap (o : OpS) (s : State) : Host.Outcome State Fault Refusal :=
  let k := (Opd.immVal o.b).toNat
  .next (s.raise s.cur s.me.pc (s.me.pc + 12) { code := clsTrap, idx := k })

/-- RTE (R387, R356): PRIV away from HANDLER; a misaligned EPC is an ALIGN fault first; it waits for the handler's
commands and frees the handler's tiles. -/
def execRte (_ : OpS) (s : State) : Host.Outcome State Fault Refusal :=
  let n := s.cur
  match s.me.sys.lvl with
  | .run | .firm => .next s.priv
  | .handler =>
    if !aligned4 s.me.sys.epc then .next (s.fault (flt clsAlign s.me.sys.epc.toNat))
    else .next (if s.handlerBusy n then s else s.exitHandler n)

end Sys2Proof.Machine
end

