-- ==== Sys2Proof/Decode.lean ====
section
/-!
DEFINITION. The decoder of the 96-bit instruction word (R222 to R242) and, after it, an encoder
written from the same tables. The decoder is total; it answers none for every word that steps 3 to 5
of R242 give the fate ILLEGAL.
-/
namespace Sys2Proof

/-- The fields of Table 11-1. -/
structure Raw where
  opc   : Nat
  gn    : Bool
  gp    : Fin 8
  stall : Fin 8
  yld   : Bool
  reu   : Fin 4
  mod   : BitVec 16
  d     : BitVec 20
  a     : BitVec 20
  b     : BitVec 20
  deriving DecidableEq, Repr

/-- Bits [hi:lo] of a word as a number. -/
def bits {n : Nat} (w : BitVec n) (hi lo : Nat) : Nat := (w.toNat >>> lo) % 2 ^ (hi + 1 - lo)

/-- Table 11-1. -/
def Raw.ofWord (w : BitVec 96) : Raw where
  opc := bits w 95 86
  gn := w.getLsbD 85
  gp := (w.extractLsb' 82 3).toFin
  stall := (w.extractLsb' 79 3).toFin
  yld := w.getLsbD 78
  reu := (w.extractLsb' 76 2).toFin
  mod := w.extractLsb' 60 16
  d := w.extractLsb' 40 20
  a := w.extractLsb' 20 20
  b := w.extractLsb' 0 20

def Raw.hdr (r : Raw) : Hdr := ⟨r.gn, r.gp, r.stall, r.yld, r.reu⟩

/-- A handle payload (second table of R227). -/
def decHandle (f : BitVec 20) : Option Opd :=
  let t := bits f 16 13
  if t = 0 ∧ bits f 12 4 = 0 then some (.slot (f.extractLsb' 0 4).toFin)
  else if t = 1 ∧ bits f 12 4 = 0 then some (.shape (f.extractLsb' 0 4).toFin)
  else if t = 2 ∧ bits f 12 5 = 0 then some (.bar (f.extractLsb' 0 5).toFin)
  else if t = 3 ∧ bits f 12 5 = 0 then some (.tile (f.extractLsb' 0 5).toFin)
  else if t = 4 ∧ bits f 12 2 = 0 then
    match bits f 1 0 with
    | 0 => some (.level .node) | 1 => some (.level .graph) | 2 => some (.level .phase)
    | _ => some (.level .job)
  else none

/-- An operand field (Table 11-2); a long immediate takes its high half from MOD (R231). -/
def decOpd (mod : BitVec 16) (f : BitVec 20) : Option Opd :=
  match bits f 19 17 with
  | 0 => if bits f 16 6 = 0 then some (.x (f.extractLsb' 0 6).toFin) else none
  | 1 => if bits f 16 5 = 0 then some (.v (f.extractLsb' 0 5).toFin) else none
  | 2 => if bits f 16 5 = 0 then some (.q (f.extractLsb' 0 4).toFin (f.getLsbD 4)) else none
  | 3 => if bits f 16 3 = 0 then some (.p (f.extractLsb' 0 3).toFin) else none
  | 4 => some (.imm (f.extractLsb' 0 17))
  | 5 => decHandle f
  | 6 => if bits f 16 12 = 0 then some (.sreg (f.extractLsb' 0 12)) else none
  | _ => if bits f 16 16 = 0 then some (.long (mod ++ f.extractLsb' 0 16)) else none

/-- Whether B carries a long immediate, so that MOD holds its high half (R231). -/
def Raw.isLong (r : Raw) : Bool := bits r.b 19 17 == 7

/-! Codes. -/

def IntTy.ofCode : Nat → IntTy | 0 => .s32 | 1 => .s64 | 2 => .z32 | _ => .z64
def IntTy.code : IntTy → Nat | .s32 => 0 | .s64 => 1 | .z32 => 2 | .z64 => 3

def Esz.ofCode : Nat → Option Esz
  | 0 => some .s8 | 1 => some .s16 | 2 => some .s32 | 3 => some .s64 | 4 => some .z8 | 5 => some .z16
  | 6 => some .z32 | 7 => some .z64 | 8 => some .fp16 | 9 => some .bf16 | 10 => some .fp32
  | 11 => some .v64 | 12 => some .l128 | _ => none
def Esz.code : Esz → Nat
  | .s8 => 0 | .s16 => 1 | .s32 => 2 | .s64 => 3 | .z8 => 4 | .z16 => 5 | .z32 => 6 | .z64 => 7
  | .fp16 => 8 | .bf16 => 9 | .fp32 => 10 | .v64 => 11 | .l128 => 12

def Cond.ofCode : Nat → Option Cond
  | 0 => some .eq | 1 => some .ne | 2 => some .lt | 3 => some .le | 4 => some .gt | 5 => some .ge
  | 6 => some .un | 7 => some .ord | _ => none
def Cond.code : Cond → Nat
  | .eq => 0 | .ne => 1 | .lt => 2 | .le => 3 | .gt => 4 | .ge => 5 | .un => 6 | .ord => 7

def PlogOp.ofCode : Nat → Option PlogOp
  | 0 => some .and | 1 => some .or | 2 => some .xor | 3 => some .andn | 4 => some .orn | 5 => some .not
  | _ => none
def PlogOp.code : PlogOp → Nat
  | .and => 0 | .or => 1 | .xor => 2 | .andn => 3 | .orn => 4 | .not => 5

def Rm.ofCode : Nat → Rm | 0 => .rne | 1 => .rtz | 2 => .rup | _ => .rdn
def Rm.code : Rm → Nat | .rne => 0 | .rtz => 1 | .rup => 2 | .rdn => 3

def MemOrd.ofCode : Nat → MemOrd | 0 => .rlx | 1 => .acq | 2 => .rel | _ => .sc
def MemOrd.code : MemOrd → Nat | .rlx => 0 | .acq => 1 | .rel => 2 | .sc => 3

/-- SCOPE; 101 to 111 are refused (R73). -/
def Scope.ofCode : Nat → Option Scope
  | 0 => some .core | 1 => some .clu | 2 => some .die | 3 => some .pkg | 4 => some .sys | _ => none
def Scope.code : Scope → Nat | .core => 0 | .clu => 1 | .die => 2 | .pkg => 3 | .sys => 4

def Am.ofCode : Nat → Option Am
  | 0 => some .imm | 1 => some .scaled | 2 => some .index | 3 => some .priv | 4 => some .pcrel | _ => none
def Am.code : Am → Nat | .imm => 0 | .scaled => 1 | .index => 2 | .priv => 3 | .pcrel => 4

def Aop.ofCode : Nat → Option Aop
  | 0 => some .swap | 1 => some .add | 2 => some .and | 3 => some .or | 4 => some .xor | 5 => some .min
  | 6 => some .max | 7 => some .fadd | _ => none
def Aop.code : Aop → Nat
  | .swap => 0 | .add => 1 | .and => 2 | .or => 3 | .xor => 4 | .min => 5 | .max => 6 | .fadd => 7

def RedOp.ofCode : Nat → Option RedOp
  | 0 => some .sum | 1 => some .max | 2 => some .min | 3 => some .and | 4 => some .or | 5 => some .xor
  | _ => none
def RedOp.code : RedOp → Nat | .sum => 0 | .max => 1 | .min => 2 | .and => 3 | .or => 4 | .xor => 5

def MapOp.ofCode : Nat → Option MapOp
  | 0 => some .add | 1 => some .sub | 2 => some .mul | 3 => some .min | 4 => some .max | 5 => some .fma
  | 6 => some .abs | 7 => some .neg | 8 => some .exp2 | 9 => some .rcp | 10 => some .tanh
  | 11 => some .dqnt | _ => none
def MapOp.code : MapOp → Nat
  | .add => 0 | .sub => 1 | .mul => 2 | .min => 3 | .max => 4 | .fma => 5 | .abs => 6 | .neg => 7
  | .exp2 => 8 | .rcp => 9 | .tanh => 10 | .dqnt => 11

def SrcW.ofCode : Nat → Option SrcW | 0 => some .w8 | 1 => some .w16 | 2 => some .w32 | _ => none
def SrcW.code : SrcW → Nat | .w8 => 0 | .w16 => 1 | .w32 => 2

def BlkFmt.ofCode (s : BitVec 4) : BlkFmt := ⟨s.getLsbD 3, (s.extractLsb' 0 3).toFin⟩
def BlkFmt.code (f : BlkFmt) : Nat := f.z.toNat * 8 + f.pm1.val

def Level.code : Level → Nat | .node => 0 | .graph => 1 | .phase => 2 | .job => 3

/-! Layouts. -/

/-- The operands of layout I and the three selector fields (Table 11-3); reserved bits refuse. -/
def Raw.opI (r : Raw) : Option (Nat × Nat × Nat × OpI) := do
  let d ← decOpd r.mod r.d
  let a ← decOpd r.mod r.a
  let b ← decOpd r.mod r.b
  if r.isLong then some (0, 0, 0, ⟨r.hdr, .s64, d, a, b⟩)
  else if bits r.mod 2 0 = 0 then
    some (bits r.mod 13 10, bits r.mod 9 7, bits r.mod 6 3,
      ⟨r.hdr, IntTy.ofCode (bits r.mod 15 14), d, a, b⟩)
  else none

def Raw.i (k : OpI → Instr) (r : Raw) : Option Instr := do
  let (c, dp, sh, o) ← r.opI
  if c = 0 ∧ dp = 0 ∧ sh = 0 then some (k o) else none
def Raw.icmp (k : Cond → Fin 8 → OpI → Instr) (r : Raw) : Option Instr := do
  let (c, dp, sh, o) ← r.opI
  let c ← Cond.ofCode c
  if sh = 0 then some (k c (Fin.ofNat 8 dp) o) else none
def Raw.isel (k : Fin 8 → OpI → Instr) (r : Raw) : Option Instr := do
  let (c, dp, sh, o) ← r.opI
  if c = 0 ∧ sh = 0 then some (k (Fin.ofNat 8 dp) o) else none
def Raw.lea (k : Fin 16 → OpI → Instr) (r : Raw) : Option Instr := do
  let (c, dp, sh, o) ← r.opI
  if c = 0 ∧ dp = 0 then some (k (Fin.ofNat 16 sh) o) else none
def Raw.ext (k : SrcW → OpI → Instr) (r : Raw) : Option Instr := do
  let (c, dp, sh, o) ← r.opI
  let w ← SrcW.ofCode sh
  if c = 0 ∧ dp = 0 then some (k w o) else none
def Raw.plog (k : PlogOp → OpI → Instr) (r : Raw) : Option Instr := do
  let (c, dp, sh, o) ← r.opI
  let op ← PlogOp.ofCode c
  if dp = 0 ∧ sh = 0 then some (k op o) else none

/-- Layout V (Table 11-4): SUB beside the other fields. -/
def Raw.opV (r : Raw) : Option (BitVec 4 × OpV) := do
  let d ← decOpd r.mod r.d
  let a ← decOpd r.mod r.a
  let b ← decOpd r.mod r.b
  let et ← Esz.ofCode (bits r.mod 15 12)
  if et.code ≤ 10 then
    some (r.mod.extractLsb' 3 4,
      ⟨r.hdr, et, Rm.ofCode (bits r.mod 11 10), (r.mod.extractLsb' 7 3).toFin,
        r.mod.getLsbD 2, r.mod.getLsbD 1, r.mod.getLsbD 0, d, a, b⟩)
  else none

def Raw.v0 (k : OpV → Instr) (r : Raw) : Option Instr := do
  let (sub, o) ← r.opV
  if sub = 0 then some (k o) else none
def Raw.vCond (k : Cond → OpV → Instr) (r : Raw) : Option Instr := do
  let (sub, o) ← r.opV
  let c ← Cond.ofCode sub.toNat
  some (k c o)
def Raw.vSrc (k : Esz → OpV → Instr) (r : Raw) : Option Instr := do
  let (sub, o) ← r.opV
  let t ← Esz.ofCode sub.toNat
  some (k t o)
def Raw.vFmt (k : BlkFmt → OpV → Instr) (r : Raw) : Option Instr := do
  let (sub, o) ← r.opV
  some (k (BlkFmt.ofCode sub) o)
def Raw.vPm (k : Fin 8 → OpV → Instr) (r : Raw) : Option Instr := do
  let (sub, o) ← r.opV
  if sub.getLsbD 3 then none else some (k (sub.extractLsb' 0 3).toFin o)
def Raw.vRed (k : RedOp → OpV → Instr) (r : Raw) : Option Instr := do
  let (sub, o) ← r.opV
  let op ← RedOp.ofCode sub.toNat
  some (k op o)
def Raw.vMap (k : MapOp → OpV → Instr) (r : Raw) : Option Instr := do
  let (sub, o) ← r.opV
  let op ← MapOp.ofCode sub.toNat
  some (k op o)

/-- Layout M (Table 11-5). -/
def Raw.m (k : OpM → Instr) (r : Raw) : Option Instr := do
  let d ← decOpd r.mod r.d
  let a ← decOpd r.mod r.a
  let b ← decOpd r.mod r.b
  let sc ← Scope.ofCode (bits r.mod 13 11)
  let esz ← Esz.ofCode (bits r.mod 7 4)
  let am ← Am.ofCode (bits r.mod 3 0)
  some (k ⟨r.hdr, MemOrd.ofCode (bits r.mod 15 14), sc, (r.mod.extractLsb' 8 3).toFin, esz, am, d, a, b⟩)

/-- Layout A (Table 11-6): AOP beside the other fields. -/
def Raw.opA (r : Raw) : Option (BitVec 4 × OpA) := do
  let d ← decOpd r.mod r.d
  let a ← decOpd r.mod r.a
  let b ← decOpd r.mod r.b
  let sc ← Scope.ofCode (bits r.mod 13 11)
  let esz ← Esz.ofCode (bits r.mod 7 4)
  some (r.mod.extractLsb' 0 4,
    ⟨r.hdr, MemOrd.ofCode (bits r.mod 15 14), sc, (r.mod.extractLsb' 8 3).toFin, esz, d, a, b⟩)

def Raw.a0 (k : OpA → Instr) (r : Raw) : Option Instr := do
  let (op, o) ← r.opA
  if op = 0 then some (k o) else none
def Raw.aOp (k : Aop → OpA → Instr) (r : Raw) : Option Instr := do
  let (op, o) ← r.opA
  let op ← Aop.ofCode op.toNat
  some (k op o)
def Raw.aPm (k : Fin 8 → OpA → Instr) (r : Raw) : Option Instr := do
  let (op, o) ← r.opA
  if op.getLsbD 3 then none else some (k (op.extractLsb' 0 3).toFin o)

/-- Layout S (Table 11-7): SEL beside the other fields. A long immediate leaves no selector (R231). -/
def Raw.opS (r : Raw) : Option (Nat × OpS) := do
  let d ← decOpd r.mod r.d
  let a ← decOpd r.mod r.a
  let b ← decOpd r.mod r.b
  if r.isLong then some (0, ⟨r.hdr, .core, d, a, b⟩)
  else
    let sc ← Scope.ofCode (bits r.mod 13 11)
    if bits r.mod 15 14 = 0 ∧ bits r.mod 10 4 = 0 then
      some (bits r.mod 3 0, ⟨r.hdr, sc, d, a, b⟩)
    else none

def Raw.s0 (k : OpS → Instr) (r : Raw) : Option Instr := do
  let (sel, o) ← r.opS
  if sel = 0 then some (k o) else none
def Raw.sel (ks : List (OpS → Instr)) (r : Raw) : Option Instr := do
  let (sel, o) ← r.opS
  let k ← ks[sel]?
  some (k o)

/-- Layout X (R237); only MXCPY uses its fields. -/
def Raw.opX (r : Raw) : Option OpX := do
  let d ← decOpd r.mod r.d
  let a ← decOpd r.mod r.a
  let b ← decOpd r.mod r.b
  if r.isLong then none else some ⟨r.hdr, d, a, b⟩

def Raw.x0 (k : OpX → Instr) (r : Raw) : Option Instr := do
  let o ← r.opX
  if r.mod = 0 then some (k o) else none
def Raw.xc (k : Esz → Bool → Bool → OpX → Instr) (r : Raw) : Option Instr := do
  let o ← r.opX
  let t ← Esz.ofCode (bits r.mod 7 4)
  if bits r.mod 15 8 = 0 ∧ bits r.mod 3 2 = 0 then
    some (k t (r.mod.getLsbD 1) (r.mod.getLsbD 0) o)
  else none

/-- RGSYNC: every MOD and operand field zero (R294). -/
def Raw.z (r : Raw) : Option Instr :=
  if r.mod = 0 ∧ r.d = 0 ∧ r.a = 0 ∧ r.b = 0 then some (.rgsync r.hdr) else none

/-! The opcode map (Table 11-9). -/

/-- Opcodes 0x000 to 0x07F of Table 11-9. -/
def opsInt : List (Nat × (Raw → Option Instr)) :=
  [(0x000, Raw.i .iadd),
   (0x001, Raw.i .isub),
   (0x002, Raw.i .imul),
   (0x003, Raw.i .imulh),
   (0x004, Raw.i .imad),
   (0x005, Raw.i .idiv),
   (0x006, Raw.i .irem),
   (0x007, Raw.i .ineg),
   (0x008, Raw.i .iabs),
   (0x009, Raw.i .imin),
   (0x00A, Raw.i .imax),
   (0x00B, Raw.icmp .icmp),
   (0x00C, Raw.isel .isel),
   (0x00D, Raw.lea .lea),
   (0x00E, Raw.i .clz),
   (0x00F, Raw.i .ctz),
   (0x010, Raw.i .popc),
   (0x011, Raw.i .brev),
   (0x040, Raw.i .and),
   (0x041, Raw.i .or),
   (0x042, Raw.i .xor),
   (0x043, Raw.i .andn),
   (0x044, Raw.i .orn),
   (0x045, Raw.i .shl),
   (0x046, Raw.i .shr),
   (0x047, Raw.i .sar),
   (0x048, Raw.i .rol),
   (0x049, Raw.i .bfx),
   (0x04A, Raw.i .bfi),
   (0x04B, Raw.ext .sext),
   (0x04C, Raw.ext .zext),
   (0x04D, Raw.i .mov),
   (0x04E, Raw.i .movi),
   (0x04F, Raw.i .movhi),
   (0x050, Raw.plog .plog),
   (0x051, Raw.i .pmov)]

/-- Opcodes 0x080 to 0x0FF of Table 11-9. -/
def opsFpCtrl : List (Nat × (Raw → Option Instr)) :=
  [(0x080, Raw.v0 .fadd),
   (0x081, Raw.v0 .fsub),
   (0x082, Raw.v0 .fmul),
   (0x083, Raw.v0 .ffma),
   (0x084, Raw.v0 .fdiv),
   (0x085, Raw.v0 .fsqrt),
   (0x086, Raw.v0 .fmin),
   (0x087, Raw.v0 .fmax),
   (0x088, Raw.vCond .fcmp),
   (0x089, Raw.vSrc .fcvt),
   (0x08A, Raw.v0 .fclass),
   (0x0C0, Raw.s0 .nop),
   (0x0C1, Raw.s0 .br),
   (0x0C2, Raw.s0 .call),
   (0x0C3, Raw.s0 .calli),
   (0x0C4, Raw.s0 .ret),
   (0x0C5, Raw.s0 .jmpi),
   (0x0C6, Raw.s0 .loop),
   (0x0C7, Raw.s0 .fork),
   (0x0C8, Raw.s0 .spawn),
   (0x0C9, Raw.s0 .rspawn),
   (0x0CA, Raw.s0 .join),
   (0x0CB, Raw.s0 .yield),
   (0x0CC, Raw.sel [.halt, .haltRetain]),
   (0x0CD, Raw.s0 .trap),
   (0x0CE, Raw.s0 .rte)]

/-- Opcodes 0x100 to 0x1BF of Table 11-9. -/
def opsMem : List (Nat × (Raw → Option Instr)) :=
  [(0x100, Raw.m .ld),
   (0x101, Raw.m .st),
   (0x102, Raw.m .ldl),
   (0x103, Raw.m .stl),
   (0x104, Raw.m .prf),
   (0x105, Raw.m .wbk),
   (0x106, Raw.m .dis),
   (0x107, Raw.m .inv),
   (0x108, Raw.m .plf),
   (0x109, Raw.z),
   (0x140, Raw.aOp .amo),
   (0x141, Raw.a0 .cas),
   (0x142, Raw.aOp .red),
   (0x143, Raw.a0 .fput),
   (0x144, Raw.a0 .fget),
   (0x145, Raw.aPm .fpeek),
   (0x180, Raw.s0 .acq),
   (0x181, Raw.s0 .rel),
   (0x182, Raw.s0 .fence),
   (0x183, Raw.s0 .binit),
   (0x184, Raw.s0 .bexp),
   (0x185, Raw.s0 .barv),
   (0x186, Raw.s0 .bwait),
   (0x187, Raw.s0 .btest),
   (0x188, Raw.s0 .brarv),
   (0x189, Raw.sel [.bbindCopy, .bbindMxrow, .bbindSink, .bbindCnt])]

/-- Opcodes 0x1C0 to 0x1FF of Table 11-9. -/
def opsStrm : List (Nat × (Raw → Option Instr)) :=
  [(0x1C0, Raw.s0 .sopen),
   (0x1C1, Raw.s0 .sclose),
   (0x1C2, Raw.sel [.srclImm, .srclAt]),
   (0x1C3, Raw.sel [.sfltAuto, .sfltNever, .sfltNear]),
   (0x1C4, Raw.s0 .ssnk),
   (0x1C5, Raw.s0 .sstat),
   (0x1C6, Raw.s0 .sevt),
   (0x1C7, Raw.s0 .qput),
   (0x1C8, Raw.s0 .qget),
   (0x1C9, Raw.s0 .qpeek),
   (0x1CA, Raw.s0 .qcnt),
   (0x1CB, Raw.s0 .qbind)]

/-- Opcodes 0x200 to 0x27F of Table 11-9. -/
def opsVec : List (Nat × (Raw → Option Instr)) :=
  [(0x200, Raw.v0 .vadd),
   (0x201, Raw.v0 .vsub),
   (0x202, Raw.v0 .vmul),
   (0x203, Raw.v0 .vfma),
   (0x204, Raw.v0 .vmin),
   (0x205, Raw.v0 .vmax),
   (0x206, Raw.v0 .vabs),
   (0x207, Raw.v0 .vneg),
   (0x208, Raw.v0 .vand),
   (0x209, Raw.v0 .vor),
   (0x20A, Raw.v0 .vxor),
   (0x20B, Raw.v0 .vshl),
   (0x20C, Raw.v0 .vshr),
   (0x20D, Raw.v0 .vsar),
   (0x20E, Raw.vCond .vcmp),
   (0x20F, Raw.v0 .vsel),
   (0x210, Raw.vSrc .vcvt),
   (0x211, Raw.vFmt .vqnt),
   (0x212, Raw.vFmt .vdqnt),
   (0x213, Raw.vPm .vplane),
   (0x214, Raw.vPm .vunpl),
   (0x215, Raw.v0 .vexp2),
   (0x216, Raw.v0 .vlog2),
   (0x217, Raw.v0 .vrcp),
   (0x218, Raw.v0 .vrsq),
   (0x219, Raw.v0 .vsin),
   (0x21A, Raw.v0 .vcos),
   (0x21B, Raw.v0 .vtanh),
   (0x240, Raw.m .vld),
   (0x241, Raw.m .vst),
   (0x242, Raw.m .vgth),
   (0x243, Raw.m .vsct),
   (0x244, Raw.vRed .vred),
   (0x245, Raw.vRed .vscan),
   (0x246, Raw.v0 .vperm),
   (0x247, Raw.v0 .vbcast),
   (0x248, Raw.v0 .vext),
   (0x249, Raw.v0 .vins),
   (0x24A, Raw.v0 .vcprs)]

/-- Opcodes 0x280 to 0x37F of Table 11-9. -/
def opsShape : List (Nat × (Raw → Option Instr)) :=
  [(0x280, Raw.v0 .shdef),
   (0x281, Raw.vMap .shmap),
   (0x282, Raw.vRed .shred),
   (0x283, Raw.vFmt .shqnt),
   (0x284, Raw.v0 .shcpy),
   (0x285, Raw.v0 .shstat),
   (0x2C0, Raw.v0 .wclr),
   (0x2C1, Raw.v0 .wadd),
   (0x2C2, Raw.v0 .wsub),
   (0x2C3, Raw.v0 .wrnd),
   (0x2C4, Raw.v0 .waddv),
   (0x2C5, Raw.v0 .wstatWin),
   (0x300, Raw.x0 .mxcfg),
   (0x301, Raw.x0 .mxalloc),
   (0x302, Raw.x0 .mxfree),
   (0x303, Raw.x0 .mxzero),
   (0x304, Raw.x0 .mxmm),
   (0x305, Raw.x0 .mxgmm),
   (0x306, Raw.x0 .mxprom),
   (0x307, Raw.xc .mxcpy),
   (0x308, Raw.x0 .mxmap),
   (0x309, Raw.x0 .mxlda),
   (0x30A, Raw.x0 .mxstat),
   (0x30B, Raw.x0 .mxfence),
   (0x340, Raw.s0 .cpstart),
   (0x341, Raw.s0 .cpstat),
   (0x342, Raw.s0 .cpcan)]

/-- Opcodes 0x380 to 0x3FF of Table 11-9. -/
def opsTask : List (Nat × (Raw → Option Instr)) :=
  [(0x380, Raw.s0 .launch),
   (0x381, Raw.s0 .tnext),
   (0x382, Raw.s0 .split),
   (0x383, Raw.s0 .wstat),
   (0x384, Raw.s0 .cancel),
   (0x385, Raw.s0 .cntrd),
   (0x386, Raw.s0 .ahnd),
   (0x387, Raw.sel [.grpopGopen, .grpopGclose, .grpopPopen, .grpopPclose]),
   (0x3C0, Raw.s0 .csrr),
   (0x3C1, Raw.s0 .csrw),
   (0x3C2, Raw.sel [.tlbinvRange, .tlbinvSubpage, .tlbinvJob]),
   (0x3C3, Raw.s0 .rdtime),
   (0x3C4, Raw.s0 .rdrand),
   (0x3C5, Raw.s0 .ebreak),
   (0x3C6, Raw.s0 .pmrd),
   (0x3C7, Raw.s0 .jmark)]

/-- Table 11-9, whole. -/
def opTable : List (Nat × (Raw → Option Instr)) :=
  opsInt ++ opsFpCtrl ++ opsMem ++ opsStrm ++ opsVec ++ opsShape ++ opsTask

/-- The row of an opcode value; none when it is unassigned (R240). -/
def opRow (opc : Nat) : Option (Raw → Option Instr) := (opTable.find? (·.1 == opc)).map (·.2)

/-- Steps 3 to 5 of R242: the instruction a word encodes, or none for an ILLEGAL word. -/
def decode (w : BitVec 96) : Option Instr := do
  let r := Raw.ofWord w
  let f ← opRow r.opc
  let i ← f r
  if i.wf then some i else none

/-- The word of 12 bytes at ascending addresses: three little-endian 32-bit words (R222). -/
def wordOfBytes (bs : List Byte) : BitVec 96 :=
  BitVec.ofNat 96 ((bs.take 12).foldr (fun b n => b.toNat + 256 * n) 0)

/-- The 12 bytes of a word, lowest address first (R222). -/
def bytesOfWord (w : BitVec 96) : List Byte :=
  (List.range 12).map fun k => w.extractLsb' (8 * k) 8

/-- The decoder on a list of bytes: the instruction and the rest of the list. -/
def decodeBytes (bs : List Byte) : Option (Instr × List Byte) :=
  if bs.length < 12 then none else (decode (wordOfBytes bs)).map (·, bs.drop 12)

/-- The word whose bits the opcode table numbers from the first stored byte: the bytes are laid out
little-endian (R222) and given to the decoder; bits at and above nbits are zero. -/
def decodeTableWord (nbits w : Nat) : Option Instr :=
  (decodeBytes (bytesOfWord (BitVec.ofNat 96 (w % 2 ^ nbits)))).map (·.1)

/-! The encoder. -/

/-- The 20 bits of an operand field (Table 11-2). -/
def encOpd : Opd → BitVec 20
  | .x n => BitVec.ofNat 20 n.val
  | .v n => BitVec.ofNat 20 (0x20000 + n.val)
  | .q n pk => BitVec.ofNat 20 (0x40000 + pk.toNat * 16 + n.val)
  | .p n => BitVec.ofNat 20 (0x60000 + n.val)
  | .imm i => BitVec.ofNat 20 (0x80000 + i.toNat)
  | .slot n => BitVec.ofNat 20 (0xA0000 + n.val)
  | .shape n => BitVec.ofNat 20 (0xA2000 + n.val)
  | .bar n => BitVec.ofNat 20 (0xA4000 + n.val)
  | .tile n => BitVec.ofNat 20 (0xA6000 + n.val)
  | .level l => BitVec.ofNat 20 (0xA8000 + l.code)
  | .sreg i => BitVec.ofNat 20 (0xC0000 + i.toNat)
  | .long i => BitVec.ofNat 20 (0xE0000 + i.toNat % 2 ^ 16)

/-- Table 11-1, fields into the word. -/
def packWord (opc : Nat) (h : Hdr) (mod : Nat) (d a b : Opd) : BitVec 96 :=
  BitVec.ofNat 10 opc ++ BitVec.ofBool h.gn ++ (BitVec.ofFin h.gp : BitVec 3) ++ (BitVec.ofFin h.stall : BitVec 3)
    ++ BitVec.ofBool h.yld ++ (BitVec.ofFin h.reu : BitVec 2) ++ BitVec.ofNat 16 mod
    ++ encOpd d ++ encOpd a ++ encOpd b

/-- MOD when B carries a long immediate: its high half (R231). -/
def modOr (b : Opd) (mod : Nat) : Nat :=
  match b with
  | .long i => i.toNat / 2 ^ 16
  | _ => mod

def encI (opc cond dp sh : Nat) (o : OpI) : BitVec 96 :=
  packWord opc o.h (modOr o.b (o.ty.code * 2 ^ 14 + cond * 2 ^ 10 + dp * 2 ^ 7 + sh * 2 ^ 3)) o.d o.a o.b
def encV (opc sub : Nat) (o : OpV) : BitVec 96 :=
  packWord opc o.h (o.et.code * 2 ^ 12 + o.rm.code * 2 ^ 10 + o.lp.val * 2 ^ 7 + sub * 2 ^ 3
    + o.sat.toNat * 4 + o.bc.toNat * 2 + o.z.toNat) o.d o.a o.b
def encM (opc : Nat) (o : OpM) : BitVec 96 :=
  packWord opc o.h (o.ord.code * 2 ^ 14 + o.scope.code * 2 ^ 11 + o.evp.val * 2 ^ 8 + o.esz.code * 2 ^ 4
    + o.am.code) o.d o.a o.b
def encA (opc aop : Nat) (o : OpA) : BitVec 96 :=
  packWord opc o.h (o.ord.code * 2 ^ 14 + o.scope.code * 2 ^ 11 + o.evp.val * 2 ^ 8 + o.esz.code * 2 ^ 4
    + aop) o.d o.a o.b
def encS (opc sel : Nat) (o : OpS) : BitVec 96 :=
  packWord opc o.h (modOr o.b (o.scope.code * 2 ^ 11 + sel)) o.d o.a o.b
def encX (opc mod : Nat) (o : OpX) : BitVec 96 := packWord opc o.h mod o.d o.a o.b
def encZ (opc : Nat) (h : Hdr) : BitVec 96 := packWord opc h 0 (.x 0) (.x 0) (.x 0)

/-- The word of an instruction; a step of the machine has none. -/
def encode : Instr → Option (BitVec 96)
  | .iadd o => some (encI 0x000 0 0 0 o)
  | .isub o => some (encI 0x001 0 0 0 o)
  | .imul o => some (encI 0x002 0 0 0 o)
  | .imulh o => some (encI 0x003 0 0 0 o)
  | .imad o => some (encI 0x004 0 0 0 o)
  | .idiv o => some (encI 0x005 0 0 0 o)
  | .irem o => some (encI 0x006 0 0 0 o)
  | .ineg o => some (encI 0x007 0 0 0 o)
  | .iabs o => some (encI 0x008 0 0 0 o)
  | .imin o => some (encI 0x009 0 0 0 o)
  | .imax o => some (encI 0x00A 0 0 0 o)
  | .icmp c dp o => some (encI 0x00B c.code dp.val 0 o)
  | .isel dp o => some (encI 0x00C 0 dp.val 0 o)
  | .lea sh o => some (encI 0x00D 0 0 sh.val o)
  | .clz o => some (encI 0x00E 0 0 0 o)
  | .ctz o => some (encI 0x00F 0 0 0 o)
  | .popc o => some (encI 0x010 0 0 0 o)
  | .brev o => some (encI 0x011 0 0 0 o)
  | .and o => some (encI 0x040 0 0 0 o)
  | .or o => some (encI 0x041 0 0 0 o)
  | .xor o => some (encI 0x042 0 0 0 o)
  | .andn o => some (encI 0x043 0 0 0 o)
  | .orn o => some (encI 0x044 0 0 0 o)
  | .shl o => some (encI 0x045 0 0 0 o)
  | .shr o => some (encI 0x046 0 0 0 o)
  | .sar o => some (encI 0x047 0 0 0 o)
  | .rol o => some (encI 0x048 0 0 0 o)
  | .bfx o => some (encI 0x049 0 0 0 o)
  | .bfi o => some (encI 0x04A 0 0 0 o)
  | .sext w o => some (encI 0x04B 0 0 w.code o)
  | .zext w o => some (encI 0x04C 0 0 w.code o)
  | .mov o => some (encI 0x04D 0 0 0 o)
  | .movi o => some (encI 0x04E 0 0 0 o)
  | .movhi o => some (encI 0x04F 0 0 0 o)
  | .plog op o => some (encI 0x050 op.code 0 0 o)
  | .pmov o => some (encI 0x051 0 0 0 o)
  | .fadd o => some (encV 0x080 0 o)
  | .fsub o => some (encV 0x081 0 o)
  | .fmul o => some (encV 0x082 0 o)
  | .ffma o => some (encV 0x083 0 o)
  | .fdiv o => some (encV 0x084 0 o)
  | .fsqrt o => some (encV 0x085 0 o)
  | .fmin o => some (encV 0x086 0 o)
  | .fmax o => some (encV 0x087 0 o)
  | .fcmp c o => some (encV 0x088 c.code o)
  | .fcvt t o => some (encV 0x089 t.code o)
  | .fclass o => some (encV 0x08A 0 o)
  | .nop o => some (encS 0x0C0 0 o)
  | .br o => some (encS 0x0C1 0 o)
  | .call o => some (encS 0x0C2 0 o)
  | .calli o => some (encS 0x0C3 0 o)
  | .ret o => some (encS 0x0C4 0 o)
  | .jmpi o => some (encS 0x0C5 0 o)
  | .loop o => some (encS 0x0C6 0 o)
  | .fork o => some (encS 0x0C7 0 o)
  | .spawn o => some (encS 0x0C8 0 o)
  | .rspawn o => some (encS 0x0C9 0 o)
  | .join o => some (encS 0x0CA 0 o)
  | .yield o => some (encS 0x0CB 0 o)
  | .halt o => some (encS 0x0CC 0 o)
  | .haltRetain o => some (encS 0x0CC 1 o)
  | .trap o => some (encS 0x0CD 0 o)
  | .rte o => some (encS 0x0CE 0 o)
  | .ld o => some (encM 0x100 o)
  | .st o => some (encM 0x101 o)
  | .ldl o => some (encM 0x102 o)
  | .stl o => some (encM 0x103 o)
  | .prf o => some (encM 0x104 o)
  | .wbk o => some (encM 0x105 o)
  | .dis o => some (encM 0x106 o)
  | .inv o => some (encM 0x107 o)
  | .plf o => some (encM 0x108 o)
  | .rgsync h => some (encZ 0x109 h)
  | .amo op o => some (encA 0x140 op.code o)
  | .cas o => some (encA 0x141 0 o)
  | .red op o => some (encA 0x142 op.code o)
  | .fput o => some (encA 0x143 0 o)
  | .fget o => some (encA 0x144 0 o)
  | .fpeek p o => some (encA 0x145 p.val o)
  | .acq o => some (encS 0x180 0 o)
  | .rel o => some (encS 0x181 0 o)
  | .fence o => some (encS 0x182 0 o)
  | .binit o => some (encS 0x183 0 o)
  | .bexp o => some (encS 0x184 0 o)
  | .barv o => some (encS 0x185 0 o)
  | .bwait o => some (encS 0x186 0 o)
  | .btest o => some (encS 0x187 0 o)
  | .brarv o => some (encS 0x188 0 o)
  | .bbindCopy o => some (encS 0x189 0 o)
  | .bbindMxrow o => some (encS 0x189 1 o)
  | .bbindSink o => some (encS 0x189 2 o)
  | .bbindCnt o => some (encS 0x189 3 o)
  | .sopen o => some (encS 0x1C0 0 o)
  | .sclose o => some (encS 0x1C1 0 o)
  | .srclImm o => some (encS 0x1C2 0 o)
  | .srclAt o => some (encS 0x1C2 1 o)
  | .sfltAuto o => some (encS 0x1C3 0 o)
  | .sfltNever o => some (encS 0x1C3 1 o)
  | .sfltNear o => some (encS 0x1C3 2 o)
  | .ssnk o => some (encS 0x1C4 0 o)
  | .sstat o => some (encS 0x1C5 0 o)
  | .sevt o => some (encS 0x1C6 0 o)
  | .qput o => some (encS 0x1C7 0 o)
  | .qget o => some (encS 0x1C8 0 o)
  | .qpeek o => some (encS 0x1C9 0 o)
  | .qcnt o => some (encS 0x1CA 0 o)
  | .qbind o => some (encS 0x1CB 0 o)
  | .vadd o => some (encV 0x200 0 o)
  | .vsub o => some (encV 0x201 0 o)
  | .vmul o => some (encV 0x202 0 o)
  | .vfma o => some (encV 0x203 0 o)
  | .vmin o => some (encV 0x204 0 o)
  | .vmax o => some (encV 0x205 0 o)
  | .vabs o => some (encV 0x206 0 o)
  | .vneg o => some (encV 0x207 0 o)
  | .vand o => some (encV 0x208 0 o)
  | .vor o => some (encV 0x209 0 o)
  | .vxor o => some (encV 0x20A 0 o)
  | .vshl o => some (encV 0x20B 0 o)
  | .vshr o => some (encV 0x20C 0 o)
  | .vsar o => some (encV 0x20D 0 o)
  | .vcmp c o => some (encV 0x20E c.code o)
  | .vsel o => some (encV 0x20F 0 o)
  | .vcvt t o => some (encV 0x210 t.code o)
  | .vqnt f o => some (encV 0x211 f.code o)
  | .vdqnt f o => some (encV 0x212 f.code o)
  | .vplane p o => some (encV 0x213 p.val o)
  | .vunpl p o => some (encV 0x214 p.val o)
  | .vexp2 o => some (encV 0x215 0 o)
  | .vlog2 o => some (encV 0x216 0 o)
  | .vrcp o => some (encV 0x217 0 o)
  | .vrsq o => some (encV 0x218 0 o)
  | .vsin o => some (encV 0x219 0 o)
  | .vcos o => some (encV 0x21A 0 o)
  | .vtanh o => some (encV 0x21B 0 o)
  | .vld o => some (encM 0x240 o)
  | .vst o => some (encM 0x241 o)
  | .vgth o => some (encM 0x242 o)
  | .vsct o => some (encM 0x243 o)
  | .vred op o => some (encV 0x244 op.code o)
  | .vscan op o => some (encV 0x245 op.code o)
  | .vperm o => some (encV 0x246 0 o)
  | .vbcast o => some (encV 0x247 0 o)
  | .vext o => some (encV 0x248 0 o)
  | .vins o => some (encV 0x249 0 o)
  | .vcprs o => some (encV 0x24A 0 o)
  | .shdef o => some (encV 0x280 0 o)
  | .shmap op o => some (encV 0x281 op.code o)
  | .shred op o => some (encV 0x282 op.code o)
  | .shqnt f o => some (encV 0x283 f.code o)
  | .shcpy o => some (encV 0x284 0 o)
  | .shstat o => some (encV 0x285 0 o)
  | .wclr o => some (encV 0x2C0 0 o)
  | .wadd o => some (encV 0x2C1 0 o)
  | .wsub o => some (encV 0x2C2 0 o)
  | .wrnd o => some (encV 0x2C3 0 o)
  | .waddv o => some (encV 0x2C4 0 o)
  | .wstatWin o => some (encV 0x2C5 0 o)
  | .mxcfg o => some (encX 0x300 0 o)
  | .mxalloc o => some (encX 0x301 0 o)
  | .mxfree o => some (encX 0x302 0 o)
  | .mxzero o => some (encX 0x303 0 o)
  | .mxmm o => some (encX 0x304 0 o)
  | .mxgmm o => some (encX 0x305 0 o)
  | .mxprom o => some (encX 0x306 0 o)
  | .mxcpy t csv map o => some (encX 0x307 (t.code * 16 + csv.toNat * 2 + map.toNat) o)
  | .mxmap o => some (encX 0x308 0 o)
  | .mxlda o => some (encX 0x309 0 o)
  | .mxstat o => some (encX 0x30A 0 o)
  | .mxfence o => some (encX 0x30B 0 o)
  | .cpstart o => some (encS 0x340 0 o)
  | .cpstat o => some (encS 0x341 0 o)
  | .cpcan o => some (encS 0x342 0 o)
  | .launch o => some (encS 0x380 0 o)
  | .tnext o => some (encS 0x381 0 o)
  | .split o => some (encS 0x382 0 o)
  | .wstat o => some (encS 0x383 0 o)
  | .cancel o => some (encS 0x384 0 o)
  | .cntrd o => some (encS 0x385 0 o)
  | .ahnd o => some (encS 0x386 0 o)
  | .grpopGopen o => some (encS 0x387 0 o)
  | .grpopGclose o => some (encS 0x387 1 o)
  | .grpopPopen o => some (encS 0x387 2 o)
  | .grpopPclose o => some (encS 0x387 3 o)
  | .csrr o => some (encS 0x3C0 0 o)
  | .csrw o => some (encS 0x3C1 0 o)
  | .tlbinvRange o => some (encS 0x3C2 0 o)
  | .tlbinvSubpage o => some (encS 0x3C2 1 o)
  | .tlbinvJob o => some (encS 0x3C2 2 o)
  | .rdtime o => some (encS 0x3C3 0 o)
  | .rdrand o => some (encS 0x3C4 0 o)
  | .ebreak o => some (encS 0x3C5 0 o)
  | .pmrd o => some (encS 0x3C6 0 o)
  | .jmark o => some (encS 0x3C7 0 o)
  | .drain .. | .perform .. | .deliver .. | .loopBackDeliver .. | .writeBack .. | .drop ..
  | .recallMerge .. | .fetch .. | .streamDeliver .. | .combine .. | .streamWrite .. | .float ..
  | .hop .. | .streamRecall .. | .streamLeaveBank .. | .ringTileReady .. | .ringSlotReturn ..
  | .mxCommandStart .. | .jobElement .. | .complete .. | .deferredFaultRaise .. | .nodeReady ..
  | .leaseAcquire .. | .arenaBirth .. | .walkerCreate .. | .handout .. | .runStart ..
  | .bankClearComplete .. | .dequeRefill .. | .cancelledHalt .. | .priorityAge ..
  | .retainExpire .. | .nodeComplete .. | .arenaDeath .. | .discardClusterStep ..
  | .discardHomeStep .. | .discardComplete .. | .arenaSweep .. | .shootdownAck .. | .pageMove ..
  | .formatWindowWrite .. | .jobConfigure .. | .thermalHotSet .. | .thermalHotClear ..
  | .preemptStop .. | .preemptWithdraw .. | .preemptDrain .. | .preemptSave .. | .restore ..
  | .flitReceive .. | .linkBringup .. | .inboundRequest .. | .hostLaunch .. | .hostCancel ..
  | .hostCntrd .. | .attest .. | .tokenRefill .. | .firmwareLoad .. | .debugToken ..
  | .debugTokenExpire | .provisioningFuse | .coldReset | .packageOff | .securityAlarm ..
  | .islandGate .. | .islandWake .. | .clockBoost .. | .dieRetention .. | .correctedError ..
  | .uncorrectableError .. | .debugAccess .. | .hbmChannelAcknowledge .. | .dieRetentionExit ..
  | .healthTestFailure => none

/-- Whether a row is an instruction, with a word of its own (rows 0 to 193). -/
def Instr.isWord (i : Instr) : Bool := (encode i).isSome

end Sys2Proof
end

