-- ==== Sys2Proof/Machine/Issue.lean ====
section
/-!
DEFINITION. What a context does at its turn (R74, R225, R242): whether an instruction issues, and which.
-/
namespace Sys2Proof.Machine

/-- The x registers an operand names. -/
def Opd.xs : Opd → List Nat
  | .x n => [n.val]
  | _ => []
def Opd.vs : Opd → List Nat
  | .v n => [n.val]
  | _ => []

/-- The operand fields of an instruction word. -/
def Instr.opds (i : Instr) : List Opd :=
  match encode i with
  | none => []
  | some w =>
    let r := Raw.ofWord w
    (decOpd r.mod r.d).toList ++ (decOpd r.mod r.a).toList ++ (decOpd r.mod r.b).toList

/-- x registers an instruction reads or writes without naming them in a field (R159, R280 to R283, R387). -/
def Instr.implicitX : Instr → List Nat
  | .call _ | .calli _ | .ret _ => [61]
  | .fork _ | .spawn _ => [1, 10, 11, 61]
  | .rspawn o => [10, 11] ++ (match o.a with | .x n => [n.val + 1] | _ => [])
  | .halt _ | .haltRetain _ | .join _ => [61]
  | .tnext _ => [1, 2, 3, 4, 5]
  | .rte _ => [63]
  | _ => []

/-- Registers open loads will write. -/
def OpenLoad.dstX (l : OpenLoad) : Option Nat :=
  match l.dst with | .x n _ => some n | _ => none
def OpenLoad.dstV (l : OpenLoad) : Option Nat :=
  match l.dst with | .v n => some n | .lanes n _ _ => some n | _ => none

/-- An instruction waits while an open load is to write a register it names: its operands are those program
order gives it (R74, R77). -/
def hazard (c : Ctx) (i : Instr) : Bool :=
  c.loads.any fun l =>
    (match l.dstX with
      | some n => n != 0 && ((Instr.opds i).flatMap Opd.xs ++ Instr.implicitX i).contains n
      | none => false)
    || (match l.dstV with
      | some n => ((Instr.opds i).flatMap Opd.vs).contains n
      | none => false)

/-- The guard (R225). -/
def Ctx.guardOk (c : Ctx) (gn : Bool) (gp : Fin 8) : Bool := (c.getP gp.val).getLsbD 0 != gn

/-- Whether a context may issue: a run owns it, its job is not stopped, no end, debug halt or fault of an
engine job waits, and its node is not cancelled; an instruction in progress completes (R153, R355, R392). -/
def State.mayIssue (s : State) (n : Nat) : Bool :=
  let c := s.ctx n
  let j := s.job c.run.job
  c.run.kind != .free && !c.sys.dbgHalt && c.sys.ending == 0 && s.banksReady n
    && (match j.pre with
        | .none => true
        | .stopped => c.stage != {} && !(c.stage.shp.isSome && c.stage.ph != 2)
        | .withdrawn => c.stage.taken
        | _ => false)
    && (match c.sys.deferred with | some d => (c.sys.lvl == .handler && d.lvl == .run) || c.stage != {} | none => true)
    && (match j.node? c.run.graph c.run.node with
        | some x => !((x.cancelled && !x.drain) || x.redo) || c.stage.taken
        | none => true)

/-- A run that is ending takes the steps of its end at its turn (R161, R388). -/
def State.mayEnd (s : State) (n : Nat) : Bool :=
  let c := s.ctx n
  c.sys.ending != 0 && s.banksReady n && ((s.job c.run.job).pre == .none || (s.job c.run.job).pre == .stopped)

/-! ## Fetch (R50, R223, R224) -/

/-- What fetching a 32-bit word, or the whole instruction, comes to. -/
inductive Fetched (α : Type)
  | got (v : α) (s : State)
  | wait (s : State)
  | bad (i : FaultInfo)

/-- The word a fetch finds at a place of the heap row of Table 03-1: in the cluster's view, or at its home with a token
(R407), by way of which the view takes the line as a load of EVP 3 does. -/
def State.fetchLine (s : State) (n va : Nat) (loc : Loc) (home : Bool) : Fetched (List Byte) :=
  let clu := cluOf n
  let (ok, s) := s.rbClear clu loc
  if !ok then .wait s
  else
    let near := (List.range 4).map fun i => (s.cv clu (lineOf loc.key)).bind fun l => l.byte? false ((loc.key + i) % 128)
    if !s.viewed n loc va then
      if !s.mayInject n then .wait s
      else
        let (bs, s) := ((s.dropLink n loc).spend n).homeRead loc 4 0
        .got bs s
    else if near.all (·.isSome) && !home then .got (near.map (·.getD 0)) (s.cvTouch clu (lineOf loc.key) va 3)
    else
      let (ok, s) := s.homeAsk loc
      if !ok || !s.mayInject n then .wait s
      else
        let (ls, s) := (s.spend n).homeRead loc.whole 128 3
        let bs := (ls.drop (loc.key % 128)).take 4
        .got (if home then bs else near.zipIdx.map fun p => p.1.getD (bs.getD p.2 0)) (s.cvFill clu (lineOf loc.key) va ls 3)

/-- The next word of the instruction at a context's PC, checked as an instruction fetch (R223, R224). -/
def State.fetchWord (s : State) (n : Nat) (home : Bool) : Fetched (List Byte) :=
  let c := s.ctx n
  let va := (c.pc.toNat + c.fetched.length) % 2 ^ 64
  match (if c.pc.toNat % 4 ≠ 0 then .error (flt clsAlign c.pc.toNat) else s.check n .fetch va 4) with
  | .error i => .bad i
  | .ok loc =>
    let s := (s.tlbFill c.run.job (coreOf n) va .fetch).markAt n loc false false
    if loc.cacheable then s.fetchLine n va loc home else .got (s.bytes loc.key 4) s

/-- The words of the instruction at a context's PC that have not been fetched (at most fuel words): it then executes
the words fetched. -/
def State.fetchAll (s : State) (n : Nat) : Nat → Fetched (BitVec 96)
  | 0 => .wait s
  | fuel + 1 =>
    let bs := (s.ctx n).fetched
    if 12 ≤ bs.length then .got (BitVec.ofNat 96 (leNat bs)) s
    else
      match s.fetchWord n false with
      | .got w t => (t.modCtx n fun c => { c with fetched := c.fetched ++ w }).fetchAll n fuel
      | .wait t => .wait t
      | .bad i => .bad i

/-- One word of a context's instruction is fetched at a moment of its own (R224). -/
def State.fetchTurn (s : State) (n : Nat) (home : Bool) : State :=
  if s.mayIssue n && decide ((s.ctx n).fetched.length < 12) then
    match s.fetchWord n home with
    | .got w t => t.modCtx n fun c => { c with fetched := c.fetched ++ w }
    | .wait t => t
    | .bad i => s.raise n (s.ctx n).pc (s.ctx n).pc i
  else s

/-- What the turn of a context comes to. -/
inductive Turned
  /-- the state after a turn in which no instruction executes -/
  | done (s : State)
  /-- an instruction to execute -/
  | run (i : Instr) (s : State)

/-- Steps 1 to 5 of R242 for the running context. -/
def State.turn (s : State) : Turned :=
  if s.mayIssue s.cur then
    match s.fetchAll s.cur 4 with
    | .bad i => .done (s.fault i)
    | .wait t => .done t
    | .got w t =>
      let r := Raw.ofWord w
      if t.me.guardOk r.gn r.gp then
        match decode w with
        | none => .done t.illegal
        | some i => if hazard t.me i then .done t else .run i (t.modMe Ctx.issued)
      else .done (t.setMe t.me.skip)
  else if s.mayEnd s.cur then .done (s.endStep s.cur)
  else .done s

end Sys2Proof.Machine
end

