-- ==== Sys2Proof/Machine/SyncOps.lean ====
section
/-!
DEFINITION. Meanings of the SYNC class: sync objects and fences (R82 to R86, R300, R301) and named barriers
(R171 to R175, R302 to R305).
-/
namespace Sys2Proof.Machine

/-! ## Sync objects and fences -/

/-- The check of a sync object (R300): its physical address. DESIGN CHOICE (assumption log 96): of a word of class 010 or
011 in a PRIV range, to which R83 gives REGION and R106 HOSTATOM, HOSTATOM is raised. -/
def State.syncCheck (s : State) (va : Nat) : Chk Nat := do
  match ← s.check s.cur .atomic va 8 with
  | .hbm pa => if s.myJob.regionSt va == .shrw then pure pa else throw (flt clsRegion va)
  | .host _ _ | .peer _ _ => throw (flt clsHostatom va)
  | _ => throw (flt clsRegion va)

def Ctx.sAddr (c : Ctx) (o : OpS) : Nat := match o.a with | .x n => (c.getX n.val).toNat | _ => 0

/-- Clean bytes of the lines bound to an object leave the acquiring cluster (R84, step 3). -/
def State.dropBound (s : State) (n va : Nat) : State :=
  let j := s.job (s.ctx n).run.job
  (s.clu (cluOf n)).lines.foldl (fun t p => if p.2.boundTo j va then t.dropClean (cluOf n) p.1 else t) s

/-- ACQ (R84, R86, R300). -/
def execAcq (o : OpS) (s : State) : Host.Outcome State Fault Refusal :=
  let n := s.cur
  let va := s.me.sAddr o
  let done (t : State) : Host.Outcome State Fault Refusal :=
    .next (if o.scope.wide then t.dropBound n va else t).advance
  match s.me.stage.rep with
  | some _ => done s
  | none =>
    if 2 ≤ s.me.stage.ph then .next s
    else
      match s.syncCheck va with
      | .error i => .next (s.fault i)
      | .ok pa =>
        if !s.me.settled then .next s
        else if (s.sync pa).holder = some n then done s
        else if !s.mayInject n then .next s
        else .next ((s.markAt n (.hbm pa) true (o.scope == .sys)).ask n (.hbm pa) { cls := .req, who := .instr n, pl := .acquire pa va, va := va })

/-- REL (R85, R86, R300). -/
def execRel (o : OpS) (s : State) : Host.Outcome State Fault Refusal :=
  let n := s.cur
  let va := s.me.sAddr o
  match s.me.stage.rep with
  | some _ => .next s.advance
  | none =>
    if 2 ≤ s.me.stage.ph then .next s
    else
      match s.syncCheck va with
      | .error i => .next (s.fault i)
      | .ok pa =>
        let j := s.myJob
        let (ok, s) := s.relHalf n o.scope.wide fun l => l.boundTo j va
        if !ok then .next s
        else if (s.sync pa).holder ≠ some n then .next (s.fault (flt clsRegion va))
        else if !s.mayInject n then .next s
        else .next ((s.markAt n (.hbm pa) true (o.scope == .sys)).ask n (.hbm pa) { cls := .req, who := .instr n, pl := .release pa va, va := va })

/-- A line of a link window that PRF has asked for has not come (R82, R292). -/
def State.linkAsked (s : State) (n : Nat) : Bool :=
  s.net.any fun p => match p.who with | .prf m k _ => m == n && keyIsLink k | _ => false

/-- FENCE (R82, R301). -/
def execFence (o : OpS) (s : State) : Host.Outcome State Fault Refusal :=
  let (ok, t) := s.relHalf s.cur o.scope.wide fun _ => true
  .next (if ok && !(o.scope == .sys && t.linkAsked t.cur) then (t.acqHalf s.cur o.scope).advance else t)

/-! ## Named barriers -/

def barNo : Opd → Nat | .bar n => n.val | _ => 0
/-- VAL of an x register or an immediate. -/
def Ctx.xi (c : Ctx) : Opd → Word
  | .x n => c.getX n.val
  | o => Opd.immVal o

def State.bar (s : State) (b : Nat) : Bar := (s.core (coreOf s.cur)).bar b
def State.setBar (s : State) (b : Nat) (x : Bar) : State := s.modCore (coreOf s.cur) fun c => c.setBar b x
/-- Whether the running context owns a barrier (R172). -/
def State.ownsBar (s : State) (b : Nat) : Bool := (s.bar b).own && (s.bar b).ctx == s.cur % 4

/-- BINIT (R172, Table 14-4). -/
def execBinit (o : OpS) (s : State) : Host.Outcome State Fault Refusal :=
  let b := (barNo o.a)
  if (s.bar b).own && !s.ownsBar b then .next (s.answerP o.d false)
  else
    let e := (sat 0 65535 (s.me.xi o.b).toInt).toNat
    .next ((s.setBar b { own := true, exp := e, ctx := s.cur % 4 }).answerP o.d true)

/-- BEXP (R173, Table 14-4). -/
def execBexp (o : OpS) (s : State) : Host.Outcome State Fault Refusal :=
  let b := (barNo o.a)
  if s.ownsBar b then
    let x := s.bar b
    .next (s.setBar b ({ x with exp := (sat 0 65535 ((x.exp : Int) + (s.me.xi o.b).toInt)).toNat } : Bar).test).advance
  else .next s.illegal

/-- Whether an instruction that needs an owned barrier may go on: it was owned at issue (R302). -/
def State.barOk (s : State) (b : Nat) : Bool := s.me.stage.bar.isSome || (s.bar b).own
/-- The instruction has issued and waits; the stage remembers its barrier. -/
def State.barWait (s : State) (b : Nat) : State := s.modMe fun c => { c with stage := { c.stage with bar := some b } }

/-- A context in BWAIT sleeps (R176); the stage keeps the phase value it waits in (Table 21-7). -/
def State.barSleep (s : State) (b : Nat) (ph : Bool) : State :=
  s.modMe fun c => { c with stage := { c.stage with bar := some b, b := 2 + ph.toNat } }

/-- BARV (Table 14-4, R174). -/
def execBarv (o : OpS) (s : State) : Host.Outcome State Fault Refusal :=
  let b := (barNo o.a)
  if !s.barOk b then .next s.illegal
  else
    let (ok, t) := (s.barWait b).relHalf s.cur o.scope.wide fun _ => true
    if !ok then .next t
    else if t.me.stage.nd || !(t.bar b).own then .next (t.modMe fun c => (c.setCstat cstatBarnd).advance)
    else .next (t.setBar b (t.bar b).arrive).advance

/-- BWAIT (R303). -/
def execBwait (o : OpS) (s : State) : Host.Outcome State Fault Refusal :=
  let b := (barNo o.a)
  if !s.barOk b then .next s.illegal
  else if s.me.stage.nd || !(s.bar b).own then .next (s.modMe fun c => (c.setCstat cstatBarnd).advance)
  else if (s.bar b).ph = (s.me.xi o.b).getLsbD 0 then .next (s.barSleep b (s.bar b).ph)
  else .next (s.acqHalf s.cur o.scope).advance

/-- Table 08-6. -/
def Bar.word (b : Bar) : Nat :=
  if b.own then b.exp % 65536 * 2 ^ 32 + b.cnt % 65536 * 2 ^ 16 + 8 + b.ph.toNat * 4 + b.ctx % 4 else 0

/-- BTEST (Table 14-4). -/
def execBtest (o : OpS) (s : State) : Host.Outcome State Fault Refusal :=
  s.finish do
    s.dirs o.d (.x 0) (.x 0)
    let t ← s.wr o.d (BitVec.ofNat 64 (s.bar (barNo o.a)).word)
    pure t.advance

/-- BRARV (R304): the coordinate, then the number, then the release half; the arrival is a remote request,
through LP to the issuing core. -/
def execBrarv (o : OpS) (s : State) : Host.Outcome State Fault Refusal :=
  let n := s.cur
  match s.coordCore (s.me.sAddr o) with
  | none => .next (s.fault (flt clsLease 0))
  | some core =>
    let b := (s.me.xi o.b).toNat
    if 31 < b then .next s.illegal
    else
      let (ok, s) := s.relHalf n o.scope.wide fun _ => true
      if !ok then .next s
      else
        let p : Packet := { cls := .req, who := .store n, pl := .arrive core b .plain }
        let up (t : State) : State := t.modCtx n fun c => ({ c with unack := c.unack + 1 } : Ctx).advance
        if core = coreOf n then .next (up (s.modCore core fun c => { c with lp := c.lp ++ [p] }))
        else if s.mayInject n then .next (up (s.inject n p))
        else .next s

/-- A binding joins a barrier (R175, R305): an identical one changes nothing, a fifth is ILLEGAL. -/
def State.addBind (s : State) (b : Nat) (x : Bind) (now : Bool) : Host.Outcome State Fault Refusal :=
  if !s.ownsBar b then .next s.illegal
  else
    let r := s.bar b
    if r.binds.contains x then .next s.advance
    else if 4 ≤ r.binds.length then .next s.illegal
    else
      let r := { r with binds := r.binds ++ [x] }
      .next (s.setBar b (if now then r.arrive else r)).advance

/-- BBIND.copy (R305). -/
def execBbindCopy (o : OpS) (s : State) : Host.Outcome State Fault Refusal := s.addBind (barNo o.a) .copy false
/-- BBIND.mxrow (R305). -/
def execBbindMxrow (o : OpS) (s : State) : Host.Outcome State Fault Refusal := s.addBind (barNo o.a) .mxrow false
/-- BBIND.sink (R305). -/
def execBbindSink (o : OpS) (s : State) : Host.Outcome State Fault Refusal :=
  s.addBind (barNo o.a) (.sink (match o.b with | .slot k => k.val | _ => 0)) false

/-- The counter of a level of a job; none where the id names no live level (R152, R370). -/
def Job.count? (j : Job) (l : Level) (hi lo : Nat) : Option Nat :=
  match l with
  | .node => (j.node? hi lo).map (·.counter)
  | .graph => (j.graph? lo).map (·.counter)
  | .phase => (j.phase? lo).map (·.counter)
  | .job => some j.counter

/-- BBIND.cnt: a counter at zero, or of a level that is gone, makes one arrival at once (R305). -/
def execBbindCnt (o : OpS) (s : State) : Host.Outcome State Fault Refusal :=
  let l := match o.b with | .level l => l | _ => .job
  let w := (match o.d with | .x n => s.me.getX n.val | _ => 0).toNat
  let id := match l with | .node => w | .job => 0 | _ => w % 2 ^ 32
  s.addBind (barNo o.a) (.cnt l (BitVec.ofNat 64 id)) (((s.myJob.count? l (w / 2 ^ 32) (w % 2 ^ 32)).getD 0) == 0)

end Sys2Proof.Machine
end

