-- ==== Sys2Proof/Machine/Elements.lean ====
section
/-!
DEFINITION. Element accesses of streams and engine jobs (R20, R102, R116, R117): one read or write of an element
in one step, made for a context.
-/
namespace Sys2Proof.Machine

/-- What an element read comes to. -/
inductive EltRead
  | wait (s : State)
  | bad (i : FaultInfo)
  | got (bs : List Byte) (loc : Loc) (s : State)

/-- How an element read treats its bytes: clean copies of the view taken or not, the stores of the context's SB taken first
or not (R116), its priority (R56), whether it allocates in the view (R316), whether an earlier piece of its element has taken
the token (R407), and the TLBs it translates through (R36, R37). -/
structure EltMode where
  clean : Bool := true
  sb    : Bool := false
  evp   : Nat := 0
  fill  : Bool := true
  paid  : Bool := false
  via   : Via := .clu none

/-- Whether an element's token has gone since a state, and its return where the element waits. -/
def State.paidSince (t s : State) (n : Nat) : Bool :=
  (t.job (s.ctx n).run.job).tokens != (s.job (s.ctx n).run.job).tokens
def State.refund (t s : State) (n : Nat) : State :=
  t.modJob (s.ctx n).run.job fun j => { j with tokens := (s.job (s.ctx n).run.job).tokens }

/-- A read of one element for a context (R78, R102, R116). A read that leaves the core takes a token (R407). -/
def State.eltRead (s : State) (n va size : Nat) (m : EltMode) : EltRead :=
  match s.check n .load va size m.via with
  | .error i => .bad i
  | .ok loc =>
    let dry := !m.paid && !s.mayInject n
    let sb (i : Nat) : Option Byte := if m.sb then (s.ctx n).sbByte (va + i) else none
    let pay (t : State) : State := if m.paid then t else t.spend n
    let s := (s.tlbFill (s.ctx n).run.job (coreOf n) va m.via).markAt n loc false false
    match loc.bank? with
    | some (cr, b) =>
      match s.bankAt cr b with
      | .clearing => .wait s
      | .gone => .got (List.replicate size 0) loc (s.modCtx n fun c => c.setCstat cstatLwnd)
      | .held =>
        if cr != coreOf n && dry then .wait s
        else .got ((s.bytes loc.key size).zipIdx.map fun p => (sb p.2).getD p.1) loc (if cr != coreOf n then pay s else s)
    | none =>
      let (ok, s) := s.rbClear (cluOf n) loc
      if !ok then .wait s
      else if s.viewed n loc va then
        let clu := cluOf n
        let line := s.cv clu (lineOf loc.key)
        let near := (List.range size).map fun i =>
          (sb i).orElse fun _ =>
            line.bind fun l => l.byte? (!m.clean) ((loc.key + i) % 128)
        if near.all (·.isSome) then
          .got (near.map (·.getD 0)) loc (s.cvTouch clu (lineOf loc.key) va m.evp)
        else
          let (ok, s) := s.homeAsk loc
          if !ok || dry then .wait s
          else
            let (ls, s) := (pay s).homeRead loc.whole 128 m.evp
            let out := near.zipIdx.map fun p => p.1.getD (ls.getD (loc.key % 128 + p.2) 0)
            .got out loc (if m.evp = 0 ∨ !m.fill then s else s.cvFill clu (lineOf loc.key) va ls m.evp)
      else if dry then .wait s
      else
        let (bs, s) := (pay (s.dropLink n loc)).homeRead loc size 0
        .got bs loc s

/-- A plane block of p words of 4 bytes, read in one step (R66, R124, R332): one request (R407; assumption log 19), and one read
of each line it lies in for the count of window misses (R27). -/
def State.blkRead (s : State) (n va : Nat) (m : EltMode) : Nat → EltRead
  | 0 => .got [] (.hbm 0) s
  | p + 1 =>
    match s.blkRead n va m p with
    | .got bs _ u =>
      match u.eltRead n ((va + 4 * p) % 2 ^ 64) 4 { m with paid := m.paid || u.paidSince s n } with
      | .got b loc t =>
        .got (bs ++ b) loc (if p ≠ 0 ∧ (va + 4 * p) % 128 ≠ 0 then { t with pkg := { t.pkg with misses := u.pkg.misses } } else t)
      | .wait t => .wait (t.refund s n)
      | r => r
    | r => r

/-- A remote write of an element: a packet counted on its stream or job (R102, R117); a line of the link windows stays in no
view (R58). -/
def State.eltSend (s : State) (n va : Nat) (loc : Loc) (bs : List Byte) (evp : Nat) (who : Who) (tag : Nat := 0) : State :=
  let s := (s.markAt n loc true false).dropLink n loc
  if va < 0x00C0000000000000 then
    let (s, e) := s.epochAdd (coreOf n)
    s.sendTo n loc { cls := .req, who := who, pl := .write loc bs, evp := evp, tag := tag, epo := some e, va := va }
  else s.sendTo n loc { cls := .req, who := who, pl := .write loc bs, evp := evp, tag := tag, va := va }

end Sys2Proof.Machine
end

