-- ==== Sys2Proof/Machine/Streams.lean ====
section
/-!
DEFINITION. Stream contexts (R107 to R130, R315 to R317, R419): their steps as operations on a context's slot.
-/
namespace Sys2Proof.Machine

/-- Whether the streams of a context take steps: its run is there and its job is not being saved (R130, R392). -/
def State.streamsGo (s : State) (n : Nat) : Bool :=
  let c := s.ctx n
  let p := (s.job c.run.job).pre
  c.run.kind != .free && (p == .none || p == .stopped)

def State.modS (s : State) (n k : Nat) (f : Stream → Stream) : State := s.modCtx n fun c => c.setS k (f (c.getS k))

/-- The fault of an element: slot, element index and VA (Table 21-5). -/
def streamInfo (k e va : Nat) (i : FaultInfo) : FaultInfo :=
  { i with org := 1, elem := true, idx := e, addr := va,
           det := if i.code = clsOutlived then k * 4096 + i.det % 4096 else k }

/-- A stream stops at a faulting element (R123). -/
def Stream.stopAt (t : Stream) (k e va : Nat) (i : FaultInfo) : Stream := { t with st := 3, fault := some (streamInfo k e va i) }

/-- The own-bank address of a ring slot byte. -/
def ringVA (off : Nat) : Nat := 0x00C8000000000000 + off

/-! ## SINK (R111, R117, R315) -/

/-- SINK: the accumulator is the result, an event is posted, bound barriers take an arrival, and a stream away
from the core has left its bank. -/
def State.sink (s : State) (n k : Nat) : State :=
  let t := (s.ctx n).getS k
  let s := s.modCtx n fun c =>
    (c.setS k { t with st := 2, sink := some t.acc, place := 0, hop := none, tr := none }).postEvent k 3 0 (dN t.desc) t.acc.toNat
  s.arriveBound (coreOf n) fun _ b => b.ctx == n % 4 && b.binds.contains (.sink k)

/-! ## FETCH -/

/-- What a floated stream carries on from an access: the translation of the page it walks (R37). -/
def State.carry (s : State) (n k va : Nat) : State :=
  s.modS n k fun t =>
    if t.place = 0 ∨ va / 2 ^ 48 ≥ 0xC0 then t
    else { t with tr := s.entryFor (s.ctx n).run.job (coreOf n) va (.clu t.tr) }

/-- An element read by FETCH: its bytes with every notice that covers it and, at the core, the bytes of SB
that a LOAD or INDIRECT stream takes first (R116, R117, R127). -/
def State.fetchElt (s : State) (n k va size : Nat) : EltRead :=
  let t := (s.ctx n).getS k
  let home := t.place == 0
  let m : EltMode := { clean := s.freeBit, sb := home && dDelivers t.desc, evp := dEvp t.desc, fill := home, via := .clu t.tr }
  match (if dPlane t.desc ∧ size ≠ 1 then s.bump.blkRead n va m (size / 4) else s.bump.eltRead n va size m) with
  | .got bs loc u =>
    let raw : FbElt := { idx := 0, va := va, raw := bs }
    let e := t.notes.foldl (fun (e : FbElt) x => if covers x.va x.bytes.length va size then patchRaw e x.va x.bytes else e) raw
    let sb (i : Nat) : Option Byte := if home && dDelivers t.desc then (s.ctx n).sbByte (va + i) else none
    .got (e.raw.zipIdx.map fun p => (sb p.2).getD p.1) loc (u.carry n k va)
  | r => r

/-- FETCH of a LOAD or REDUCE stream: the element at the position joins FB. -/
def State.fetchPlain (s : State) (n k : Nat) : State :=
  let t := (s.ctx n).getS k
  let e := t.pos
  let va := dAddr t.desc e
  match s.fetchElt n k va (dSize t.desc) with
  | .wait u => u
  | .bad i => s.modS n k fun t => t.stopAt k e va i
  | .got bs _ u =>
    u.modS n k fun t =>
      let t : Stream := { t with pos := e + 1, fb := t.fb ++ [{ idx := e, va := va, raw := bs }] }
      { t with notes := t.notes.filter fun x => x.remote || t.mayHit x.va x.bytes.length }

/-- The address of an INDIRECT element: dimension 0's index is the value of the index element (assumption log
21). -/
def indirectVA (d idx : BitVec 512) (raw : List Byte) : Nat :=
  mod64 ((dBase d : Nat) + dStride d 0 * (dEsz idx).toInt (leNat raw))

/-- FETCH of an INDIRECT stream: the next index element is consumed (R127). -/
def State.fetchIndirect (s : State) (n k : Nat) : State :=
  let t := (s.ctx n).getS k
  let ik := dIsrc t.desc
  let it := (s.ctx n).getS ik
  match it.fb with
  | x :: rest =>
    if x.idx ≠ t.pos then s
    else
      let va := indirectVA t.desc it.desc x.raw
      let bad (i : FaultInfo) : State := s.modS n k fun t => t.stopAt k t.pos va i
      match s.fetchElt n k va (dSize t.desc) with
      | .wait u => u
      | .bad i => bad i
      | .got bs _ u =>
        let u := u.modS n k fun t => { t with pos := t.pos + 1, fb := t.fb ++ [{ idx := t.pos, va := va, raw := bs }] }
        u.modS n ik fun i =>
          { i with fb := rest, done := x.idx + 1, st := if x.idx + 1 = dN i.desc ∧ i.st = 1 then 2 else i.st }
  | [] =>
    match it.fault with
    | some i => if i.idx ≤ t.pos then s.modS n k fun t => { t with st := 3, fault := some i } else s
    | none => s

/-- Bytes of a ring slot, from an own-bank offset on, each piece of them at its own place (R15, R124); a piece that
fails its checks leaves the slot as it was. -/
def State.slotPut (s : State) (n off size : Nat) (bs : List Byte) : Except FaultInfo State := do
  let places ← (List.range (bs.length / size)).mapM fun i =>
    (s.check n .store (ringVA (off + size * i)) size).map fun loc => (loc, (bs.drop (size * i)).take size)
  pure (places.foldl (fun (t : State) (p : Loc × List Byte) => t.bankPut p.1.key p.2) s)

/-- One element, or one scale byte, of a ring loader's tile into its slot (R124). -/
def State.ringFill (s : State) (n k : Nat) (r : RingTile) : State :=
  let t := (s.ctx n).getS k
  let d := t.desc
  let two := dPlane d
  let i := if two then r.at_ / 2 else r.at_
  let scale := two && r.at_ % 2 == 1
  let e := r.tile * dTile d + i
  let va := if scale then dScaleAddr d e else dAddr d e
  let size := if scale then 1 else dSize d
  let off := if scale then dSlotScale d r.slot e else dSlotAddr d r.slot e
  let bad (i : FaultInfo) : State := s.modS n k fun t => t.stopAt k e va i
  match s.fetchElt n k va size with
  | .wait u => u
  | .bad i => bad i
  | .got bs loc u =>
    match u.slotPut n off (if scale then 1 else if two then 4 else size) bs with
    | .error i => bad i
    | .ok u =>
      let uns := match loc with
        | .planed a => ((u.pkg.window (lineOf a)).map winUns).getD false
        | _ => false
      u.modS n k fun t =>
        let last := !two || scale
        { t with ring := some { r with at_ := r.at_ + 1, uns := r.uns || uns },
                 pos := if last then e + 1 else e, done := if last then e + 1 else e }

/-- FETCH of a RING-LOAD stream: it takes a free slot for the next tile, then fills it (R124). -/
def State.fetchRing (s : State) (n k : Nat) : State :=
  let t := (s.ctx n).getS k
  let d := t.desc
  match t.ring with
  | some r => if r.at_ < (if dPlane d then 2 * dTile d else dTile d) then s.ringFill n k r else s
  | none =>
    let q := (s.ctx n).getQ (dQf d)
    match q.ents with
    | [] => s
    | x :: _ =>
      let i := x.data.toNat % 256
      let s := s.modCtx n fun c => c.setQ (dQf d) q.pop
      if dNsm1 d < i then s.modS n k fun t => { t with bad := true }
      else s.modS n k fun t => { t with ring := some { slot := i, tile := t.pos / dTile d, at_ := 0 } }

/-- The code of a context's core (R120). -/
def coreBank (n : Nat) : Nat := dieOfCore (coreOf n) * 4096 + coreOf n % 384

/-- The bank that holds the next element, by its code; none where the stream may not leave for it (R118). -/
def State.nextBank (s : State) (n k : Nat) : Option Nat :=
  let t := (s.ctx n).getS k
  let d := t.desc
  let e := t.pos
  if dN d ≤ e then none
  else
    match s.check n (if dKind d = kStore ∨ dKind d = kRingStore then .store else .load) (dAddr d e) (if dPlane d then 4 else dSize d)
        (.clu t.tr) with
    | .error _ => none
    | .ok loc =>
      let heap (a : Nat) : Option Nat :=
        let die := a / 2 ^ 17 % 4
        let clu := cluOf n
        if (s.cv clu (lineOf loc.key)).isSome then
          some (0x4000 + clu / 48 * 4096 + clu % 48 * 8 + ((a / 2 ^ 7 % 8) ^^^ (a / 2 ^ 13 % 8)))
        else if dEvp d = 0 ∨ dRing d then some (0xC000 + die * 4096 + a / 2 ^ 16 % 8 * 32 + a / 128 % 32)
        else some (0x8000 + die * 4096 + a / 4096 % 16)
      match loc with
      | .hbm a | .planed a => heap a
      | .scratch _ die off => some (0x8000 + die * 4096 + off / 4096 % 16)
      | _ => none

/-- Streams a bank hosts, and the room it has (R118). -/
def State.hosted (s : State) (bank : Nat) : Nat :=
  (s.ctxs.map fun p => (p.2.streams.filter fun e => e.2.place == bank).length).foldl (· + ·) 0
def bankRoom (bank : Nat) : Nat := if bank / 0x4000 = 2 then 64 else 16

/-- Whether policy and pins let a stream leave (R118). -/
def Stream.mayLeave (t : Stream) : Bool :=
  t.st == 1 && t.fault.isNone && t.hop.isNone && t.flt != 1 && !t.pin && dKind t.desc != kIndirect && t.feeds.isNone
    && !t.closing

/-- Alias notices that go with a stream which leaves the core: of the stores of its context that stand in SB, where only an
element read at the core finds them (R116, R127; assumption log 114). -/
def Ctx.sbNotes (c : Ctx) (t : Stream) : List Notice :=
  if dDelivers t.desc then
    (c.sb.filter fun e => e.red.isNone && !(t.notes.any (·.id == e.tag)) && t.mayHit e.va e.bytes.length).map fun e =>
      { id := e.tag, va := e.va, bytes := e.bytes, remote := false }
  else []
/-- Whether its list of 16 has room for them. -/
def Ctx.notesFit (c : Ctx) (t : Stream) : Bool := t.place != 0 || decide (t.notes.length + (c.sbNotes t).length ≤ 16)

/-- The bank FLOAT or HOP would take a stream to, once its FB is empty (R118). -/
def State.moveTo (s : State) (n k : Nat) : Option Nat :=
  let t := (s.ctx n).getS k
  if t.mayLeave && !(t.stop == some t.pos) && (s.ctx n).notesFit t then
    match s.nextBank n k with
    | some b => if b ≠ t.place ∧ s.hosted b < bankRoom b then some b else none
    | none => none
  else none

/-- Under NEAR-DATA the part takes FLOAT or HOP whenever it is enabled (R118): no fetch or write comes first, and
a REDUCE stream, whose FB empties by itself, combines what it holds before it goes on elsewhere (15, pass 1). -/
def State.mustMove (s : State) (n k : Nat) : Bool :=
  let t := (s.ctx n).getS k
  t.flt == 2 && (t.fb.isEmpty || dKind t.desc == kReduce) && (s.moveTo n k).isSome

/-- Elements there are to read: those before the faulting one, which RECALL may have had the stream read again (R121, R123). -/
def Stream.bound (t : Stream) : Nat :=
  match t.fault with
  | some i => min i.idx (dN t.desc)
  | none => dN t.desc

/-- FETCH (R117): the element at the position, when one is left and nothing holds the stream. -/
def State.streamFetch (s : State) (n k : Nat) : State :=
  let t := (s.ctx n).getS k
  let d := t.desc
  if s.streamsGo n && (t.st == 1 || t.st == 3) && t.hop.isNone && !t.closing && decide (t.pos < t.bound)
      && !(t.place != 0 && t.stop == some t.pos) && !s.mustMove n k then
    match dKind d with
    | 0 => if t.fb.length * dPpe d < 16 * dEpe d then s.fetchPlain n k else s
    | 2 => s.fetchPlain n k
    | 3 => s.fetchRing n k
    | 5 => if t.fb.length * dPpe d < 16 * dEpe d then s.fetchIndirect n k else s
    | _ => s
  else s

/-! ## DELIVER and COMBINE -/

/-- DELIVER: a full entry, or the last elements, of FB go into the queue (R112). DESIGN CHOICE: the two entries of an
L128 element are delivered together, when there is room for both (assumption log 100); an index stream delivers none of
the elements it is fed for into its own queue (assumption log 102). -/
def State.streamDeliver (s : State) (n k : Nat) : State :=
  let t := (s.ctx n).getS k
  let d := t.desc
  let q := (s.ctx n).getQ (dQr d)
  let es := t.fb.take (dEpe d)
  let full := decide (dEpe d ≤ t.fb.length)
  let last := t.done + t.fb.length = dN d
  if s.streamsGo n && dDelivers d && t.feeds.isNone && q.bind == .load k && !es.isEmpty && (full || decide last)
      && (t.st == 1 || t.st == 3) && decide (q.ents.length + dPpe d ≤ 8) then
    let ents := (dPack d es).map fun v => ({ data := v, elts := es, slot := k } : QEnt)
    let done := t.done + es.length
    (s.modCtx n fun c => c.setQ (dQr d) { q with ents := q.ents ++ ents }).modS n k fun t =>
      { t with fb := t.fb.drop es.length, done := done, st := if done = dN d ∧ t.st = 1 then 2 else t.st }
  else s

/-- COMBINE, and SINK after the last element (R111, R117). -/
def State.streamCombine (s : State) (n k : Nat) : State :=
  let t := (s.ctx n).getS k
  if s.streamsGo n && dKind t.desc == kReduce && t.st != 0 then
    match t.fb with
    | e :: rest =>
      let s := s.modS n k fun t =>
        { t with fb := rest, done := t.done + 1, acc := BitVec.ofNat 64 (redAcc t.desc t.acc.toNat (leNat e.raw)) }
      if t.done + 1 = dN t.desc then s.sink n k else s
    | [] => s
  else s

/-! ## WRITE (R117) -/

/-- Element e written to the pattern: into the view's line when present, and to its place. -/
def State.writeElt (s : State) (n k e : Nat) (bs : List Byte) (ok : Stream → Stream) : State :=
  let t := (s.ctx n).getS k
  let va := dAddr t.desc e
  match s.check n .store va (dEsz t.desc).size (.clu t.tr) with
  | .error i => s.modS n k fun t => t.stopAt k e va i
  | .ok loc =>
    let (go, s1) := s.rbClear (cluOf n) loc
    if !go then s1
    else if loc.route (coreOf n) != .lp && !s.mayInject n then s
    else
      let evp := dEvp t.desc
      let s := if loc.isHbm then
          match s.cv (cluOf n) (lineOf loc.key) with
          | some l => s.setCv (cluOf n) (lineOf loc.key) (((s.evpLine (cluOf n) evp l).named va).writeThrough (loc.key % 128) bs)
          | none => s
        else s
      let s := (s.tlbFill (s.ctx n).run.job (coreOf n) va (.clu t.tr)).carry n k va
      (s.eltSend n va loc bs evp (.stream n k) e).modS n k fun t => { ok t with out := t.out + 1 }

/-- The elements of the next entry of a STORE stream's queue, and the queue behind it (R113). -/
def Stream.takeEntry (t : Stream) (q : Queue) : Option (List FbElt × Queue) :=
  let d := t.desc
  let sz := (dT d).size
  let left := dN d - t.pos
  if dPpe d = 2 then
    match q.ents with
    | a :: b :: _ =>
      some ([{ idx := t.pos, va := 0, raw := bvBytes 64 a.data ++ bvBytes 64 b.data }], q.pop.pop)
    | _ => none
  else
    match q.ents with
    | a :: _ =>
      let bs := bvBytes 64 a.data
      some ((List.range (min (dEpe d) left)).map fun j => { idx := t.pos + j, va := 0, raw := (bs.drop (j * sz)).take sz }, q.pop)
    | [] => none

/-- WRITE of a STORE stream. -/
def State.writeStore (s : State) (n k : Nat) : State :=
  let t := (s.ctx n).getS k
  match t.ent with
  | x :: rest => s.writeElt n k x.idx (dUnapply t.desc x.raw) fun t => { t with ent := rest, pos := x.idx + 1, done := x.idx + 1 }
  | [] =>
    if t.closing ∨ dN t.desc ≤ t.pos then s
    else
      match t.takeEntry ((s.ctx n).getQ (dQr t.desc)) with
      | none => s
      | some (es, q) =>
        let s := (s.modCtx n fun c => c.setQ (dQr t.desc) q).modS n k fun t => { t with ent := es }
        match es with
        | x :: rest => s.writeElt n k x.idx (dUnapply t.desc x.raw) fun t => { t with ent := rest, pos := x.idx + 1, done := x.idx + 1 }
        | [] => s

/-- WRITE of a RING-STORE stream. DESIGN CHOICE (assumption log 101): a slot index above NSM1 is used as it is, its
slot lying at RBASE + index × SLOTU × 128. The next tile's slot is taken, then its elements are read and written (R125). -/
def State.writeRing (s : State) (n k : Nat) : State :=
  let t := (s.ctx n).getS k
  let d := t.desc
  match t.ring with
  | some r =>
    if r.at_ < dTile d then
      let e := r.tile * dTile d + r.at_
      let va := ringVA (dSlotAddr d r.slot e)
      match s.eltRead n va (dEsz d).size { clean := true } with
      | .wait u => u
      | .bad i => s.modS n k fun t => t.stopAt k e va i
      | .got bs _ s =>
        s.writeElt n k e bs fun t => { t with ring := some { r with at_ := r.at_ + 1 }, pos := e + 1, done := e + 1 }
    else s
  | none =>
    let q := (s.ctx n).getQ (dQr d)
    match q.ents with
    | x :: _ =>
      if t.closing ∨ dN d ≤ t.pos then s
      else
        (s.modCtx n fun c => c.setQ (dQr d) q.pop).modS n k fun t =>
          { t with ring := some { slot := x.data.toNat % 256, tile := t.pos / dTile d, at_ := 0 } }
    | [] => s

/-- WRITE (R117): at an element SRCL.at named, RECALL comes first (R317). -/
def State.streamWrite (s : State) (n k : Nat) : State :=
  let t := (s.ctx n).getS k
  if s.streamsGo n && t.st == 1 && t.fault.isNone && t.hop.isNone && !(t.place != 0 && t.stop == some t.pos) && !s.mustMove n k then
    match dKind t.desc with
    | 1 => s.writeStore n k
    | 4 => s.writeRing n k
    | _ => s
  else s

/-! ## Ring tiles (R124, R125) -/

/-- The ready entry of a filled tile (R124, 3). -/
def State.tileReady (s : State) (n k : Nat) : State :=
  let t := (s.ctx n).getS k
  let d := t.desc
  let q := (s.ctx n).getQ (dQr d)
  match t.ring with
  | some r =>
    if s.streamsGo n && dKind d == kRingLoad && t.fault.isNone
        && r.at_ == (if dPlane d then 2 * dTile d else dTile d) && decide (q.ents.length < 8) then
      let v := BitVec.ofNat 512 (r.slot % 256 + r.uns.toNat * 256 + r.tile % 2 ^ 48 * 2 ^ 16)
      (s.modCtx n fun c => c.setQ (dQr d) { q with ents := q.ents ++ [{ data := v, slot := k }] }).modS n k fun t =>
        { t with ring := none, st := if r.tile + 1 = dTiles d then 2 else t.st }
    else s
  | none => s

/-- The index of a written tile goes to QF (R125, 3). -/
def State.slotReturn (s : State) (n k : Nat) : State :=
  let t := (s.ctx n).getS k
  let d := t.desc
  let q := (s.ctx n).getQ (dQf d)
  match t.ring with
  | some r =>
    if s.streamsGo n && dKind d == kRingStore && t.fault.isNone && r.at_ == dTile d && t.out == 0
        && decide (q.ents.length < 8) then
      (s.modCtx n fun c =>
        c.setQ (dQf d) { q with ents := q.ents ++ [{ data := BitVec.ofNat 512 (r.slot % 256), slot := k }] }).modS n k fun t =>
          { t with ring := none, st := if r.tile + 1 = dTiles d then 2 else t.st }
    else s
  | none => s

/-! ## Places (R118 to R121, R419) -/

/-- A floated context as it travels (Table 06-4). DESIGN CHOICE (assumption log 109): SEQ counts the entries a LOAD stream has
delivered and the elements of a ring stream, modulo 2^32. -/
def Stream.image (t : Stream) (n k : Nat) : BitVec 384 :=
  let d := t.desc
  let seq := match dKind d with
    | 0 => t.done / dEpe d * dPpe d
    | 3 | 4 => t.done
    | _ => 0
  let ctx := dieOfCore (coreOf n) * 2 ^ 11 + cluOf n % 48 * 32 + n % 32
  let idx (i : Nat) : Nat := dIdx d t.pos i % 2 ^ 32
  BitVec.ofNat 384 (t.pos % 2 ^ 48 + (idx 0 + idx 1 * 2 ^ 32) * 2 ^ 64 + (idx 2 + idx 3 * 2 ^ 32) * 2 ^ 128
    + (dN d - t.pos) % 2 ^ 48 * 2 ^ 192 + (ctx + k % 16 * 2 ^ 13 + seq % 2 ^ 32 * 2 ^ 32) * 2 ^ 256 + t.acc.toNat * 2 ^ 320)

/-- FLOAT and HOP: the context leaves for the bank of its next element as a packet, and an event tells so (R118,
R120). -/
def State.moveStream (s : State) (n k : Nat) (away : Bool) : State :=
  let t := (s.ctx n).getS k
  if s.streamsGo n && t.fb.isEmpty && (t.place != 0) == away && s.mayInject n then
    match s.moveTo n k with
    | some b =>
      let src := if away then t.place else coreBank n
      let go (c : Ctx) : Ctx :=
        ((c.setS k { t with place := b, hop := some s.sent, notes := if away then t.notes else t.notes ++ c.sbNotes t }).count 6).postEvent k (if away then 2 else 1) 0 t.pos (b * 2 ^ 16 + src)
      (s.modCtx n go).inject n
        { cls := .req, who := .stream n k, pl := .hop n k s.sent src b (t.image n k), va := dAddr t.desc t.pos }
    | none => s
  else s

/-- RECALL by the part's choice under AUTO (cause 6), or at the element SRCL.at named (cause 1) (R121, R317). -/
def State.bringByChoice (s : State) (n k cause : Nat) : State :=
  let t := (s.ctx n).getS k
  let ok := t.place != 0 &&
    let named := t.stop == some t.pos && t.fb.isEmpty
    ((cause == 6 && t.flt == 0 && !named) || (cause == 1 && named))
  if s.streamsGo n && ok then s.modCtx n fun c => c.bringBack k cause else s

/-- A stream without a step left at its bank leaves it (R419). -/
def State.leaveBank (s : State) (n k : Nat) : State :=
  let t := (s.ctx n).getS k
  let d := t.desc
  let spent := match dKind d with
    | 0 | 5 => t.pos == dN d && t.fb.isEmpty
    | 3 => t.pos == dN d
    | 1 | 4 => t.done == dN d
    | _ => false
  if t.place != 0 && spent then
    s.modS n k fun t => { t with place := 0, tr := none, notes := t.notes.filter (·.remote) }
  else s

/-! ## Closing (R122, R307) -/

/-- A queue that keeps the binding of a closed stream while unread entries are left. -/
def Queue.keep (q : Queue) : Queue := if q.ents.isEmpty then { q with bind := .free, closed := false } else { q with closed := true }
def Queue.clear (q : Queue) : Queue := { q with ents := [], bind := .free, closed := false }

/-- A slot closes (R122). -/
def Ctx.closeSlot (c : Ctx) (k : Nat) : Ctx :=
  let t := c.getS k
  let d := t.desc
  let modQ (c : Ctx) (i : Nat) (f : Queue → Queue) : Ctx := c.setQ i (f (c.getQ i))
  let c := match dKind d with
    | 0 | 5 => modQ c (dQr d) Queue.keep
    | 3 => modQ (modQ c (dQr d) Queue.keep) (dQf d) Queue.clear
    | 4 => modQ (modQ c (dQr d) Queue.clear) (dQf d) Queue.keep
    | _ => modQ c (dQr d) Queue.clear
  let c := if dKind d = kIndirect then c.setS (dIsrc d) { c.getS (dIsrc d) with feeds := none } else c
  { c with streams := c.streams.erase k }

/-! ## Opening (R114, R306) -/

/-- Whether SOPEN may bind a queue: free and empty, or kept only for a closed stream's entries. -/
def Queue.openable (q : Queue) : Bool := q.closed || (q.bind == .free && q.ents.isEmpty)

/-- Whether an INDIRECT descriptor names a usable index stream; one that has ended or faulted may serve (assumption log 39). -/
def Ctx.isrcOk (c : Ctx) (d : BitVec 512) : Bool :=
  dKind d != kIndirect ||
    (let t := c.getS (dIsrc d)
     t.st != 0 && dKind t.desc == kLoad && [2, 3, 6, 7].contains (dElt t.desc) && dOp t.desc == 0 && t.feeds.isNone)

/-- The checks of SOPEN on the context. -/
def Ctx.openOk (c : Ctx) (k : Nat) (d : BitVec 512) : Bool :=
  (c.getS k).st == 0 && dscOk d && (c.getQ (dQr d)).openable && (!dRing d || (c.getQ (dQf d)).openable) && c.isrcOk d

/-- The slot opens and binds its queues. An index stream is read from its first element for the stream it
feeds. -/
def State.openSlot (s : State) (n k : Nat) (d : BitVec 512) : State :=
  let bind (c : Ctx) (i : Nat) (b : QBind) : Ctx := c.setQ i { c.getQ i with ents := [], bind := b, closed := false }
  let s := s.modCtx n fun c =>
    let c := match dKind d with
      | 0 | 5 => bind c (dQr d) (.load k)
      | 1 => bind c (dQr d) (.store k)
      | 2 => bind c (dQr d) (.reduce k)
      | 3 => bind (bind c (dQr d) (.ringReady k true)) (dQf d) (.ringFree k true)
      | _ => bind (bind c (dQr d) (.ringReady k false)) (dQf d) (.ringFree k false)
    let c := if dKind d = kIndirect then
        c.setS (dIsrc d) { c.getS (dIsrc d) with feeds := some k, st := 1, pos := 0, done := 0, fb := [] }
      else c
    c.setS k { st := if dN d = 0 then 2 else 1, desc := d, flt := dFlt d, acc := BitVec.ofNat 64 (redInit d),
               no := s.sent, filt := dBounds d }
  if dKind d = kReduce ∧ dN d = 0 then s.sink n k else s

/-- Table 06-6. -/
def Stream.word (t : Stream) : Nat :=
  if t.st = 0 then 0
  else t.done % 2 ^ 48 * 2 ^ 16 + t.extra.toNat * 2 ^ 12 + t.bad.toNat * 2 ^ 11 + t.pin.toNat * 2 ^ 10
    + (t.place != 0).toNat * 2 ^ 9 + t.st % 4

end Sys2Proof.Machine
end

