-- ==== Sys2Proof/Machine/Engine.lean ====
section
/-!
DEFINITION. The engines of a cluster (R100 to R103, R339 to R362): footprints and edges, the queues, and the steps
a started matrix command or copy job takes.
-/
namespace Sys2Proof.Machine

/-! ## Captured operands -/

/-- Fields of a matrix operand record (Table 18-5). -/
def opPb (r : BitVec 256) : Nat := fld r.toNat 63 0
def opSb (r : BitVec 256) : Nat := fld r.toNat 127 64
def opK (r : BitVec 256) : Nat := fld r.toNat 140 128
def opRows (r : BitVec 256) : Nat := fld r.toNat 172 160
def opP (r : BitVec 256) : Nat := fld r.toNat 194 192 + 1
def opUns (r : BitVec 256) : Bool := r.getLsbD 195

/-- Fields of a matrix configuration (Table 18-4). -/
def cfgDa (c : Word) : Nat := fld c.toNat 3 0
def cfgDb (c : Word) : Nat := fld c.toNat 11 8
def cfgUnitA (c : Word) : Bool := c.getLsbD 16
def cfgUnitB (c : Word) : Bool := c.getLsbD 17
def cfgPromn (c : Word) : Nat := fld c.toNat 23 18 + 1

/-- An operand as a command uses it: its record, the declared precision and UNIT scales. -/
structure MxOpnd where
  rcd  : BitVec 256
  d    : Nat
  unit : Bool
  deriving DecidableEq, Repr

def mxA (cfg : Word) (r : BitVec 256) : MxOpnd := ⟨r, if cfgDa cfg = 0 then opP r else cfgDa cfg, cfgUnitA cfg⟩
def mxB (cfg : Word) (r : BitVec 256) : MxOpnd := ⟨r, if cfgDb cfg = 0 then opP r else cfgDb cfg, cfgUnitB cfg⟩
/-- Addresses of the block and the scale of row r and k-block kb (R346). -/
def MxOpnd.block (o : MxOpnd) (kb r : Nat) : Nat := (opPb o.rcd + (kb * opRows o.rcd + r) * (4 * opP o.rcd)) % 2 ^ 64
def MxOpnd.scale (o : MxOpnd) (kb r : Nat) : Nat := (opSb o.rcd + kb * opRows o.rcd + r) % 2 ^ 64
/-- Bytes of one k-block of one row with its scale. -/
def MxOpnd.size (o : MxOpnd) : Nat := 4 * o.d + 1

/-- Entry s of a list block: gather entries 0 to 63, scatter entries 64 to 127 (R349). -/
def listAt (l : BitVec 2048) (k : Nat) : Nat := fld l.toNat (16 * k + 15) (16 * k)
/-- Sources that are not skipped, ascending: row of A, tile, row of the tile. -/
def gmmPairs (l : BitVec 2048) : List (Nat × Nat × Nat) :=
  (List.range 64).filterMap fun k =>
    let g := listAt l k
    let c := listAt l (64 + k)
    if g = 0xFFFF ∨ c = 0xFFFF then none else some (g, c / 256 % 32, c % 64)
/-- Tiles a scatter list names. -/
def gmmTiles (l : BitVec 2048) : List Nat :=
  ((List.range 64).filterMap fun k => let c := listAt l (64 + k); if c = 0xFFFF then none else some (c / 256 % 32)).eraseDups

/-- Fields of a copy-out word (Table 18-7). -/
def outStride (w : Word) (row : Nat) : Nat := let s := fld w.toNat 47 32; if s = 0 then row else s
def outSvo (w : Word) : Nat := fld w.toNat 19 0
/-- Bytes of a row of MXCPY. -/
def outRow (f : Esz) : Nat := 64 * f.size

/-- An entry of a row-to-core map (Table 18-8): its core and barrier. -/
def MxBank.entry (b : MxBank) (i : Nat) : Nat := (b.map.get 0xFFFF i).toNat
def mapCore (e : Nat) : Nat := (e / 512 % 4 * 48 + e / 8 % 64) * 8 + e % 8
def mapBar (e : Nat) : Nat := e / 2048
/-- The local-window address of an offset at a core. -/
def windowOf (core off : Nat) : Nat :=
  0x00C0000000000000 + core / 384 * 2 ^ 46 + core / 8 % 48 * 2 ^ 40 + core % 8 * 2 ^ 37 + off
def ownVA (off : Nat) : Nat := 0x00C8000000000000 + off

/-- Destination of row i of MXCPY: address, and the core and barrier of its arrival; none for a skipped row (R351). -/
def mxcpyDst (b : MxBank) (dst : Nat) (w : Word) (f : Esz) (toMap : Bool) (i : Nat) : Option (Nat × Option (Nat × Nat)) :=
  let off := i * outStride w (outRow f)
  if toMap then
    let e := b.entry i
    if e = 0xFFFF then none else some ((windowOf (mapCore e) (dst + off)) % 2 ^ 64, some (mapCore e, mapBar e))
  else some ((dst + off) % 2 ^ 64, none)

/-! ## Footprints and edges (R100, R101, Table 18-6) -/

/-- A run of bytes by virtual address. -/
abbrev Span := Nat × Nat

def MxOpnd.spans (o : MxOpnd) (rows : List Nat) : List Span :=
  (List.range (opK o.rcd / 32)).flatMap fun kb =>
    rows.flatMap fun r => (o.block kb r, 4 * o.d) :: (if o.unit then [] else [(o.scale kb r, 1)])

def EJob.reads (j : EJob) : List Span :=
  let cfg := j.bank.cfg
  match j.kind with
  | .copy d _ => if cardFill d then [] else (List.range (cardC1 d)).map fun r => (cardS d r 0, cardC0 d)
  | .mxmm _ a b => (mxA cfg a).spans (List.range 64) ++ (mxB cfg b).spans (List.range 64)
  | .mxgmm l a b => (mxA cfg a).spans ((gmmPairs l).map (·.1)) ++ (mxB cfg b).spans (List.range 64)
  | .mxlda _ src st => (List.range 64).map fun i => ((src + i * st) % 2 ^ 64, 256)
  | .mxcpy _ _ w _ csv _ => if csv then [(ownVA (outSvo w), 256)] else []
  | .mxzero _ | .mxfree _ | .mxprom _ => []

def EJob.writes (j : EJob) : List Span :=
  match j.kind with
  | .copy d _ => (List.range (cardC1 d)).map fun r => (cardD d r 0, cardC0 d)
  | .mxcpy _ dst w f _ m => (List.range 64).filterMap fun i => (mxcpyDst j.bank dst w f m i).map fun p => (p.1, outRow f)
  | _ => []

def EJob.tilesRead (j : EJob) : List Nat :=
  match j.kind with
  | .mxmm t _ _ | .mxprom t | .mxcpy t _ _ _ _ _ => [t]
  | .mxgmm l _ _ => gmmTiles l
  | _ => []
def EJob.tilesWritten (j : EJob) : List Nat :=
  match j.kind with
  | .mxmm t _ _ | .mxprom t | .mxzero t | .mxfree t | .mxlda t _ _ => [t]
  | .mxgmm l _ _ => gmmTiles l
  | _ => []
/-- Whether a command names a tile. -/
def EJob.namesTile (j : EJob) (t : Nat) : Bool := j.tilesRead.contains t || j.tilesWritten.contains t

/-- Pieces of a span that lie in one bank. -/
def bankCuts : Nat → Span → List Span
  | 0, _ => []
  | f + 1, (va, n) =>
    if n = 0 then []
    else
      let m := min n (32768 - va % 32768)
      (va, m) :: bankCuts f (va + m, n - m)

/-- The names of Table 05-3 of a span, for a context's job: name space, first and last-plus-one name. -/
def State.names (s : State) (n : Nat) (p : Span) : List (Nat × Nat × Nat) :=
  let va := p.1
  let cuts := bankCuts (p.2 / 32768 + 2) p
  match va / 2 ^ 48 with
  | 0xC8 => cuts.filterMap fun c =>
      ((s.ctx n).run.banks[c.1 % 2 ^ 48 / 32768]?).map fun b =>
        let k := bankKey (coreOf n) b (c.1 % 32768)
        (0, k, k + c.2)
  | 0xC0 => cuts.map fun c =>
      let clu := c.1 / 2 ^ 46 % 4 * 48 + c.1 / 2 ^ 40 % 64
      let k := bankKey (clu * 8 + c.1 / 2 ^ 37 % 8) (c.1 % 2 ^ 37 / 32768) (c.1 % 32768)
      (0, k, k + c.2)
  | 0xC4 => [(1, va % 2 ^ 48, va % 2 ^ 48 + p.2)]
  | _ => [(2, va, va + p.2)]

/-- Some byte has a name in both lists. -/
def namesMeet (a b : List (Nat × Nat × Nat)) : Bool :=
  a.any fun x => b.any fun y => x.1 == y.1 && decide (max x.2.1 y.2.1 < min x.2.2 y.2.2)
def tilesMeet (a b : List Nat) : Bool := a.any b.contains

/-- Whether a later job waits for an earlier one (R101). -/
def State.edge (s : State) (i j : EJob) : Bool :=
  let nm (k : EJob) (l : List Span) : List (Nat × Nat × Nat) := l.flatMap (s.names k.ctx)
  let wi := nm i i.writes
  let wj := nm j j.writes
  namesMeet wi (nm j j.reads) || namesMeet wi wj || namesMeet (nm i i.reads) wj
    || tilesMeet i.tilesWritten (j.tilesRead ++ j.tilesWritten) || tilesMeet i.tilesRead j.tilesWritten

/-- The matrix configuration and map of a context at its level (R345, R352). -/
def Ctx.mxBank (c : Ctx) : MxBank := if c.sys.lvl = .handler then c.sys.mxHnd else c.sys.mxRun
def Ctx.setMxBank (c : Ctx) (b : MxBank) : Ctx :=
  c.modSys fun y => if y.lvl = .handler then { y with mxHnd := b } else { y with mxRun := b }

/-- A captured job joins its cluster's engine queue with its edges (R101): its number, and the state. -/
def State.enterJob (s : State) (n : Nat) (k : EKind) (ord : Nat) : Nat × State :=
  let c := s.ctx n
  let q := s.clu (cluOf n)
  let j : EJob := { id := q.jobSeq, ctx := n, lvl := c.sys.lvl, pc := c.pc, kind := k, bank := c.mxBank, ord := ord }
  let j : EJob := { j with edges := (q.jobs.filter fun i => s.edge i j).map (·.id) }
  (j.id, (s.ungate (engineIsland (cluOf n))).modClu (cluOf n) fun q => { q with jobs := q.jobs ++ [j], jobSeq := q.jobSeq + 1 })

/-- A queued matrix command enters the queue of its core (R339); a full queue has no entry for it. -/
def State.queueCmd (s : State) (n : Nat) (k : EKind) : Option State :=
  if 8 ≤ (s.core (coreOf n)).mxq.length then none
  else
    let ord := (s.ctx n).sys.mxOrd + 1
    let s := s.modCtx n fun c => c.modSys fun y => { y with mxOrd := ord }
    let (id, s) := s.enterJob n k ord
    some (s.modCore (coreOf n) fun c => { c with mxq := c.mxq ++ [id] })

/-- Whether a context may name a tile (R343). -/
def State.ownsTile (s : State) (n t : Nat) : Bool :=
  let x := (s.clu (cluOf n)).tile t
  x.own == some (n, (s.ctx n).sys.lvl) && !x.freeing

/-! ## Steps of jobs -/

/-- The place of an accumulator tile among the lines marked poisoned (R414; assumption log 116). -/
def tileLine (clu t : Nat) : Nat := 2 ^ 62 + clu * 32 + t
def State.tileBad (s : State) (clu t : Nat) : Bool := s.pkg.poison.contains (tileLine clu t)
/-- A tile written whole, or freed, is poisoned no more. -/
def State.healTile (s : State) (clu t : Nat) : State :=
  { s with pkg := { s.pkg with poison := s.pkg.poison.filter (· != tileLine clu t) } }

def Clu.job? (c : Clu) (id : Nat) : Option EJob := c.jobs.find? (·.id == id)
def State.modEJob (s : State) (clu id : Nat) (f : EJob → EJob) : State :=
  s.modClu clu fun c => { c with jobs := c.jobs.map fun j => if j.id == id then f j else j }
def State.modTile (s : State) (clu t : Nat) (f : Tile → Tile) : State := s.modClu clu fun c => c.setTile t (f (c.tile t))

/-- The record of a job's fault (Table 21-5). -/
def EJob.info (j : EJob) (tag idx va : Nat) (i : FaultInfo) : FaultInfo :=
  { i with org := if j.isCopy then 2 else 3, elem := true, idx := idx, addr := va,
           det := if i.code = clsOutlived then i.det else tag }

/-- A job stops at a faulting element; the context's unstarted commands are discarded (R355). -/
def State.jobFault (s : State) (clu : Nat) (j : EJob) (i : FaultInfo) : State :=
  (s.modEJob clu j.id fun x => { x with fault := some i }).dropJobs j.ctx false

/-- What an element write comes to. -/
inductive EltWrite
  | wait (s : State)
  | bad (i : FaultInfo)
  | ok (s : State)

def Loc.coreOf? (l : Loc) : Option Nat := l.bank?.map (·.1)

/-- A remote write of a job leaves, counted on the job with its row (R102). -/
def State.jobSend (s : State) (clu : Nat) (j : EJob) (va row : Nat) (loc : Loc) (bs : List Byte) (evp : Nat) : EltWrite :=
  if !s.mayInject j.ctx then .wait s
  else .ok ((s.eltSend j.ctx va loc bs evp (.job clu j.id) (row + 1)).modEJob clu j.id fun x => { x with outs := x.outs ++ [row + 1] })

/-- One element written by a job (R102): the issuing core's banks at once, heap and arena through the view, the
rest as remote writes. -/
def State.jobStore (s : State) (clu : Nat) (j : EJob) (va row : Nat) (bs : List Byte) (evp : Nat) : EltWrite :=
  let n := j.ctx
  match s.check n .store va bs.length (.clu none) with
  | .error i => .bad i
  | .ok loc =>
    let s := (s.tlbFill (s.ctx n).run.job (coreOf n) va (.clu none)).markAt n loc true false
    if loc.coreOf? = some (coreOf n) then
      match loc.bank? with
      | some (c, b) =>
        match s.bankAt c b with
        | .clearing => .wait s
        | .gone => .ok (s.modCtx n fun c => c.setCstat cstatLwnd)
        | .held => .ok (s.bankPut loc.key bs)
      | none => .wait s
    else if loc.isHbm then
      let (ok, s) := s.rbClear clu loc
      if !ok then .wait s
      else
        let (room, t) := s.cvRoom clu (lineOf loc.key)
        if (s.cv clu (lineOf loc.key)).isNone && (evp == 0 || !room) then s.jobSend clu j va row loc bs evp
        else .ok (t.cvStore clu loc.key va bs evp ((s.job (s.ctx n).run.job).regionSt va == .shrw))
    else s.jobSend clu j va row loc bs evp

/-- A row of MXCPY written in one step, with its arrival when it has one (R351, R353). DESIGN CHOICE (assumption log 105):
a row at an address that is no multiple of its element size is written all the same, and takes no ALIGN fault. -/
def State.rowStore (s : State) (clu : Nat) (j : EJob) (va row : Nat) (bs : List Byte) (arr : Option (Nat × Nat)) : EltWrite :=
  let n := j.ctx
  let cuts := bankCuts 3 (va, bs.length)
  match cuts.mapM fun c => (s.check n .store (c.1 % 2 ^ 64) 1 (.clu none)).map fun l => (l, (bs.drop (c.1 - va)).take c.2) with
  | .error i => .bad i
  | .ok parts =>
    if parts.all fun p => p.1.coreOf? == some (coreOf n) then
      let at_ (p : Loc × List Byte) : BankAt := match p.1.bank? with | some (c, b) => s.bankAt c b | none => .gone
      if parts.any fun p => at_ p == .clearing then .wait s
      else
        let nd := parts.any fun p => at_ p == .gone
        let s := parts.foldl (fun t p => if at_ p == .held then t.bankPut p.1.key p.2 else t) s
        let s := if nd then s.modCtx n fun c => c.setCstat cstatLwnd else s
        match arr with
        | some (core, bar) =>
          let (ok, s) := s.arriveAt core bar .mxrow
          .ok (if ok then s else s.modCtx n fun c => c.setCstat cstatBarnd)
        | none => .ok s
    else if !s.mayInject n then .wait s
    else
      let s := parts.foldl (fun t p => (t.markAt n p.1 true false).dropLink n p.1) s
      match arr with
      | some (core, bar) =>
        .ok ((s.inject n { cls := .req, who := .job clu j.id, pl := .row parts core bar, tag := row + 1, va := va }).modEJob clu j.id fun x =>
          { x with outs := x.outs ++ [row + 1] })
      | none =>
        .ok (parts.foldl (fun t p =>
          (t.inject n { cls := .req, who := .job clu j.id, pl := .write p.1 p.2, tag := row + 1, va := va }).modEJob clu j.id fun x =>
            { x with outs := x.outs ++ [row + 1] }) s)

/-- 64-byte pieces of an operand row, read in order, by one request (R407; assumption log 19). -/
def State.readPieces (s : State) (n va : Nat) : Nat → EltRead
  | 0 => .got [] (.hbm 0) s
  | k + 1 =>
    match s.readPieces n va k with
    | .got bs _ u =>
      match u.eltRead n ((va + 64 * k) % 2 ^ 64) 64 { paid := u.paidSince s n } with
      | .got b loc t => .got (bs ++ b) loc t
      | .wait t => .wait (t.refund s n)
      | r => r
    | r => r

/-! ## Matrix arithmetic (R217, R218) -/

/-- The state of one output position. -/
structure Pos where
  tile  : Nat
  inner : V26 := .fin false 0 0
  nb    : Nat := 0
  ovf   : Bool := false
  uf    : Bool := false
  deriving DecidableEq, Repr

/-- PROMOTE. -/
def Pos.promote (p : Pos) : Pos :=
  let (r, fl) := fp32.addV .rne (fp32.val p.tile) p.inner.toFVal
  { tile := r, ovf := p.ovf || fl &&& fOF != 0, uf := p.uf || fl &&& fUF != 0 }

/-- One k-block: I and the two scales. -/
def Pos.block (promn : Nat) (p : Pos) (i : Int) (sa sb : Nat) : Pos :=
  let (t, o, u) := if sa = 0xFF ∨ sb = 0xFF then (V26.nan, false, false) else scale26 i ((sa : Int) + sb - 254)
  let (v, o2, u2) := add26 p.inner t
  let q : Pos := { p with inner := v, nb := p.nb + 1, ovf := p.ovf || o || o2, uf := p.uf || u || u2 }
  if q.nb = promn then q.promote else q

/-- The loop over the k-blocks, with the PROMOTE at the end of the command. -/
def Pos.run (promn : Nat) (p : Pos) (bs : List (Int × Nat × Nat)) : Pos :=
  let q := bs.foldl (fun q b => q.block promn b.1 b.2.1 b.2.2) p
  if q.nb = 0 then q else q.promote

/-- The operand bytes of a command, by k-block: nA rows of A, then 64 rows of B, each with its scale. -/
structure MxRead where
  a   : MxOpnd
  b   : MxOpnd
  nA  : Nat
  buf : List Byte
  deriving DecidableEq, Repr

def MxRead.at_ (m : MxRead) (kb k : Nat) : List Byte :=
  let base := kb * (m.nA * m.a.size + 64 * m.b.size)
  if k < m.nA then (m.buf.drop (base + k * m.a.size)).take m.a.size
  else (m.buf.drop (base + m.nA * m.a.size + (k - m.nA) * m.b.size)).take m.b.size
/-- Elements of a block at the declared precision, and its scale (R213). -/
def blkElts (o : MxOpnd) (bs : List Byte) : List Int :=
  let v := leNat (bs.take (4 * o.d))
  (List.range 32).map fun e => eltVal (opUns o.rcd) o.d (planedElt o.d v e)
def blkScale (o : MxOpnd) (bs : List Byte) : Nat := ((bs.drop (4 * o.d)).headD 0).toNat

/-- The k-blocks of A row i (by its place among the rows read) and B row j. -/
def MxRead.blocks (m : MxRead) (i j kbs : Nat) : List (Int × Nat × Nat) :=
  (List.range kbs).map fun kb =>
    let x := m.at_ kb i
    let y := m.at_ kb (m.nA + j)
    (((blkElts m.a x).zip (blkElts m.b y)).foldl (fun t e => t + e.1 * e.2) 0, blkScale m.a x, blkScale m.b y)

/-- A tile whose listed words are those of a function that are not zero. -/
def Tile.fill (t : Tile) (f : Nat → Pos) : Tile :=
  let ps := (List.range 4096).map fun k => (k, f k)
  { t with data := ps.filterMap fun p => if p.2.tile % 2 ^ 32 = 0 then none else some (p.1, BitVec.ofNat 32 p.2.tile),
           ovf := t.ovf || ps.any (·.2.ovf), uf := t.uf || ps.any (·.2.uf) }
def Tile.word (t : Tile) (k : Nat) : Nat := (t.data.get 0 k).toNat

/-- MXMM, or its first PROMOTE steps: kbs gives the k-blocks each position takes (R348, R355). -/
def Tile.mm (t : Tile) (m : MxRead) (promn : Nat) (kbs : Nat → Nat) : Tile :=
  t.fill fun k => ({ tile := t.word k } : Pos).run promn (m.blocks (k / 64) (k % 64) (kbs k))

/-- One source row of MXGMM into a row of a tile (R349). -/
def Tile.gmmRow (t : Tile) (m : MxRead) (promn i r : Nat) (kbs : Nat → Nat) : Tile :=
  t.fill fun k =>
    if k / 64 = r then ({ tile := t.word k } : Pos).run promn (m.blocks i (k % 64) (kbs k)) else { tile := t.word k }

/-- The k-blocks a position has taken when a command stops at k-block kb: a prefix of its PROMOTE steps, which
one is left open (R355). -/
def faultKbs (free promn kb k : Nat) : Nat := Config.faultPrefix free k % (kb / promn + 1) * promn

/-! ## JOB_ELEMENT -/

/-- Rows of A that a command reads, in order. -/
def EKind.rowsA : EKind → List Nat
  | .mxmm _ _ _ => List.range 64
  | .mxgmm l _ _ => (gmmPairs l).map (·.1)
  | _ => []

/-- The tiles of a command after its k-blocks; whole is false when it has stopped at a fault. -/
def State.mxApply (s : State) (clu : Nat) (j : EJob) (m : MxRead) (whole : Bool) (kb : Nat) : State :=
  let cycles := (if whole then opK m.a.rcd / 32 else kb) * max 1 ((m.a.d * m.b.d + 7) / 8)
  let s := s.modCtx j.ctx fun c => c.countBy 7 cycles
  let promn := cfgPromn j.bank.cfg
  let kbs (k : Nat) : Nat := if whole then opK m.a.rcd / 32 else faultKbs s.free promn kb k
  match j.kind with
  | .mxmm t _ _ => (s.modTile clu t fun x => x.mm m promn kbs).bump
  | .mxgmm l _ _ =>
    let ps := (gmmPairs l).zipIdx
    (ps.foldl (fun t p =>
      if whole || (ps.find? fun q => q.1.2 == p.1.2).map (·.2) == some p.2 then
        t.modTile clu p.1.2.1 fun x => x.gmmRow m promn p.2 p.1.2.2 kbs
      else t) s).bump
  | _ => s

/-- One k-block of one row of an MXMM or MXGMM (R348, R349). -/
def State.mmElement (s : State) (clu : Nat) (j : EJob) (a b : BitVec 256) : State :=
  let oa := mxA j.bank.cfg a
  let ob := mxB j.bank.cfg b
  let rows := j.kind.rowsA
  let per := rows.length + 64
  let kb := j.pos / per
  let k := j.pos % per
  let (o, r) := if k < rows.length then (oa, rows.getD k 0) else (ob, k - rows.length)
  let m : MxRead := ⟨oa, ob, rows.length, j.buf⟩
  let fail (t : State) (va : Nat) (i : FaultInfo) : State :=
    (t.mxApply clu j m false kb).jobFault clu j (j.info j.mxTag (kb * 4096 + r) va i)
  let blk : EltRead := if j.part.isEmpty then s.blkRead j.ctx (o.block kb r) {} o.d else .got j.part (.hbm 0) s
  match blk with
  | .wait t => t
  | .bad i => fail s (o.block kb r) i
  | .got bs _ t =>
    let sc : EltRead := if o.unit then .got [127] (.hbm 0) t else t.eltRead j.ctx (o.scale kb r) 1 {}
    match sc with
    | .wait t => t.modEJob clu j.id fun x => { x with part := bs }
    | .bad i => fail s (o.scale kb r) i
    | .got c _ t =>
      let buf := j.buf ++ bs ++ c
      let last := j.pos + 1 == per * (opK a / 32)
      let t := if last then t.mxApply clu j { m with buf := buf } true 0 else t
      t.modEJob clu j.id fun x => { x with pos := x.pos + 1, buf := if last then [] else buf, part := [], ended := last }

/-- A row of a tile as MXCPY writes it (R351). -/
def Tile.outRow (t : Tile) (f : Esz) (i : Nat) (sv : Option (List Byte)) : List Byte :=
  let g := (f.fmt?).getD fp32
  (List.range 64).flatMap fun k =>
    let v := fp32.val (t.word (64 * i + k))
    let p := match sv with
      | some b => (mulV v (fp32.val (leNat ((b.drop (4 * k)).take 4)))).1
      | none => v
    leBytes f.size (g.rndV .rne p).1

/-- One row of an MXCPY; its first element reads the scale vector (R351). -/
def State.cpyElement (s : State) (clu : Nat) (j : EJob) (t dst : Nat) (w : Word) (f : Esz) (csv toMap : Bool) : State :=
  let step (u : State) (buf : List Byte) : State :=
    u.modEJob clu j.id fun x => { x with pos := x.pos + 1, buf := buf, ended := x.pos == 63 }
  let sv : EltRead := if csv && j.buf.isEmpty then s.readPieces j.ctx (ownVA (outSvo w)) 4 else .got j.buf (.hbm 0) s
  match sv with
  | .wait u => u
  | .bad i => s.jobFault clu j (j.info j.mxTag 0 (ownVA (outSvo w)) i)
  | .got buf _ u =>
    match mxcpyDst j.bank dst w f toMap j.pos with
    | none => step u buf
    | some (va, arr) =>
      let row := ((u.clu clu).tile t).outRow f j.pos (if csv then some buf else none)
      match u.rowStore clu j va j.pos row arr with
      | .wait v => v
      | .bad i => u.jobFault clu j (j.info j.mxTag j.pos va i)
      | .ok v => step v buf

/-- One row of an MXLDA (R350). -/
def State.ldaElement (s : State) (clu : Nat) (j : EJob) (t src st : Nat) : State :=
  let va := (src + j.pos * st) % 2 ^ 64
  match s.readPieces j.ctx va 4 with
  | .wait u => u
  | .bad i => s.jobFault clu j (j.info j.mxTag j.pos va i)
  | .got bs _ u =>
    let u := u.modTile clu t fun x =>
      { x with data := (List.range 64).foldl (fun d k =>
          SMap.setD 0 d (64 * j.pos + k) (BitVec.ofNat 32 (leNat ((bs.drop (4 * k)).take 4)))) x.data }
    (if j.pos = 63 then u.healTile clu t else u).modEJob clu j.id fun x => { x with pos := x.pos + 1, ended := x.pos == 63 }

/-! ### Copy jobs (R360) -/

/-- Row and byte of a copy job's position. -/
def EJob.rowCol (j : EJob) (d : BitVec 512) : Nat × Nat := (j.pos / cardC0 d, j.pos % cardC0 d)
/-- The check of a line of one side when it is first touched: the bytes of the row that lie in it (R20, R360). -/
def State.touchCheck (s : State) (n : Nat) (k : Acc) (va len : Nat) : Chk Unit :=
  (List.range (min len (128 - va % 128))).forM fun i => (s.check n k (va + i) 1 (.clu none)).map fun _ => ()

/-- Bytes of the element at a position: an aligned word where the two sides agree modulo 8, else a byte. -/
def EJob.step (j : EJob) (d : BitVec 512) : Nat :=
  let (r, c) := j.rowCol d
  let va := cardD d r c
  if (cardFill d || cardS d r c % 8 == va % 8) && va % 8 == 0 && decide (c + 8 ≤ cardC0 d) then 8 else 1

/-- Whether the next element begins a line of the destination, or a row (R362). -/
def EJob.atLine (j : EJob) (d : BitVec 512) : Bool :=
  let (r, c) := j.rowCol d
  c == 0 || cardD d r c % 128 == 0

/-- One element of a copy job, read and written in one step, or read and kept until it can be written. -/
def State.copyElement (s : State) (clu : Nat) (j : EJob) (d : BitVec 512) (slot : Nat) : State :=
  let n := j.ctx
  let (r, c) := j.rowCol d
  let sva := cardS d r c
  let dva := cardD d r c
  let m := j.step d
  let left := cardC0 d - c
  let tag := s.cpTag n slot
  let fail (t : State) (at_ : Nat → Nat → Nat) (va : Nat) (i : FaultInfo) : State :=
    t.jobFault clu j (j.info tag (lineIndex at_ (cardC0 d) r c) (lineOf va) i)
  let first (va : Nat) : Bool := c == 0 || va % 128 == 0
  match (if !cardFill d && first sva then s.touchCheck n .load sva left else .ok ()) with
  | .error i => fail s (cardS d) sva i
  | .ok _ =>
    match (if first dva then s.touchCheck n .store dva left else .ok ()) with
    | .error i => fail s (cardD d) dva i
    | .ok _ =>
      let rd : EltRead := if cardFill d then .got (List.replicate m (BitVec.ofNat 8 (cardFv d))) (.hbm 0) s
        else if j.part.isEmpty then s.eltRead n sva m { evp := cardEvp d }
        else .got j.part (.hbm 0) s
      match rd with
      | .wait t => t
      | .bad i => fail s (cardS d) sva i
      | .got bs _ t =>
        match t.jobStore clu j dva r bs (cardEvp d) with
        | .wait u => u.modEJob clu j.id fun x => { x with part := if cardFill d then [] else bs }
        | .bad i => fail t (cardD d) dva i
        | .ok u => u.modEJob clu j.id fun x => { x with pos := x.pos + m, part := [], ended := x.pos + m == cardC0 d * cardC1 d }

def cardEmpty (d : BitVec 512) : Bool := cardC0 d * cardC1 d == 0
/-- A copy-job slot changes. -/
def State.modSlot (s : State) (n k : Nat) (f : CpSlot → CpSlot) : State :=
  s.modCtx n fun c => c.modSys fun y => { y with cps := y.cps.set k (f (y.cps.get {} k)) }

/-- Whether the job of a context may take element steps: its pre-emption has not passed the point at which it
stops (R357, R362). -/
def State.jobGoes (s : State) (j : EJob) : Bool :=
  match (s.job (s.ctx j.ctx).run.job).pre with
  | .none | .stopped => true
  | _ => match j.kind with
    | .copy d _ => j.started && !j.atLine d
    | _ => j.started

/-- JOB_ELEMENT: one element of a started job, or the first of a copy job whose edges are gone. A command that reads a tile with
an uncorrectable error faults (R414). -/
def State.jobElement (s : State) (clu id : Nat) : State :=
  match (s.clu clu).job? id with
  | none => s
  | some j =>
    if j.ended || j.fault.isSome || j.cancelled || !j.edges.isEmpty || !s.jobGoes j then s
    else if j.started && j.tilesRead.any (s.tileBad clu) then s.jobFault clu j (j.info j.mxTag 0 0 (flt clsSecurity 0))
    else
      match j.kind with
      | .copy d slot =>
        if cardEmpty d then s
        else
          let j := { j with started := true }
          let s := s.modEJob clu id fun x => { x with started := true }
          (s.modSlot j.ctx slot fun x => { x with st := 2 }).copyElement clu j d slot
      | .mxzero t =>
        if j.started then ((s.modTile clu t fun x => { x with data := [], ovf := false, uf := false }).healTile clu t).modEJob clu id fun x => { x with ended := true }
        else s
      | .mxprom t =>
        if j.started then
          (s.modTile clu t fun x => x.fill fun k => { ({ tile := x.word k } : Pos).promote with ovf := false, uf := false }).modEJob clu id
            fun x => { x with ended := true }
        else s
      | .mxmm _ a b | .mxgmm _ a b => if j.started then s.mmElement clu j a b else s
      | .mxlda t src st => if j.started then s.ldaElement clu j t src st else s
      | .mxcpy t dst w f csv m => if j.started then s.cpyElement clu j t dst w f csv m else s
      | .mxfree _ => s

/-- MX_COMMAND_START: the head of its core's queue, every job with an edge to it complete (R340, R341). MXFREE
clears its tile as it starts (R343). -/
def State.mxStart (s : State) (clu id : Nat) : State :=
  match (s.clu clu).job? id with
  | none => s
  | some j =>
    let core := coreOf j.ctx
    let pre := (s.job (s.ctx j.ctx).run.job).pre
    if j.started || (s.core core).mxq.head? != some id || !j.edges.isEmpty || !(pre == .none || pre == .stopped) then s
    else
      let s := s.modCore core fun c => { c with mxq := c.mxq.drop 1 }
      let s := s.modEJob clu id fun x => { x with started := true }
      match j.kind with
      | .mxfree t => ((s.modClu clu fun c => { c with tiles := c.tiles.erase t }).healTile clu t).modEJob clu id fun x => { x with ended := true }
      | _ => s

/-- Rows of a copy job fully written (Table 18-10). -/
def EJob.rowsDone (j : EJob) : Nat :=
  match j.kind with
  | .copy d _ => if cardC0 d = 0 then cardC1 d else
      let k := j.pos / cardC0 d
      k - (j.outs.eraseDups.filter fun t => decide (t ≤ k)).length
  | _ => 0

/-- Whether a job's last step is enabled (R102, R361). -/
def EJob.finished (j : EJob) : Bool :=
  j.outs.isEmpty &&
    match j.kind with
    | .copy d _ => j.cancelled || (j.edges.isEmpty && (j.ended || j.fault.isSome || cardEmpty d))
    | _ => j.ended || j.fault.isSome

/-- COMPLETE (R102, R355, R360, R361). -/
def State.complete (s : State) (clu id : Nat) : State :=
  match (s.clu clu).job? id with
  | none => s
  | some j =>
    if !j.finished then s
    else
      let n := j.ctx
      let s := s.modClu clu fun c =>
        { c with jobs := (c.jobs.filter (·.id != id)).map fun x => { x with edges := x.edges.filter (· != id) } }
      let s :=
        match j.kind with
        | .copy d slot =>
          let st := if j.fault.isSome then 5 else if j.cancelled then 4 else 3
          let s := s.modSlot n slot fun x => { x with st := st, rdone := j.rowsDone }
          if cardBen d then
            let (ok, s) := s.arriveAt (coreOf n) (cardBar d) .copy
            if ok then s else s.modCtx n fun c => c.setCstat cstatBarnd
          else s
        | _ => s
      match j.fault with
      | some i =>
        s.modCtx n fun c =>
          if (c.sys.ending = 0 ∨ c.sys.ending = 4) ∧ c.sys.deferred.isNone then c.modSys fun y => { y with deferred := some ⟨i, j.pc, j.lvl⟩ } else c
      | none => s

/-- DEFERRED_FAULT_RAISE: the fault of a job at an instruction boundary of its context, after RTE for a job of an
interrupted run; a context blocked in a wait is taken out of it as by a cancellation, and one that waits in HALT ends
under the fault (R355). -/
def State.raiseDeferred (s : State) (n : Nat) : State :=
  let c := s.ctx n
  match c.sys.deferred with
  | none => s
  | some d =>
    if (c.sys.ending ≠ 0 ∧ c.sys.ending ≠ 4) ∨ (s.job c.run.job).pre ≠ .none ∨ ¬ s.banksReady n
        ∨ (c.sys.ending = 0 ∧ c.sys.lvl = .handler ∧ d.lvl = .run) then s
    else
      let s := s.withdraw n true
      if (s.ctx n).stage.taken then s
      else (s.modCtx n fun c => (c.modSys fun y => { y with deferred := none })).raise n d.pc d.pc d.info

end Sys2Proof.Machine
end

