-- ==== Sys2Proof/Machine/MxOps.lean ====
section
/-!
DEFINITION. Meanings of the MX and COPY classes (R339 to R362), and the steps of their jobs.
-/
namespace Sys2Proof.Machine

def tileNo : Opd → Nat | .tile n => n.val | _ => 0
def Ctx.xOpd (c : Ctx) : Opd → Nat | .x n => (c.getX n.val).toNat | _ => 0

/-- The addresses R346 and R350 admit: the private view, or the window of a core of the issuing cluster. -/
def nearVA (n va : Nat) : Bool :=
  va / 2 ^ 48 == 0xC8 || (va / 2 ^ 48 == 0xC0 && decide (va / 2 ^ 40 % 64 < 48) && va / 2 ^ 46 % 4 * 48 + va / 2 ^ 40 % 64 == cluOf n)

/-- A queued command with its checks met: it enters the queue, or waits for an entry (R339). -/
def State.cmd (s : State) (k : EKind) : Host.Outcome State Fault Refusal :=
  match s.queueCmd s.cur k with
  | some t => .next t.advance
  | none => .next s
/-- MXOWN (R343). -/
def State.mxown (s : State) : State := s.fault { code := clsMxown }

/-! ## Immediate instructions -/

/-- MXCFG (R345). -/
def execMxcfg (o : OpX) (s : State) : Host.Outcome State Fault Refusal :=
  let w := s.me.xOpd o.a
  if w / 2 ^ 24 ≠ 0 ∨ fld w 15 12 ≠ 0 ∨ fld w 7 4 ≠ 0 ∨ 8 < fld w 3 0 ∨ 8 < fld w 11 8 then .next s.illegal
  else .next (s.modMe fun c => (c.setMxBank { c.mxBank with cfg := BitVec.ofNat 64 w }).advance)

/-- MXALLOC (R343). -/
def execMxalloc (o : OpX) (s : State) : Host.Outcome State Fault Refusal :=
  let t := tileNo o.a
  let clu := cluOf s.cur
  if ((s.clu clu).tiles.get? t).isNone then
    .next ((s.modTile clu t fun _ => { own := some (s.cur, s.me.sys.lvl) }).answerP o.d true)
  else .next (s.answerP o.d (s.ownsTile s.cur t))

/-- MXMAP (R352): the map is replaced whole or not at all. -/
def execMxmap (o : OpX) (s : State) : Host.Outcome State Fault Refusal :=
  let n := s.cur
  let va := s.me.xOpd o.a
  match s.capture n .capture va 128 128 with
  | .bad i => .next (s.fault i)
  | .wait t => .next t
  | .ready bs t =>
    let es := (List.range 64).map fun i => leNat ((bs.drop (2 * i)).take 2)
    let bad (e : Nat) : Bool := e != 0xFFFF && decide (48 ≤ e / 8 % 64)
    let out (e : Nat) : Bool := e != 0xFFFF && !t.myJob.cfg.holds (cluOfCore (mapCore e))
    match es.find? fun e => bad e || out e with
    | some e => .next (if bad e then t.illegal else t.fault (flt clsLease 0))
    | none =>
      let m := (es.zipIdx).foldl (fun (m : SMap (BitVec 16)) p => SMap.setD 0xFFFF m p.2 (BitVec.ofNat 16 p.1)) []
      .next (t.modMe fun c => (c.setMxBank { c.mxBank with map := m }).advance)

/-- Table 18-3. -/
def Tile.statusWord (t : Tile) : Nat :=
  match t.own with
  | some (n, l) => 2 ^ 15 + (if l = .handler then 2 ^ 14 else 0) + n % 32 * 256 + t.uf.toNat * 2 + t.ovf.toNat
  | none => 0

/-- MXSTAT (R344). DESIGN CHOICE (assumption log 123): its checks come before the wait for room in the destination queue. -/
def execMxstat (o : OpX) (s : State) : Host.Outcome State Fault Refusal :=
  let t := tileNo o.a
  let q := s.clu (cluOf s.cur)
  if !s.me.dstOk o.d then .next s.illegal
  else if !s.ownsTile s.cur t then .next s.mxown
  else if q.jobs.any fun j => j.ctx == s.cur && j.namesTile t then .next s
  else
    s.finish do
      let u ← s.wr o.d (BitVec.ofNat 64 (q.tile t).statusWord)
      pure u.advance

/-- MXFENCE (R354). -/
def execMxfence (_ : OpX) (s : State) : Host.Outcome State Fault Refusal :=
  if (s.clu (cluOf s.cur)).jobs.any fun j => j.ctx == s.cur && j.lvl == s.me.sys.lvl && !j.isCopy then .next s
  else .next (s.acqHalf s.cur .clu).advance

/-! ## Queued instructions -/

/-- A command that names one tile and nothing else. -/
def State.tileCmd (s : State) (t : Nat) (k : EKind) : Host.Outcome State Fault Refusal :=
  if s.ownsTile s.cur t then s.cmd k else .next s.mxown

/-- MXZERO (R350). -/
def execMxzero (o : OpX) (s : State) : Host.Outcome State Fault Refusal := s.tileCmd (tileNo o.d) (.mxzero (tileNo o.d))
/-- MXPROM (R350). -/
def execMxprom (o : OpX) (s : State) : Host.Outcome State Fault Refusal := s.tileCmd (tileNo o.d) (.mxprom (tileNo o.d))
/-- MXFREE: ownership ends at issue (R343). -/
def execMxfree (o : OpX) (s : State) : Host.Outcome State Fault Refusal :=
  let t := tileNo o.a
  if !s.ownsTile s.cur t then .next s.mxown
  else
    match s.queueCmd s.cur (.mxfree t) with
    | some u => .next (u.modTile (cluOf s.cur) t fun x => { x with freeing := true }).advance
    | none => .next s

/-- The checks of R346 on one record. -/
def recordOk (n : Nat) (o : MxOpnd) (lo hi : Nat) : Bool :=
  let r := o.rcd
  let v := r.toNat
  fld v 255 196 == 0 && fld v 191 173 == 0 && fld v 159 141 == 0
    && opK r != 0 && decide (opK r ≤ 4096) && opK r % 32 == 0
    && decide (lo ≤ opRows r) && decide (opRows r ≤ hi)
    && opPb r % 128 == 0 && nearVA n (opPb r)
    && (o.unit || (opSb r % 64 == 0 && nearVA n (opSb r)))
    && decide (o.d ≤ opP r)

/-- The records of MXMM or MXGMM captured and checked, with the list block behind them. -/
def State.mxRecords (s : State) (o : OpX) (lo hi : Nat) (list : Option Nat)
    (f : BitVec 256 → BitVec 256 → BitVec 2048 → State → Host.Outcome State Fault Refusal) : Host.Outcome State Fault Refusal :=
  let n := s.cur
  let a := s.me.xOpd o.a
  let b := s.me.xOpd o.b
  match s.captures n .capture ([⟨a, 32, 32⟩, ⟨b, 32, 32⟩] ++ (list.map fun l => (⟨l, 256, 128⟩ : Block)).toList) 0 with
  | .bad i => .next (s.fault i)
  | .wait t => .next t
  | .ready bs t =>
    let ra := BitVec.ofNat 256 (leNat (bs.take 32))
    let rb := BitVec.ofNat 256 (leNat ((bs.drop 32).take 32))
    let cfg := t.me.mxBank.cfg
    if recordOk n (mxA cfg ra) lo hi && recordOk n (mxB cfg rb) 64 64 && opK ra == opK rb then
      f ra rb (BitVec.ofNat 2048 (leNat (bs.drop 64))) t
    else .next t.illegal

/-- MXMM (R346, R348). -/
def execMxmm (o : OpX) (s : State) : Host.Outcome State Fault Refusal :=
  let t := tileNo o.d
  if !s.ownsTile s.cur t then .next s.mxown
  else s.mxRecords o 64 64 none fun a b _ u => u.cmd (.mxmm t a b)

/-- MXGMM (R346, R349). -/
def execMxgmm (o : OpX) (s : State) : Host.Outcome State Fault Refusal :=
  s.mxRecords o 1 4096 (some (s.me.xOpd o.d)) fun a b l u =>
    let badG (k : Nat) : Bool := let g := listAt l k; g != 0xFFFF && decide (opRows a ≤ g)
    let badS (k : Nat) : Bool := let c := listAt l (64 + k); c != 0xFFFF && (c / 2 ^ 13 != 0 || c / 64 % 4 != 0)
    if (List.range 64).any fun k => badG k || badS k then .next u.illegal
    else if !(gmmTiles l).all (u.ownsTile u.cur) then .next u.mxown
    else u.cmd (.mxgmm l a b)

/-- MXLDA (R350). -/
def execMxlda (o : OpX) (s : State) : Host.Outcome State Fault Refusal :=
  let t := tileNo o.d
  let src := s.me.xOpd o.a
  let v := (s.me.xi o.b).toNat
  if !s.ownsTile s.cur t then .next s.mxown
  else if v % 64 ≠ 0 ∨ (v < 256 ∧ v ≠ 0) ∨ !nearVA s.cur src then .next s.illegal
  else if src % 64 ≠ 0 then .next (s.fault (flt clsAlign src))
  else s.cmd (.mxlda t src (if v = 0 then 256 else v))

/-- MXCPY (R351). -/
def execMxcpy (ofmt : Esz) (csv map : Bool) (o : OpX) (s : State) : Host.Outcome State Fault Refusal :=
  let t := tileNo o.a
  let w := s.me.xi o.b
  let v := w.toNat
  let dst := s.me.xOpd o.d
  let st := fld v 47 32
  let inJob := dst / 2 ^ 40 % 64 < 48 ∧ s.myJob.cfg.holds (dst / 2 ^ 46 % 4 * 48 + dst / 2 ^ 40 % 64) = true
  let dstOk := if map then dst / 2 ^ 20 = 0 else dst / 2 ^ 48 = 0xC8 ∨ (dst / 2 ^ 48 = 0xC0 ∧ inJob)
  if !s.ownsTile s.cur t then .next s.mxown
  else if fld v 63 48 ≠ 0 ∨ fld v 31 20 ≠ 0 ∨ st % 64 ≠ 0 ∨ (st ≠ 0 ∧ st < outRow ofmt)
      ∨ (csv = false ∧ outSvo w ≠ 0) ∨ (csv = true ∧ outSvo w % 64 ≠ 0) ∨ ¬ dstOk then .next s.illegal
  else s.cmd (.mxcpy t dst w ofmt csv map)

/-! ## Copy jobs -/

/-- The bounding range of one side of a card. -/
def cardSpan (base : Nat) (stride : Int) (c0 c1 : Nat) : Int × Int :=
  let r := stride * ((c1 : Int) - 1)
  ((base : Int) + min 0 r, (base : Int) + max 0 r + c0)

/-- The checks of R358. -/
def cardOk (d : BitVec 512) : Bool :=
  let s := cardSpan (cardSrc d) (cardSstr d) (cardC0 d) (cardC1 d)
  let t := cardSpan (cardDst d) (cardDstr d) (cardC0 d) (cardC1 d)
  dsc d 40 63 0 == 0 && dsc d 48 63 0 == 0 && dsc d 56 63 0 == 0 && dsc d 32 63 32 == 0 && dsc d 32 23 18 == 0
    && dsc d 32 15 14 == 0 && dsc d 32 7 3 == 0 && decide (cardOp d ≤ 1) && (cardBen d || cardBar d == 0)
    && (if cardFill d then cardSrc d == 0 && dsc d 24 31 0 == 0
        else cardFv d == 0 && (cardEmpty d || !(decide (s.1 < t.2) && decide (t.1 < s.2))))

def CpSlot.busy (x : CpSlot) : Bool := x.st == 1 || x.st == 2

/-- CPSTART (R358, R359). -/
def execCpstart (o : OpS) (s : State) : Host.Outcome State Fault Refusal :=
  let n := s.cur
  let va := s.me.sAddr o
  match s.destRoom n o.d .s64 with
  | .error e => s.finish (.error e)
  | .ok _ =>
    match s.capture n .capture va 64 64 with
    | .bad i => .next (s.fault i)
    | .wait t => .next t
    | .ready bs t =>
      let d := BitVec.ofNat 512 (leNat bs)
      if !cardOk d then .next t.illegal
      else
        match (List.range 8).find? fun k => !(t.me.sys.cps.get {} k).busy with
        | none => .next t
        | some k =>
          let q := (t.me.sys.cpSeq + 1) % 2 ^ 13
          t.finish do
            let u ← t.wr o.d (BitVec.ofNat 64 (q * 8 + k))
            let (id, u) := u.enterJob n (.copy d k) 0
            let u := u.modCtx n fun c => c.modSys fun y =>
              { y with cpSeq := q, cps := y.cps.set k { seq := q, st := 1, id := id } }
            pure u.advance

/-- The slot a tag names, when it still holds that job. -/
def Ctx.tagSlot (c : Ctx) (w : Nat) : Option (Nat × CpSlot) :=
  let x := c.sys.cps.get {} (w % 8)
  if x.st ≠ 0 ∧ x.seq = w / 8 then some (w % 8, x) else none

/-- CPSTAT (R361, Table 18-10). -/
def execCpstat (o : OpS) (s : State) : Host.Outcome State Fault Refusal :=
  let q := s.clu (cluOf s.cur)
  let w := match s.me.tagSlot (s.me.sAddr o) with
    | some (_, x) =>
      let rows := if x.busy then ((q.job? x.id).map (·.rowsDone)).getD 0 else x.rdone
      rows % 2 ^ 32 * 2 ^ 16 + x.st
    | none => 0
  s.finish do
    s.dirs o.d (.x 0) (.x 0)
    let t ← s.wr o.d (BitVec.ofNat 64 w)
    pure t.advance

/-- CPCAN (R361). -/
def execCpcan (o : OpS) (s : State) : Host.Outcome State Fault Refusal :=
  match s.me.tagSlot (s.me.sAddr o) with
  | some (_, x) => .next ((if x.busy then s.modEJob (cluOf s.cur) x.id fun j => { j with cancelled := true } else s).advance)
  | none => .next s.advance

/-! ## Steps -/

/-- MX_COMMAND_START (R340, R341). -/
def execMxCommandStart (clu job : Nat) (s : State) : Host.Outcome State Fault Refusal := .next (s.mxStart clu job)
/-- JOB_ELEMENT (R102, R348 to R351, R360). -/
def execJobElement (clu job : Nat) (s : State) : Host.Outcome State Fault Refusal := .next (s.jobElement clu job)
/-- COMPLETE (R102). -/
def execComplete (clu job : Nat) (s : State) : Host.Outcome State Fault Refusal := .next (s.complete clu job)
/-- DEFERRED_FAULT_RAISE (R355). -/
def execDeferredFaultRaise (ctx : Nat) (s : State) : Host.Outcome State Fault Refusal := .next (s.raiseDeferred ctx)

end Sys2Proof.Machine
end

