-- ==== Sys2Proof/Machine/TaskOps.lean ====
section
/-!
DEFINITION. Meanings of the TASK class (R364 to R375): launches, tiles, spurs, counters, cancellation, arenas,
graphs and phases.
-/
namespace Sys2Proof.Machine

/-! ## Launch (R177, R178, R187 to R190, R366) -/

def popcount (v n : Nat) : Nat := ((List.range n).filter fun k => v.testBit k).length

/-- Checks 0x10 to 0x18 of Table 20-2, in order; 0 when all are met. -/
def launchCode (cfg : JobCfg) (r : BitVec 1024) : Nat :=
  let f := rcdFld r
  let x : Node := { graph := 0, id := 0, rcd := r }
  let order := x.order
  let ds := List.range 4
  let used (d : Nat) : Bool := decide (d ≤ x.dm1)
  let mask := fld r.toNat 511 320
  if f 120 63 0 ≠ 0 ∨ f 112 63 0 ≠ 0 ∨ f 104 63 32 ≠ 0 ∨ f 104 30 21 ≠ 0 ∨ f 104 15 13 ≠ 0 ∨ f 104 1 0 ≠ 0
      ∨ f 72 63 9 ≠ 0 ∨ f 8 63 48 ≠ 0 ∨ 3 < order ∨ x.fpol = 3 then 0x10
  else if x.entry % 4 ≠ 0 then 0x11
  else if x.grain = 0 ∨ 256 < x.grain then 0x12
  else if 12 < x.banks then 0x13
  else if ds.any fun d => if used d then x.ts d == 0 else x.ext d != 0 || x.ts d != 0 then 0x14
  else if (order = 2 ∧ x.dm1 ≠ 1) ∨ (order = 3 ∧ (x.dm1 = 0 ∨ x.bandh = 0)) ∨ (order ≠ 3 ∧ x.bandh ≠ 0) then 0x15
  else if f 104 31 31 = 0 ∧ (f 104 20 16 ≠ 0 ∨ f 104 12 0 ≠ 0) then 0x16
  else if 2 ^ 32 ≤ x.count then 0x17
  else if (List.range 192).any fun k => mask.testBit k && !cfg.holds k then 0x18
  else 0

/-- Footprint table VA and entry count of a record. -/
def rcdFpt (r : BitVec 1024) : Nat := rcdFld r 64 63 0
def rcdFpn (r : BitVec 1024) : Nat := rcdFld r 72 8 0

/-- Table 09-2, with the end of the partition (R190). -/
def fpEntryOk (e : BitVec 128) : Bool :=
  let b := fpBase e
  let part := b / 2 ^ 48
  let last := if part < 0x80 then 2 ^ 55 else 0xB0 * 2 ^ 48
  fld e.toNat 127 116 == 0 && fpClass e != 3 && fpAcc e != 0 && fpLen e != 0
    && (decide (part < 0x80) || (decide (0xA0 ≤ part) && decide (part ≤ 0xAF))) && decide (b + fpLen e ≤ last)

/-- The entries of a captured footprint table. -/
def fpEntries (bs : List Byte) (n : Nat) : List (BitVec 128) :=
  (List.range n).map fun k => BitVec.ofNat 128 (leNat ((bs.drop (16 * k)).take 16))

/-- Overlap of entries, one of which writes (R178). -/
def fpConflict (m n : BitVec 128) : Bool :=
  decide (fpBase m < fpBase n + fpLen n) && decide (fpBase n < fpBase m + fpLen m)
    && (decide (2 ≤ fpAcc m) || decide (2 ≤ fpAcc n))

/-- The gang rules (R183). -/
def gangOk (x : Node) : Bool :=
  !x.gang || (x.grain == 1 && decide (x.tiles ≤ 8 * popcount (fld x.rcd.toNat 511 320) 192) && decide (x.tiles ≤ 256))

/-- The next node id of a graph (R366). -/
def Job.nextNodeId (j : Job) (g : Graph) : Nat :=
  if g.nextId < 2 ^ 32 then g.nextId
  else
    let held := (j.nodes.filter (·.graph == g.id)).map (·.id)
    ((spanNats 1 (held.length + 1)).find? fun k => !held.contains k).getD 0

/-- Checks 0x1A to 0x1D and 0x02, then entry of the node: the code, or the word of the node. The issuer is the
node whose run launches, or none for the host. -/
def State.enterNode (s : State) (job : Nat) (issuer : Option (Nat × Nat)) (r : BitVec 1024) (fpt : List (BitVec 128)) : Nat × State :=
  let j := s.job job
  let gid := rcdFld r 96 63 32
  let x : Node := { graph := gid, id := 0, rcd := r, fpt := fpt }
  if (List.range 4).any fun i => decide (2048 < rcdFld r 80 (16 * i + 15) (16 * i)) then (0x1A, s)
  else if !gangOk x then (0x1B, s)
  else
    match j.graph? gid with
    | none => (0x1C, s)
    | some g =>
      if g.closed || g.done then (0x1C, s)
      else if !(if x.parent = 0 then g.parent.isNone else g.parent.isSome && g.parent == issuer && (issuer.map (·.2)) == some x.parent) then (0x1D, s)
      else
        let mates := j.nodes.filter fun m => m.graph == gid && m.st != .done
        if 256 ≤ mates.length then (0x02, s)
        else
          let id := j.nextNodeId g
          let preds := (mates.filter fun m => m.fpt.any fun a => fpt.any fun b => fpConflict a b).map (·.id)
          let x := { x with id := id, counter := x.tiles + 1, preds := preds }
          let j := { j with nodes := (j.nodes.filter fun (m : Node) => !(m.graph == gid && m.id == id)) ++ [x] }
          let j := j.modGraph gid fun g => { g with counter := g.counter + 1, nextId := g.nextId + 1 }
          let j := match g.parent with
            | some (pg, pn) => if x.parent = 0 then j else j.modNode pg pn fun p => { p with counter := p.counter + 1 }
            | none => j
          (gid * 2 ^ 32 + id, s.setJob job j)

/-- The answer of a LAUNCH: x(B), then p(D). -/
def State.launched (s : State) (o : OpS) (w : Nat) (ok : Bool) : State :=
  (s.modMe fun c => match o.b with | .x n => c.setX n.val (BitVec.ofNat 64 w) | _ => c).answerP o.d ok

/-- LAUNCH (R366). -/
def execLaunch (o : OpS) (s : State) : Host.Outcome State Fault Refusal :=
  s.belowFirm fun s =>
    let n := s.cur
    if s.cancelledRun n then .next (s.launched o 0x01 false)
    else
      let (ok, s) := (s.markNode n).relHalf n true fun _ => true
      let va := s.me.xOpd o.a
      let r := s.me.run
      if !ok then .next s
      else if va % 8 ≠ 0 then .next (s.fault (flt clsAlign va))
      else
        match s.captures n .capture [⟨va, 128, 8⟩] 0 with
        | .bad i => .next (s.fault i)
        | .wait t => .next t
        | .ready bs t =>
          let rcd := BitVec.ofNat 1024 (leNat (bs.take 128))
          let fpn := rcdFpn rcd
          match launchCode t.myJob.cfg rcd with
          | 0 =>
            if rcdFpt rcd % 16 ≠ 0 ∨ 256 < fpn then .next (t.launched o 0x19 false)
            else
              let enter (bs : List Byte) (u : State) : Host.Outcome State Fault Refusal :=
                let fpt := fpEntries (bs.drop 128) fpn
                if fpt.all fpEntryOk then
                  let (w, u) := u.enterNode r.job (some (r.graph, r.node)) rcd fpt
                  .next (u.launched o w (decide (2 ^ 32 ≤ w)))
                else .next (u.launched o 0x19 false)
              if fpn = 0 then enter bs t
              -- the table's first word is read at a turn of its own (R87)
              else if s.me.stage.cap.length < 128 then .next t
              else
                match t.captures n .capture [⟨va, 128, 8⟩, ⟨rcdFpt rcd, 16 * fpn, 16⟩] 0 with
                | .bad i => .next (t.fault i)
                | .wait u => .next u
                | .ready bs u => enter bs u
          | code => .next (t.launched o code false)

/-! ## Tiles and walkers (R193 to R197, R367 to R369) -/

/-- A walker's remaining range. -/
def Walker.left (w : Walker) : Nat := w.hi - w.next

/-- A list turned by a free number: which of several comes first is the part's choice. -/
def rotate {α : Type} (l : List α) (k : Nat) : List α := l.drop (k % (l.length + 1)) ++ l.take (k % (l.length + 1))

/-- The walkers TNEXT asks first, in order: the one that supplied its last hand-out, then those of its cluster's unit, in an
order of the part's choice (R194, sources 1 and 2). -/
def State.tnextFrom (s : State) (n : Nat) (wid : Option Nat) : List (Nat × Walker) :=
  let r := (s.ctx n).run
  let all := s.walkersOf r.job r.graph r.node
  (all.filter fun p => some p.2.wid == wid) ++ rotate (all.filter fun p => p.1 == cluOf n) (Config.freeWord s.free).toNat
/-- The one it asks when those have given nothing: the node's walker while it has indices, then the spur with the largest
range left, the lowest WID among equals (R194, source 3). -/
def State.tnextLast (s : State) (job : Nat) (x : Node) : Option (Nat × Walker) :=
  let all := (s.walkersOf job x.graph x.id).filter fun p => p.2.left != 0
  match all.find? fun p => !p.2.spur with
  | some p => some p
  | none => all.foldl (fun (b : Option (Nat × Walker)) p =>
      match b with
      | none => some p
      | some q => if q.2.left < p.2.left ∨ (q.2.left = p.2.left ∧ p.2.wid < q.2.wid) then some p else some q) none

/-- HANDOUT from the first of several walkers that gives one. -/
def State.takeFirst (s : State) (job : Nat) (x : Node) : List (Nat × Walker) → Option (Nat × Nat × Nat) × State
  | [] => (none, s)
  | (clu, w) :: r =>
    match s.walker? job x.graph x.id w.wid with
    | none => s.takeFirst job x r
    | some (_, w) =>
      match s.takeOut clu w x with
      | (some (lo, hi), t) => (some (lo, hi, w.wid), t.jrn job ⟨jHand, clu, lo, []⟩)
      | (none, t) => t.takeFirst job x r

/-- HANDOUT from source 3: one that holds no issued index is used up, and the next is asked (at most fuel of them). -/
def State.takeLast (s : State) (job : Nat) (x : Node) : Nat → Option (Nat × Nat × Nat) × State
  | 0 => (none, s)
  | f + 1 =>
    match s.tnextLast job x with
    | none => (none, s)
    | some p =>
      match s.takeFirst job x [p] with
      | (some h, t) => (some h, t)
      | (none, t) => t.takeLast job x f
/-- A hand-out of TNEXT from its sources in order (R194). -/
def State.tnextTake (s : State) (n : Nat) (x : Node) (wid : Option Nat) : Option (Nat × Nat × Nat) × State :=
  let job := (s.ctx n).run.job
  match s.takeFirst job x (s.tnextFrom n wid) with
  | (some h, t) => (some h, t)
  | (none, t) => t.takeLast job x 65

/-- Index and coordinates of a tile in x1 to x5 (R159, R191). -/
def Ctx.tileRegs (c : Ctx) (x : Node) (i : Nat) : Ctx :=
  let q := x.coords i
  let w (k : Nat) : Word := BitVec.ofNat 64 k
  ((((c.setX 1 (w i)).setX 2 (w q.1)).setX 3 (w q.2.1)).setX 4 (w q.2.2.1)).setX 5 (w q.2.2.2)

/-- A run whose hand-out is spent and which no source gave another holds none, and names no source by its WID (R194). -/
def Ctx.noHand (c : Ctx) : Ctx := { c with run := { c.run with hand := none } }

/-- TNEXT (R367). -/
def execTnext (o : OpS) (s : State) : Host.Outcome State Fault Refusal :=
  let n := s.cur
  let r := s.me.run
  if s.me.sys.lvl ≠ .run then .next s.priv
  else if r.kind ≠ .tile then .next (s.answerP o.d false)
  else if !s.me.settled then .next s
  else
    let s := match r.tile with
      | some (_, wid) => (s.tilesDone r.job r.graph r.node wid 1).modMe fun c => { c with run := { c.run with tile := none } }
      | none => s
    match s.nodeOf n with
    | none => .next (s.answerP o.d false)
    | some x =>
      if x.cancelled then .next (s.answerP o.d false)
      else
        let give (i hi wid : Nat) (t : State) : Host.Outcome State Fault Refusal :=
          .next ((t.modMe fun c => { c.tileRegs x i with run := { c.run with tile := some (i, wid), hand := some ⟨i + 1, hi, wid⟩ } }).answerP o.d true)
        match r.hand.bind fun h => (x.first (h.hi - h.next + 1) h.next h.hi).map fun p => (p.1, h) with
        | some (i, h) => give i h.hi h.wid s
        | none =>
          let (h, t) := s.tnextTake n x (r.hand.map (·.wid))
          match h with
          | some (lo, hi, wid) =>
            match x.first (hi - lo + 1) lo hi with
            | some (i, _) => give i hi wid t.bump
            | none => .next ((t.modMe Ctx.noHand).answerP o.d false)
          | none => .next ((t.modMe Ctx.noHand).answerP o.d false)

/-- SPLIT acts at the home of a walker or spur (R196). -/
def State.splitAt (s : State) (d : Opd) (g n wid : Nat) : State :=
  let q := cluOf s.cur
  let job := s.me.run.job
  match s.myJob.node? g n, s.walker? job g n wid with
  | some x, some (clu, w) =>
    if x.cancelled || !x.places q then s.answerP d false
    else
      let (ok, t) := s.split job x clu w q
      (t.jrn job ⟨jSplit, clu, ok.toNat, []⟩).answerP d ok
  | _, _ => s.answerP d false

/-- SPLIT (R368): naming node 0 it chooses first, and acts at the chosen walker's home at a later turn (R197). -/
def execSplit (o : OpS) (s : State) : Host.Outcome State Fault Refusal :=
  s.belowFirm fun s =>
    let a := s.me.xOpd o.a
    if a ≠ 0 then .next (s.splitAt o.d (a / 2 ^ 32) (a % 2 ^ 32) (s.me.xi o.b).toNat)
    else
      match s.me.stage.ids with
      | [g, n, wid] => .next (s.splitAt o.d g n wid)
      | _ =>
        match s.bestSplit s.me.run.job (cluOf s.cur) with
        | none => .next (s.answerP o.d false)
        | some (x, _, w) => .next (s.modMe fun c => { c with stage := { c.stage with ids := [x.graph, x.id, w.wid] } })

/-- Table 09-3. -/
def Walker.record (w : Walker) (x : Node) (rem : Bool) : Nat :=
  (rem.toNat * 2 ^ 15 + w.spur.toNat * 2 ^ 14 + x.order * 2 ^ 11 + x.dm1 * 2 ^ 9 + x.grain % 2 ^ 9)
    + (w.node % 2 ^ 32 + w.lo % 2 ^ 32 * 2 ^ 32) * 2 ^ 64 + (w.next % 2 ^ 32 + w.hi % 2 ^ 32 * 2 ^ 32) * 2 ^ 128
    + (w.out % 2 ^ 32 + w.wid % 2 ^ 8 * 2 ^ 32) * 2 ^ 192

/-- WSTAT (R369). -/
def execWstat (o : OpS) (s : State) : Host.Outcome State Fault Refusal :=
  s.belowFirm fun s =>
    let a := s.me.xOpd o.a
    let g := a / 2 ^ 32
    let m := a % 2 ^ 32
    let rcd := match s.myJob.node? g m, s.walker? s.me.run.job g m (s.me.xi o.b).toNat with
      | some x, some (_, w) => w.record x false
      | _, _ => 0
    s.finish do
      s.dirs o.d (.x 0) (.x 0)
      let t ← s.wrV o.d (BitVec.ofNat 512 rcd)
      pure t.advance

/-! ## Counters and cancellation (R370 to R372) -/

/-- The level and id a CANCEL or CNTRD names; none where a graph or phase id has [63:32] set. -/
def Ctx.levelId (c : Ctx) (o : OpS) : Option (Level × Nat × Nat) :=
  let w := c.xOpd o.b
  match o.a with
  | .level .node => some (.node, w / 2 ^ 32, w % 2 ^ 32)
  | .level .job => some (.job, 0, 0)
  | .level l => if w / 2 ^ 32 = 0 then some (l, 0, w) else none
  | _ => none

/-- CANCEL (R371). -/
def execCancel (o : OpS) (s : State) : Host.Outcome State Fault Refusal :=
  s.belowFirm fun s =>
    match s.me.levelId o with
    | none => .next s.illegal
    | some (l, hi, lo) => .next (s.cancel s.me.run.job l hi lo).advance

/-- The counter and mark of a level (R152, R372): a completed node's mark is kept until its graph completes,
a completed graph's until its phase does. -/
def Job.countWord (j : Job) (l : Level) (hi lo : Nat) : Nat :=
  let w (n : Nat) (b : Bool) : Nat := n % 2 ^ 63 + b.toNat * 2 ^ 63
  match l with
  | .job => w j.counter j.cancelled
  | .phase =>
    match j.phase? lo with
    | some p => if p.done then 0 else w (p.counter + (!p.closed).toNat) p.cancelled
    | none => 0
  | .graph =>
    match j.graph? lo with
    | some g =>
      if g.done then (if ((j.phase? g.phase).map (·.done)).getD true then 0 else w 0 g.cancelled)
      else w (g.counter + (!g.closed).toNat) g.cancelled
    | none => 0
  | .node =>
    match j.node? hi lo with
    | some x => if ((j.graph? hi).map (·.done)).getD true then 0 else w x.counter x.cancelled
    | none => 0

/-- CNTRD (R372). DESIGN CHOICE (assumption log 123): its checks come before the wait for room in the destination queue. -/
def execCntrd (o : OpS) (s : State) : Host.Outcome State Fault Refusal :=
  s.belowFirm fun s =>
    match s.me.levelId o with
    | none => .next s.illegal
    | some (l, hi, lo) =>
      s.finish do
        s.dirs o.d (.x 0) (.x 0)
        let t ← s.wr o.d (BitVec.ofNat 64 (s.myJob.countWord l hi lo))
        pure (t.acqHalf t.cur .pkg).advance

/-! ## Arenas (R373) -/

/-- The handle of an arena of a node, or 0 (R135). -/
def Job.handle (j : Job) (x : Node) (i : Nat) : Nat :=
  match x.arenas.get? i with
  | some k => 0xA * 2 ^ 52 + k * 2 ^ 40 + (j.slot k).gen * 2 ^ 32
  | none => 0

/-- AHND (R373). DESIGN CHOICE (assumption log 123): its checks come before the wait for room in the destination queue. -/
def execAhnd (o : OpS) (s : State) : Host.Outcome State Fault Refusal :=
  s.belowFirm fun s =>
    let i := (s.me.xi o.a).toNat
    if 3 < i then .next s.illegal
    else
      s.finish do
        s.dirs o.d (.x 0) (.x 0)
        let t ← s.wr o.d (BitVec.ofNat 64 (match s.nodeOf s.cur with | some x => s.myJob.handle x i | none => 0))
        pure t.advance

/-! ## Graphs and phases (R374, R375) -/

/-- The reason a graph is not opened, 0 when it is, and the phase it enters. -/
def Job.gopenCheck (j : Job) (x : Option Node) (d : BitVec 256) : Nat × Nat :=
  let child := d.getLsbD 96
  let spq := fld d.toNat 95 64
  let ring := fld d.toNat 63 0
  let phase : Option Nat :=
    if child then (x.bind fun n => j.graph? n.graph).map (·.phase)
    else ((j.phases.filter fun p => !p.closed).getLast?).map (·.id)
  let pages := j.cfg.pagesOf ring (32 * spq)
  if (x.map (·.cancelled)).getD false then (1, 0)
  else if phase.isNone then (2, 0)
  else if 64 ≤ (j.graphs.filter fun g => !g.done).length then (3, 0)
  else if fld d.toNat 127 97 ≠ 0 ∨ fld d.toNat 255 128 ≠ 0 ∨ ring % 128 ≠ 0 ∨ (ring ≠ 0 ∧ spq = 0) then (4, 0)
  else if spq ≠ 0 ∧ (2 ^ 55 < ring + 32 * spq ∨ pages.any (fun k => !j.cfg.isBacked k) ∨ j.cfg.overQuota pages) then (5, 0)
  else (0, phase.getD 0)

/-- GRPOP.gopen (R374). -/
def execGrpopGopen (o : OpS) (s : State) : Host.Outcome State Fault Refusal :=
  s.belowFirm fun s =>
    let n := s.cur
    let va := s.me.xOpd o.a
    let answer (w : Nat) (t : State) : Host.Outcome State Fault Refusal :=
      .next (t.modMe fun c => (match o.d with | .x k => c.setX k.val (BitVec.ofNat 64 w) | _ => c).advance)
    match s.captures n .capture [⟨va, 32, 32⟩] 0 with
      | .bad i => .next (s.fault i)
      | .wait t => .next t
      | .ready bs t =>
        let d := BitVec.ofNat 256 (leNat bs)
        let r := t.me.run
        let j := t.myJob
        match j.gopenCheck (t.nodeOf n) d with
        | (0, phase) =>
          let spq := fld d.toNat 95 64
          let (ok, t) := t.tryPin r.job (j.cfg.pagesOf (fld d.toNat 63 0) (32 * spq))
          if !ok then .next t
          else
            let j := t.job r.job
            let g : Graph :=
              { id := j.nextGraph, phase := phase, parent := if d.getLsbD 96 then some (r.graph, r.node) else none,
                spillq := spq, ring := fld d.toNat 63 0, held := spq != 0 }
            let j := { j with graphs := j.graphs ++ [g], nextGraph := g.id + 1 }.modPhase phase fun p => { p with counter := p.counter + 1 }
            answer g.id (t.setJob r.job j)
        | (code, _) => answer (2 ^ 63 + code) t

/-- GRPOP.gclose (R375). -/
def execGrpopGclose (o : OpS) (s : State) : Host.Outcome State Fault Refusal :=
  s.belowFirm fun s =>
    let g := s.me.xOpd o.a
    let job := s.me.run.job
    .next ((s.modJob job fun j => j.modGraph g fun h => { h with closed := true }).settleGraph job g).advance

/-- GRPOP.popen (R375). -/
def execGrpopPopen (o : OpS) (s : State) : Host.Outcome State Fault Refusal :=
  s.belowFirm fun s =>
    let job := s.me.run.job
    let id := s.myJob.nextPhase
    let s := s.modJob job fun j => { j with phases := j.phases ++ [{ id := id }], nextPhase := id + 1, counter := j.counter + 1 }
    .next (s.modMe fun c => (match o.d with | .x k => c.setX k.val (BitVec.ofNat 64 id) | _ => c).advance)

/-- GRPOP.pclose (R375). -/
def execGrpopPclose (o : OpS) (s : State) : Host.Outcome State Fault Refusal :=
  s.belowFirm fun s =>
    let p := s.me.xOpd o.a
    let job := s.me.run.job
    .next ((s.modJob job fun j => j.modPhase p fun h => { h with closed := true }).settlePhase job p).advance

end Sys2Proof.Machine
end

