-- ==== Sys2Proof/Machine/SysOps.lean ====
section
/-!
DEFINITION. Meanings of the SYS class (R376 to R381) and the steps of a shootdown at its cores (R48, R49).
-/
namespace Sys2Proof.Machine

/-! ## Special registers (R376, Tables 20-4, 20-5, 03-4, 21-1, 21-2) -/

def sregNo : Opd → Nat | .sreg i => i.toNat | _ => 0

/-- CSTAT as a program reads it: its sticky bits, INH and HND. -/
def Ctx.cstatWord (c : Ctx) : Word :=
  (c.sys.cstat &&& 0x3C#64) ||| (if c.sys.lvl = .handler then 0x100#64 else 0)

/-- TSTAT of the die of a core (Table 03-4). -/
def Package.tstat (p : Package) (die : Nat) : Nat :=
  let hot (d : Nat) : Bool := p.hot.get false d
  (p.was.get 0 die).toNat * 256
    + (List.range 4).foldl (fun a d => a + (hot d).toNat * 2 ^ (4 + d)) 0 + (hot die).toNat

/-- A special register's value for a context. -/
def State.csr (s : State) (n i : Nat) : Word :=
  let c := s.ctx n
  let k := s.core (coreOf n)
  let f := (s.job c.run.job).cfg
  let w (v : Nat) : Word := BitVec.ofNat 64 v
  match i with
  | 0x000 => c.cstatWord
  | 0x001 => c.sys.fstat
  | 0x002 => w (c.sys.inlDepth % 16)
  | 0x004 => c.sys.epc
  | 0x005 => c.sys.estat
  | 0x010 => w k.mxwgt
  | 0x011 => w k.mbox
  | 0x012 => k.sprb
  | 0x013 => k.sprl
  | 0x014 => k.sptb
  | 0x020 => w (s.pkg.tstat (dieOfCore (coreOf n)))
  | 0x030 => f.stk
  | 0x031 => w f.retq
  | 0x032 => w f.arpool
  | 0x033 => w f.retainns
  | 0x034 => w f.inlmax
  | 0x035 => w f.ageint
  | 0x036 => w f.rsvb
  | 0x037 => f.rgtb
  | 0x038 => f.hptb
  | 0x039 => f.armb
  | 0x03A => w (fld f.pmask.toNat 63 0)
  | 0x03B => w (fld f.pmask.toNat 127 64)
  | 0x03C => w (fld f.pmask.toNat 191 128)
  | 0x03D => w f.resq
  | _ => 0

/-- EPC and ESTAT are of the handler alone. -/
def csrHandler (i : Nat) : Bool := i == 0x004 || i == 0x005
/-- Registers a level may write: FIRM every one (R376). -/
def csrWritable (l : Lvl) (i : Nat) : Bool :=
  l == .firm || i == 0x000 || i == 0x001 || i == 0x010 || (l == .handler && (i == 0x004 || i == 0x005 || i == 0x020))

/-- SPRB, SPRL and SPTB as the registers take them (Tables 02-1 to 02-3, R32). -/
def subRegs (e : Word × Word × Word) : Word × Word × Word :=
  (BitVec.ofNat 64 (e.1.toNat % 2 ^ 34), BitVec.ofNat 64 (min (e.2.1.toNat % 64) 32),
    BitVec.ofNat 64 (e.2.2.toNat % 2 ^ 48 / 4096 * 4096))

/-- The most recently retained lines of a cluster beyond RETQ lose their marks (R57). -/
def Clu.trim (c : Clu) (retq : Nat) : Clu :=
  let rs := (c.lines.filter fun p => p.2.retained).mergeSort fun a b => decide (a.2.ret ≤ b.2.ret)
  let gone := (rs.drop retq).map (·.1)
  { c with lines := c.lines.map fun p => if gone.contains p.1 then (p.1, { p.2 with retained := false, prio := 6 }) else p }

/-- The writable fields of ESTAT: SEQ, RES and CLASS. -/
def estatMask : Word := 0xFFFFFFFF0000010F#64

/-- A field of the job context that FIRM writes, for the job its management context names (R60, R376, R382); a map's
reserved bits read as zero, HPTB keeps its alignment (R34), and RETQ takes 2,048 for more (R57; assumption log 112). -/
def JobCfg.setCsr (f : JobCfg) (i : Nat) (w : Word) : JobCfg :=
  let v := w.toNat
  let part (k : Nat) : BitVec 192 :=
    BitVec.ofNat 192 ((List.range 3).foldl (fun a m => a + (if m = k then v else fld f.pmask.toNat (64 * m + 63) (64 * m)) * 2 ^ (64 * m)) 0)
  match i with
  | 0x030 => { f with stk := w &&& 0xFFFFF#64 }
  | 0x031 => { f with retq := min (v % 2 ^ 12) 2048 }
  | 0x032 => { f with arpool := v % 2 ^ 32 }
  | 0x033 => { f with retainns := v % 2 ^ 32 }
  | 0x034 => { f with inlmax := v % 16 }
  | 0x035 => { f with ageint := v % 2 ^ 32 }
  | 0x036 => { f with rsvb := v % 16 }
  | 0x037 => { f with rgtb := w }
  | 0x038 => { f with hptb := BitVec.ofNat 64 (v / 2 ^ 15 * 2 ^ 15) }
  | 0x039 => { f with armb := w }
  | 0x03A => { f with pmask := part 0 }
  | 0x03B => { f with pmask := part 1 }
  | 0x03C => { f with pmask := part 2 }
  | 0x03D => { f with resq := v % 2 ^ 32 }
  | _ => f

/-- A permitted write of a special register. -/
def State.setCsr (s : State) (n i : Nat) (w : Word) : State :=
  match i with
  | 0x000 => s.modCtx n fun c => c.modSys fun y => { y with cstat := y.cstat &&& ~~~(w &&& 0x2C#64) }
  | 0x001 => s.modCtx n fun c => c.modSys fun y => { y with fstat := w &&& 0x1F#64 }
  | 0x004 => s.modCtx n fun c => c.modSys fun y => { y with epc := w }
  | 0x005 => s.modCtx n fun c => c.modSys fun y => { y with estat := w &&& estatMask }
  | 0x010 => s.modCore (coreOf n) fun k => { k with mxwgt := if w.toNat % 16 = 0 then 1 else w.toNat % 16 }
  | 0x002 => s.modCtx n fun c => c.modSys fun y => { y with inlDepth := w.toNat % 16 }
  | 0x011 => s.modCore (coreOf n) fun k => { k with mbox := w.toNat % 16 }
  | 0x012 => s.modCore (coreOf n) fun k => { k with sprb := (subRegs (w, 0, 0)).1 }
  | 0x013 => s.modCore (coreOf n) fun k => { k with sprl := (subRegs (0, w, 0)).2.1 }
  | 0x014 => s.modCore (coreOf n) fun k => { k with sptb := (subRegs (0, 0, w)).2.2 }
  | 0x020 =>
    let d := dieOfCore (coreOf n)
    { s with pkg := { s.pkg with was := s.pkg.was.set d (s.pkg.was.get 0 d &&& ~~~(BitVec.ofNat 4 (fld w.toNat 11 8))) } }
  | _ =>
    let job := (s.ctx n).run.job
    let s := s.modJob job fun j => { j with cfg := j.cfg.setCsr i w }
    -- a RETQ lowered takes the marks of the most recently retained lines (R57)
    if i = 0x031 then (s.clusOf job).foldl (fun t k => t.modClu k fun q => q.trim (t.job job).cfg.retq) s else s

/-- CSRR (R376). -/
def execCsrr (o : OpS) (s : State) : Host.Outcome State Fault Refusal :=
  let i := sregNo o.a
  if csrHandler i && s.me.sys.lvl == .run then .next s.priv
  else
    s.finish do
      s.dirs o.d (.x 0) (.x 0)
      let t ← s.wr o.d (s.csr s.cur i)
      pure t.advance

/-- CSRW (R376). -/
def execCsrw (o : OpS) (s : State) : Host.Outcome State Fault Refusal :=
  let i := sregNo o.d
  if csrWritable s.me.sys.lvl i then .next (s.setCsr s.cur i (s.me.xi o.a)).advance else .next s.priv

/-! ## Shootdown (R48, R49, R377) -/

/-- TLBINV of a form: PRIV at RUN, the effect of FENCE.pkg, then the invalidation at every core of the job. -/
def State.tlbinv (s : State) (form : Option InvForm) : Host.Outcome State Fault Refusal :=
  let n := s.cur
  let job := s.me.run.job
  if s.me.sys.lvl = .run then .next s.priv
  else
    match form with
    | none => .next s.illegal
    | some f =>
      if s.me.stage.ph = 5 then .next (if s.shoots.any (·.id == s.me.stage.a) then s else s.advance)
      else
        let (ok, s) := s.relHalf n true fun _ => true
        if !ok then .next s
        else
          let s := s.acqHalf n .pkg
          let cores := (s.clus.filter fun p => p.2.owner == some job).flatMap fun p => (List.range 8).map (p.1 * 8 + ·)
          let h : Shoot := { id := s.seq, job := job, form := f, cores := cores }
          let s := { s with shoots := if cores.isEmpty then s.shoots else s.shoots ++ [h], seq := s.seq + 1 }
          .next (s.modMe fun c => { c with stage := { c.stage with ph := 5, a := s.seq - 1 } })

/-- TLBINV.range (R377). -/
def execTlbinvRange (o : OpS) (s : State) : Host.Outcome State Fault Refusal :=
  let a := s.me.xOpd o.a
  let l := s.me.xOpd o.b
  let e := a + (if l = 0 then 1 else l)
  s.tlbinv (if a < 2 ^ 55 ∧ e ≤ 2 ^ 55 then some (.range a e) else none)
/-- TLBINV.subpage (R377). -/
def execTlbinvSubpage (o : OpS) (s : State) : Host.Outcome State Fault Refusal :=
  s.tlbinv ((s.coordCore (s.me.xOpd o.a)).map .subpage)
/-- TLBINV.job (R377). -/
def execTlbinvJob (_ : OpS) (s : State) : Host.Outcome State Fault Refusal := s.tlbinv (some .all)

/-- Whether an invalidation for a job removes an entry of a TLB. -/
def InvForm.hits (f : InvForm) (job : Nat) (t : Tlb) : Bool :=
  let va := t.page * 2 ^ t.shift
  t.job == job && match f with
  | .range lo hi => decide (va < 2 ^ 55) && decide (va < hi) && decide (lo < va + 2 ^ t.shift)
  | .subpage c => t.core == some c
  | .all => true
  | .arena slot gen => decide (2 ^ 55 ≤ va) && va / 2 ^ 40 % 4096 == slot && va / 2 ^ 32 % 256 == gen

/-- The entries leave the TLBs of a core, the floated streams of its contexts, and the second-level TLB of its cluster (R36, R37,
R48). -/
def State.tlbDrop (s : State) (core job : Nat) (f : InvForm) : State :=
  let s := (List.range 4).foldl (fun (t : State) i => if (t.ctx (core * 4 + i)).streams.isEmpty then t else
    t.modCtx (core * 4 + i) fun c =>
      { c with streams := c.streams.map fun p => (p.1, { p.2 with tr := p.2.tr.filter fun e => !f.hits job e }) }) s
  (s.modCore core fun k => { k with tlb := k.tlb.filter fun t => !f.hits job t, itlb := k.itlb.filter fun t => !f.hits job t }).modClu
    (cluOfCore core) fun c => { c with tlb2 := c.tlb2.filter fun t => !f.hits job t }

/-- SHOOTDOWN_ACK (R49): the core receives the oldest invalidation of its job that it has not acknowledged, and
acknowledges it once the stores of the old epoch have reached their places. -/
def execShootdownAck (core : Nat) (s : State) : Host.Outcome State Fault Refusal :=
  match s.shoots.find? fun h => (s.clu (cluOfCore core)).owner == some h.job with
  | none => .next s
  | some h =>
    if !h.cores.contains core then .next s
    else if !(s.core core).inv.contains h.id then
      .next ((s.tlbDrop core h.job h.form).modCore core fun k => { k with epoch := !k.epoch, inv := k.inv ++ [h.id] })
    else
      let k := s.core core
      if (if k.epoch then k.cnt0 else k.cnt1) ≠ 0 then .next s
      else
        let s := s.modCore core fun k => { k with inv := k.inv.filter (· != h.id) }
        let left := h.cores.filter (· != core)
        .next { s with shoots :=
          if left.isEmpty then s.shoots.filter (·.id != h.id)
          else s.shoots.map fun g => if g.id == h.id then { g with cores := left } else g }

/-! ## Time, random numbers, debugger, counters, markers (R378 to R381) -/

/-- A scalar answer. -/
def State.answerW (s : State) (d : Opd) (w : Nat) : Host.Outcome State Fault Refusal :=
  s.finish do
    s.dirs d (.x 0) (.x 0)
    let t ← s.wr d (BitVec.ofNat 64 w)
    pure t.advance

/-- RDTIME (R378). -/
def execRdtime (o : OpS) (s : State) : Host.Outcome State Fault Refusal :=
  s.belowFirm fun s =>
    if !(s.me.dstOk o.d) then .next s.illegal
    else
      match s.wr o.d 0 with
      | .error e => s.finish (.error e)
      | .ok _ =>
        let now := s.pkg.time + Config.timeStep s.free
        let (v, t) := ({ s.bump with pkg := { s.pkg with time := now } }).jrnVal s.me.run.job ⟨jTime, s.cur, now, []⟩
        t.answerW o.d v.val

/-- RDRAND (R378): value and RNDF are journalled together. -/
def execRdrand (o : OpS) (s : State) : Host.Outcome State Fault Refusal :=
  s.belowFirm fun s =>
    if !(s.me.dstOk o.d) then .next s.illegal
    else
      match s.wr o.d 0 with
      | .error e => s.finish (.error e)
      | .ok _ =>
        let bad := s.pkg.rbgBad || !Config.rbgInTime s.free
        let v := if bad then 0 else (Config.freeWord s.free).toNat
        let (r, t) := s.bump.jrnVal s.me.run.job ⟨jRand, s.cur, v, [bad.toNat]⟩
        (if r.more = [1] then t.modMe fun c => c.setCstat cstatRndf else t).answerW o.d r.val

/-- EBREAK (R379). -/
def execEbreak (_ : OpS) (s : State) : Host.Outcome State Fault Refusal :=
  s.belowFirm fun s =>
    if s.pkg.dbg = 2 ∧ s.me.sys.dbgOn then
      .next (s.modMe fun c => (c.modSys fun y => { y with dbgHalt := true }).advance)
    else .next (s.raise s.cur s.me.pc (s.me.pc + 12) { code := clsTrap, idx := 0x10001 })

/-- A counter of clock cycles rises by what has passed since it was read, a free amount that leaves it within its 64 bits
(Table 20-6): one of blocked cycles only where the context has been blocked since; the others hold their counts. -/
def State.cycles (s : State) (n k : Nat) : State :=
  let c := s.ctx n
  let more := k == 0 || (k == 2 && c.sys.blkQ) || (k == 3 && c.sys.blkM)
  if more then
    s.bump.modCtx n fun c =>
      (c.countBy k (min (Config.freeWord s.free).toNat (2 ^ 64 - 1 - (c.sys.pm.get 0 k).toNat))).modSys fun y =>
        { y with blkQ := y.blkQ && k != 2, blkM := y.blkM && k != 3 }
  else s
/-- The value of a context counter; those above 7 read 0. -/
def State.counterVal (s : State) (n k : Nat) : Nat := if 8 ≤ k then 0 else ((s.ctx n).sys.pm.get 0 k).toNat

/-- PMRD (R380). DESIGN CHOICE (assumption log 123): its checks come before the wait for room in the destination queue. -/
def execPmrd (o : OpS) (s : State) : Host.Outcome State Fault Refusal :=
  s.belowFirm fun s =>
    let k := (s.me.xi o.a).toNat
    if 15 < k then .next s.illegal
    else if !s.me.dstOk o.d then .next s.illegal
    else
      match s.wr o.d 0 with
      | .error e => s.finish (.error e)
      | .ok _ => let t := s.cycles s.cur k; t.answerW o.d (t.counterVal s.cur k)

/-- JMARK (R381). -/
def execJmark (o : OpS) (s : State) : Host.Outcome State Fault Refusal :=
  s.belowFirm fun s =>
    let v := match o.b with | .long i => i.toNat | b => (Opd.immVal b).toNat % 2 ^ 32
    let job := s.me.run.job
    let e : JEv := ⟨jMarker, packCoord s.cur, v, []⟩
    match s.myJob.cfg.mode with
    | 2 =>
      match nextMark e.who s.myJob.journal with
      | some (f, r) =>
        let t := s.modJob job fun j => { j with journal := r }
        .next (if f = e then t else t.report 17 job).advance
      | none => .next (s.report 17 job).advance
    | _ => .next (s.jrn job e).advance

end Sys2Proof.Machine
end

