-- ==== Sys2Proof/Machine/Sched.lean ====
section
/-!
DEFINITION. Steps of the scheduler before a run starts (R39, R42, R136, R137, R139, R179, R193) and after its
node has ended (R141, R142, R146, R180). A node is named by its graph times 2^32 plus its id.
-/
namespace Sys2Proof.Machine

def nodeG (w : Nat) : Nat := w / 2 ^ 32
def nodeN (w : Nat) : Nat := w % 2 ^ 32
def State.nodeAt (s : State) (job w : Nat) : Option Node := (s.job job).node? (nodeG w) (nodeN w)
def State.modNode (s : State) (job : Nat) (x : Node) (f : Node → Node) : State := s.modJob job fun j => j.modNode x.graph x.id f

/-- A step on a node of a job that is not being pre-empted; otherwise nothing happens. -/
def State.onNode (s : State) (job w : Nat) (f : Node → State) : Host.Outcome State Fault Refusal :=
  match s.nodeAt job w with
  | some x => .next (if (s.job job).pre = .none then f x else s)
  | none => .next s

/-! ## Readiness, lease, arenas, walker -/

/-- NODE_READY (R179). -/
def execNodeReady (job node : Nat) (s : State) : Host.Outcome State Fault Refusal :=
  s.onNode job node fun x =>
    if x.st = .waiting ∧ !x.cancelled ∧ (x.early ∨ x.preds = []) then
      { s with seq := s.seq + 1 }.modNode job x fun y => { y with st := .ready, since := s.seq }
    else s

/-- The scheduler refuses a node: its record, its cancellation before any run, its fault policy (R42). -/
def State.refuseNode (s : State) (job : Nat) (x : Node) (i : FaultInfo) : State :=
  ((s.postSched job i x.graph x.id).cancel job .node x.graph x.id).faultPolicy job x.graph x.id

def slotCode : SlotSt → Nat
  | .free => 0 | .live => 1 | .dying => 2 | .quarantined => 3

/-- The check of an arena-space entry (R139). -/
def Job.arenaEntry (j : Job) (x : Node) (k : Nat) (e : BitVec 128) : Option FaultInfo :=
  let b := fpBase e
  let l := fpLen e
  let sl := j.slot (b / 2 ^ 40 % 4096)
  let bad : FaultInfo := { code := clsLease, idx := k, elem := true, addr := b }
  if sl.gen ≠ b / 2 ^ 32 % 256 then some { bad with code := clsOutlived, det := slotCode sl.st * 256 + sl.gen }
  else if sl.st ≠ .live ∨ (b + l - 1) / 2 ^ 32 ≠ b / 2 ^ 32 ∨ !j.descends (j.nodes.length + 1) x.graph x.id sl.graph sl.node
      ∨ sl.size * 2 ^ 21 < b % 2 ^ 32 + l then some bad
  else none

/-- The pages of a footprint, or the first entry that can never be made resident (R42, R139). -/
def Job.leasePages (j : Job) (x : Node) : List (BitVec 128 × Nat) → List Nat → Except FaultInfo (List Nat)
  | [], ps => .ok ps
  | (e, k) :: r, ps =>
    if 2 ^ 55 ≤ fpBase e then
      match j.arenaEntry x k e with
      | some i => .error i
      | none => j.leasePages x r ps
    else if fpClass e = 2 then j.leasePages x r ps
    else
      let ks := j.cfg.pagesOf (fpBase e) (fpLen e)
      let ps := (ps ++ ks).eraseDups
      if ks.any (fun p => !j.cfg.isBacked p) || j.cfg.overQuota ps then
        .error { code := clsLease, idx := k, elem := true, addr := fpBase e }
      else j.leasePages x r ps

/-- Pages that count against the quota beside a node's own: those pinned, and all those of other nodes whose lease
has pinned its first page (assumption log 106). -/
def Job.heldBeside (j : Job) (x : Node) : List Nat :=
  j.pins.map (·.1) ++ (j.nodes.filter fun y => y.st == .ready && !y.pins.isEmpty && !(y.graph == x.graph && y.id == x.id)).flatMap
    fun y => ((j.leasePages y y.fpt.zipIdx []).toOption).getD []

/-- LEASE_ACQUIRE (R39, R41, R42, R139): each page that is resident and is not being moved is pinned, firmware is
asked for the others, and the lease is held once every page is pinned. Nothing is pinned before the whole set fits the
quota. -/
def execLeaseAcquire (job node : Nat) (s : State) : Host.Outcome State Fault Refusal :=
  s.onNode job node fun x =>
    if x.st ≠ .ready ∨ x.cancelled then s
    else
      let j := s.job job
      match j.leasePages x x.fpt.zipIdx [] with
      | .error i => s.refuseNode job x i
      | .ok ps =>
        if !j.quotaFits ps (j.heldBeside x) then s
        else
          let left := ps.filter fun k => !x.pins.contains k
          let now := s.ready job left
          let s := s.setJob job ((j.pin now).ask (left.filter fun k => !s.resident job k))
          s.modNode job x fun y => { y with pins := y.pins ++ now, st := if now.length = left.length then .leased else .ready }

/-- Sizes of the declared arenas, by arena index (R131). -/
def Node.arenaSizes (x : Node) : List (Nat × Nat) :=
  ((List.range 4).map fun i => (i, x.fld 80 (16 * i + 15) (16 * i))).filter fun p => p.2 != 0

/-- The index of the first arena that does not fit a pool (R137). -/
def firstOver (pool : Nat) : Nat → List (Nat × Nat) → Option Nat
  | _, [] => none
  | tot, (i, n) :: r => if pool < tot + n then some i else firstOver pool (tot + n) r

/-- Birth of one arena in a slot with its frames (R136): the map, empty marks, LIVE. -/
def State.bornSlot (s : State) (job : Nat) (x : Node) (i slot : Nat) (fs : List Nat) : State :=
  let map := (s.job job).cfg.armb.toNat + slot * 16384
  let s := (fs.zipIdx).foldl (fun t p => (t.setBytes (map + 8 * p.2) (leBytes 8 (p.1 + 1))).clearMarks p.1 (2 ^ 21)) s
  (s.modJob job fun j =>
    j.setSlot slot { j.slot slot with st := .live, size := fs.length, graph := x.graph, node := x.id, frames := fs }).modNode job x
      fun y => { y with arenas := y.arenas.set i slot }

/-- Arenas brought to birth one after another, arena 0 first, until no slot is FREE; the frames of each are the pool's
choice (R134, R136). -/
def State.bear (s : State) (job : Nat) (x : Node) : List (Nat × Nat) → State
  | [] => s.modNode job x fun y => { y with st := .born }
  | (i, n) :: r =>
    let j := s.job job
    match (List.range 4096).find? fun k => (j.slot k).st == .free with
    | none => s
    | some slot =>
      let pool := rotate j.free (Config.freeWord s.free).toNat
      ((s.bump.modJob job fun j => { j with free := pool.drop n }).bornSlot job x i slot (pool.take n)).bear job x r

/-- Declared arenas of a node not yet born, and the frames they need. -/
def Node.unborn (x : Node) : List (Nat × Nat) := x.arenaSizes.filter fun p => (x.arenas.get? p.1).isNone
def Node.framesNeeded (x : Node) : Nat := (x.unborn.map (·.2)).sum

/-- Whether a node that waits for frames, and whom they suffice, comes before another one (R137): descendants of nodes
that hold LIVE arenas first, then the node that has been ready longest. -/
def Job.comesBefore (j : Job) (y x : Node) : Bool :=
  let heir (z : Node) : Bool := j.slots.any fun p =>
    p.2.st == .live && !(p.2.graph == z.graph && p.2.node == z.id)
      && j.descends (j.nodes.length + 1) z.graph z.id p.2.graph p.2.node
  let at_ (z : Node) : Nat := j.nodes.findIdx fun w => w.graph == z.graph && w.id == z.id
  y.st == .leased && !y.cancelled && y.framesNeeded != 0 && decide (y.framesNeeded ≤ j.free.length)
    && ((heir y && !heir x) || (heir y == heir x && decide (y.since < x.since ∨ (y.since = x.since ∧ at_ y < at_ x))))

/-- ARENA_BIRTH (R134, R136, R137). The order of R137 is a preference and does not restrict which node draws: a node
behind another one draws where the part so chooses. -/
def execArenaBirth (job node : Nat) (s : State) : Host.Outcome State Fault Refusal :=
  s.onNode job node fun x =>
    if x.st ≠ .leased ∨ x.cancelled then s
    else
      let j := s.job job
      match firstOver j.cfg.arpool 0 x.arenaSizes with
      | some i => s.refuseNode job x { code := clsLease, idx := i, elem := true }
      | none =>
        if j.free.length < x.framesNeeded then s
        else if x.framesNeeded ≠ 0 ∧ j.nodes.any (fun y => j.comesBefore y x) then
          (if s.freeBit then s.bump.bear job x x.unborn else s.bump)
        else s.bear job x x.unborn

/-- WALKER_CREATE (R179, R192): at the lowest-numbered cluster of the mask that the job's partition holds. A node whose mask the
partition does not meet after a restoration waits (assumption log 81). -/
def execWalkerCreate (job node : Nat) (s : State) : Host.Outcome State Fault Refusal :=
  s.onNode job node fun x =>
    if x.st ≠ .born ∨ x.cancelled then s
    else if x.tiles = 0 then s.modNode job x fun y => { y with st := .live }
    else
      let mask := (List.range 192).filter x.places
      match mask, mask.find? fun k => (s.clu k).owner == some job with
      | [], _ => s.refuseNode job x { code := clsLease, elem := false }
      | _, none => s
      | _, some home =>
        if 16 ≤ (s.clu home).walkers.length then s
        else
          let w : Walker := { graph := x.graph, node := x.id, lo := 0, next := 0, hi := x.count, out := 0, wid := 0 }
          (s.modClu home fun c => { c with walkers := c.walkers ++ [w] }).modNode job x fun y => { y with st := .live }

/-- HANDOUT (R179, R193): a cluster of the mask pulls a hand-out of a walker or spur into its run queue. -/
def execHandout (job node wid clu : Nat) (s : State) : Host.Outcome State Fault Refusal :=
  s.onNode job node fun x =>
    let has := (s.clu clu).runq.any fun h => h.graph == x.graph && h.node == x.id && decide (h.next < h.hi)
    if x.st ≠ .live ∨ x.cancelled ∨ x.redo ∨ x.gang ∨ !x.places clu ∨ (s.clu clu).owner ≠ some job ∨ has then s
    else
      match s.walker? job x.graph x.id wid with
      | none => s
      | some (home, w) =>
        match s.takeOut home w x with
        | (some (lo, hi), t) =>
          (t.queueHand clu { graph := x.graph, node := x.id, next := lo, hi := hi, wid := wid }).jrn job ⟨jHand, clu, lo, []⟩
        | (none, t) => t

/-- Hand-outs of a node that stand unstarted in run queues. -/
def State.queued (s : State) (job g n : Nat) : List Handout :=
  (s.clus.filter fun p => p.2.owner == some job).flatMap fun p =>
    p.2.runq.filter fun h => h.graph == g && h.node == n && decide (h.next < h.hi)
/-- The node's oldest queued hand-out. -/
def State.oldestQueued (s : State) (job g n : Nat) : Option Handout :=
  (s.queued job g n).foldl (fun (b : Option Handout) h =>
    match b with
    | none => some h
    | some o => if h.since < o.since then some h else b) none
/-- The effective class of a node: it falls with every AGEINT its oldest queued tile has waited (R182). -/
def State.effClass (s : State) (job : Nat) (x : Node) : Nat :=
  x.prio - ((s.oldestQueued job x.graph x.id).map (·.aged)).getD 0

/-- PRIORITY_AGE (R182): another AGEINT has passed for the node's oldest queued tile; whether one has passed for a
tile queued after it is the part's timing. -/
def execPriorityAge (job node : Nat) (s : State) : Host.Outcome State Fault Refusal :=
  s.onNode job node fun x =>
    match s.oldestQueued job x.graph x.id with
    | none => s
    | some o =>
      let older (h : Handout) : Handout :=
        if h.graph == x.graph && h.node == x.id && (h.since == o.since || Config.freeBit (s.free + h.since)) then { h with aged := h.aged + 1 }
        else h
      { s with free := s.free + s.seq + 1,
               clus := s.clus.map fun p => if p.2.owner == some job then (p.1, { p.2 with runq := p.2.runq.map older }) else p }

/-! ## Arena death (R141, R142) -/

/-- Step 1 of death: every arena of the node closes. -/
def State.closeArenas (s : State) (job : Nat) (x : Node) : State :=
  x.arenas.foldl (fun t p => t.modJob job fun j => j.setSlot p.2 { j.slot p.2 with st := .dying }) s

/-- Steps 4 and 5 of death for one slot: the map is cleared, its translations go, its frames return. -/
def State.freeSlot (s : State) (job slot : Nat) : State :=
  let sl := (s.job job).slot slot
  let s := s.zeroBytes ((s.job job).cfg.armb.toNat + slot * 16384) (8 * sl.size)
  let s := (s.clus.filter fun p => p.2.owner == some job).foldl (fun t p =>
    (List.range 8).foldl (fun u k => u.tlbDrop (p.1 * 8 + k) job (.arena slot sl.gen)) t) s
  s.modJob job fun j =>
    { j.setSlot slot { st := if sl.gen = 255 then .quarantined else .free, gen := (sl.gen + 1) % 256 } with free := j.free ++ sl.frames }

/-- Whether an access to an arena of the node is still on its way: a store in SB, an open load, or a request or its reply
(R142, step 2). -/
def State.arenaBusy (s : State) (job : Nat) (x : Node) : Bool :=
  let tags := x.arenas.map fun p => 0xA * 2 ^ 20 + p.2 * 256 + ((s.job job).slot p.2).gen
  let names (va : Nat) : Bool := tags.contains (va / 2 ^ 32)
  let asks (p : Packet) : Bool := p.cls != .wb && names p.va && (match p.who with
    | .store n | .load n _ _ | .instr n | .chan n _ | .stream n _ | .prf n _ _ => (s.ctx n).run.job == job || (s.ctx n).run.kind == .free
    | .job k _ | .clu k _ => (s.clu k).owner == some job
    | .host node => ((s.pkg.cmds.get [] node).head?.map (·.job)) == some job
    | .nobody => false)
  (s.ctxs.any fun p => p.2.run.job == job
      && (p.2.sb.any (fun e => names e.va) || p.2.loads.any fun l => l.pieces.any fun q => q.st != .fixed && names q.va))
    || s.net.any asks || (s.job job).stalled.any asks || s.homes.lines.any fun h => h.2.waiting.any asks

/-- What follows the death of a node's arenas: the next attempt of a re-executed node, unless it is cancelled, begins at the
birth of its arenas (R149, R415). -/
def Node.reborn (x : Node) : Node :=
  if x.redo ∧ !x.cancelled then { x with st := .leased, arenas := [], disc := none, redo := false, attempt := x.attempt + 1, counter := x.tiles + 1, marked := false }
  else { x with arenas := [], disc := none }

/-- ARENA_DEATH (R142, steps 2 to 5). -/
def execArenaDeath (job node : Nat) (s : State) : Host.Outcome State Fault Refusal :=
  s.onNode job node fun x =>
    if x.st ≠ .dying ∨ x.arenas = [] then s
    else
      match x.disc with
      | none =>
        if s.arenaBusy job x then s
        else
          let rs := x.arenas.flatMap fun p => ((s.job job).slot p.2).frames.map fun f => (f, 2 ^ 21)
          let (id, s) := s.beginDiscard job rs
          s.modNode job x fun y => { y with disc := some id }
      | some id =>
        if ((s.discards.get? id).map (·.done)).getD true then
          let s := x.arenas.foldl (fun t p => t.freeSlot job p.2) s
          { s with discards := s.discards.erase id }.modNode job x Node.reborn
        else s

/-- ARENA_SWEEP (R146): a shootdown of the whole job, then quarantined slots become FREE at generation 0. -/
def execArenaSweep (job : Nat) (s : State) : Host.Outcome State Fault Refusal :=
  let j := s.job job
  match j.sweep with
  | none =>
    if j.slots.any fun p => p.2.st == .quarantined then
      let cores := (s.clus.filter fun p => p.2.owner == some job).flatMap fun p => (List.range 8).map (p.1 * 8 + ·)
      let h : Shoot := { id := s.seq, job := job, form := .all, cores := cores }
      .next ({ s with shoots := if cores.isEmpty then s.shoots else s.shoots ++ [h], seq := s.seq + 1 }.setJob job { j with sweep := some s.seq })
    else .next s
  | some id =>
    if s.shoots.any (·.id == id) then .next s
    else
      .next (s.setJob job
        { j with sweep := none, slots := j.slots.map fun p => if p.2.st = .quarantined then (p.1, { p.2 with st := .free, gen := 0 }) else p })

/-! ## Completion (R180) -/

/-- Banks kept for a node's first runs are lost (R162). -/
def State.dropKept (s : State) (job : Nat) (x : Node) : State :=
  (s.cores.map (·.1)).foldl (fun t k =>
    if (t.clu (cluOfCore k)).owner = some job then
      t.modCore k fun c => { c with kept := c.kept.filter fun e => !(e.graph == x.graph && e.node == x.id) }
    else t) s

/-- The completion notification (R152). -/
def State.notify (s : State) (job : Nat) (x : Node) : State :=
  if x.fld 104 31 31 = 1 then
    match unpackCoord (x.fld 104 12 0) with
    | some n =>
      if (s.job job).cfg.holds (cluOf n) then
        s.send { cls := .req, who := .nobody, pl := .arrive (coreOf n) (x.fld 104 20 16) .plain }
      else s
    | none => s
  else s

/-- Steps 2 to 5 of R180, and the counters of the levels above (Table 08-1). -/
def State.finishNode (s : State) (job : Nat) (x : Node) : State :=
  let s := s.modJob job fun j => (j.unpin x.pins).modNode x.graph x.id fun y => { y with st := .done, counter := 0, pins := [] }
  let s := s.counterZero job .node (BitVec.ofNat 64 (x.graph * 2 ^ 32 + x.id))
  let s := (s.notify job x).dropKept job x
  let s := s.modJob job fun j =>
    { j with nodes := j.nodes.map fun y => if y.graph == x.graph then { y with preds := y.preds.filter (· != x.id) } else y }
  let s := match (s.job job).parentOf x with
    | some (g, n) => s.nodeDown job g n 1
    | none => s
  s.graphDown job x.graph

/-- The work of an abandoned attempt that has not started is dropped (R415). -/
def State.dropAttempt (s : State) (job : Nat) (x : Node) : State :=
  let mine (g n : Nat) : Bool := g == x.graph && n == x.id
  let s := s.clus.foldl (fun t p =>
    if p.2.owner = some job then
      t.modClu p.1 fun c => { c with walkers := c.walkers.filter fun w => !mine w.graph w.node, runq := c.runq.filter fun h => !mine h.graph h.node }
    else t) s
  let s := s.cores.foldl (fun t p =>
    if (t.clu (cluOfCore p.1)).owner = some job then
      t.modCore p.1 fun c => { c with deque := c.deque.filter fun k => !mine k.graph k.node, mail := c.mail.filter fun k => !mine k.graph k.node }
    else t) s
  s.modJob job fun j => 
    { j with graphs := j.graphs.map fun h => { h with spill := h.spill.filter fun k => !mine k.graph k.node } : Job }.freeRings

/-- NODE_COMPLETE (R180, R141): the arenas of a finished node close, and once they are dead its completion
steps follow; a node whose attempt is abandoned closes its arenas when its last run has halted (R415). One that is cancelled
with its attempt abandoned completes once its runs have halted and its child graphs are done (R141, R153): the counts of the
runs that were to start again do not come down. -/
def execNodeComplete (job node : Nat) (s : State) : Host.Outcome State Fault Refusal :=
  s.onNode job node fun x =>
    let busy := s.nodeBusy job x.graph x.id
    if x.redo ∧ !x.cancelled ∧ x.st = .live then
      if busy then s
      else
        let s := s.dropAttempt job x
        if x.arenas = [] then (s.modNode job x Node.reborn).jrn job ⟨jRedo, node, x.attempt + 1, []⟩
        else ((s.closeArenas job x).modNode job x fun y => { y with st := .dying }).jrn job ⟨jRedo, node, x.attempt + 1, []⟩
    else if x.st = .done ∨ (x.redo ∧ !x.cancelled) then s
    else
      let s := if x.redo ∧ !busy then s.dropAttempt job x else s
      let s := if x.st = .dying then s else s.closeKids job x.graph x.id
      let alone := (s.job job).graphs.all fun h => h.parent != some (x.graph, x.id) || h.done
      if x.st = .dying then (if x.arenas = [] then s.finishNode job x else s)
      else if (x.st = .live ∨ x.cancelled) ∧ (x.counter = 1 ∨ (x.redo ∧ alone)) ∧ !busy ∧ (s.walkersOf job x.graph x.id).isEmpty then
        if x.arenas = [] then s.finishNode job x
        else (s.closeArenas job x).modNode job x fun y => { y with st := .dying }
      else s

end Sys2Proof.Machine
end

