-- ==== Sys2Proof/Machine/Runs.lean ====
section
/-!
DEFINITION. Steps of the scheduler that start runs and end cancelled ones (R153, R158 to R166, R181 to R184,
R363, R399).
-/
namespace Sys2Proof.Machine

/-! ## Where a run may start (R150, R158, R162, R184) -/

/-- Every graph of an earlier phase has completed (R150). -/
def Job.phaseOk (j : Job) (x : Node) : Bool :=
  match j.graph? x.graph with
  | none => false
  | some g =>
    let before := (j.phases.map (·.id)).takeWhile (· != g.phase)
    j.graphs.all fun h => h.done || !before.contains h.phase

/-- Kept banks whose successor may still inherit them. -/
def State.keptOf (s : State) (core : Nat) : List Kept :=
  let j := s.job (s.ownerOf core)
  (s.core core).kept.filter fun k =>
    match j.node? k.graph k.node with
    | some x => !x.cancelled && x.st != .done
    | none => true

/-- Banks a run would start on: inherited ones in order, further ones to be zeroed, and the surplus of the
inherited ones. -/
structure Fit where
  inh   : List Nat := []
  fresh : List Nat := []
  extra : List Nat := []
  deriving DecidableEq, Repr

/-- The contexts of a core whose runs belong to nodes with unfinished predecessors (R184). -/
def State.earlyRuns (s : State) (core : Nat) : List Run :=
  (((List.range 4).map fun k => (s.ctx (core * 4 + k)).run).filter fun r =>
    r.kind != .free && (((s.job r.job).node? r.graph r.node).map fun x => !x.preds.isEmpty).getD false)

/-- Whether a run of a node may start on a core, and on which banks (R158, R162, R184). -/
def State.fits (s : State) (core : Nat) (x : Node) : Option Fit :=
  let kept := s.keptOf core
  let mine := ((kept.find? fun k => k.graph == x.graph && k.node == x.id).map (·.banks)).getD []
  let held := ((List.range 4).flatMap fun k => let r := (s.ctx (core * 4 + k)).run; if r.kind = .free then [] else r.banks)
    ++ kept.flatMap (·.banks) ++ (s.core core).clearing
  let free := (List.range 12).filter fun b => !held.contains b
  let inh := mine.take x.banks
  let need := x.banks - inh.length
  let early := s.earlyRuns core
  let rsvb := (s.job (s.ownerOf core)).cfg.rsvb
  if free.length < need then none
  else if !x.preds.isEmpty && (decide (3 ≤ early.length)
      || decide (12 - rsvb < ((early.map (·.banks.length)).foldl (· + ·) 0) + x.banks)) then none
  else some { inh := inh, fresh := free.take need, extra := mine.drop x.banks }

/-- The node of started work, when its runs may be placed now. -/
def State.placeable (s : State) (job g n : Nat) : Option Node :=
  match (s.job job).node? g n with
  | some x => if x.st = .live ∧ !x.cancelled ∧ !x.redo ∧ (s.job job).phaseOk x then some x else none
  | none => none

/-! ## The start of a run (R158 to R160) -/

/-- The registers of every kind of run (Table 08-3). -/
def State.startRegs (s : State) (n : Nat) (x : Node) (c : Ctx) : Ctx :=
  let w (v : Nat) : Word := BitVec.ofNat 64 v
  let j := s.job (s.ownerOf (coreOf n))
  let k := s.core (coreOf n)
  let sp := if k.sprl.toNat = 0 then 0 else k.sprb.toNat * 2 ^ 21 + (n % 4 + 1) * k.sprl.toNat * 2 ^ 19
  (((((c.setX 6 (w x.param)).setX 7 (w (x.graph * 2 ^ 32 + x.id))).setX 8 (w (j.handle x 0))).setX 9 (w (j.handle x 1))).setX 60 (w sp)).setX 62
    (w (packCoord n))

/-- Kind, entry, tile and hand-out of a run about to start. -/
structure Start where
  kind : RunKind
  pc   : Nat
  tile : Option (Nat × Nat) := none
  hand : Option Hand := none
  rank : Nat := 0
  deriving DecidableEq, Repr

/-- A run starts: context, banks, clear path, registers, the acquire half of every run of a launched node (R366, which
takes in those of R164 and R170); the nodes with an edge to its node are
no longer restartable (R415). -/
def State.startRun (s : State) (n : Nat) (x : Node) (f : Fit) (r : Start) (regs : Ctx → Ctx) : State :=
  let job := s.ownerOf (coreOf n)
  let c : Ctx :=
    { run := { kind := r.kind, job := job, graph := x.graph, node := x.id, tile := r.tile, hand := r.hand, rank := r.rank, banks := f.inh ++ f.fresh },
      pc := BitVec.ofNat 64 r.pc, nextId := (s.ctx n).nextId,
      sys := { cstat := if f.inh.isEmpty then 0 else BitVec.twoPow 64 cstatInh } }
  let s := s.setCtx n (regs (s.startRegs n x c))
  let s := s.modCore (coreOf n) fun k =>
    { k with clearing := k.clearing ++ f.fresh ++ f.extra,
             kept := match k.kept.findIdx? fun e => e.graph == x.graph && e.node == x.id with
               | some i => k.kept.eraseIdx i
               | none => k.kept }
  let s := s.modJob job fun j =>
    { j with nodes := j.nodes.map fun y => if y.graph == x.graph && x.preds.contains y.id then { y with marked := true } else y }
  let s := s.jrn job ⟨jPlace, n, x.graph * 2 ^ 32 + x.id, []⟩
  let s := s.ungate (coreIsland (coreOf n))
  s.acqHalf n .pkg

/-- A task or handler starts from its record. -/
def State.startTask (s : State) (n : Nat) (x : Node) (f : Fit) (t : Task) (kind : RunKind) : State :=
  s.startRun n x f { kind := kind, pc := t.code.toNat } fun c =>
    let c := ((c.setX 1 t.arg).setX 10 t.fp).setX 11 t.jrec
    if kind = .handler then c.setX 12 (BitVec.ofNat 64 t.sender) else c

/-- A tile run starts from a hand-out. -/
def State.startTile (s : State) (n : Nat) (x : Node) (f : Fit) (lo hi wid : Nat) : State :=
  match x.first (hi - lo + 1) lo hi with
  | none => s
  | some (i, _) =>
    s.startRun n x f { kind := .tile, pc := x.entry, tile := some (i, wid), hand := some ⟨i + 1, hi, wid⟩ } fun c => c.tileRegs x i

/-! ## Sources (R181) -/

/-- Key of a hand-out in a run queue: unfinished predecessors, effective class, place of graph and node in the
order of creation and launch. -/
def State.key (s : State) (job : Nat) (x : Node) : Nat × Nat × Nat × Nat :=
  let j := s.job job
  ((!x.preds.isEmpty).toNat, s.effClass job x, j.graphs.findIdx (·.id == x.graph), j.nodes.findIdx fun y => y.graph == x.graph && y.id == x.id)
def keyLt (a b : Nat × Nat × Nat × Nat) : Bool :=
  decide (a.1 < b.1) || (a.1 == b.1 && (decide (a.2.1 < b.2.1) || (a.2.1 == b.2.1
    && (decide (a.2.2.1 < b.2.2.1) || (a.2.2.1 == b.2.2.1 && decide (a.2.2.2 < b.2.2.2))))))

/-- Source 1: the oldest entry of the mailbox. -/
def State.source1 (s : State) (job n : Nat) : Option State :=
  let core := coreOf n
  match (s.core core).mail with
  | [] => none
  | t :: _ => do
    let x ← s.placeable job t.graph t.node
    let f ← s.fits core x
    pure ((s.modCore core fun k => { k with mail := k.mail.drop 1 }).startTask n x f t .handler)

/-- Source 2: the youngest entry of the deque. -/
def State.source2 (s : State) (job n : Nat) : Option State := do
  let core := coreOf n
  let t ← (s.core core).deque.getLast?
  let x ← s.placeable job t.graph t.node
  let f ← s.fits core x
  pure (((s.modCore core fun k => { k with deque := k.deque.dropLast }).jrn job ⟨jTake, core, 2, []⟩).startTask n x f t .task)

/-- Hand-outs of a run queue a context may take, each with its place in the queue. -/
def State.queueFits (s : State) (job n : Nat) : List (Nat × Handout × Node × Fit) :=
  ((s.clu (cluOf n)).runq.zipIdx).filterMap fun p =>
    if p.1.next < p.1.hi then do
      let x ← s.placeable job p.1.graph p.1.node
      let f ← s.fits (coreOf n) x
      if x.places (cluOf n) then pure (p.2, p.1, x, f) else none
    else none

/-- Source 3: the run queue in the order of its keys. -/
def State.source3 (s : State) (job n : Nat) : Option State :=
  let best := (s.queueFits job n).foldl (fun (b : Option (Nat × Handout × Node × Fit)) c =>
    match b with
    | none => some c
    | some d => if keyLt (s.key job c.2.2.1) (s.key job d.2.2.1) then some c else some d) none
  best.map fun (i, h, x, f) =>
    let s := s.modClu (cluOf n) fun c =>
      { c with runq :=
          match h.rem with
          | some _ => c.runq.set i { h with next := h.hi }
          | none => c.runq.eraseIdx i }
    s.startTile n x f h.next h.hi h.wid

/-- Source 4, first half: the oldest entry of a deque of another core of the cluster. -/
def State.source4a (s : State) (job n : Nat) : Option State :=
  let core := coreOf n
  let others := (rotate (List.range 8) (Config.freeWord s.free).toNat).map (cluOf n * 8 + ·) |>.filter (· != core)
  others.findSome? fun k =>
    match (s.core k).deque with
    | [] => none
    | t :: _ => do
      let x ← s.placeable job t.graph t.node
      let f ← s.fits core x
      pure (((s.bump.modCore k fun c => { c with deque := c.deque.drop 1 }).jrn job ⟨jTake, k, 4, []⟩).startTask n x f t .task)

/-- Source 4, second half: the oldest entry of a spill ring. -/
def State.source4b (s : State) (job n : Nat) : Option State :=
  (rotate (s.job job).graphs (Config.freeWord s.free).toNat).findSome? fun g =>
    match g.spill with
    | [] => none
    | t :: _ => do
      let x ← s.placeable job t.graph t.node
      let f ← s.fits (coreOf n) x
      if x.places (cluOf n) then
        pure (((s.bump.ringTaken job g.id (g.spill.drop 1)).jrn job ⟨jTake, 2 ^ 16 + g.id, 4, []⟩).startTask n x f (s.ringRead job (coreOf n) g t) .task)
      else none

/-- Source 5: a spur, with its first hand-out taken in the same step (R197, R399). DESIGN CHOICE (assumption log 108): the
choice of the walker is made in that step too. -/
def State.source5 (s : State) (job n : Nat) : Option State := do
  let q := cluOf n
  let (x, clu, w) ← s.bestSplit job q
  let x ← s.placeable job x.graph x.id
  let f ← s.fits (coreOf n) x
  match s.split job x clu w q with
  | (false, _) => none
  | (true, t) =>
    match (t.clu q).walkers.getLast? with
    | none => none
    | some v =>
      match t.takeOut q v x with
      | (some (lo, hi), u) => pure ((u.jrn job ⟨jSplit, clu, lo, []⟩).startTile n x f lo hi v.wid)
      | (none, u) => pure u

/-- The first source that offers a run to a free context (R181). -/
def State.offer (s : State) (job n : Nat) : Option (Nat × State) :=
  [(1, s.source1 job n), (2, s.source2 job n), (3, s.source3 job n), (4, s.source4a job n), (4, s.source4b job n), (5, s.source5 job n)].findSome?
    fun p => p.2.map fun t => (p.1, t)

/-! ## Gangs (R183, R363) -/

/-- Whether a free context may take a run of a gang: neither its mailbox nor its deque offers it one, and no hand-out of
its run queue that it may take comes before the node (R181). DESIGN CHOICE (assumption log 107): the spec lists no
source for the ranks of a gang; they stand with the hand-outs of source 3. -/
def State.gangTakes (s : State) (job : Nat) (x : Node) (n : Nat) : Bool :=
  (s.ctx n).run.kind == .free && (s.source1 job n).isNone && (s.source2 job n).isNone
    && (s.queueFits job n).all fun d => !keyLt (s.key job d.2.2.1) (s.key job x)
/-- A free context of a core where a run of the node fits. -/
def State.gangPlace (s : State) (job : Nat) (x : Node) (core : Nat) : Option (Nat × Fit) := do
  let n ← ((List.range 4).map (core * 4 + ·)).find? (s.gangTakes job x)
  let f ← s.fits core x
  pure (n, f)

/-- One place per core of the job's clusters (R186); one per cluster when the tiles do not outnumber the clusters of the
mask. -/
def State.gangPlaces (s : State) (job : Nat) (x : Node) : List (Nat × Fit) :=
  let clus := (rotate (List.range 192) (Config.freeWord s.free).toNat).filter x.places
  let at_ (c : Nat) : List (Nat × Fit) :=
    if (s.clu c).owner = some job then ((List.range 8).map (c * 8 + ·)).filterMap (s.gangPlace job x) else []
  if x.tiles ≤ clus.length then clus.flatMap fun c => (at_ c).take 1 else clus.flatMap at_

/-- Every rank of a gang starts, or none. -/
def State.startGang (s : State) (job : Nat) (x : Node) : State :=
  match s.walker? job x.graph x.id 0 with
  | none => s
  | some (home, w) =>
    let idx := (List.range w.hi).filter x.valid
    let ps := (s.gangPlaces job x).take idx.length
    if w.next ≠ 0 ∨ idx.isEmpty ∨ ps.length < idx.length then s
    else
      let s := s.bump.putWalker home { w with next := w.hi, out := idx.length }
      (ps.zip idx).foldl (fun t p =>
        t.startRun p.1.1 x p.1.2 { kind := .gang, pc := x.entry, tile := some (p.2, 0), rank := p.2 } fun c => c.tileRegs x p.2) s

/-- RUN_START (R158, R181): a free context takes its next run from the source named, when that is the first
source that offers one; a source of 6 or more names a gang node, 6 + 8 × node, all of whose ranks start. No run of a job starts while
a record of its restoration waits for a place (assumption log 81). -/
def execRunStart (ctx source : Nat) (s : State) : Host.Outcome State Fault Refusal :=
  match (s.clu (cluOf ctx)).owner with
  | none => .next s
  | some job =>
    let j := s.job job
    if j.pre ≠ .none ∨ !j.savedWalkers.isEmpty ∨ !j.savedHands.isEmpty ∨ !j.savedTasks.isEmpty ∨ 6144 ≤ ctx then .next s
    else if 6 ≤ source then
      match s.placeable job (nodeG ((source - 6) / 8)) (nodeN ((source - 6) / 8)) with
      | some x => .next (if x.gang then s.startGang job x else s)
      | none => .next s
    else if (s.ctx ctx).run.kind ≠ .free then .next s
    else
      match s.offer job ctx with
      | some (k, t) => .next (if k = source then t else s)
      | none => .next s

/-- BANK_CLEAR_COMPLETE (R51, R158): the bank reads as zero and its marks are empty. -/
def execBankClearComplete (core bank : Nat) (s : State) : Host.Outcome State Fault Refusal :=
  if (s.core core).clearing.contains bank then
    .next (((s.zeroBytes (bankKey core bank 0) 32768).clearMarks (bankKey core bank 0) 32768).modCore core fun k =>
      { k with clearing := k.clearing.filter (· != bank) })
  else .next s

/-- The last k elements of a list that meet a test, and the others. -/
def takeLast {α : Type} (k : Nat) (p : α → Bool) (l : List α) : List α × List α :=
  let hits := l.countP p
  let r := l.foldl (fun (a : List α × List α × Nat) e =>
    if p e then (if hits < a.2.2 + 1 + k then (a.1 ++ [e], a.2.1, a.2.2 + 1) else (a.1, a.2.1 ++ [e], a.2.2 + 1))
    else (a.1, a.2.1 ++ [e], a.2.2)) ([], [], 0)
  (r.1, r.2.1)

/-- DEQUE_REFILL (R166): the records spilled most recently from the core return to its empty deque. DESIGN CHOICE
(assumption log 104): up to 8 of them, from one ring that holds some. -/
def execDequeRefill (core : Nat) (s : State) : Host.Outcome State Fault Refusal :=
  let job := s.ownerOf core
  let mine (t : Task) : Bool := t.core == core
  if (s.job job).pre ≠ .none ∨ !(s.core core).deque.isEmpty then .next s
  else
    match (rotate (s.job job).graphs (Config.freeWord s.free).toNat).find? fun g => g.spill.any mine with
    | none => .next s
    | some g =>
      let (got, rest) := takeLast 8 mine g.spill
      let got := got.map (s.ringRead job core g)
      .next (((s.bump.modCore core fun k => { k with deque := got }).ringTaken job g.id rest).jrn job ⟨jSpill, core, got.length, []⟩)

/-- CANCELLED_HALT (R153, R415): a run of a cancelled node, or of an abandoned attempt, halts at an instruction
boundary; requests not taken are withdrawn first. -/
def execCancelledHalt (ctx : Nat) (s : State) : Host.Outcome State Fault Refusal :=
  let c := s.ctx ctx
  match s.nodeOf ctx with
  | none => .next s
  | some x =>
    if c.run.kind = .free ∨ c.sys.ending ≠ 0 ∨ (s.job c.run.job).pre ≠ .none ∨ !((x.cancelled && !x.drain) || x.redo) then .next s
    else
      let s := s.withdraw ctx true
      if (s.ctx ctx).stage.taken then .next s else .next (s.beginEnd ctx (if x.redo then 3 else 1))

/-- RETAIN_EXPIRE (R162): RETAINNS has passed for the banks kept longest on a core. -/
def execRetainExpire (core : Nat) (s : State) : Host.Outcome State Fault Refusal :=
  .next (s.modCore core fun k => { k with kept := k.kept.drop 1 })

end Sys2Proof.Machine
end

