-- ==== Sys2Proof/Machine/Firmware.lean ====
section
/-!
DEFINITION. Steps of firmware (R32, R41, R57, R60, R62, R65, R67, R132, R402): page moves, format windows, job
configuration and the thermal flags.
-/
namespace Sys2Proof.Machine

/-! Kinds of reports to system software. -/

def rWindow : Nat := 1
def rConfig : Nat := 2
def rAperture : Nat := 3
def rPort : Nat := 4
def rImage : Nat := 5
def rPoison : Nat := 6
def rHealth : Nat := 7
def rDebug : Nat := 8
def rAlarm : Nat := 9

/-! ## Page moves (R41) -/

/-- Where the leaf or sub-page entry of a page stands. -/
def State.leafAt (s : State) (job k : Nat) : Option Nat :=
  let cfg := (s.job job).cfg
  let va := keyVA k
  if keySub k then
    (cfg.subs.get? (keyCore k)).map fun e => e.2.2.toNat + 8 * ((va - e.1.toNat * 2 ^ 21) / 1024)
  else do
    let t2 ← entryField (s.word (cfg.hptb.toNat + 8 * (va / 2 ^ 43))) 14
    let t3 ← entryField (s.word (t2 + 8 * (va / 2 ^ 32 % 2 ^ 11))) 14
    if ptrOk t2 && ptrOk t3 then pure (t3 + 8 * (va / 2 ^ 21 % 2 ^ 11)) else none

def keySize (k : Nat) : Nat := if keySub k then 1024 else 2 ^ 21

/-- Whether a packet still on its way names a line of a range of places. -/
def Packet.touches (p : Packet) (lo n : Nat) : Bool :=
  let inside (k : Nat) : Bool := decide (lo ≤ k) && decide (k < lo + n)
  match p.pl with
  | .write l _ | .read l _ _ | .atomic l _ _ _ _ _ => inside l.key
  | .reg l _ _ | .plf l | .writeBack l _ _ _ | .redBack l _ _ _ _ | .recallReq l _ _ => inside l
  | _ => false

/-- The lines of a range leave the views and buffers of clusters, written back; what a RECALL has brought home is merged, and
the homes' images become those of their channels (R41, step 3; R60). -/
def State.flushRange (s : State) (clus : List Nat) (lo n : Nat) : State :=
  let inside (k : Nat) : Bool := decide (lo ≤ k) && decide (k < lo + n)
  let s := clus.foldl (fun t c =>
    let t := ((t.clu c).lines.filter fun p => inside p.1).foldl (fun u p =>
      let u := u.homeWrite p.1 (maskedBytes p.2.dirty p.2.data)
      if p.2.mdirty then (List.range 16).foldl (fun v i => v.setMark (p.1 + 8 * i) (p.2.marks.getLsbD i)) u else u) t
    let t := ((t.clu c).rb.filter fun r => inside r.line).foldl (fun u r => u.rbMerge r.line r.words) t
    t.modClu c fun q =>
      { q with lines := q.lines.filter fun p => !inside p.1, dl := q.dl.filter fun k => !inside k,
               rb := q.rb.filter fun r => !inside r.line }) s
  let s := (s.homes.lines.filter fun p => inside p.1).foldl (fun t p => p.2.back.foldl (fun u e => u.rbMerge p.1 e.2) t) s
  { s with homes := { s.homes with
      chan := s.homes.chan.filter fun (p : Nat × Byte) => !inside p.1,
      lines := s.homes.lines.map fun (p : Nat × HomeLine) =>
        if inside p.1 then (p.1, { p.2 with holders := [], early := [], recalls := p.2.recalls.map fun _ => [], back := [], prio := 0 })
        else p } }.dropImages inside

/-- The bytes and marks of a range copied to another. -/
def State.copyRange (s : State) (src dst n : Nat) : State :=
  let inside (k : Nat) : Bool := decide (src ≤ k) && decide (k < src + n)
  let bs := s.mem.filter fun p => inside p.1
  let ms := s.full.filter fun p => inside p.1
  let s := (s.zeroBytes dst n).clearMarks dst n
  let s := bs.foldl (fun t p => t.setByte (dst + (p.1 - src)) p.2) s
  ms.foldl (fun t p => t.setMark (dst + (p.1 - src)) p.2) s

/-- The frames of the arena pools of every job (R132). -/
def State.poolFrames (s : State) : List Nat := s.jobs.flatMap fun p => p.2.cfg.pool
/-- Whether a range of class-000 bytes meets a frame of a pool. -/
def meetsPool (pool : List Nat) (lo n : Nat) : Bool := pool.any fun f => decide (lo < f + 2 ^ 21) && decide (f < lo + n)

/-- Bytes firmware keeps for the save areas of a job (R393; assumption log 66). -/
def saveRoom : Nat := 2 ^ 31
/-- The class-000 ranges of a job that no run can name: its save areas and its journal (R393, R417). -/
def JobCfg.hidden (c : JobCfg) : List (Nat × Nat) :=
  (c.save.map fun b => (b, saveRoom)).toList ++ if c.mode = 0 then [] else [(c.jrnb.toNat, c.jrnl.toNat)]
def State.hidden (s : State) : List (Nat × Nat) := s.jobs.flatMap fun p => p.2.cfg.hidden
def meetsRange (rs : List (Nat × Nat)) (lo n : Nat) : Bool := rs.any fun r => decide (lo < r.1 + r.2) && decide (r.1 < lo + n)

/-- The frame a leaf names: class and bounds hold, the frame is aligned, it is no frame of an arena pool and lies in no range that
runs cannot name (R35, R132, R417). -/
def State.frameOk (s : State) (job k frame : Nat) : Bool :=
  frame % keySize k == 0 && (s.classify job frame).isSome && decide (frame < 2 ^ 48)
    && (!keySub k || decide (frame < 2 ^ 47))
    && !(meetsPool s.poolFrames (frame % 2 ^ 47) (keySize k) || meetsRange s.hidden (frame % 2 ^ 47) (keySize k))

/-- PAGE_MOVE (R41): a page no lease pins goes to another frame; a page firmware has been asked for becomes
resident (R39). The entry is cleared, the shootdown is waited for, the old frame's lines are written back, the
data are copied and the new entry is installed. -/
def execPageMove (job page frame : Nat) (s : State) : Host.Outcome State Fault Refusal :=
  let j := s.job job
  match j.moves.get? page with
  | none =>
    match s.leafAt job page with
    | none => .next s
    | some at_ =>
      let e := s.word at_
      if !s.frameOk job page frame ∨ (e % 2 = 1 ∧ (j.pins.get 0 page ≠ 0 ∨ j.cfg.fixedPages.contains (pageOfKey page))) then .next s
      else
        if e % 2 = 0 then
          .next ((s.setBytes at_ (leBytes 8 (frame + 1))).setJob job { j with asked := j.asked.filter (· != page) })
        else
          let s := s.setBytes at_ (leBytes 8 0)
          let cores := (s.clusOf job).flatMap fun c => (List.range 8).map (c * 8 + ·)
          let h : Shoot := { id := s.seq, job := job, form := .range (keyVA page) (keyVA page + keySize page), cores := cores }
          .next ({ s with shoots := if cores.isEmpty then s.shoots else s.shoots ++ [h], seq := s.seq + 1 }.setJob job
            { j with moves := j.moves.set page { old := e / 2 * 2, frame := frame, shoot := s.seq } })
  | some m =>
    match s.classify job m.old, s.classify job m.frame, s.leafAt job page with
    | some src, some dst, some at_ =>
      let n := keySize page
      let busy (p : Packet) : Bool := p.touches src.key n
      let back (h : Nat × HomeLine) : Bool := decide (src.key ≤ h.1) && decide (h.1 < src.key + n) && h.2.recalls.isSome
      if s.shoots.any (·.id == m.shoot) ∨ s.net.any busy ∨ s.jobs.any (fun p => p.2.stalled.any busy) ∨ s.homes.lines.any back
          ∨ !s.frameOk job page m.frame then .next s
      else
        let s := (s.flushRange (s.clusOf job) src.key n).copyRange src.key dst.key n
        .next ((s.setBytes at_ (leBytes 8 (m.frame + 1))).modJob job fun j =>
          { j with moves := j.moves.erase page, asked := j.asked.filter (· != page) })
    | _, _, _ => .next s

/-! ## Format windows (R65, R67) -/

/-- Blocks of a window (R68). -/
def winBlocks (len pm1 : Nat) : Nat := len / 128 * (128 / (4 * (pm1 + 1)))

/-- The planed images of a range leave every home slice and cluster (R67). -/
def State.dropPlanes (s : State) (base len : Nat) : State :=
  let inside (k : Nat) : Bool := decide (base ≤ k) && decide (k < base + len)
  { s with
    clus := s.clus.map fun (c : Nat × Clu) =>
      (c.1, { c.2 with lines := c.2.lines.filter fun (p : Nat × CvLine) => !(decide (2 ^ 47 ≤ p.1) && decide (p.1 < 2 ^ 48) && inside (p.1 - 2 ^ 47)) }) }.dropImages inside

/-- FORMAT_WINDOW_WRITE (R65, R132): attr is the word at +24 of Table 03-6; a refused record is reported. -/
def execFormatWindowWrite (win base len scb attr : Nat) (s : State) : Host.Outcome State Fault Refusal :=
  let pm1 := attr / 2 % 8
  let others := s.pkg.windows.filter fun p => p.1 != win && winEn p.2
  if 16 ≤ win ∨ 32 ≤ attr ∨ 2 ^ 39 ≤ base ∨ 2 ^ 39 ≤ len ∨ 2 ^ 39 ≤ scb ∨ base % 128 ≠ 0 ∨ len % 128 ≠ 0 ∨ len = 0
      ∨ 2 ^ 39 < base + len ∨ 2 ^ 39 < scb + winBlocks len pm1
      ∨ (attr % 2 = 1 ∧ (meetsPool s.poolFrames base len
        ∨ others.any fun p => decide (base < winBase p.2 + winLen p.2) && decide (winBase p.2 < base + len))) then
    .next (s.report rWindow win)
  else
    let old := s.pkg.windows.get 0 win
    let s := (s.dropPlanes (winBase old) (winLen old)).dropPlanes base len
    let w := BitVec.ofNat 256 (base + len * 2 ^ 64 + scb * 2 ^ 128 + attr * 2 ^ 192)
    .next { s with pkg := { s.pkg with windows := s.pkg.windows.set win w } }

/-! ## Job configuration -/

/-- STKSPLIT's field of a die. -/
def stkUnits (w : Word) (die : Nat) : Nat := fld w.toNat (5 * die + 4) (5 * die)

/-- The class-000 pieces of a job's fault queue, page by page (R389). -/
def State.queueRanges (s : State) (c : JobCfg) : List (Nat × Nat) :=
  if c.fqb.toNat = 0 then []
  else
    let lo := c.fqb.toNat
    let hi := lo + 64 + 32 * c.fqn
    (spanNats (lo / 2 ^ 21) ((hi - 1) / 2 ^ 21)).filterMap fun p =>
      let a := max lo (p * 2 ^ 21)
      match s.walkHeap c.hptb.toNat a with
      | .ok pa => some (pa % 2 ^ 47, min hi ((p + 1) * 2 ^ 21) - a)
      | .error _ => none
/-- The ranges of a configuration that no aperture and no pool frame may meet: its fault queue, its save areas, its journal, and
what system software names besides (R402, R417). -/
def State.heldRanges (s : State) (c : JobCfg) : List (Nat × Nat) :=
  s.queueRanges c ++ c.hidden ++ c.kept

/-- An aperture record firmware accepts (R402, R132). -/
def Aperture.ok (a : Aperture) (held : List (Nat × Nat)) (pool : List Nat) : Bool :=
  a.pabase % 128 == 0 && a.inbase % 128 == 0 && a.len % 128 == 0 && decide (0 < a.len)
    && decide (a.len < 2 ^ 39) && decide (a.pabase + a.len ≤ 2 ^ 39) && decide (a.inbase < 2 ^ 64) && decide (a.node < 256) && decide (1 ≤ a.acc) && decide (a.acc ≤ 3)
    && !meetsPool pool a.pabase a.len && !meetsRange held a.pabase a.len
/-- The aperture records of a configuration that firmware holds, at most 16, and those it refuses (R402). -/
def State.apertures (s : State) (c : JobCfg) : List Aperture × List Aperture :=
  let good (a : Aperture) : Bool := a.ok (s.heldRanges c) (c.pool ++ s.poolFrames)
  ((c.aps.filter good).take 16, (c.aps.filter fun a => !good a) ++ (c.aps.filter good).drop 16)

/-- Whether the fields of a configuration lie in their ranges (R24, R34, R57, R60, R162, R165, R169, R182, R184, R389,
R393, R401, R417). -/
def JobCfg.fieldsOk (c : JobCfg) : Bool :=
  c.hptb.toNat % 2 ^ 15 == 0 && decide (c.retq ≤ 2048) && decide (c.inlmax ≤ 8) && decide (c.rsvb ≤ 12)
    && decide (1 ≤ c.mbox) && decide (c.mbox ≤ 8) && decide (c.arpool = c.pool.length)
    && [c.retainns, c.ageint, c.resq, c.arpool].all (fun n => decide (n < 2 ^ 32))
    && decide (c.fqn = powUp c.fqn) && decide (16 ≤ c.fqn) && decide (c.fqn ≤ 65536) && c.fqb.toNat % 128 == 0
    && decide (c.host < 256) && decide (c.mode ≤ 2) && c.jrnb.toNat % 8 == 0 && decide (c.jrnb.toNat + c.jrnl.toNat ≤ 2 ^ 39)
    && (match c.save with | some b => b % 128 == 0 && decide (b + saveRoom ≤ 2 ^ 39) | none => false)
    && c.peers.all (fun p => decide (p.1 < 256) && decide (p.2.1 < 256) && p.2.2 % 2 ^ 36 == 0 && decide (p.2.2 + 2 ^ 36 ≤ 2 ^ 39))

/-- The valid words of a table of n bytes that reads as zero but for the bytes memory lists. -/
def State.tableWords (s : State) (tbl n : Nat) : List Nat :=
  (((s.mem.filter fun p => decide (tbl ≤ p.1) && decide (p.1 < tbl + n)).map fun p => (p.1 - tbl) / 8).eraseDups.map fun i =>
    s.word (tbl + 8 * i)).filter (· % 2 = 1)
/-- The class-000 frames that the heap table and the sub-page tables of a configuration map, with their sizes. -/
def State.tableFrames (s : State) (c : JobCfg) : List (Nat × Nat) :=
  let next (lo : Nat) (ws : List Nat) : List Nat := ws.filterMap (entryField · lo)
  let t2 := next 14 (s.tableWords c.hptb.toNat 32768)
  let t3 := next 14 (t2.flatMap (s.tableWords · 16384))
  ((next 21 (t3.flatMap (s.tableWords · 16384))).map fun f => (f % 2 ^ 47, 2 ^ 21))
    ++ c.subs.flatMap fun e => (next 10 (s.tableWords e.2.2.2.toNat (e.2.2.1.toNat * 16384))).map fun f => (f % 2 ^ 47, 1024)
/-- Whether the tables of configurations map a byte of some ranges. -/
def State.mapsInto (s : State) (cs : List JobCfg) (rs : List (Nat × Nat)) : Bool :=
  cs.any fun c => (s.tableFrames c).any fun r => meetsRange rs r.1 r.2

/-- Whether a configuration can be taken: its fields, STKSPLIT's fields and their sum over all jobs, a partition no live
job holds, arena pool frames of its own outside enabled windows and the apertures of other jobs, and save areas and a journal that no table
maps (R60, R132, R186, R417). -/
def State.configOk (s : State) (job : Nat) (c : JobCfg) : Bool :=
  let others := s.jobs.filter fun p => p.1 != job
  let dieOk (d : Nat) : Bool :=
    decide (stkUnits c.stk d ≤ 16) && decide (stkUnits c.stk d + (others.map fun p => stkUnits p.2.cfg.stk d).foldl (· + ·) 0 ≤ 16)
  let cluOk (k : Nat) : Bool :=
    !c.holds k || (!s.pkg.retained.contains (k / 48)
      && match (s.clu k).owner with | some o => o == job || (s.job o).pre == .saved | none => true)
  let taken := s.tableFrames c :: s.jobs.map fun p => s.tableFrames p.2.cfg
  let moving := s.jobs.flatMap fun p => p.2.moves.map fun m => m.2.frame
  let frameFree (f : Nat) : Bool :=
    f % 2 ^ 21 == 0 && !taken.any (fun fs => fs.any fun r => meetsPool [f] r.1 r.2) && !(moving.any fun m => meetsPool [f] (m % 2 ^ 47) 1) && decide (f + 2 ^ 21 ≤ 2 ^ 39)
      && !(s.pkg.windows.any fun w => winEn w.2 && decide (f < winBase w.2 + winLen w.2) && decide (winBase w.2 < f + 2 ^ 21))
      && others.all fun p => !p.2.cfg.pool.contains f && !p.2.cfg.aps.any fun a => a.en && meetsPool [f] a.pabase a.len
  c.fieldsOk && !s.mapsInto (c :: s.jobs.map fun p => p.2.cfg) c.hidden && !s.mapsInto [c] s.hidden && !(c.pool.any fun f => meetsRange (s.heldRanges c) f (2 ^ 21)) && (List.range 4).all dieOk && (List.range 192).all cluOk && c.pool.all frameFree
    && decide (c.pool.eraseDups.length = c.pool.length)

/-- The carve-outs of a job: the lines their slices hold are written back and invalidated, and they are zeroed (R60,
R299). -/
def State.carveOut (s : State) (job : Nat) (c : JobCfg) : State :=
  (List.range 4).foldl (fun t d =>
    let k := 2 ^ 50 + (job * 4 + d) * 2 ^ 32
    let here (a : Nat) : Bool := homeOf a / 16 == d
    let t := if stkUnits c.stk d = 0 then t else
      { t with homes := { t.homes with
          chan := t.homes.chan.filter fun (p : Nat × Byte) => !here p.1,
          lines := t.homes.lines.map fun (p : Nat × HomeLine) => if keyIsHome p.1 && here p.1 then (p.1, { p.2 with prio := 0 }) else p } }.dropImages here
    (t.zeroBytes k (2 ^ 32)).clearMarks k (2 ^ 32)) s

/-- A shootdown awaits no core that has left its job, as none of its TLBs holds a translation of the job any more (R48). -/
def State.shootTrim (s : State) : State :=
  let left := (s.shoots.map fun h => { h with cores := h.cores.filter fun c => (s.clu (cluOfCore c)).owner == some h.job }).filter
    (!·.cores.isEmpty)
  { s with shoots := left,
           cores := s.cores.map fun (p : Nat × CoreSt) =>
             (p.1, { p.2 with inv := p.2.inv.filter fun i => left.any fun h => h.id == i && h.cores.contains p.1 }) }

/-- The clusters of a configuration's partition become a job's, and their cores take the job's registers; no TLB holds a
translation of the job's former tables (R13, R32, R36, R169, R186). -/
def State.takeClusters (s : State) (job : Nat) (c : JobCfg) : State :=
  let clus := (List.range 192).filter c.holds
  let s := { s with
    clus := s.clus.map fun (p : Nat × Clu) =>
      (p.1, { p.2 with owner := if p.2.owner = some job then none else p.2.owner, tlb2 := p.2.tlb2.filter (·.job != job) }),
    cores := s.cores.map fun (p : Nat × CoreSt) =>
      (p.1, { p.2 with tlb := p.2.tlb.filter (·.job != job), itlb := p.2.itlb.filter (·.job != job) }) }
  let s := clus.foldl (fun t k => t.modClu k fun q => ({ q with owner := some job } : Clu).trim c.retq) s
  let s := (clus.flatMap fun k => (List.range 8).map (k * 8 + ·)).foldl (fun t k =>
    let e := SMap.get (0, 0, 0) c.subs k
    t.modCore k fun r =>
      { r with sprb := e.1, sprl := e.2.1, sptb := e.2.2, mbox := c.mbox, kept := [] }) s
  s.shootTrim

/-- Frames enter a pool: no copy of a line of them is left, and they are zeroed (R132). -/
def State.poolFlush (s : State) (fs : List Nat) : State :=
  fs.foldl (fun t f => (t.flushRange (t.clus.map (·.1)) f (2 ^ 21)).dropPlanes f (2 ^ 21)) s
def State.poolZero (s : State) (fs : List Nat) : State :=
  fs.foldl (fun t f => (t.zeroBytes f (2 ^ 21)).clearMarks f (2 ^ 21)) s

/-- A job whose configuration is taken: the journal it records into, or follows, its partition, its cores' registers, its pool and arena slots, and the
graphs system software opens (assumption log 3). -/
def State.takeConfig (s : State) (job : Nat) (c : JobCfg) : State :=
  let c := { c with stk := BitVec.ofNat 64 (c.stk.toNat % 2 ^ 20), aps := (s.apertures c).1,
                    subs := c.subs.map fun (e : Nat × Word × Word × Word) => (e.1, subRegs e.2) }
  let s := (((s.endRetained job).poolFlush c.pool).carveOut job c).poolZero c.pool
  let s := s.takeClusters job c
  let s := if c.mode = 1 then s.zeroBytes c.jrnb.toNat c.jrnl.toNat else s
  let phases := (c.opened.map (·.2)).eraseDups
  s.setJob job
    { cfg := c, configured := true, free := c.pool,
      journal := if c.mode = 2 then s.readJournal c.jrnb.toNat (c.jrnb.toNat + c.jrnl.toNat) (c.jrnl.toNat / 24) else [], counter := phases.length,
      graphs := c.opened.map fun (p : Nat × Nat) => ({ id := p.1, phase := p.2 } : Graph),
      phases := phases.map fun (p : Nat) => ({ id := p, counter := (c.opened.filter fun (q : Nat × Nat) => q.2 == p).length } : Phase),
      nextGraph := (c.opened.map fun (q : Nat × Nat) => q.1).foldl max 0 + 1, nextPhase := phases.foldl max 0 + 1 }

/-- JOB_CONFIGURE (R32, R60, R132, R402): firmware takes the configuration system software asks for, or reports
that it refuses it; refused aperture records are reported and left out. -/
def execJobConfigure (job : Nat) (s : State) : Host.Outcome State Fault Refusal :=
  match s.pkg.requests.get? job with
  | none => .next s
  | some c =>
    if ((s.job job).nodes.any fun x => x.st != .done) || !(s.job job).moves.isEmpty then .next s
    else
      let s := { s with pkg := { s.pkg with requests := s.pkg.requests.erase job } }
      if s.configOk job c then
        .next ((s.apertures c).2.foldl (fun t a => t.report rAperture a.node) (s.takeConfig job c))
      else .next (s.report rConfig job)

/-! ## Thermal flags (R62) -/

/-- THERMAL_HOT_SET (R62). -/
def execThermalHotSet (die : Nat) (s : State) : Host.Outcome State Fault Refusal :=
  let was := (List.range 4).foldl (fun (m : SMap (BitVec 4)) d => m.set d (m.get 0 d ||| BitVec.twoPow 4 die)) s.pkg.was
  .next { s with pkg := { s.pkg with hot := s.pkg.hot.set die true, was := was } }
/-- THERMAL_HOT_CLEAR (R62). -/
def execThermalHotClear (die : Nat) (s : State) : Host.Outcome State Fault Refusal :=
  .next { s with pkg := { s.pkg with hot := SMap.setD false s.pkg.hot die false } }

end Sys2Proof.Machine
end

