-- ==== Sys2Proof/Machine/Special.lean ====
section
/-!
DEFINITION. The special functions of R326 and Table 17-3: their exact values in fixed point, the rounding of FP16
and BF16, and the bound within which the part's FP32 result lies.
-/
namespace Sys2Proof.Machine

/-! ## Fixed point: a number of 2^-448 units -/

def fixBits : Nat := 448
/-- π. -/
def fixPi : Nat :=
  2283431196591655772568293192637813162989505182201807620455461503647463674352091780948082810000813750461678719846639713479115845689692381
/-- ln 2. -/
def fixLn2 : Nat :=
  503806212467287336944962318911413164331589999686332526750892113008874715004345470044877937781258350830018788825857087812047298226561348

/-- e^r by its series: the terms from the k-th on. -/
def expSer : Nat → Nat → Nat → Nat → Nat
  | 0, _, _, _ => 0
  | f + 1, k, term, r => term + expSer f (k + 1) (term * r / 2 ^ fixBits / (k + 1)) r
def fixExp (r : Nat) : Nat := expSer 100 0 (2 ^ fixBits) r

/-- Alternating series of sine (from k = 1) and cosine (from k = 0). -/
def trigSer : Nat → Nat → Int → Int → Int
  | 0, _, _, _ => 0
  | f + 1, k, term, r2 => term + trigSer f (k + 2) (-(term * r2 / 2 ^ fixBits / ((k + 1) * (k + 2) : Nat))) r2
def fixSin (r : Int) : Int := trigSer 70 1 r (r * r / 2 ^ fixBits)
def fixCos (r : Int) : Int := trigSer 70 0 (2 ^ fixBits) (r * r / 2 ^ fixBits)

/-- Bits of log2 of m in [1, 2), by squaring. -/
def logBits : Nat → Nat → Nat → Nat
  | 0, _, acc => acc
  | f + 1, m, acc =>
    let q := m * m / 2 ^ fixBits
    if 2 ^ (fixBits + 1) ≤ q then logBits f (q / 2) (2 * acc + 1) else logBits f q (2 * acc)

/-! ## Values -/

/-- What a special function has at an argument: a case of Table 17-3, an exact value, or a magnitude strictly
between m and m + 1 in units of 2^e. -/
inductive Sp
  | nan (nv : Bool)
  | inf (neg : Bool) (fl : Nat)
  | zero (neg : Bool) (fl : Nat)
  | exact (neg : Bool) (m : Nat) (e : Int)
  | near (neg : Bool) (m : Nat) (e : Int)
  deriving DecidableEq, Repr

/-- ± m × 2^e as a fixed-point integer, toward −∞. -/
def fixOf (neg : Bool) (m : Nat) (e : Int) : Int :=
  let k := e + (fixBits : Int)
  let v : Int := if 0 ≤ k then (m <<< k.toNat : Nat) else (m >>> (-k).toNat : Nat)
  if neg then -v else v

/-- 2^x. -/
def spExp2 (v : FVal) : Sp :=
  match v with
  | .nan => .nan false
  | .inf n => if n then .zero false 0 else .inf false 0
  | .fin n m e =>
    if m = 0 then .exact false 1 0
    else if 11 ≤ e + (Nat.log2 m : Nat) then (if n then .zero false fUF else .inf false fOF)
    else
      let x := fixOf n m e
      let k := x / 2 ^ fixBits
      let f := (x % 2 ^ fixBits).toNat
      if f = 0 ∧ 0 ≤ e + (fixBits : Int) then .exact false 1 k
      else .near false (fixExp (f * fixLn2 / 2 ^ fixBits)) (k - fixBits)

/-- log2 x. -/
def spLog2 (v : FVal) : Sp :=
  match v with
  | .nan => .nan false
  | .inf n => if n then .nan true else .inf false 0
  | .fin n m e =>
    if m = 0 then .inf true fDZ
    else if n then .nan true
    else
      let l := Nat.log2 m
      let k : Int := e + (l : Nat)
      if m = 2 ^ l then .exact (decide (k < 0)) k.natAbs 0
      else
        let b := logBits 240 (m <<< (fixBits - l)) 0
        let r : Int := k * 2 ^ 240 + b
        if 0 ≤ r then .near false r.toNat (-240) else .near true (-r - 1).toNat (-240)

/-- 1 / x. -/
def spRcp (v : FVal) : Sp :=
  match v with
  | .nan => .nan false
  | .inf n => .zero n 0
  | .fin n m e =>
    if m = 0 then .inf n fDZ
    else
      let q := 2 ^ 200 / m
      if q * m = 2 ^ 200 then .exact n q (-200 - e) else .near n q (-200 - e)

/-- 1 / √x. -/
def spRsq (v : FVal) : Sp :=
  match v with
  | .nan => .nan false
  | .inf n => if n then .nan true else .zero false 0
  | .fin n m e =>
    if m = 0 then .inf n fDZ
    else if n then .nan true
    else
      let (m, e) := if e % 2 = 0 then (m, e) else (2 * m, e - 1)
      let r := isqrt 202 (2 ^ 400 / m) 0
      if r * r * m = 2 ^ 400 then .exact false r (-200 - e / 2) else .near false r (-200 - e / 2)

/-- A fixed-point result that is not exact. -/
def spFix (v : Int) : Sp := if 0 ≤ v then .near false v.toNat (-448) else .near true (-v - 1).toNat (-448)

/-- sin x, or cos x. -/
def spTrig (cos : Bool) (v : FVal) : Sp :=
  match v with
  | .nan => .nan false
  | .inf _ => .nan true
  | .fin n m e =>
    if m = 0 then (if cos then .exact false 1 0 else .zero n 0)
    else
      let x := fixOf false m e
      let q := (4 * x + fixPi) / (2 * (fixPi : Int))
      let r := x - q * fixPi / 2
      let j := (q + (if cos then 1 else 0)) % 4
      let y := if j % 2 = 0 then fixSin r else fixCos r
      let y := if 2 ≤ j then -y else y
      spFix (if n && !cos then -y else y)

/-- tanh x. -/
def spTanh (v : FVal) : Sp :=
  match v with
  | .nan => .nan false
  | .inf n => .exact n 1 0
  | .fin n m e =>
    if m = 0 then .zero n 0
    else if 7 ≤ e + (Nat.log2 m : Nat) then .near n (2 ^ fixBits - 1) (-448)
    else
      let y := (fixOf false m (e + 1)).toNat
      let k := y / fixLn2
      let big := fixExp (y - k * fixLn2) <<< k
      let t := (big - 2 ^ fixBits) * 2 ^ fixBits / (big + 2 ^ fixBits)
      if t = 0 then .near n (m - 1) e else .near n t (-448)

/-- Function numbers: VEXP2, VLOG2, VRCP, VRSQ, VSIN, VCOS, VTANH in the table's order. -/
def spVal (fn : Nat) (v : FVal) : Sp :=
  match fn with
  | 0 => spExp2 v
  | 1 => spLog2 v
  | 2 => spRcp v
  | 3 => spRsq v
  | 4 => spTrig false v
  | 5 => spTrig true v
  | _ => spTanh v

/-- Flags a finite result keeps: overflow and underflow of VEXP2 (Table 17-3). -/
def spFlags (fn fl : Nat) : Nat := if fn = 0 then fl &&& fOF else 0

/-- A VEXP2 result below the least subnormal (Table 17-3). -/
def Fmt.below (f : Fmt) (m : Nat) (e : Int) : Bool := decide (e + (Nat.log2 m : Nat) < f.emin - f.fb)

/-- Whether an FP32 value lies within b units of 2^u of ± m × 2^e. -/
def within (c : FVal) (neg : Bool) (m : Nat) (e : Int) (b : Nat) (u : Int) : Bool :=
  match c with
  | .fin cn cm ce =>
    let (d, k) := sumExact cn cm ce (!neg) m e
    if u ≤ k then decide (d.natAbs <<< (k - u).toNat ≤ b) else decide (d.natAbs ≤ b <<< (u - k).toNat)
  | _ => false

/-- The result of a special function in a format: rounded to nearest even in FP16 and BF16; in FP32 the part's
own result where it lies within the bound of Table 17-3 (assumption log 22). -/
def specialFn (fn : Nat) (t : Esz) (w : Nat) : Flagged :=
  let f := (t.fmt?).getD fp32
  let v := f.val w
  match spVal fn v with
  | .nan nv => (f.nan, if nv then fNV else 0)
  | .inf n fl => (f.inf n, fl)
  | .zero n fl => (f.zero n, fl)
  | .exact n m e =>
    if fn = 0 ∧ f.below m e then (f.zero false, fUF)
    else
      let (r, fl) := f.rnd .rne n m e false
      (r, spFlags fn fl)
  | .near n m e =>
    if fn = 0 ∧ f.below m e then (f.zero false, fUF)
    else
      let (r, fl) := f.rnd .rne n m e true
      if t = .fp32 ∧ (f.val r).isInf = false then
        let top : Int := e + (Nat.log2 m : Nat)
        let far := (fn == 4 || fn == 5) && (match v with | .fin _ vm ve => (fp32.val 0x47800000).cmp (.fin false vm ve) == .lt | _ => false)
        let u : Int := if far then -22 else max (top - 23) (-149)
        let b := if far ∨ fn = 2 ∨ fn = 3 then 1 else 2
        let c := (Config.special fn (BitVec.ofNat 32 w)).toNat
        (if within (fp32.val c) n m e b u then c else r, spFlags fn fl)
      else (r, spFlags fn fl)

end Sys2Proof.Machine
end

