-- ==== Sys2Proof/Machine/StreamOps.lean ====
section
/-!
DEFINITION. Meanings of the STRM class (R306 to R314) and of the steps of streams (Table 06-3, R124, R125, R419).
-/
namespace Sys2Proof.Machine

def slotNo : Opd → Nat | .slot n => n.val | _ => 0
def queueNo : Opd → Nat | .q n _ => n.val | _ => 0

/-! ## Slots -/

/-- SOPEN (R306). -/
def execSopen (o : OpS) (s : State) : Host.Outcome State Fault Refusal :=
  let n := s.cur
  let va := s.me.sAddr o
  if va % 64 ≠ 0 then .next (s.fault (flt clsAlign va))
  else
    match s.capture n .capture va 64 64 with
    | .bad i => .next (s.fault i)
    | .wait t => .next t
    | .ready bs t =>
      let d := BitVec.ofNat 512 (leNat bs)
      if t.me.openOk (slotNo o.d) d then .next (t.openSlot n (slotNo o.d) d).advance else .next t.illegal

/-- SCLOSE (R307, R121, R122, R123). -/
def execSclose (o : OpS) (s : State) : Host.Outcome State Fault Refusal :=
  let k := slotNo o.a
  let t := s.me.getS k
  if t.st = 0 then .next s.advance
  else if t.feeds.isSome then .next s.illegal
  else
    match t.fault with
    | some i => .next (s.fault i)
    | none =>
      let s := s.modMe fun c => if t.place = 0 then c else c.bringBack k 2
      let s := s.modS s.cur k fun t => { t with closing := true }
      if (s.me.getS k).draining then .next s else .next (s.modMe fun c => (c.closeSlot k).advance)

/-- Whether SRCL and SFLT act on a slot: closed is ILLEGAL, ended has no effect (R308). -/
def State.onOpen (s : State) (k : Nat) (f : Ctx → Ctx) : Host.Outcome State Fault Refusal :=
  match (s.me.getS k).st with
  | 0 => .next s.illegal
  | 2 => .next s.advance
  | _ => .next (s.modMe fun c => (f c).advance)

/-- SRCL.imm (R308, R121). -/
def execSrclImm (o : OpS) (s : State) : Host.Outcome State Fault Refusal :=
  s.onOpen (slotNo o.a) fun c => c.bringBack (slotNo o.a) 0
/-- SRCL.at (R308, R121, R317): a floated stream that has the element still before it is sent word. -/
def execSrclAt (o : OpS) (s : State) : Host.Outcome State Fault Refusal :=
  let k := slotNo o.a
  let e := (s.me.xi o.b).toNat
  let t := s.me.getS k
  if t.st = 0 ∨ t.st = 2 ∨ t.place = 0 ∨ e < t.pos ∨ dN t.desc ≤ e then s.onOpen k fun c => c.bringBack k 1
  else if s.mayInject s.cur then
    .next (s.inject s.cur { cls := .req, who := .stream s.cur k, pl := .srcl s.cur k t.no e t.place, va := 0 }).advance
  else .next s

/-- A new float policy (R308). -/
def Ctx.setFloat (c : Ctx) (k f : Nat) : Ctx :=
  let t := c.getS k
  let c := c.setS k { t with flt := f }
  if f = 1 ∧ t.place ≠ 0 then c.bringBack k 0 else c
/-- SFLT.auto (R308). -/
def execSfltAuto (o : OpS) (s : State) : Host.Outcome State Fault Refusal :=
  s.onOpen (slotNo o.a) fun c => c.setFloat (slotNo o.a) 0
/-- SFLT.never (R308). -/
def execSfltNever (o : OpS) (s : State) : Host.Outcome State Fault Refusal :=
  s.onOpen (slotNo o.a) fun c => c.setFloat (slotNo o.a) 1
/-- SFLT.near (R308). -/
def execSfltNear (o : OpS) (s : State) : Host.Outcome State Fault Refusal :=
  s.onOpen (slotNo o.a) fun c => c.setFloat (slotNo o.a) 2

/-- SSNK (R309). -/
def execSsnk (o : OpS) (s : State) : Host.Outcome State Fault Refusal :=
  let t := s.me.getS (slotNo o.a)
  s.finish do
    s.dirs o.d (.x 0) (.x 0)
    Op.check (t.st != 0 && dKind t.desc == kReduce) .illegal
    match t.fault, t.sink with
    | some i, _ => throw (.flt i)
    | none, none => throw .wait
    | none, some w =>
      let u ← s.wr o.d w
      pure u.advance

/-- SSTAT (R309, Table 06-6). -/
def execSstat (o : OpS) (s : State) : Host.Outcome State Fault Refusal :=
  s.finish do
    s.dirs o.d (.x 0) (.x 0)
    let u ← s.wr o.d (BitVec.ofNat 64 (s.me.getS (slotNo o.a)).word)
    pure u.advance

/-- SEVT (R309, R120). -/
def execSevt (o : OpS) (s : State) : Host.Outcome State Fault Refusal :=
  s.finish do
    s.dirs o.d (.x 0) (.x 0)
    let c := s.me
    let r : BitVec 128 := match c.evq with
      | e :: _ => if c.evOvf then e ||| 0x80#128 else e
      | [] => 0
    let s := if c.evq.isEmpty then s else s.modMe fun c => { c with evq := c.evq.drop 1, evOvf := false }
    let u ← s.wrV o.d (r.zeroExtend 512)
    pure u.advance

/-! ## Queues -/

/-- Whether a QPUT to a queue has a release half of scope CORE (Table 14-5). -/
def QBind.releases : QBind → Bool
  | .ringFree _ true | .ringReady _ false => true
  | _ => false

/-- QPUT (R310, R311, R314). -/
def execQput (o : OpS) (s : State) : Host.Outcome State Fault Refusal :=
  s.finish do
    s.dirs o.d o.a o.a
    let (v, k) ← s.me.valV o.a
    Op.check (!(s.me.getQ (queueNo o.d)).bind.releases || s.me.quiet) .wait
    let t ← (s.commitQ k).put s.cur (queueNo o.d) v
    pure t.advance

/-- An entry of A into the destination, removed from its queue or not. -/
def State.getEntry (s : State) (o : OpS) (peek : Bool) : Op State := do
  s.dirs o.d o.a o.a
  let pk := match o.a with | .q _ pk => pk || peek | _ => true
  let (v, k) ← s.me.take (queueNo o.a) pk
  let t ← (s.commitQ k).wrV o.d v
  pure t.advance

/-- QGET (R311). -/
def execQget (o : OpS) (s : State) : Host.Outcome State Fault Refusal := s.finish (s.getEntry o false)
/-- QPEEK (R311). -/
def execQpeek (o : OpS) (s : State) : Host.Outcome State Fault Refusal := s.finish (s.getEntry o true)

/-- Credits a channel has at its peer now (R314). -/
def State.credits (s : State) (me rank pq : Nat) : Nat :=
  match s.rankCtx me rank with
  | some p =>
    let q := (s.ctx p).getQ pq
    if q.bind = .free then 8 - min 8 (q.ents.length + q.coming) else 0
  | none => 0

/-- Table 14-6. -/
def State.queueWordOf (s : State) (me n : Nat) : Nat :=
  let q := (s.ctx me).getQ n
  let bind := match q.bind with
    | .free => 0 | .load _ => 1 | .store _ => 2 | .ringReady _ _ => 3 | .ringFree _ _ => 4 | .chan _ _ => 5 | .reduce _ => 6
  let cred := match q.bind with | .chan r p => s.credits me r p | _ => 0
  bind * 2 ^ 16 + cred * 256 + (q.bind.slot.getD 0) * 16 + q.ents.length % 16

/-- QCNT (R312). -/
def execQcnt (o : OpS) (s : State) : Host.Outcome State Fault Refusal :=
  s.finish do
    let u ← s.wr o.d (BitVec.ofNat 64 (s.queueWordOf s.cur (queueNo o.a)))
    pure u.advance

/-- QBIND (R313): checks, then the wait for entries sent, then the binding. -/
def execQbind (o : OpS) (s : State) : Host.Outcome State Fault Refusal :=
  let w := (s.me.sAddr o)
  let k := queueNo o.d
  let q := s.me.getQ k
  let en := w / 2 ^ 16 % 2 = 1
  let rank := w / 256 % 256
  let rsv := w / 2 ^ 17 ≠ 0 ∨ w / 16 % 16 ≠ 0
  let gangOk := match s.nodeOf s.cur with | some x => x.gang && decide (rank < x.tiles) | none => false
  if rsv ∨ q.bind.slot.isSome ∨ (en ∧ (!q.ents.isEmpty || !gangOk)) then .next s.illegal
  else
    match q.bind with
    | .chan _ _ =>
      if q.sent ≠ 0 then .next s
      else .next (s.modMe fun c => (c.setQ k { q with bind := if en then .chan rank (w % 16) else .free }).advance)
    | _ => .next (s.modMe fun c => (if en then c.setQ k { q with bind := .chan rank (w % 16) } else c).advance)

/-! ## Steps -/

/-- FETCH (R117). -/
def execFetch (ctx slot : Nat) (s : State) : Host.Outcome State Fault Refusal := .next (s.streamFetch ctx slot)
/-- STREAM_DELIVER (R117). -/
def execStreamDeliver (ctx slot : Nat) (s : State) : Host.Outcome State Fault Refusal := .next (s.streamDeliver ctx slot)
/-- COMBINE, with SINK after the last element (R117). -/
def execCombine (ctx slot : Nat) (s : State) : Host.Outcome State Fault Refusal := .next (s.streamCombine ctx slot)
/-- STREAM_WRITE (R117). -/
def execStreamWrite (ctx slot : Nat) (s : State) : Host.Outcome State Fault Refusal := .next (s.streamWrite ctx slot)
/-- FLOAT (R118). -/
def execFloat (ctx slot : Nat) (s : State) : Host.Outcome State Fault Refusal := .next (s.moveStream ctx slot false)
/-- HOP (R118). -/
def execHop (ctx slot : Nat) (s : State) : Host.Outcome State Fault Refusal := .next (s.moveStream ctx slot true)
/-- STREAM_RECALL (R121). -/
def execStreamRecall (ctx slot cause : Nat) (s : State) : Host.Outcome State Fault Refusal :=
  .next (s.bringByChoice ctx slot cause)
/-- STREAM_LEAVE_BANK (R419). -/
def execStreamLeaveBank (ctx slot : Nat) (s : State) : Host.Outcome State Fault Refusal := .next (s.leaveBank ctx slot)
/-- RING_TILE_READY (R124). -/
def execRingTileReady (ctx slot : Nat) (s : State) : Host.Outcome State Fault Refusal := .next (s.tileReady ctx slot)
/-- RING_SLOT_RETURN (R125). -/
def execRingSlotReturn (ctx slot : Nat) (s : State) : Host.Outcome State Fault Refusal := .next (s.slotReturn ctx slot)

end Sys2Proof.Machine
end

