-- ==== Sys2Proof/Machine/VecOps.lean ====
section
/-!
DEFINITION. Meanings of the VEC class (R319 to R326): lanes, blocks in a register and special functions.
-/
namespace Sys2Proof.Machine

/-! ## Lanes (R319, R320) -/

/-- Lanes of a vector of a type. -/
def lanesN (t : Esz) : Nat := 64 / t.size
/-- Whether lane i is active. -/
def Ctx.active (c : Ctx) (lp : Fin 8) (i : Nat) : Bool := (c.getP lp.val).getLsbD i
/-- The old value of a V destination; a queue has none. -/
def Ctx.oldV (c : Ctx) : Opd → Vec | .v n => c.getV n.val | _ => 0
/-- Whether inactive lanes keep their value. -/
def OpV.keeps (o : OpV) : Bool := o.d.isV && !o.z

/-- Lanes written where active; the others kept or zero. -/
def laneMap (n sz : Nat) (old : Vec) (keep : Bool) (act : Nat → Bool) (f : Nat → Flagged) : Vec × Nat :=
  (List.range n).foldl (fun (r : Vec × Nat) i =>
    if act i then
      let x := f i
      (vecSetLane r.1 sz i x.1, r.2 ||| x.2)
    else if keep then r else (vecSetLane r.1 sz i 0, r.2)) (old, 0)

/-- A vector result with its flags. -/
def State.wrLanes (s : State) (d : Opd) (r : Vec × Nat) : Op State := do
  let t ← s.wrV d r.1
  pure ((t.modMe fun c => c.raiseFlags r.2).advance)

/-- A and B of a lane instruction, and a function of the lanes a, b and the old d. -/
def State.vec2 (s : State) (o : OpV) (f : Nat → Nat → Nat → Flagged) : Host.Outcome State Fault Refusal :=
  s.finish do
    s.dirs o.d o.a o.b
    let (a, k) ← s.me.valV o.a
    let (b, k) ← k.valV o.b
    let sz := o.et.size
    let old := s.me.oldV o.d
    (s.commitQ k).wrLanes o.d (laneMap (lanesN o.et) sz old (OpV.keeps o) (s.me.active o.lp) fun i =>
      f (vecLane a sz i) (vecLane b sz (if o.bc then 0 else i)) (vecLane old sz i))

/-- The same for one source. -/
def State.vec1 (s : State) (o : OpV) (f : Nat → Flagged) : Host.Outcome State Fault Refusal :=
  s.finish do
    s.dirs o.d o.a o.a
    let (a, k) ← s.me.valV o.a
    let sz := o.et.size
    (s.commitQ k).wrLanes o.d (laneMap (lanesN o.et) sz (s.me.oldV o.d) (OpV.keeps o) (s.me.active o.lp) fun i => f (vecLane a sz i))

/-! ## Lane operations (Table 17-2) -/

def laneAdd (t : Esz) (sat : Bool) (rm : Rm) (a b : Nat) : Flagged :=
  match t.fmt? with
  | some f => f.add rm a b
  | none => (t.fit sat (t.toInt a + t.toInt b), 0)
def laneSub (t : Esz) (sat : Bool) (rm : Rm) (a b : Nat) : Flagged :=
  match t.fmt? with
  | some f => f.sub rm a b
  | none => (t.fit sat (t.toInt a - t.toInt b), 0)
def laneMul (t : Esz) (sat : Bool) (rm : Rm) (a b : Nat) : Flagged :=
  match t.fmt? with
  | some f => f.mul rm a b
  | none => (t.fit sat (t.toInt a * t.toInt b), 0)
def laneFma (t : Esz) (rm : Rm) (a b d : Nat) : Flagged := ((t.fmt?).getD fp32).fma rm a b d
def laneMinMax (t : Esz) (mx : Bool) (a b : Nat) : Flagged :=
  match t.fmt? with
  | some f => (f.minmax mx a b, 0)
  | none => (aopVal (if mx then .max else .min) t a b, 0)
/-- The sign of a floating lane cleared or inverted; a NaN is canonical. -/
def fmtSign (f : Fmt) (flip : Bool) (a : Nat) : Nat :=
  if (f.val a).isNan then f.nan
  else
    let m := a % 2 ^ (f.eb + f.fb)
    if flip && a / 2 ^ (f.eb + f.fb) % 2 == 0 then f.zero true + m else m
def laneAbs (t : Esz) (sat : Bool) (a : Nat) : Flagged :=
  match t.fmt? with
  | some f => (fmtSign f false a, 0)
  | none => (t.fit sat (t.toInt a).natAbs, 0)
def laneNeg (t : Esz) (sat : Bool) (a : Nat) : Flagged :=
  match t.fmt? with
  | some f => (fmtSign f true a, 0)
  | none => (t.fit sat (-t.toInt a), 0)

/-- VADD (R322). -/
def execVadd (o : OpV) (s : State) : Host.Outcome State Fault Refusal := s.vec2 o fun a b _ => laneAdd o.et o.sat o.rm a b
/-- VSUB (R322). -/
def execVsub (o : OpV) (s : State) : Host.Outcome State Fault Refusal := s.vec2 o fun a b _ => laneSub o.et o.sat o.rm a b
/-- VMUL (R322). -/
def execVmul (o : OpV) (s : State) : Host.Outcome State Fault Refusal := s.vec2 o fun a b _ => laneMul o.et o.sat o.rm a b
/-- VFMA (R322). -/
def execVfma (o : OpV) (s : State) : Host.Outcome State Fault Refusal := s.vec2 o fun a b d => laneFma o.et o.rm a b d
/-- VMIN (R322). -/
def execVmin (o : OpV) (s : State) : Host.Outcome State Fault Refusal := s.vec2 o fun a b _ => laneMinMax o.et false a b
/-- VMAX (R322). -/
def execVmax (o : OpV) (s : State) : Host.Outcome State Fault Refusal := s.vec2 o fun a b _ => laneMinMax o.et true a b
/-- VABS (R322). -/
def execVabs (o : OpV) (s : State) : Host.Outcome State Fault Refusal := s.vec1 o fun a => laneAbs o.et o.sat a
/-- VNEG (R322). -/
def execVneg (o : OpV) (s : State) : Host.Outcome State Fault Refusal := s.vec1 o fun a => laneNeg o.et o.sat a
/-- VAND (R322). -/
def execVand (o : OpV) (s : State) : Host.Outcome State Fault Refusal := s.vec2 o fun a b _ => (a &&& b, 0)
/-- VOR (R322). -/
def execVor (o : OpV) (s : State) : Host.Outcome State Fault Refusal := s.vec2 o fun a b _ => (a ||| b, 0)
/-- VXOR (R322). -/
def execVxor (o : OpV) (s : State) : Host.Outcome State Fault Refusal := s.vec2 o fun a b _ => (a ^^^ b, 0)
/-- VSHL (R322). -/
def execVshl (o : OpV) (s : State) : Host.Outcome State Fault Refusal :=
  s.vec2 o fun a b _ => (a * 2 ^ (b % o.et.width) % 2 ^ o.et.width, 0)
/-- VSHR (R322). -/
def execVshr (o : OpV) (s : State) : Host.Outcome State Fault Refusal :=
  s.vec2 o fun a b _ => (a / 2 ^ (b % o.et.width), 0)
/-- VSAR (R322). -/
def execVsar (o : OpV) (s : State) : Host.Outcome State Fault Refusal :=
  s.vec2 o fun a b _ => (lowBits o.et.width (toSigned o.et.width a / (2 ^ (b % o.et.width) : Nat)), 0)
/-- VSEL writes every lane (R322). -/
def execVsel (o : OpV) (s : State) : Host.Outcome State Fault Refusal :=
  s.finish do
    s.dirs o.d o.a o.b
    let (a, k) ← s.me.valV o.a
    let (b, k) ← k.valV o.b
    let sz := o.et.size
    (s.commitQ k).wrLanes o.d (laneMap (lanesN o.et) sz 0 false (fun _ => true) fun i =>
      (if s.me.active o.lp i then vecLane a sz i else vecLane b sz (if o.bc then 0 else i), 0))

/-! ## Comparison (R323) -/

/-- A condition on two lanes, and NV. -/
def laneCmp (t : Esz) (c : Cond) (a b : Nat) : Bool × Nat :=
  match t.fmt? with
  | some f => f.compare c a b
  | none =>
    let x := t.toInt a
    let y := t.toInt b
    (match c with
      | .eq => x == y | .ne => x != y | .lt => decide (x < y) | .le => decide (x ≤ y)
      | .gt => decide (y < x) | .ge => decide (y ≤ x) | .un => false | .ord => true, 0)

/-- VCMP (R323). -/
def execVcmp (c : Cond) (o : OpV) (s : State) : Host.Outcome State Fault Refusal :=
  s.finish do
    s.dirs (.x 0) o.a o.b
    let (a, k) ← s.me.valV o.a
    let (b, k) ← k.valV o.b
    let sz := o.et.size
    let pd := match o.d with | .p n => n.val | _ => 7
    let old := s.me.getP pd
    let r := (List.range (lanesN o.et)).foldl (fun (r : Nat × Nat) i =>
      if s.me.active o.lp i then
        let x := laneCmp o.et c (vecLane a sz i) (vecLane b sz (if o.bc then 0 else i))
        (r.1 + x.1.toNat * 2 ^ i, r.2 ||| x.2)
      else if o.z then r else (r.1 + (old.getLsbD i).toNat * 2 ^ i, r.2)) (0, 0)
    pure ((s.commitQ k).modMe fun c => ((c.setP pd (BitVec.ofNat 64 r.1)).raiseFlags r.2).advance)

/-! ## Conversion (R324) -/

/-- VCVT (R324). -/
def execVcvt (src : Esz) (o : OpV) (s : State) : Host.Outcome State Fault Refusal :=
  s.finish do
    let ssz := src.size
    let dsz := o.et.size
    let big := max ssz dsz
    let n := 64 / big
    let k := (Opd.immVal o.b).toNat
    Op.check (decide (k < big / min ssz dsz)) .illegal
    s.dirs o.d o.a o.a
    let (a, q) ← s.me.valV o.a
    let old := s.me.oldV o.d
    let si := if ssz < dsz then k * n else 0
    let di := if dsz < ssz then k * n else 0
    let r := (List.range n).foldl (fun (r : Vec × Nat) i =>
      if s.me.active o.lp i then
        let x := convert src o.et o.rm (vecLane a ssz (si + i))
        (vecSetLane r.1 dsz (di + i) x.1, r.2 ||| x.2)
      else if (OpV.keeps o) then r else (vecSetLane r.1 dsz (di + i) 0, r.2)) (old, 0)
    (s.commitQ q).wrLanes o.d r

/-! ## Blocks in a register (R325) -/

/-- VQNT (R325, R215). -/
def execVqnt (f : BlkFmt) (o : OpV) (s : State) : Host.Outcome State Fault Refusal :=
  s.finish do
    s.dirs o.d o.a o.b
    let (a, k) ← s.me.valV o.a
    let (b, k) ← k.valV o.b
    let xs := (List.range 16).map (vecLane a 4) ++ (List.range 16).map (vecLane b 4)
    let (blk, sc) := quant (f.pm1.val + 1) f.z xs
    (s.commitQ k).wrLanes o.d (BitVec.ofNat 512 (blk + sc * 2 ^ 256), 0)

/-- VDQNT (R325, R216). -/
def execVdqnt (f : BlkFmt) (o : OpV) (s : State) : Host.Outcome State Fault Refusal :=
  s.finish do
    let h := (Opd.immVal o.b).toNat
    Op.check (decide (h < 2)) .illegal
    s.dirs o.d o.a o.a
    let (a, k) ← s.me.valV o.a
    let p := f.pm1.val + 1
    (s.commitQ k).wrLanes o.d (laneMap 16 4 (s.me.oldV o.d) (OpV.keeps o) (s.me.active o.lp) fun i =>
      (dequant o.rm (eltVal f.z p (storedElt p a.toNat (16 * h + i))) (vecLane a 1 32), 0))

/-- The block of a block register put in another form (R325). -/
def State.reblock (s : State) (o : OpV) (p : Nat) (f : Nat → Nat → Nat) : Host.Outcome State Fault Refusal :=
  s.finish do
    s.dirs o.d o.a o.a
    let (a, k) ← s.me.valV o.a
    let m := 2 ^ (32 * p)
    (s.commitQ k).wrLanes o.d (BitVec.ofNat 512 (a.toNat / m * m + f p (a.toNat % m)), 0)
/-- VPLANE (R325, R212). -/
def execVplane (pm1 : Fin 8) (o : OpV) (s : State) : Host.Outcome State Fault Refusal := s.reblock o (pm1.val + 1) toPlanes
/-- VUNPL (R325, R212). -/
def execVunpl (pm1 : Fin 8) (o : OpV) (s : State) : Host.Outcome State Fault Refusal := s.reblock o (pm1.val + 1) fromPlanes

/-! ## Special functions (R326) -/

/-- VEXP2 (R326). -/
def execVexp2 (o : OpV) (s : State) : Host.Outcome State Fault Refusal := s.vec1 o (specialFn 0 o.et)
/-- VLOG2 (R326). -/
def execVlog2 (o : OpV) (s : State) : Host.Outcome State Fault Refusal := s.vec1 o (specialFn 1 o.et)
/-- VRCP (R326). -/
def execVrcp (o : OpV) (s : State) : Host.Outcome State Fault Refusal := s.vec1 o (specialFn 2 o.et)
/-- VRSQ (R326). -/
def execVrsq (o : OpV) (s : State) : Host.Outcome State Fault Refusal := s.vec1 o (specialFn 3 o.et)
/-- VSIN (R326). -/
def execVsin (o : OpV) (s : State) : Host.Outcome State Fault Refusal := s.vec1 o (specialFn 4 o.et)
/-- VCOS (R326). -/
def execVcos (o : OpV) (s : State) : Host.Outcome State Fault Refusal := s.vec1 o (specialFn 5 o.et)
/-- VTANH (R326). -/
def execVtanh (o : OpV) (s : State) : Host.Outcome State Fault Refusal := s.vec1 o (specialFn 6 o.et)

end Sys2Proof.Machine
end

