-- ==== Sys2Proof/Machine/VdataOps.lean ====
section
/-!
DEFINITION. Meanings of the VDATA class (R327 to R330): vector memory access, reductions and lane movement.
-/
namespace Sys2Proof.Machine

/-! ## Vector loads and stores (R327, R328) -/

/-- The places of elements, each checked in ascending order (R20). -/
def State.placesOf (s : State) (n : Nat) (k : Acc) (sz : Nat) : List Nat → Chk (List (Nat × Loc × Nat))
  | [] => .ok []
  | va :: r => do
    let loc ← s.check n k va sz
    let rest ← s.placesOf n k sz r
    pure ((va, loc, sz) :: rest)

/-- Element addresses of a 64-byte access. -/
def spread (va n sz : Nat) : List Nat := (List.range n).map fun i => (va + i * sz) % 2 ^ 64

/-- Elements and their size of VLD and VST: one of 64 bytes for V64. -/
def vecShape (t : Esz) : Nat × Nat := if t = .v64 then (1, 64) else (64 / t.size, t.size)

/-- VLD (R327). -/
def execVld (o : OpM) (s : State) : Host.Outcome State Fault Refusal :=
  match s.me.stage.rep with
  | some bs => s.endLoad o.d .v64 o.ord o.scope bs
  | none =>
    if 2 ≤ s.me.stage.ph then .next s
    else
      match s.destRoom s.cur o.d .v64 with
      | .error e => s.finish (.error e)
      | .ok _ =>
        let (n, sz) := vecShape o.esz
        match s.placesOf s.cur .load sz (spread (s.me.ea o o.esz.size) n sz) with
        | .error i => .next (s.fault i)
        | .ok ps => s.loadPieces o.d (loadDst o.d .v64) .rep o.ord o.scope o.evp.val ps

/-- Stores of elements one after another, from the stage's element on: a fault leaves those below it, and a
store that must wait leaves the rest for the next turn (R327, R328). -/
def State.storeElts (s : State) (ord : MemOrd) (sc : Scope) (evp : Nat) : List (Nat × List Byte) → Except FaultInfo (Bool × State)
  | [] => .ok (true, s)
  | (va, bs) :: r =>
    match s.check s.cur .store va bs.length with
    | .error i => .error i
    | .ok loc =>
      if s.storeMay s.cur loc va bs.length then
        let s := s.storeIssue s.cur loc va bs ord sc evp
        (s.modMe fun c => { c with stage := { c.stage with a := c.stage.a + 1 } }).storeElts ord sc evp r
      else .ok (false, s)

/-- The elements that stand when a later one faults, as stores. -/
def State.storeUpTo (s : State) (ord : MemOrd) (sc : Scope) (evp : Nat) : List (Nat × List Byte) → Option FaultInfo × Bool × State
  | [] => (none, true, s)
  | e :: r =>
    match s.storeElts ord sc evp [e] with
    | .error i => (some i, true, s)
    | .ok (false, t) => (none, false, t)
    | .ok (true, t) => t.storeUpTo ord sc evp r

/-- A vector store at its turn: release half, elements in ascending order, acquire half. -/
def State.vecStore (s : State) (k : Ctx) (ord : MemOrd) (sc : Scope) (evp : Nat) (es : List (Nat × List Byte)) :
    Host.Outcome State Fault Refusal :=
  let n := s.cur
  let (ok, s) := if ord.hasRel && s.me.stage.a == 0 then s.relHalf n sc.wide fun _ => true else (true, s)
  if !ok then .next s
  else
    match s.storeUpTo ord sc evp (es.drop s.me.stage.a) with
    | (some i, _, t) => .next (t.fault i)
    | (none, false, t) => .next t
    | (none, true, t) =>
      let t := t.commitQ k
      if ord.hasAcq then .next (t.modMe fun c => { c with stage := { c.stage with ph := 2 } }) else .next t.advance

/-- VST (R327). -/
def execVst (o : OpM) (s : State) : Host.Outcome State Fault Refusal :=
  if 2 ≤ s.me.stage.ph then s.endStore o.scope
  else if !(s.me.srcOk o.d) then .next s.illegal
  else
    match s.me.valV o.d with
    | .error e => s.finish (.error e)
    | .ok (v, k) =>
      let (n, sz) := vecShape o.esz
      let es := (spread (s.me.ea o o.esz.size) n sz).zipIdx.map fun p => (p.1, leBytes sz (vecLane v sz p.2))
      s.vecStore k o.ord o.scope o.evp.val es

/-- Lanes of an index vector that are not skipped, with their addresses (R328). -/
def Ctx.laneAddrs (c : Ctx) (o : OpM) (b : Vec) : List (Nat × Nat) :=
  let sz := o.esz.size
  let a : Int := match o.a with | .x n => ((c.getX n.val).toNat : Int) | _ => 0
  (List.range (64 / sz)).filterMap fun i =>
    let x := toSigned (8 * sz) (vecLane b sz i)
    if x = -(2 ^ (8 * sz - 1) : Nat) then none
    else some (i, mod64 (a + (if o.am = .scaled then x * sz else x)))

/-- VGTH (R328). -/
def execVgth (o : OpM) (s : State) : Host.Outcome State Fault Refusal :=
  match s.me.stage.rep with
  | some bs => s.endLoad o.d .v64 o.ord o.scope bs
  | none =>
    if 2 ≤ s.me.stage.ph then .next s
    else if !(s.me.srcOk o.b) then .next s.illegal
    else
      match s.me.valV o.b with
      | .error e => s.finish (.error e)
      | .ok (b, k) =>
        match (s.setMe k).destRoom s.cur o.d .v64 with
        | .error e => s.finish (.error e)
        | .ok _ =>
          let ls := s.me.laneAddrs o b
          match s.placesOf s.cur .load o.esz.size (ls.map (·.2)) with
          | .error i => .next (s.fault i)
          | .ok [] =>
            let (ok, t) := if o.ord.hasRel then s.relHalf s.cur o.scope.wide fun _ => true else (true, s)
            if ok then (t.commitQ k).endLoad o.d .v64 o.ord o.scope (List.replicate 64 0) else .next t
          | .ok ps =>
            let (ok, t) := if o.ord.hasRel then s.relHalf s.cur o.scope.wide fun _ => true else (true, s)
            if !ok then .next t
            else
              let lanes := ls.map (·.1)
              let free := match o.d with | .v n => LdDst.lanes n.val o.esz.size lanes | _ => .rep
              (t.commitQ k).loadPieces o.d free (.repLanes o.esz.size lanes) (if o.ord.hasAcq then .acq else .rlx) o.scope o.evp.val ps

/-- VSCT (R328). -/
def execVsct (o : OpM) (s : State) : Host.Outcome State Fault Refusal :=
  if 2 ≤ s.me.stage.ph then s.endStore o.scope
  else if !(s.me.srcOk o.b && s.me.srcOk o.d) then .next s.illegal
  else
    match (do let (b, k) ← s.me.valV o.b; let (v, k) ← k.valV o.d; pure (b, v, k) : Op (Vec × Vec × Ctx)) with
    | .error e => s.finish (.error e)
    | .ok (b, v, k) =>
      let sz := o.esz.size
      s.vecStore k o.ord o.scope o.evp.val ((s.me.laneAddrs o b).map fun p => (p.2, leBytes sz (vecLane v sz p.1)))

/-! ## Reductions (R329) -/

/-- One step of a reduction on an exact integer or a pattern: integer SUM is kept exact. -/
def redGo (op : RedOp) (t : Esz) (rm : Rm) (acc : Int) (x : Nat) : Int × Nat :=
  match t.fmt?, op with
  | none, .sum => (acc + t.toInt x, 0)
  | _, _ =>
    let r := redStep op t rm acc.toNat x
    ((r.1 : Int), r.2)
/-- The accumulator at its start. -/
def redStart (op : RedOp) (t : Esz) : Int := (redId op t : Int)
/-- The accumulator as a pattern of its type. -/
def redOut (op : RedOp) (t : Esz) (sat : Bool) (acc : Int) : Nat :=
  match t.fmt?, op with
  | none, .sum => t.fit sat acc
  | _, _ => acc.toNat

/-- VRED (R329). -/
def execVred (op : RedOp) (o : OpV) (s : State) : Host.Outcome State Fault Refusal :=
  s.finish do
    s.dirs o.d o.a o.a
    let (a, k) ← s.me.valV o.a
    let r := (List.range (lanesN o.et)).foldl (fun (r : Int × Nat) i =>
      if s.me.active o.lp i then
        let x := redGo op o.et o.rm r.1 (vecLane a o.et.size i)
        (x.1, r.2 ||| x.2)
      else r) (redStart op o.et, 0)
    let out := redOut op o.et o.sat r.1
    match o.d with
    | .x n =>
      let w : Word := if o.et.isS then BitVec.ofInt 64 (toSigned o.et.width out) else BitVec.ofNat 64 out
      pure ((s.commitQ k).modMe fun c => ((c.setX n.val w).raiseFlags r.2).advance)
    | d => (s.commitQ k).wrLanes d (BitVec.ofNat 512 out, r.2)

/-- VSCAN (R329). -/
def execVscan (op : RedOp) (o : OpV) (s : State) : Host.Outcome State Fault Refusal :=
  s.finish do
    s.dirs o.d o.a o.a
    let (a, k) ← s.me.valV o.a
    let sz := o.et.size
    let r := (List.range (lanesN o.et)).foldl (fun (r : (Int × Nat) × Vec) i =>
      if s.me.active o.lp i then
        let x := redGo op o.et o.rm r.1.1 (vecLane a sz i)
        ((x.1, r.1.2 ||| x.2), vecSetLane r.2 sz i (redOut op o.et false x.1))
      else (r.1, if (OpV.keeps o) then r.2 else vecSetLane r.2 sz i 0)) ((redStart op o.et, 0), s.me.oldV o.d)
    (s.commitQ k).wrLanes o.d (r.2, r.1.2)

/-! ## Lane movement (R330) -/

/-- VPERM (R330). -/
def execVperm (o : OpV) (s : State) : Host.Outcome State Fault Refusal :=
  s.finish do
    s.dirs o.d o.a o.b
    let (a, k) ← s.me.valV o.a
    let (b, k) ← k.valV o.b
    let sz := o.et.size
    let n := lanesN o.et
    (s.commitQ k).wrLanes o.d (laneMap n sz (s.me.oldV o.d) (OpV.keeps o) (s.me.active o.lp) fun i =>
      (vecLane a sz (vecLane b sz i % n), 0))

/-- VBCAST (R330): the lane number is not reduced. -/
def execVbcast (o : OpV) (s : State) : Host.Outcome State Fault Refusal :=
  s.finish do
    let sz := o.et.size
    let n := lanesN o.et
    let vec := o.a.isV || o.a.isQ
    let k := (Opd.immVal o.b).toNat
    Op.check (!vec || decide (k < n)) .illegal
    s.dirs o.d o.a o.a
    let (a, q) ← s.me.valV o.a
    (s.commitQ q).wrLanes o.d (laneMap n sz (s.me.oldV o.d) (OpV.keeps o) (s.me.active o.lp) fun _ =>
      (vecLane a sz (if vec then k else 0), 0))

/-- VEXT (R330). -/
def execVext (o : OpV) (s : State) : Host.Outcome State Fault Refusal :=
  s.finish do
    s.dirs (.x 0) o.a o.a
    let (a, q) ← s.me.valV o.a
    let k := (s.me.xi o.b).toNat % lanesN o.et
    let t ← (s.commitQ q).wr o.d (BitVec.ofNat 64 (vecLane a o.et.size k))
    pure t.advance

/-- VINS (R330). -/
def execVins (o : OpV) (s : State) : Host.Outcome State Fault Refusal :=
  s.finish do
    let k := (s.me.xi o.b).toNat % lanesN o.et
    let t ← s.wrV o.d (vecSetLane (s.me.oldV o.d) o.et.size k (s.me.xi o.a).toNat)
    pure t.advance

/-- VCPRS (R330). -/
def execVcprs (o : OpV) (s : State) : Host.Outcome State Fault Refusal :=
  s.finish do
    s.dirs o.d o.a o.a
    let (a, q) ← s.me.valV o.a
    let sz := o.et.size
    let xs := ((List.range (lanesN o.et)).filter (s.me.active o.lp)).map (vecLane a sz)
    (s.commitQ q).wrLanes o.d ((xs.zipIdx).foldl (fun v p => vecSetLane v sz p.2 p.1) 0, 0)

end Sys2Proof.Machine
end

