-- ==== Sys2Proof/Machine/ShapeOps.lean ====
section
/-!
DEFINITION. Meanings of the SHAPE class (R331 to R337): shape records, handles, and whole-tensor instructions that
work unit by unit.
-/
namespace Sys2Proof.Machine

/-! ## Shape records (Table 17-4, R332) -/

def shElt (d : BitVec 512) : Nat := dsc d 8 3 0
def shNdm1 (d : BitVec 512) : Nat := dsc d 8 5 4
def shQf (d : BitVec 512) : Bool := dsc d 8 6 6 == 1
def shQz (d : BitVec 512) : Bool := dsc d 8 7 7 == 1
def shP (d : BitVec 512) : Nat := dsc d 8 10 8 + 1
def shQpl (d : BitVec 512) : Bool := dsc d 8 11 11 == 1
def shDense (d : BitVec 512) : Bool := dsc d 8 12 12 == 1
def shEvp (d : BitVec 512) : Nat := dsc d 8 15 13
def shEsz (d : BitVec 512) : Esz := (eszOf (shElt d)).getD .s8
def shCount (d : BitVec 512) (i : Nat) : Nat := if i ≤ shNdm1 d then dsc d (16 + 4 * i) 31 0 else 1
def shN (d : BitVec 512) : Nat := shCount d 0 * shCount d 1 * shCount d 2 * shCount d 3
def shIdx (d : BitVec 512) (e i : Nat) : Nat :=
  match i with
  | 0 => e % shCount d 0
  | 1 => e / shCount d 0 % shCount d 1
  | 2 => e / shCount d 0 / shCount d 1 % shCount d 2
  | _ => e / shCount d 0 / shCount d 1 / shCount d 2

/-- Address of element e of a plain tensor. -/
def shAddr (d : BitVec 512) (e : Nat) : Nat :=
  mod64 ((dBase d : Nat) + dStride d 0 * (shIdx d e 0 : Nat) + dStride d 1 * (shIdx d e 1 : Nat)
    + dStride d 2 * (shIdx d e 2 : Nat) + dStride d 3 * (shIdx d e 3 : Nat))
/-- Offset of the block of element e of a tensor of blocks. -/
def shOff (d : BitVec 512) (e : Nat) : Int :=
  let kb := shIdx d e 0 / 32
  let p := shP d
  dStride d 1 * (shIdx d e 1 : Nat) + dStride d 2 * (shIdx d e 2 : Nat) + dStride d 3 * (shIdx d e 3 : Nat)
    + (if shDense d then dStride d 0 * (kb : Nat) else ((kb / bpl p * 128 + kb % bpl p * (4 * p) : Nat) : Int))
def shBlock (d : BitVec 512) (e : Nat) : Nat := mod64 ((dBase d : Nat) + shOff d e)
def shScale (d : BitVec 512) (e : Nat) : Nat :=
  let o := shOff d e
  let p := shP d
  mod64 ((dOpnd d : Nat) + (if shDense d then o / (4 * p : Nat) else o / 128 * (bpl p : Nat) + o % 128 / (4 * p : Nat)))

/-- The checks of SHDEF (R333). -/
def shapeOk (d : BitVec 512) : Bool :=
  let unused := (List.range 4).all fun i =>
    decide (i ≤ shNdm1 d) || (dsc d (16 + 4 * i) 31 0 == 0 && dsc d (32 + 4 * i) 31 0 == 0)
  let m (i k : Nat) : Bool := decide (dStride d i % (k : Nat) = 0)
  dsc d 56 63 0 == 0 && dsc d 8 63 16 == 0 && unused && decide (shN d ≤ 2 ^ 48 - 1)
    && (if shQf d then
          shElt d == 0 && shCount d 0 % 32 == 0
            && (if shDense d then
                  dBase d % 4 == 0 && (List.range 4).all fun i => m i (4 * shP d)
                else dBase d % 128 == 0 && dStride d 0 == 0 && m 1 128 && m 2 128 && m 3 128)
        else
          decide (shElt d ≤ 10) && dsc d 8 12 7 == 0 && dsc d 48 63 0 == 0 && dBase d % (shEsz d).size == 0)

def shapeNo : Opd → Nat | .shape n => n.val | _ => 0

/-- SHDEF (R333). -/
def execShdef (o : OpV) (s : State) : Host.Outcome State Fault Refusal :=
  let n := s.cur
  let va := match o.a with | .x k => (s.me.getX k.val).toNat | _ => 0
  if va % 64 ≠ 0 then .next (s.fault (flt clsAlign va))
  else
    match s.capture n .capture va 64 64 with
    | .bad i => .next (s.fault i)
    | .wait t => .next t
    | .ready bs t =>
      let d := BitVec.ofNat 512 (leNat bs)
      if shapeOk d then .next (t.modMe fun c => (c.setH (shapeNo o.d) { st := 1, snap := d }).advance) else .next t.illegal

/-- Table 17-5. -/
def Shape.word (h : Shape) : Nat := (if 2 ≤ h.st then h.prog % 2 ^ 48 * 2 ^ 16 else 0) + h.st % 4

/-- SHSTAT (R334). -/
def execShstat (o : OpV) (s : State) : Host.Outcome State Fault Refusal :=
  s.finish do
    s.dirs o.d (.x 0) (.x 0)
    let t ← s.wr o.d (BitVec.ofNat 64 (s.me.getH (shapeNo o.a)).word)
    pure t.advance

/-! ## Execution in units (R335) -/

/-- An RLX load of the context, its instruction waiting for it: of a local window or stack scratch by a request through the
loop-back port or the network (R28); of any other place at once, SB first, then the images, behind earlier loads of the same
bytes that are still open (R77). -/
def State.loadNow (s : State) (n va size evp : Nat) : EltRead :=
  let c := s.ctx n
  match s.check n .load va size with
  | .error i => .bad i
  | .ok loc =>
    match loc with
    | .window _ _ _ | .scratch _ _ _ =>
      match (s.markAt n loc false false).farRead n loc va size evp with
      | .got bs t => .got bs loc t
      | .wait t => .wait t
      | .bad i => .bad i
    | _ =>
      if c.loads.any (fun l => l.pieces.any fun p => p.st != .fixed && covers va size p.va p.size) then .wait s
      else s.eltRead n va size { evp := evp, sb := true, via := .data }

/-- A source element, by element index: its accesses in order. -/
structure Want where
  e  : Nat
  va : Nat
  sz : Nat

/-- A store of a unit. -/
structure Put where
  e  : Nat
  va : Nat
  bs : List Byte

/-- What a shape instruction does with a unit: the reads of each handle, and the stores the values give. -/
structure UnitPlan where
  reads : List (List Want × Nat)
  puts  : List (List Nat) → List Put

/-- The loads of a unit in their order, each with its eviction priority. -/
def UnitPlan.loads (p : UnitPlan) : List (Want × Nat) := p.reads.flatMap fun r => r.1.map fun w => (w, r.2)

/-- Values read one after another, as the lists they were read for. -/
def splitVals : List Nat → List Nat → List (List Nat)
  | [], _ => []
  | n :: r, vs => vs.take n :: splitVals r (vs.drop n)

/-- The stage of a shape instruction between its units. -/
def State.shapeStage (s : State) (h unit : Nat) : State :=
  s.modMe fun c => { c with stage := { c.stage with ph := 1, a := unit, b := 0, cap := [], shp := some h } }

/-- A fault of a unit: the handle is FAULTED with the units completed (R335). -/
def State.shapeFault (s : State) (h unit : Nat) (i : FaultInfo) (e : Nat) : State :=
  (s.modMe fun c => c.setH h { c.getH h with st := 3, prog := unit, pc := c.pc }).fault (lineFault i e)

/-- The first store of a unit that fails its checks: its fault and its element. -/
def State.badPut (s : State) : List Put → Option (FaultInfo × Nat)
  | [] => none
  | p :: r =>
    match s.check s.cur .store p.va p.bs.length with
    | .error i => some (i, p.e)
    | .ok _ => s.badPut r

/-- The stores of a unit, from the stage's on. -/
def State.putUnit (s : State) (h unit evp : Nat) : List Put → Host.Outcome State Fault Refusal
  | [] => .next (s.shapeStage h (unit + 1))
  | p :: r =>
    match s.check s.cur .store p.va p.bs.length with
    | .error i => .next (s.shapeFault h unit i p.e)
    | .ok loc =>
      if s.storeMay s.cur loc p.va p.bs.length then
        ((s.storeIssue s.cur loc p.va p.bs .rlx .core evp).modMe fun c =>
          { c with stage := { c.stage with b := c.stage.b + 1 } }).putUnit h unit evp r
      else .next s

/-- Values of a unit kept in the stage while its stores wait, as 8-byte words behind the lengths of the lists. -/
def packVals (vs : List (List Nat)) : List Byte := vs.flatMap fun l => leBytes 8 l.length ++ l.flatMap (leBytes 8)
def unpackVals : Nat → List Byte → List (List Nat)
  | 0, _ => []
  | k + 1, bs =>
    let n := leNat (bs.take 8)
    ((List.range n).map fun i => leNat ((bs.drop (8 + 8 * i)).take 8)) :: unpackVals k (bs.drop (8 + 8 * n))

/-- One turn of a shape instruction over a number of units (R335): one load of a unit (R77), or its stores, all of which
pass their checks before the first issues (R385); the end of the last unit completes it. -/
def State.shapeTurn (s : State) (h units evp : Nat) (plan : Nat → UnitPlan) : Host.Outcome State Fault Refusal :=
  let n := s.cur
  let c := s.me
  match c.stage.ph with
  | 0 =>
    let t := c.getH h
    .next (s.shapeStage h (if 2 ≤ t.st ∧ t.pc = c.pc then t.prog else 0))
  | 1 =>
    let u := c.stage.a
    if units ≤ u then .next (s.modMe fun c => (c.setH h { c.getH h with st := 1, prog := 0 }).advance)
    else
      let p := plan u
      let got := c.stage.cap
      match p.loads[got.length / 8]? with
      | some (w, evp) =>
        match s.loadNow n w.va w.sz evp with
        | .wait t => .next t
        | .bad i => .next (s.shapeFault h u i w.e)
        | .got bs _ t => .next (t.modMe fun c => { c with stage := { c.stage with cap := got ++ leBytes 8 (leNat bs) } })
      | none =>
        let vs := splitVals (p.reads.map (·.1.length)) ((List.range (got.length / 8)).map fun i => leNat ((got.drop (8 * i)).take 8))
        .next (s.modMe fun c => { c with stage := { c.stage with ph := 2, b := 0, cap := packVals vs } })
  | _ =>
    let u := c.stage.a
    let p := plan u
    let puts := (p.puts (unpackVals p.reads.length c.stage.cap)).drop c.stage.b
    match (if c.stage.b = 0 then s.badPut puts else none) with
    | some (i, e) => .next (s.shapeFault h u i e)
    | none => s.putUnit h u evp puts

/-! ## SHMAP (R336) -/

/-- Equal counts of two records. -/
def sameCounts (a b : BitVec 512) : Bool := (List.range 4).all fun i => shCount a i == shCount b i

/-- Whether a handle may be named, and holds a plain tensor of a type (R335, R336). -/
def Shape.plain (h : Shape) (t : Esz) : Bool := h.st != 0 && !shQf h.snap && shElt h.snap == t.code

/-- The VEC operation of SHMAP (R336). -/
def mapLane (op : MapOp) (t : Esz) (sat : Bool) (rm : Rm) (a b d : Nat) : Nat :=
  (match op with
    | .add => laneAdd t sat rm a b
    | .sub => laneSub t sat rm a b
    | .mul => laneMul t sat rm a b
    | .min => laneMinMax t false a b
    | .max => laneMinMax t true a b
    | .fma => laneFma t rm a b d
    | .abs => laneAbs t sat a
    | .neg => laneNeg t sat a
    | .exp2 => specialFn 0 t a
    | .rcp => specialFn 2 t a
    | .tanh => specialFn 6 t a
    | .dqnt => (a, 0)).1

def unitElts (n g u : Nat) : List Nat := (List.range (min g (n - u * g))).map (u * g + ·)
def plainWants (d : BitVec 512) (es : List Nat) : List Want := es.map fun e => { e := e, va := shAddr d e, sz := (shEsz d).size }
def plainPuts (d : BitVec 512) (es vs : List Nat) : List Put :=
  (es.zip vs).map fun p => { e := p.1, va := shAddr d p.1, bs := leBytes (shEsz d).size p.2 }
/-- The accesses of the block of an element: its words, then its scale. -/
def blockWants (d : BitVec 512) (e : Nat) : List Want :=
  ((List.range (shP d)).map fun i => ({ e := e, va := (shBlock d e + 4 * i) % 2 ^ 64, sz := 4 } : Want))
    ++ [{ e := e, va := shScale d e, sz := 1 }]

/-- Elements of a block read as words and scale (R213, R216). -/
def dqntVals (d : BitVec 512) (rm : Rm) (ws : List Nat) : List Nat :=
  let p := shP d
  let blk := leNat ((ws.take p).flatMap (leBytes 4))
  let sc := ws.getD p 0
  (List.range 32).map fun i =>
    dequant rm (eltVal (shQz d) p (if shQpl d then planedElt p blk i else storedElt p blk i)) sc

/-- SHMAP (R336). -/
def execShmap (op : MapOp) (o : OpV) (s : State) : Host.Outcome State Fault Refusal :=
  let c := s.me
  let hd := shapeNo o.d
  let dh := c.getH hd
  let ah := c.getH (shapeNo o.a)
  let bh := c.getH (shapeNo o.b)
  let d := dh.snap
  let a := ah.snap
  let two := op.hasB && !o.bc
  let aOk := if op = .dqnt then ah.st != 0 && shQf a else ah.plain o.et
  if !(dh.plain o.et && aOk && shNdm1 d == shNdm1 a && sameCounts d a
        && (!two || (bh.plain o.et && shNdm1 d == shNdm1 bh.snap && sameCounts d bh.snap))) then .next s.illegal
  else
    let n := shN d
    let g := if op = .dqnt then 32 else 64 / o.et.size
    let sc := (c.xi o.b).toNat % 2 ^ o.et.width
    s.shapeTurn hd ((n + g - 1) / g) (shEvp d) fun u =>
      let es := unitElts n g u
      if op = .dqnt then
        { reads := [(blockWants a (u * 32), shEvp a)], puts := fun vs => plainPuts d es (dqntVals a o.rm (vs.getD 0 [])) }
      else
        { reads := [(plainWants a es, shEvp a)] ++ (if two then [(plainWants bh.snap es, shEvp bh.snap)] else [])
                     ++ (if op = .fma then [(plainWants d es, shEvp d)] else []),
          puts := fun vs =>
            let av := vs.getD 0 []
            let bv := if two then vs.getD 1 [] else []
            let dv := vs.getD (if two then 2 else 1) []
            plainPuts d es ((List.range es.length).map fun i =>
              mapLane op o.et o.sat o.rm (av.getD i 0) (if two then bv.getD i 0 else sc) (dv.getD i 0)) }

/-! ## SHRED, SHQNT, SHCPY (R337) -/

/-- SHRED (R337). -/
def execShred (op : RedOp) (o : OpV) (s : State) : Host.Outcome State Fault Refusal :=
  let c := s.me
  let hd := shapeNo o.d
  let dh := c.getH hd
  let ah := c.getH (shapeNo o.a)
  let d := dh.snap
  let a := ah.snap
  if !(dh.plain o.et && ah.plain o.et && shNdm1 d == shNdm1 a && shCount d 0 == 1
        && (List.range 3).all fun i => shCount a (i + 1) == shCount d (i + 1)) then .next s.illegal
  else
    let c0 := shCount a 0
    s.shapeTurn hd (shN d) (shEvp d) fun u =>
      { reads := [(plainWants a ((List.range c0).map (u * c0 + ·)), shEvp a)],
        puts := fun vs =>
          let r := (vs.getD 0 []).foldl (fun (acc : Int) x => (redGo op o.et o.rm acc x).1) (redStart op o.et)
          plainPuts d [u] [redOut op o.et o.sat r] }

/-- SHQNT (R337, R215). -/
def execShqnt (f : BlkFmt) (o : OpV) (s : State) : Host.Outcome State Fault Refusal :=
  let c := s.me
  let hd := shapeNo o.d
  let dh := c.getH hd
  let ah := c.getH (shapeNo o.a)
  let d := dh.snap
  let a := ah.snap
  let p := f.pm1.val + 1
  if !(ah.plain .fp32 && dh.st != 0 && shQf d && shQz d == f.z && shP d == p && sameCounts d a) then .next s.illegal
  else
    s.shapeTurn hd (shN a / 32) (shEvp d) fun u =>
      let es := unitElts (shN a) 32 u
      { reads := [(plainWants a es, shEvp a)],
        puts := fun vs =>
          let (blk, sc) := quant p f.z (vs.getD 0 [])
          let img := if shQpl d then toPlanes p blk else blk
          ((List.range p).map fun i =>
            ({ e := u * 32, va := (shBlock d (u * 32) + 4 * i) % 2 ^ 64, bs := leBytes 4 (img / 2 ^ (32 * i)) } : Put))
            ++ [{ e := u * 32, va := shScale d (u * 32), bs := leBytes 1 sc }] }

/-- SHCPY (R337). -/
def execShcpy (o : OpV) (s : State) : Host.Outcome State Fault Refusal :=
  let c := s.me
  let hd := shapeNo o.d
  let dh := c.getH hd
  let ah := c.getH (shapeNo o.a)
  let d := dh.snap
  let a := ah.snap
  let sized (h : Shape) : Bool := h.st != 0 && !shQf h.snap && (shEsz h.snap).size == o.et.size
  if !(sized dh && sized ah && sameCounts d a) then .next s.illegal
  else
    let g := 64 / o.et.size
    s.shapeTurn hd ((shN d + g - 1) / g) (shEvp d) fun u =>
      let es := unitElts (shN d) g u
      { reads := [(plainWants a es, shEvp a)], puts := fun vs => plainPuts d es (vs.getD 0 []) }

end Sys2Proof.Machine
end

