-- ==== Sys2Proof/Machine/SaveArea.lean ====
section
/-!
DEFINITION. The walker save tables and the context save areas of a pre-empted job as they stand in memory (R198, R393,
Table 09-3, Table 21-7). Table 21-7 gives each section its place and names what it holds; the places of the fields
inside a section are the model's (assumption log 66).
-/
namespace Sys2Proof.Machine

/-- Bytes at an offset, those that are not zero. -/
def cellsAt (off : Nat) (bs : List Byte) : List Host.Cell :=
  (bs.zipIdx.filter fun p => p.1 != 0).map fun p => (off + p.2, p.1)
/-- Words of 8 bytes one behind the other. -/
def wordBytes (ws : List Nat) : List Byte := ws.flatMap (leBytes 8)

/-- The walker save table of a node: record k is that of the walker, spur or remainder with WID k, free ones zero. DESIGN
CHOICE (assumption log 66): the LO of a remainder is its NEXT. -/
def Job.saveTable (j : Job) (x : Node) : List Host.Cell :=
  ((j.savedWalkers.filter (·.is x.graph x.id)).flatMap fun w => cellsAt (32 * w.wid) (leBytes 32 (w.record x false)))
    ++ (j.savedHands.filter fun h => h.graph == x.graph && h.node == x.id).flatMap fun h =>
      cellsAt (32 * h.wid) (leBytes 32 (Walker.record
        { graph := h.graph, node := h.node, lo := h.next, next := h.next, hi := h.hi, out := h.rem.getD 0, wid := h.wid } x true))

/-! ## The sections of Table 21-7 -/

def Lvl.code : Lvl → Nat
  | .run => 0 | .handler => 1 | .firm => 2
def RunKind.code : RunKind → Nat
  | .free => 0 | .tile => 1 | .gang => 2 | .task => 3 | .handler => 4

/-- HDR: PC, EPC, ESTAT, the bank's x63 slot, the node, the small fields, the tile with its end, and the hand-out. The PC of a
shape instruction stands with its handle in SHP. -/
def Ctx.headImage (c : Ctx) : List Byte :=
  let y := c.sys
  let (t, tw) := c.run.tile.getD (0, 0)
  let h := c.run.hand.getD ⟨0, 0, 0⟩
  wordBytes [c.pc.toNat, y.epc.toNat, y.estat.toNat, y.x63.toNat, c.run.graph % 2 ^ 32 * 2 ^ 32 + c.run.node % 2 ^ 32,
    y.lvl.code + c.run.kind.code * 2 ^ 2 + y.inlDepth % 16 * 2 ^ 5 + c.run.banks.length % 16 * 2 ^ 9 + y.wlane % 64 * 2 ^ 13
      + y.fstat.toNat % 2 ^ 16 * 2 ^ 19 + y.cstat.toNat % 2 ^ 16 * 2 ^ 35 + c.run.tile.isSome.toNat * 2 ^ 51
      + c.run.hand.isSome.toNat * 2 ^ 52 + c.run.rank % 2 ^ 11 * 2 ^ 53,
    t % 2 ^ 32 + h.hi % 2 ^ 32 * 2 ^ 32, h.next % 2 ^ 32 + h.wid % 256 * 2 ^ 32 + tw % 256 * 2 ^ 40]

def QBind.code : QBind → Nat
  | .free => 0
  | .load k => 1 + k * 2 ^ 8
  | .store k => 2 + k * 2 ^ 8
  | .ringReady k l => 3 + k * 2 ^ 8 + l.toNat * 2 ^ 16
  | .ringFree k l => 4 + k * 2 ^ 8 + l.toNat * 2 ^ 16
  | .chan r q => 5 + r % 2 ^ 16 * 2 ^ 8 + q * 2 ^ 24
  | .reduce k => 6 + k * 2 ^ 8
/-- QREG of one queue: its entries, the partial entry of its stream, its binding, its count and its channel credits. -/
def Ctx.queueImage (c : Ctx) (n : Nat) : List Host.Cell :=
  let q := c.getQ n
  let part := match q.bind.slot with | some k => ((c.getS k).ent.flatMap (·.raw)).take 64 | none => []
  (q.ents.zipIdx.flatMap fun e => cellsAt (64 * e.2) (bvBytes 64 e.1.data))
    ++ cellsAt 512 part
    ++ cellsAt 576 (wordBytes [q.bind.code, q.ents.length + q.closed.toNat * 2 ^ 8, q.sent + q.coming * 2 ^ 8])

/-- SLOT of one stream slot: snapshot, position, counts, accumulator, sink and SSTAT. -/
def Stream.saved (t : Stream) : List Byte :=
  bvBytes 64 t.desc ++ wordBytes [t.pos, t.done, t.acc.toNat, (t.sink.getD 0).toNat, t.sink.isSome.toNat + t.flt * 2 ^ 8, t.word]

/-- SHP of one shape handle: snapshot, Table 17-5 state, and the PC of its instruction. -/
def Shape.image (h : Shape) : List Byte := bvBytes 64 h.snap ++ wordBytes [h.word, h.pc.toNat]

/-- A binding of a barrier in 12 bytes: its kind with the slot or level, and the counter's id. -/
def Bind.image : Bind → List Byte
  | .copy => leBytes 12 1
  | .mxrow => leBytes 12 2
  | .sink k => leBytes 12 (3 + k * 2 ^ 8)
  | .cnt l id => leBytes 4 (4 + l.code * 2 ^ 8) ++ bvBytes 8 id
/-- BAR of one barrier a context owns: number, Table 08-6 state, bindings. -/
def barImage (b : Nat × Bar) : List Byte := wordBytes [b.1, b.2.word] ++ b.2.binds.flatMap Bind.image

def MxBank.image (b : MxBank) : List Byte := wordBytes [b.cfg.toNat] ++ (List.range 64).flatMap fun i => leBytes 2 (b.map.get 0xFFFF i).toNat
/-- A queued command with its snapshots in 384 bytes. -/
def EJob.image (j : EJob) : List Byte :=
  wordBytes [j.pc.toNat, j.ord]
    ++ match j.kind with
       | .copy d k => wordBytes [0, k] ++ bvBytes 64 d
       | .mxzero t => wordBytes [1, t]
       | .mxfree t => wordBytes [2, t]
       | .mxprom t => wordBytes [3, t]
       | .mxmm t a b => wordBytes [4, t] ++ bvBytes 32 a ++ bvBytes 32 b
       | .mxgmm l a b => wordBytes [5, 0] ++ bvBytes 32 a ++ bvBytes 32 b ++ bvBytes 256 l
       | .mxlda t src st => wordBytes [6, t, src, st]
       | .mxcpy t dst w f csv m => wordBytes [7, t, dst, w.toNat, f.code + csv.toNat * 2 ^ 8 + m.toNat * 2 ^ 9]
/-- MXS: both configuration and map banks, the saved batch in queue order, and the owned tiles with their status words. -/
def Saved.mxImage (v : Saved) : List Host.Cell :=
  let batch := v.jobs.filter (!·.isCopy)
  cellsAt 0 v.ctx.sys.mxRun.image ++ cellsAt 0x100 v.ctx.sys.mxHnd.image
    ++ cellsAt 0x200 (wordBytes [batch.length, v.tiles.length])
    ++ (v.tiles.zipIdx.flatMap fun t => cellsAt (0x210 + 16 * t.2) (wordBytes [t.1.1, t.1.2.statusWord]))
    ++ batch.zipIdx.flatMap fun j => cellsAt (0x420 + 384 * j.2) j.1.image

/-- CPS of one copy-job slot: sequence, state, card snapshot, position. -/
def Saved.slotImage (v : Saved) (k : Nat) : List Byte :=
  let x := v.ctx.sys.cps.get {} k
  let job := v.jobs.find? fun j => match j.kind with | .copy _ i => i == k | _ => false
  wordBytes [x.seq, x.st, x.rdone, (job.map (·.pos)).getD 0] ++ match job.map (·.kind) with | some (.copy d _) => bvBytes 64 d | _ => []

/-- MISC: the inline return stack, the counters of Table 20-6, the phase value of a BWAIT that waits, and the overflow mark of
the event queue, whose 16 entries fill EVQ. -/
def Ctx.miscImage (c : Ctx) : List Byte :=
  wordBytes (((List.range 8).map fun i => (c.sys.inlStack.getD i 0).toNat) ++ ((List.range 8).map fun k => (c.sys.pm.get 0 k).toNat)
    ++ [match c.stage.bar with | some b => if 2 ≤ c.stage.b then 2 ^ 8 + b * 2 ^ 16 + c.stage.b % 2 else 0 | none => 0, c.evOvf.toNat])

/-- An SB entry: its address, its line's bytes, their mask, and ORD, SCOPE and EVP. -/
def SbEntry.image (e : SbEntry) (off : Nat) : List Host.Cell :=
  cellsAt off (leBytes 8 e.va) ++ cellsAt (off + 8 + e.va % 128) e.bytes
    ++ cellsAt (off + 136) (leBytes 16 ((2 ^ e.bytes.length - 1) * 2 ^ (e.va % 128)))
    ++ cellsAt (off + 152) (leBytes 8 ((match e.ord with | .rlx => 0 | .acq => 1 | .rel => 2 | .sc => 3)
      + (match e.scope with | .core => 0 | .clu => 1 | .die => 2 | .pkg => 3 | .sys => 4) * 2 ^ 2 + e.evp * 2 ^ 5))

/-- Where the tiles and the SB entries of a save area stand, and its end: the future marks of the banks follow the banks. -/
def Saved.marksAt (v : Saved) : Nat := 0x8000 + 32768 * v.banks.length
def Saved.tilesAt (v : Saved) : Nat := v.marksAt + 512 * v.banks.length
def Saved.sbAt (v : Saved) : Nat := v.tilesAt + 16384 * v.tiles.length
def Saved.size (v : Saved) : Nat := v.sbAt + 8 + 160 * v.ctx.sb.length

/-- The marks of a bank, one bit for each of its words. -/
def marksImage (ms : List Nat) : List Byte :=
  (List.range 512).map fun i => BitVec.ofNat 8 (((List.range 8).map fun k => if ms.contains (64 * i + 8 * k) then 2 ^ k else 0).sum)

/-- The bytes of a save area (Table 21-7): x0's slot zero, p7's all ones. -/
def Saved.image (v : Saved) : List Host.Cell :=
  let c := v.ctx
  let at_ (off : Nat) (cs : List Host.Cell) : List Host.Cell := cs.map fun p => (off + p.1, p.2)
  cellsAt 0 c.headImage
    ++ ((List.range 64).flatMap fun n => cellsAt (0x40 + 8 * n) (bvBytes 8 (c.getX n)))
    ++ (c.v.flatMap fun p => cellsAt (0x240 + 64 * p.1) (bvBytes 64 p.2))
    ++ ((List.range 8).flatMap fun n => cellsAt (0xA40 + 8 * n) (bvBytes 8 (c.getP n)))
    ++ ((List.range 16).flatMap fun n => at_ (0xA80 + 640 * n) (c.queueImage n))
    ++ (c.streams.flatMap fun p => cellsAt (0x3280 + 256 * p.1) p.2.saved)
    ++ (c.evq.zipIdx.flatMap fun e => cellsAt (0x4280 + 16 * e.2) (bvBytes 16 e.1))
    ++ (c.shapes.flatMap fun p => cellsAt (0x4380 + 128 * p.1) p.2.image)
    ++ (v.bars.zipIdx.flatMap fun b => cellsAt (0x4B80 + 64 * b.2) (barImage b.1))
    ++ at_ 0x5580 v.mxImage
    ++ ((List.range 8).flatMap fun k => cellsAt (0x7580 + 128 * k) (v.slotImage k))
    ++ cellsAt 0x7980 c.miscImage
    ++ (v.banks.zipIdx.flatMap fun p => p.1.map fun c => (0x8000 + 32768 * p.2 + c.1, c.2))
    ++ (v.marks.zipIdx.flatMap fun p => cellsAt (v.marksAt + 512 * p.2) (marksImage p.1))
    ++ (v.tiles.zipIdx.flatMap fun p => p.1.2.data.flatMap fun w => cellsAt (v.tilesAt + 16384 * p.2 + 4 * w.1) (bvBytes 4 w.2))
    ++ cellsAt v.sbAt (leBytes 8 v.ctx.sb.length)
    ++ v.ctx.sb.zipIdx.flatMap fun p => p.1.image (v.sbAt + 8 + 160 * p.2)

/-- The bytes and marks of a bank, by offset. -/
def State.bankImage (s : State) (core bank : Nat) : List Host.Cell × List Nat :=
  let k := bankKey core bank 0
  let inside (a : Nat) : Bool := decide (k ≤ a) && decide (a < k + 32768)
  if (s.core core).clearing.contains bank then ([], [])
  else ((s.mem.filter fun p => inside p.1).map fun p => (p.1 - k, p.2), (s.full.filter fun p => inside p.1).map fun p => p.1 - k)
/-- A context as it stands, with all that is its own. -/
def State.standing (s : State) (n : Nat) : Saved :=
  let c := s.ctx n
  let imgs := c.run.banks.map (s.bankImage (coreOf n))
  { no := s.seq, coord := n, ctx := c, banks := imgs.map (·.1), marks := imgs.map (·.2),
    bars := (s.core (coreOf n)).bars.filter fun b => b.2.own && b.2.ctx == n % 4,
    tiles := (s.clu (cluOf n)).tiles.filter fun t => match t.2.own with | some (m, _) => m == n | none => false,
    jobs := (s.clu (cluOf n)).jobs.filter fun j => j.ctx == n }

/-! ## Writing them -/

/-- An image is written to class-000 memory. -/
def State.putImage (s : State) (at_ n : Nat) (cs : List Host.Cell) : State :=
  cs.foldl (fun t c => t.setByte (at_ + c.1) c.2) (s.zeroBytes at_ n)

/-- The walker save tables of a job's nodes and the save areas of its contexts, one behind the other. -/
def State.writeSaves (s : State) (job : Nat) : State :=
  let j := s.job job
  match j.cfg.save with
  | none => s
  | some base =>
    let s := (j.nodes.filter (·.st != .done)).zipIdx.foldl (fun t p => t.putImage (base + 8192 * p.2) 8192 (j.saveTable p.1)) s
    (j.saved.foldl (fun (a : Nat × State) v => (a.1 + v.size, a.2.putImage a.1 v.size v.image))
      (base + 8192 * (j.nodes.filter (·.st != .done)).length, s)).2

end Sys2Proof.Machine
end

