-- ==== Sys2Proof/Machine/Preempt.lean ====
section
/-!
DEFINITION. Pre-emption and restoration (R198 to R201, R299, R335, R357, R362, R392 to R396).
-/
namespace Sys2Proof.Machine

/-- The contexts that runs of a job own. -/
def State.ctxsOf (s : State) (job : Nat) : List Nat :=
  (s.ctxs.filter fun p => p.2.run.kind != .free && p.2.run.job == job).map (·.1)

/-- PREEMPT_STOP (Table 21-6, phase 1). -/
def execPreemptStop (job : Nat) (s : State) : Host.Outcome State Fault Refusal :=
  .next (if (s.job job).pre = .none ∧ (s.clusOf job) ≠ [] then s.modJob job fun j => { j with pre := .stopped } else s)

/-- An instruction in progress that no pre-emption divides: it completes first (R377, R392). -/
def Stage.divides (g : Stage) : Bool :=
  g.ph == 4 || g.ph == 5 || (g.a != 0 && g.shp.isNone) || (g.shp.isSome && g.ph == 2)

/-- What the withdrawal leaves of an instruction in progress: a request that has been taken, and the barrier a
BWAIT waits on; a shape instruction stops between units with its handle PARTIAL (R335). -/
def Ctx.withdrawn (c : Ctx) : Ctx :=
  if c.stage.taken then c
  else
    match c.stage.shp with
    | some h => { c.setH h { c.getH h with st := 2, prog := c.stage.a, pc := c.pc } with stage := {} }
    | none => { c with stage := { bar := c.stage.bar, nd := c.stage.nd, b := if c.stage.bar.isSome then c.stage.b else 0 } }

/-- Floated streams return to the core with cause 3 (R130). -/
def Ctx.streamsHome (c : Ctx) : Ctx :=
  c.streams.foldl (fun d p => if p.2.place = 0 then d else d.bringBack p.1 3) c

/-- PREEMPT_WITHDRAW (Table 21-6, phase 2). -/
def execPreemptWithdraw (job : Nat) (s : State) : Host.Outcome State Fault Refusal :=
  let ns := s.ctxsOf job
  if (s.job job).pre ≠ .stopped ∨ ns.any fun n => (s.ctx n).stage.divides then .next s
  else
    let s := ns.foldl (fun t n => (t.withdraw n false).modCtx n fun c => c.withdrawn.streamsHome) s
    .next ((s.modJob job fun j => { j with pre := .withdrawn, rgq := [] }).jrn job ⟨jFreeze, 0, 0, []⟩)

/-- Whether a context waits in the FIFO of a sync object. -/
def State.inFifo (s : State) (n : Nat) : Bool := s.homes.syncs.any fun p => p.2.fifo.contains n

/-- SB is empty but for entries a REDUCE stream holds and those behind them (R128). -/
def Ctx.sbHeld (c : Ctx) : Bool :=
  match c.sb with
  | [] => true
  | e :: _ => e.red.isNone && c.reduceHolds e.va e.bytes.length

/-- The drain of a context is over (Table 21-6, phase 3). -/
def State.drained (s : State) (n : Nat) : Bool :=
  let c := s.ctx n
  c.sbHeld && c.unack == 0 && c.loads.isEmpty && c.stage.rep.isNone && (c.stage.out == 0 || s.inFifo n)
    && c.streams.all (fun p => p.2.out == 0)

/-- Whether a packet belongs to the contexts or clusters of a job. -/
def State.ofJob (s : State) (job : Nat) (p : Packet) : Bool :=
  let cl (k : Nat) : Bool := (s.clu k).owner == some job
  match p.who with
  | .store n | .load n _ _ | .chan n _ | .stream n _ | .prf n _ _ => (s.ctx n).run.job == job
  | .instr n => s.jobOfNo n == job
  | .job k _ | .clu k _ => cl k
  | .host _ => false
  | .nobody =>
    match p.pl with
    | .arrive core _ _ => cl (cluOfCore core)
    | .recallReq _ k _ => cl k
    | _ => false

/-- PREEMPT_DRAIN (Table 21-6, phase 3): a request withdrawn while it was still on its way to its place leaves the
waiters there as soon as it has joined them (R99). -/
def execPreemptDrain (job : Nat) (s : State) : Host.Outcome State Fault Refusal :=
  let s := if (s.job job).pre = .withdrawn then
      (s.ctxsOf job).foldl (fun t n => (t.withdraw n false).modCtx n Ctx.withdrawn) s
    else s
  let cl := s.clusOf job
  let jobsOk := cl.all fun k => (s.clu k).jobs.all fun j =>
    if j.isCopy then j.outs.isEmpty && !s.jobGoes j && !j.finished else !j.started
  let lpOk := cl.all fun k => (List.range 8).all fun c => (s.core (k * 8 + c)).lp.isEmpty
  if (s.job job).pre = .withdrawn ∧ jobsOk ∧ lpOk ∧ (s.ctxsOf job).all s.drained ∧ !(s.net.any (s.ofJob job))
      ∧ (s.job job).stalled.isEmpty then
    .next (s.modJob job fun j => { j with pre := .drained })
  else .next s

/-! ## The save (R198, R199, R393) -/

/-- Every dirty line of a cluster is written back and every update-only line flushed. -/
def State.writeAll (s : State) (clu : Nat) : State :=
  let s := ((s.clu clu).lines.filter fun p => p.2.isDirty).foldl (fun t p => t.writeBack clu p.1) s
  (s.clu clu).rb.foldl (fun t r => t.flushRb clu r.line) s

/-- One context goes to its save area: banks, barriers, tiles and jobs leave the core with it. -/
def State.saveCtx (s : State) (job n : Nat) : State :=
  let c := s.ctx n
  let core := coreOf n
  let clu := cluOf n
  let v := s.standing n
  let s := c.sb.foldl (fun t e => if e.va < 0x00C0000000000000 then t.epochDone (some e.epo) else t) s
  let s := s.modCore core fun k =>
    { k with bars := k.bars.filter fun b => !(b.2.own && b.2.ctx == n % 4), clearing := k.clearing.filter fun b => !c.run.banks.contains b }
  let s := s.modClu clu fun q =>
    { q with tiles := q.tiles.filter fun t => match t.2.own with | some (m, _) => m != n | none => true,
             jobs := q.jobs.filter fun j => j.ctx != n }
  let ren (m : Nat) : Nat := if m = n then savedNo job v.no else m
  let s := { s with seq := s.seq + 1, homes := { s.homes with syncs := s.homes.syncs.map fun (p : Nat × SyncRec) =>
    (p.1, { p.2 with holder := p.2.holder.map ren, fifo := p.2.fifo.map ren }) } }
  (s.setCtx n { nextId := c.nextId }).modJob job fun j => { j with saved := j.saved ++ [v] }

/-- A remainder id no other remainder of a node has (R199). DESIGN CHOICE (assumption log 121): with all of 64 to 255 taken, 64. -/
def freeRem (hs : List Handout) (h : Handout) : Nat :=
  ((spanNats 64 255).find? fun k => !hs.any fun g => g.graph == h.graph && g.node == h.node && g.wid == k).getD 64

/-- A walker's OUT falls by what a remainder takes over. -/
def moveOut (ws : List Walker) (h : Handout) (k : Nat) : List Walker :=
  (ws.map fun w => if w.is h.graph h.node && w.wid == h.wid then { w with out := w.out - k } else w).filter fun w =>
    !(w.next == w.hi && w.out == 0)

/-- One unstarted hand-out becomes a remainder: its issued indices leave the OUT of its source, which may itself
be a restored remainder. -/
def saveHand (j : Job) (a : List Walker × List Handout) (h : Handout) : List Walker × List Handout :=
  let k := match j.node? h.graph h.node with | some x => x.issued h.next h.hi | none => 0
  let g : Handout := { h with wid := freeRem a.2 h, rem := some k }
  if a.1.any fun w => w.is h.graph h.node && w.wid == h.wid then (moveOut a.1 h k, a.2 ++ [g])
  else
    (a.1, (a.2.map fun q =>
      if q.graph == h.graph && q.node == h.node && q.wid == h.wid then { q with rem := q.rem.map (· - k) } else q) ++ [g])

/-- The walkers and the hand-outs of a job as they are saved (R198, R199). -/
def remainders (j : Job) (hs : List Handout) (ws : List Walker) : List Walker × List Handout :=
  (hs.filter (·.rem.isNone)).foldl (saveHand j) (ws, hs.filter (·.rem.isSome))

/-- PREEMPT_SAVE (Table 21-6, phase 4): dirty lines are written back and update-only lines flushed; once every
one is home, contexts, walkers, hand-outs and unstarted records are saved and kept banks are lost. -/
def execPreemptSave (job : Nat) (s : State) : Host.Outcome State Fault Refusal :=
  if (s.job job).pre ≠ .drained then .next s
  else
    let cl := s.clusOf job
    let s := cl.foldl State.writeAll s
    if cl.any fun k => !(s.clu k).wbOut.isEmpty then .next s
    else
      let cores := cl.flatMap fun k => (List.range 8).map (k * 8 + ·)
      -- what an earlier restoration has found no place for is saved again (R201)
      let j := s.job job
      let (ws, hs) := remainders j ((cl.flatMap fun k => (s.clu k).runq) ++ j.savedHands) ((cl.flatMap fun k => (s.clu k).walkers) ++ j.savedWalkers)
      let tasks := j.savedTasks ++ cores.flatMap fun k => (s.core k).deque ++ (s.core k).mail
      let s := (s.ctxsOf job).foldl (fun t n => t.saveCtx job n) s
      let s := cl.foldl (fun t k => t.modClu k fun q => { q with walkers := [], runq := [] }) s
      let s := cores.foldl (fun t k => t.modCore k fun c => { c with deque := [], mail := [], kept := [], mxq := [] }) s
      .next ((s.modJob job fun j =>
        { j with pre := .saved, savedWalkers := ws, savedHands := hs.filter fun h => !(h.rem == some 0 && h.next == h.hi), savedTasks := tasks }).writeSaves job)

/-! ## Restoration (R200, R395) -/

/-- Clusters of a node's mask in the job's partition, in an order of the part's choice. -/
def State.homesFor (s : State) (job g n : Nat) : List Nat :=
  match (s.job job).node? g n with
  | some x => (rotate (List.range 192) (Config.freeWord s.free).toNat).filter fun k => x.places k && (s.clu k).owner == some job
  | none => []

/-- Step 1: walker records into free entries, remainders into run queues; the part chooses a place for each (R200). One without a
place waits for a later RESTORE (assumption log 81). -/
def State.restoreWalkers (s : State) (job : Nat) : State :=
  let j := s.job job
  let s := s.setJob job { j with savedWalkers := [], savedHands := [] }
  let s := j.savedWalkers.foldl (fun t w =>
    (match (t.homesFor job w.graph w.node).find? fun k => (t.clu k).walkers.length < 16 with
    | some k => t.modClu k fun q => { q with walkers := q.walkers ++ [w] }
    | none => t.modJob job fun j => { j with savedWalkers := j.savedWalkers ++ [w] }).bump) s
  j.savedHands.foldl (fun t h =>
    (match t.homesFor job h.graph h.node with
    | k :: _ => t.queueHand k h
    | [] => t.modJob job fun j => { j with savedHands := j.savedHands ++ [h] }).bump) s

/-- Step 2: unstarted records onto deques, the excess to the graph's spill ring. -/
def State.restoreTasks (s : State) (job : Nat) : State :=
  let j := s.job job
  j.savedTasks.foldl (fun t k =>
    let cores := (t.homesFor job k.graph k.node).flatMap fun c => (List.range 8).map (c * 8 + ·)
    (match cores.find? fun c => (t.core c).deque.length < 16 with
    | some c => t.modCore c fun q => { q with deque := q.deque ++ [k] }
    | none =>
      -- no ring: the record waits for a place (assumption log 81)
      if (((t.job job).graph? k.graph).map fun (g : Graph) => g.spillq).getD 0 = 0 then t.modJob job fun j => { j with savedTasks := j.savedTasks ++ [k] }
      else t.ringPut job (cores.headD 0) k.graph [k]).bump)
    (s.setJob job { j with savedTasks := [] })

/-- The free context of a core where a saved context may stand, with its banks (R395, step 3). -/
def State.seat (s : State) (v : Saved) (core : Nat) : Option (Nat × List Nat) := do
  let n ← ((List.range 4).map (core * 4 + ·)).find? fun n => (s.ctx n).run.kind == .free
  let held := ((List.range 4).flatMap fun k => let r := (s.ctx (core * 4 + k)).run; if r.kind = .free then [] else r.banks)
    ++ (s.keptOf core).flatMap (·.banks) ++ (s.core core).clearing
  let free := (List.range 12).filter fun b => !held.contains b
  let nb := v.ctx.run.banks.length
  if free.length < nb ∨ v.bars.any (fun b => ((s.core core).bar b.1).own) ∨ v.tiles.any (fun t => ((s.clu (cluOfCore core)).tiles.get? t.1).isSome) then none
  else pure (n, free.take nb)

/-- Clusters where other ranks of a gang already stand. -/
def State.gangAt (s : State) (r : Run) : List Nat :=
  (s.ctxs.filter fun p => p.2.run.kind == .gang && p.2.run.job == r.job && p.2.run.graph == r.graph && p.2.run.node == r.node).map fun p => cluOf p.1

/-- Where a saved context may go. -/
def State.seatOf (s : State) (job : Nat) (v : Saved) : Option (Nat × List Nat) :=
  let r := v.ctx.run
  let cl := s.homesFor job r.graph r.node
  let apart := r.kind == .gang && (match (s.job job).node? r.graph r.node with
    | some x => decide (x.tiles ≤ popcount (fld x.rcd.toNat 511 320) 192)
    | none => false)
  let cl := if apart then cl.filter fun k => !(s.gangAt r).contains k else cl
  (cl.flatMap fun k => (List.range 8).map (k * 8 + ·)).findSome? (s.seat v)

/-- An SB entry of a restored context: the private view goes with the run's banks (R15, R393). -/
def SbEntry.moved (e : SbEntry) (core : Nat) (old new : List Nat) : SbEntry :=
  match e.loc with
  | .own _ b o => { e with loc := .own core ((new[old.findIdx (· == b)]?).getD b) o }
  | _ => e

/-- Steps 4 to 6 for one context in its seat. -/
def State.sit (s : State) (job : Nat) (v : Saved) (n : Nat) (banks : List Nat) : State :=
  let core := coreOf n
  let clu := cluOf n
  let old := v.ctx.run.banks
  let s := (banks.zip (v.banks.zip v.marks)).foldl (fun t p =>
    let k := bankKey core p.1 0
    let t := (t.zeroBytes k 32768).clearMarks k 32768
    let t := p.2.1.foldl (fun u c => u.setByte (k + c.1) c.2) t
    p.2.2.foldl (fun u o => u.setMark (k + o) true) t) s
  -- epochs of held stores on the new core
  let (s, sb) := v.ctx.sb.foldl (fun (a : State × List SbEntry) e =>
    let e := e.moved core old banks
    if e.va < 0x00C0000000000000 then
      let (t, ep) := a.1.epochAdd core
      (t, a.2 ++ [{ e with epo := ep }])
    else (a.1, a.2 ++ [e])) (s, [])
  let s := (s.ungate (coreIsland core)).ungate (engineIsland clu)
  let s := s.setCtx n { v.ctx with run := { v.ctx.run with banks := banks }, sb := sb }
  let s := s.modCore core fun k => { k with bars := v.bars.foldl (fun m b => SMap.set m b.1 { b.2 with ctx := n % 4 }) k.bars }
  let s := s.modClu clu fun q =>
    { q with tiles := v.tiles.foldl (fun m t => SMap.set m t.1 { t.2 with own := t.2.own.map fun o => (n, o.2) }) q.tiles }
  -- the saved batch, ahead of the core's queue, and the copy jobs
  let (s, ids) := v.jobs.foldl (fun (a : State × List Nat) j =>
    let q := a.1.clu clu
    let j : EJob := { j with id := q.jobSeq, ctx := n }
    let j : EJob := { j with edges := (q.jobs.filter fun i => a.1.edge i j).map (·.id) }
    let t := a.1.modClu clu fun q => { q with jobs := q.jobs ++ [j], jobSeq := q.jobSeq + 1 }
    match j.kind with
    | .copy _ slot => (t.modSlot n slot fun x => { x with id := j.id }, a.2)
    | _ => (t, a.2 ++ [j.id])) (s, [])
  let s := s.modCore core fun k => { k with mxq := ids ++ k.mxq }
  -- sync objects: records, mirrors and replies under way
  let no := savedNo job v.no
  let ren (m : Nat) : Nat := if m = no then n else m
  let held := s.homes.syncs.filter fun p => p.2.holder == some no
  let s := { s with homes := { s.homes with syncs := s.homes.syncs.map fun (p : Nat × SyncRec) =>
    (p.1, { p.2 with holder := p.2.holder.map ren, fifo := p.2.fifo.map ren }) } }
  let s := held.foldl (fun t p => t.mirror p.1 (some n)) s
  let s := { s with net := s.net.map fun (p : Packet) => match p.who with | .instr m => if m = no then { p with who := .instr n } else p | _ => p }
  s.jrn job ⟨jRestore, n, v.coord, []⟩

/-- Steps 3 to 6: each saved context that has a seat now is restored; the others wait, as all do while a walker or a remainder
waits for its place (assumption log 81). -/
def State.restoreCtxs (s : State) (job : Nat) : State :=
  if !(s.job job).savedWalkers.isEmpty || !(s.job job).savedHands.isEmpty then s
  else (s.job job).saved.foldl (fun t v =>
    -- a grant may have reached the save area meanwhile
    let v := (((t.job job).saved.find? fun u => u.no == v.no)).getD v
    (match t.seatOf job v with
    | some (n, bs) => (t.modJob job fun j => { j with saved := j.saved.filter fun u => u.no != v.no }).sit job v n bs
    | none => t).bump) s

/-- The events of a job that found no room enter the region it is given (R417). -/
def State.placeLate (s : State) (job : Nat) (fresh : Bool) : State :=
  let j := s.job job
  j.jrnLate.foldl (fun t e => t.jrnPut job e) (s.setJob job { j with jrnLate := [], jrnAt := if fresh then 0 else j.jrnAt })

/-- RESTORE (R395): the job's partition must be free or held by saved jobs; it is the one system software has
asked for since, where it has (R200: the partition at restoration), and so is the region of a job that records (R417). Walkers first, then records, then contexts; a
context without a seat waits for a later step. -/
def execRestore (job : Nat) (s : State) : Host.Outcome State Fault Refusal :=
  let j := s.job job
  match j.pre with
  | .saved =>
    let ask := (s.pkg.requests.get? job).getD j.cfg
    let cfg : JobCfg := { j.cfg with pmask := ask.pmask, jrnb := if j.cfg.mode = 1 then ask.jrnb else j.cfg.jrnb,
                                     jrnl := if j.cfg.mode = 1 then ask.jrnl else j.cfg.jrnl }
    let fresh := cfg.jrnb != j.cfg.jrnb
    let cl := (List.range 192).filter cfg.holds
    let ok := cl.all fun k => !s.pkg.retained.contains (k / 48)
      && match (s.clu k).owner with | some o => o == job || (s.job o).pre == .saved | none => true
    if ok && (cfg.mode != 1 || (cfg.jrnb.toNat % 8 == 0 && decide (cfg.jrnb.toNat + cfg.jrnl.toNat ≤ 2 ^ 39)
        && !s.mapsInto (s.jobs.map fun p => p.2.cfg) [(cfg.jrnb.toNat, cfg.jrnl.toNat)])) then
      let s := { s with pkg := { s.pkg with requests := s.pkg.requests.erase job } }
      let s := if fresh then s.zeroBytes cfg.jrnb.toNat cfg.jrnl.toNat else s
      let s := ((s.takeClusters job cfg).modJob job fun j => { j with cfg := cfg, pre := .none }).placeLate job fresh
      .next (((s.restoreWalkers job).restoreTasks job).restoreCtxs job).bump
    else .next s
  | .none =>
    if j.saved.isEmpty ∧ j.savedWalkers.isEmpty ∧ j.savedHands.isEmpty ∧ j.savedTasks.isEmpty then .next s
    else .next (((s.restoreWalkers job).restoreTasks job).restoreCtxs job).bump
  | _ => .next s

end Sys2Proof.Machine
end

