-- ==== Sys2Proof/Machine/Links.lean ====
section
/-!
DEFINITION. Steps of the link ports and of the command agent (R400 to R409): flits, inbound requests, host
commands, attestation and the token bucket.
-/
namespace Sys2Proof.Machine

/-! ## Ports and nodes (R400, R405) -/

/-- The link node a request goes to. -/
def Payload.linkNode : Payload → Option Nat
  | .write l _ | .read l _ _ | .atomic l _ _ _ _ _ => l.linkNode
  | _ => none

/-- Every request in flight to an unreachable node receives an error reply (R400). -/
def State.failNode (s : State) (node : Nat) : State :=
  { s with net := s.net.map fun (p : Packet) =>
      if p.cls = .req ∧ p.pl.linkNode = some node then { p with cls := .rsp, pl := .error } else p }

/-- FLIT_RECEIVE (R400): a flit whose CRC fails is retried; when its sixteenth retry has failed too, the port
goes down and firmware reports the loss. -/
def execFlitReceive (port : Nat) (ok : Bool) (s : State) : Host.Outcome State Fault Refusal :=
  match s.pkg.ports.get? port with
  | none => .next s
  | some p =>
    let put (q : Port) (t : State) : State := { t with pkg := { t.pkg with ports := t.pkg.ports.set port q } }
    if !p.up then .next s
    else if ok then .next (put { p with retries := 0 } s)
    else if p.retries < 16 then .next (put { p with retries := p.retries + 1 } s)
    else
      let s := (put { p with up := false } s).report rPort port
      .next (if s.linkDown p.node then s.failNode p.node else s)

/-- LINK_BRINGUP (R405): the port in bits 6 to 2 of the word connects the node and is up, and the word's two
low bits are the capabilities the endpoint advertises (Table 24-3). A node the port connected before may have no port up
any more (R400). -/
def execLinkBringup (node caps : Nat) (s : State) : Host.Outcome State Fault Refusal :=
  let port := caps / 4 % 32
  if 18 ≤ port ∨ 256 ≤ node then .next s
  else
    let old := (s.pkg.ports.get? port).map (·.node)
    let s := { s with pkg := { s.pkg with hlcap := s.pkg.hlcap.set node (caps % 4),
                                          ports := s.pkg.ports.set port { node := node } } }
    .next (match old with
      | some m => if s.linkDown m then s.failNode m else s
      | none => s)

/-! ## Inbound requests (R402, R403) -/

def State.answerHost (s : State) (bs : List Byte) : State :=
  { s with pkg := { s.pkg with replies := bs :: s.pkg.replies } }

/-- A request or command of a link node is refused with an error reply, here the empty one, and counted (R401). -/
def State.refuseLink (s : State) : State := { s with pkg := { s.pkg with refusals := s.pkg.refusals + 1 } }.answerHost []

/-- A job and the device address an enabled aperture admits a request to (R402). -/
def State.aperture (s : State) (node addr len : Nat) (r w : Bool) : Option (Nat × Nat) :=
  s.jobs.findSome? fun (p : Nat × Job) =>
    (p.2.cfg.aps.find? fun a =>
      a.en && a.node == node && decide (a.inbase ≤ addr) && decide (addr + len ≤ a.inbase + a.len)
        && (!r || a.acc % 2 == 1) && (!w || decide (2 ≤ a.acc))).map fun a => (p.1, a.pabase + (addr - a.inbase))

/-- Operations and types of a link atomic, by number (Table 05-4). -/
def linkAop : Nat → Option AtomOp
  | 0 => some (.op .swap) | 1 => some (.op .add) | 2 => some (.op .and) | 3 => some (.op .or) | 4 => some (.op .xor)
  | 5 => some (.op .min) | 6 => some (.op .max) | 7 => some .cas | 8 => some (.op .fadd)
  | _ => none
def linkEsz (o : Nat) : Nat → Option Esz
  | 0 => if o = 8 then some .fp32 else some .s32
  | 1 => some .s64 | 2 => some .z32 | 3 => some .z64
  | _ => none

/-- Lines of class-000 memory a range touches. -/
def linesOf (a len : Nat) : List Nat := (spanNats (a / 128) ((a + len - 1) / 128)).map (· * 128)

/-- Every line of a range may be read at its home, or RECALL has begun on those that may not. -/
def State.homesAsk (s : State) (a len : Nat) : Bool × State :=
  (linesOf a len).foldl (fun (b, t) l => if t.homeFree l then (b, t) else (false, t.beginBack l)) (true, s)

/-- A write at homes, one masked write per line (R403). -/
def State.homeWrites (s : State) (a : Nat) (bs : List Byte) : State :=
  (linesOf a bs.length).foldl (fun t l =>
    let lo := max a l
    t.homeWrite lo (((bs.drop (lo - a)).take (l + 128 - lo)).map some)) s

/-- What an inbound request asks for. -/
inductive Inbound
  | read | write | atomic (o : AtomOp) (t : Esz)
  deriving DecidableEq, Repr

/-- Kinds of the event: 0 a read, 1 a write, 16 + 16 × operation + type a link atomic. -/
def inboundOf (kind : Nat) : Option Inbound :=
  match kind with
  | 0 => some .read
  | 1 => some .write
  | _ =>
    if kind < 16 then none
    else
      match linkAop ((kind - 16) / 16), linkEsz ((kind - 16) / 16) (kind % 16) with
      | some o, some t => some (.atomic o t)
      | _, _ => none

/-- Bytes a request touches. -/
def Inbound.size (q : Inbound) (len : Nat) : Nat := match q with | .atomic o t => o.size t | _ => len

/-- A number in n words of 64 bits, and back. -/
def toWords (n v : Nat) : List Nat := (List.range n).map fun i => v / 2 ^ (64 * i) % 2 ^ 64
def ofWords (ws : List Nat) : Nat := ws.foldr (fun w a => w + 2 ^ 64 * a) 0

/-- An inbound request in the journal (Table 24-8): node and address, and kind, length and data; and back. -/
def InReq.event (r : InReq) : JEv :=
  ⟨jInbound, r.node, r.addr, r.kind :: r.len :: toWords (if r.kind = 0 then 0 else max 2 ((r.len + 7) / 8)) r.data⟩
def JEv.request (e : JEv) : Option InReq :=
  match e.more with
  | k :: l :: ws => if e.kind = jInbound then some ⟨e.who, k, e.val, l, ofWords ws⟩ else none
  | _ => none

/-- What an admitted request comes to at the homes of its lines (R403). -/
inductive InDone
  /-- it waits for RECALL, which has begun -/
  | wait (s : State)
  | done (reply : List Byte) (s : State)

/-- An inbound read, write or link atomic at a device address (R403): a write waits for nothing. -/
def State.inboundAt (s : State) (q : Inbound) (pa n data : Nat) : InDone :=
  match q with
  | .write => .done (leBytes 8 0) (s.homeWrites pa (leBytes n data))
  | .read => match s.homesAsk pa n with | (true, t) => .done (t.bytes pa n) t | (false, t) => .wait t
  | .atomic o ty =>
    match s.homesAsk pa n with
    | (false, t) => .wait t
    | (true, t) =>
      match t.atomicHome (.hbm pa) o ty (data % 2 ^ 64) (data / 2 ^ 64 % 2 ^ 64) .nobody with
      | .done u r => .done (match r with | some (.value bs _) => bs | _ => []) u
      | .held u | .later u => .wait u
      | .stay => .wait t

/-- The aperture of a request of the model's form that is admitted, with what is asked. -/
def State.admitted (s : State) (r : InReq) : Option (Inbound × Nat × Nat) :=
  (inboundOf r.kind).bind fun q =>
    let n := q.size r.len
    if n = 0 then none
    else
      (s.aperture r.node r.addr n (q != .write) (q != .read)).bind fun (p : Nat × Nat) =>
        match q with
        | .atomic _ _ => if p.2 % n = 0 then some (q, p) else none
        | _ => some (q, p)

/-- An inbound request (R401 to R403): admitted, performed, answered and journalled, or refused and counted; true once it is
over. -/
def State.inbound (s : State) (r : InReq) : Bool × State :=
  match s.admitted r with
  | none => (true, s.refuseLink)
  | some (q, job, pa) =>
    match s.inboundAt q pa (q.size r.len) r.data with
    | .wait t => (false, t)
    | .done bs t => (true, (t.answerHost bs).jrn job r.event)

/-- The next event of the journal a job in replay follows (R418). -/
def State.due (s : State) (job : Nat) : Option JEv := (nextEvent (s.job job).journal).map (·.1)
def State.replays (s : State) (job : Nat) : Bool := (s.job job).cfg.mode == 2

/-- The request that is performed when one arrives: itself, or for a job in replay the journalled one, once (R418). -/
def State.comes (s : State) (r : InReq) : Option InReq :=
  match s.admitted r with
  | some (_, job, _) =>
    if s.replays job then ((s.due job).bind JEv.request).filter fun q => !s.pkg.inbox.contains q else some r
  | none => some r

/-- Requests that wait for RECALL are tried again, oldest first; one of a job in replay when it is due. -/
def State.inboxTurn (s : State) : State :=
  s.pkg.inbox.foldl (fun t r =>
    let now := match t.admitted r with | some (_, job, _) => !t.replays job || t.due job == some r.event | none => true
    if now then
      match t.inbound r with
      | (true, u) => { u with pkg := { u.pkg with inbox := u.pkg.inbox.erase r } }
      | (false, u) => u
    else t) s

/-- INBOUND_REQUEST (R401 to R403). A read or a link atomic that RECALL keeps waiting is performed at a later step. -/
def execInboundRequest (node kind addr len data : Nat) (s : State) : Host.Outcome State Fault Refusal :=
  let s := s.inboxTurn
  match s.comes ⟨node, kind, addr, len, data⟩ with
  | none => .next s
  | some r =>
    match s.inbound r with
    | (true, t) => .next t
    | (false, t) => .next { t with pkg := { t.pkg with inbox := t.pkg.inbox ++ [r] } }

/-- RECALL_MERGE (R95), and the inbound requests it lets go on. -/
def execRecallMerge (line : Nat) (s : State) : Host.Outcome State Fault Refusal := .next (s.mergeBack line).inboxTurn

/-! ## Attestation (R408, R409) -/

def SecSt.code : SecSt → Nat
  | .unprovisioned => 0 | .locked => 1 | .debug => 2

/-- The configured context fields of a job, as numbers. -/
def JobCfg.fields (c : JobCfg) : List Nat :=
  [c.hptb.toNat, c.rgtb.toNat, c.armb.toNat, c.stk.toNat, c.retq, c.arpool, c.retainns, c.inlmax, c.ageint, c.rsvb, c.resq,
   c.pmask.toNat, c.hentry.toNat, c.fqb.toNat, c.fqn, c.jrnb.toNat, c.jrnl.toNat, c.rlim.toNat, c.host, c.mbox, c.code.1, c.code.2]
    ++ (c.peers.flatMap fun p => [p.1, p.2.1, p.2.2])
    ++ (c.aps.flatMap fun a => [a.pabase, a.inbase, a.len, a.node, a.en.toNat, a.acc])
    ++ c.subs.flatMap fun e => [e.1, e.2.1.toNat, e.2.2.1.toNat, e.2.2.2.toNat]

/-- Bytes 0 to 239 of the report (Table 24-4). -/
def State.reportHead (s : State) (job nonce : Nat) : List Byte :=
  leBytes 4 1 ++ leBytes 4 0 ++ leBytes 32 nonce ++ leBytes 1 s.pkg.sec.code ++ leBytes 1 s.pkg.dbg ++ leBytes 6 0
    ++ bvBytes 64 (Config.shake256 (Config.firmwareImage s.pkg.fwVer s.pkg.fwFile))
    ++ bvBytes 64 (Config.shake256 (Config.jobImage (s.job job).cfg.fields))
    ++ bvBytes 57 (Config.identityPublic s.pkg.seed) ++ leBytes 7 0

/-- The report, signed with the identity key; refused with an error reply while the identity seed is locked (R409). -/
def State.attestation (s : State) (job nonce : Nat) : List Byte :=
  if s.pkg.seedLock then []
  else
    let head := s.reportHead job nonce
    head ++ bvBytes 114 (Config.sign s.pkg.seed (Config.shake256 head)) ++ leBytes 6 0

/-! ## The command agent (R404, Table 24-2) -/

/-- A command names the job, by its low 32 bits, and the link node it comes from, above them. -/
def cmdJob (w : Nat) : Nat := w % 2 ^ 32
def cmdNode (w : Nat) : Nat := w / 2 ^ 32

/-- Commands of a job are its host node's alone, once firmware has configured the job (R401). -/
def State.admits (s : State) (job node : Nat) : Bool := (s.job job).configured && (s.job job).cfg.host == node

/-- A command in the journal: its link node, the command with its level, and its operand; and back. -/
def HostOp.event (node : Nat) : HostOp → JEv
  | .launch r => ⟨jHost, node, 0, toWords 1 r⟩
  | .cancel l id => ⟨jHost, node, 1 + 4 * l.code, toWords 1 id⟩
  | .cntrd l id => ⟨jHost, node, 2 + 4 * l.code, toWords 1 id⟩
  | .attest nonce => ⟨jHost, node, 3, toWords 4 nonce⟩
def JEv.command (e : JEv) : Option HostOp :=
  let v := ofWords e.more
  if e.kind ≠ jHost then none
  else match e.val % 4 with
    | 0 => some (.launch v)
    | 1 => some (.cancel (levelOf (e.val / 4)) v)
    | 2 => some (.cntrd (levelOf (e.val / 4)) v)
    | _ => some (.attest v)

/-- The parts of a level's id as a host command gives them; none where a graph or phase id has [63:32] set. -/
def hostId (l : Level) (id : Nat) : Option (Nat × Nat) :=
  match l with
  | .node => some (id / 2 ^ 32, id % 2 ^ 32)
  | .job => some (0, 0)
  | _ => if id < 2 ^ 32 then some (0, id) else none

/-- The place of a heap or arena address of a job for the command agent, which has no core: the job's own tables, with the
generation and the size of an arena (R31, R133, R134). -/
def State.agentPlace (s : State) (job va : Nat) : Option Loc :=
  let j := s.job job
  let sl := j.slot (va / 2 ^ 40 % 4096)
  let pa :=
    if va < 2 ^ 55 then (s.walkHeap j.cfg.hptb.toNat va).toOption
    else if va / 2 ^ 52 = 0xA ∧ sl.st = .live ∧ sl.gen = va / 2 ^ 32 % 256 ∧ va % 2 ^ 32 + 8 ≤ sl.size * 2 ^ 21 then
      (s.walkArena j.cfg.armb.toNat (va / 2 ^ 40 % 4096) (va % 2 ^ 32)).toOption
    else none
  match pa.bind (s.classify job) with
  | some l => if (l.linkNode.map s.linkDown).getD false then none else some l
  | none => none

/-- What a launch command comes to with the bytes captured so far: the next word to read, or its reply (R87, R366). -/
inductive AgentLaunch
  | ask (va : Nat)
  | reply (w : Nat) (s : State)

/-- As LAUNCH with PARENT 0, without a run that issues it (R177, R366). -/
def State.agentLaunch (s : State) (job record : Nat) (cap : List Byte) : AgentLaunch :=
  if cap.length < 128 then .ask (record + cap.length)
  else
    let rcd := BitVec.ofNat 1024 (leNat (cap.take 128))
    let fpn := rcdFpn rcd
    match launchCode (s.job job).cfg rcd with
    | 0 =>
      if rcdFpt rcd % 16 ≠ 0 ∨ 256 < fpn then .reply 0x19 s
      else if cap.length < 128 + 16 * fpn then .ask (rcdFpt rcd + (cap.length - 128))
      else
        let fpt := fpEntries (cap.drop 128) fpn
        if fpt.all fpEntryOk then
          let (w, t) := s.enterNode job none rcd fpt
          .reply w t
        else .reply 0x19 s
    | code => .reply code s

/-- One thing the agent does for the command under way of a link node: it asks for a word, or answers and journals the command
and turns to the next. A record it cannot read has an error reply (assumption log 72). -/
def State.agentTurn (s : State) (node : Nat) : State :=
  match s.pkg.cmds.get [] node with
  | [] => s
  | c :: r =>
    let fin (bs : List Byte) (t : State) : State :=
      (({ t with pkg := { t.pkg with cmds := SMap.setD [] t.pkg.cmds node r } } : State).answerHost bs).jrn c.job (c.op.event node)
    if c.wait then s
    else
      match c.op with
      | .cancel l id => fin (leBytes 8 0) (match hostId l id with | some (hi, lo) => s.cancel c.job l hi lo | none => s)
      | .cntrd l id => fin (leBytes 8 (match hostId l id with | some (hi, lo) => (s.job c.job).countWord l hi lo | none => 0)) s
      | .attest nonce => fin (s.attestation c.job nonce) s
      | .launch record =>
        if c.bad then fin [] s
        else
          match s.agentLaunch c.job record c.cap with
          | .reply w t => fin (leBytes 8 w) t
          | .ask va =>
            match (if va % 8 = 0 then s.agentPlace c.job va else none) with
            | some l => (s.modHead node fun x => { x with wait := true }).send { cls := .req, who := .host node, pl := .read l 8 false, va := va }
            | none => s.modHead node fun x => { x with bad := true }
/-- The agent goes on with the commands of a link node until it waits: at most fuel turns. -/
def State.agentGo (s : State) (node : Nat) : Nat → State
  | 0 => s
  | f + 1 =>
    match s.pkg.cmds.get [] node with
    | [] => s
    | c :: _ => if c.wait then s else (s.agentTurn node).agentGo node f
/-- Each command takes at most two turns before it waits or is over. -/
def State.agent (s : State) (node : Nat) : State := s.agentGo node (2 * (s.pkg.cmds.get [] node).length)

/-- A command arrives at the agent: it is refused, or joins the queue of its link node. For a job in replay the journalled
command comes in its place (R418). -/
def State.command (s : State) (cmd : Nat) (op : HostOp) : Host.Outcome State Fault Refusal :=
  let job := cmdJob cmd
  let node := cmdNode cmd
  let q := s.pkg.cmds.get [] node
  let put (op : HostOp) : State := ({ s with pkg := { s.pkg with cmds := s.pkg.cmds.set node (q ++ [({ job := job, op := op } : HostCmd)]) } } : State).agent node
  if !s.admits job node then .next s.refuseLink
  else if s.replays job then
    match (s.due job).bind JEv.command with
    | some o => .next (if q.isEmpty then put o else s)
    | none => .next s
  else .next (put op)

/-- HOST_LAUNCH (R177, R366, R404): the reply is the code or the success word. -/
def execHostLaunch (cmd record : Nat) (s : State) : Host.Outcome State Fault Refusal := s.command cmd (.launch record)
/-- HOST_CANCEL (R371, R404): the reply is 0; an id that names nothing live has no effect. -/
def execHostCancel (cmd : Nat) (level : Level) (id : Nat) (s : State) : Host.Outcome State Fault Refusal :=
  s.command cmd (.cancel level id)
/-- HOST_CNTRD (R372, R404): the reply is the counter word. -/
def execHostCntrd (cmd : Nat) (level : Level) (id : Nat) (s : State) : Host.Outcome State Fault Refusal :=
  s.command cmd (.cntrd level id)
/-- ATTEST (R401, R409). -/
def execAttest (cmd nonce : Nat) (s : State) : Host.Outcome State Fault Refusal := s.command cmd (.attest nonce)

/-- DELIVER (R72); a word the command agent has read lets it go on (R87, R404). -/
def execDeliver (k : Nat) (s : State) : Host.Outcome State Fault Refusal :=
  .next (match s.net[k]? with
    | some p => match p.cls, p.who with | .rsp, .host node => (s.deliver k).agent node | _, _ => s.deliver k
    | none => s)

/-! ## Tokens (R407, Table 24-5) -/

/-- Packets that wait at injection enter NET, oldest first, while there is a token for each: at most fuel of them (R407). -/
def State.unstall (s : State) (job : Nat) : Nat → State
  | 0 => s
  | f + 1 =>
    let j := s.job job
    match j.stalled with
    | [] => s
    | p :: r =>
      let free := j.cfg.rlim.toNat % 2 ^ 32 == 0
      if free || decide (0 < j.tokens) then
        ((s.setJob job { j with stalled := r, tokens := if free then j.tokens else j.tokens - 1 }).send p).unstall job f
      else s

/-- TOKEN_REFILL (R407): the tokens of one microsecond; the packets that wait at injection take them first. -/
def execTokenRefill (job : Nat) (s : State) : Host.Outcome State Fault Refusal :=
  let t := s.modJob job fun j =>
    { j with tokens := min (j.tokens + fld j.cfg.rlim.toNat 31 0) (fld j.cfg.rlim.toNat 47 32) }
  .next (t.unstall job (s.job job).stalled.length)

end Sys2Proof.Machine
end

