-- ==== Sys2Proof/Machine/Power.lean ====
section
/-!
DEFINITION. Security states, debug, power and errors (R408 to R415, R176, R378).
-/
namespace Sys2Proof.Machine

/-! ## The security alarm (R413) -/

/-- Debug access ends: the level becomes none, and no context is attached or halted. -/
def State.debugOff (s : State) : State :=
  { s with
    pkg := { s.pkg with dbg := 0, tenant := none, sec := if s.pkg.sec = .debug then .locked else s.pkg.sec },
    ctxs := s.ctxs.map fun (p : Nat × Ctx) => (p.1, p.2.modSys fun y => { y with dbgOn := false, dbgHalt := false }) }

/-- Steps 1 to 4 of R413: every context stops and takes the steps of its end, with nothing saved; keys are
erased and the seed locked; every job has its record and is cancelled; debug ends. -/
def State.alarm (s : State) (cause : Nat) : State :=
  let live := (s.ctxs.filter fun p => p.2.run.kind != .free).map (·.1)
  let s : State := { s with jobs := s.jobs.map fun (p : Nat × Job) =>
    if p.2.pre = Pre.saved then p else (p.1, { p.2 with pre := .none, rgq := [] }) }
  let s := live.foldl (fun t n => if (t.ctx n).sys.ending = 0 then (t.withdraw n true).beginEnd n 1 else t) s
  let s : State := { s with pkg := { s.pkg with keys := false, seedLock := true } }
  let s := (s.jobs.map (·.1)).foldl (fun t j => (t.postSched j (flt clsSecurity 0) 0 0).cancel j .job 0 0) s
  s.debugOff.report rAlarm cause

/-- SECURITY_ALARM (R413): causes 0 a glitch sensor, 1 a bond sensor, 2 an XA cell, 3 a failed verification. -/
def execSecurityAlarm (cause : Nat) (s : State) : Host.Outcome State Fault Refusal := .next (s.alarm cause)

/-! ## Firmware, tokens, fuses (R408, R410) -/

/-- Whether an image verifies (R408): it carries the SHAKE256 digest of its bytes, and a signature over that digest by the fused
firmware key. -/
def imageVerifies (version : Nat) (file : Bool) : Bool :=
  let d := Config.shake256 (Config.firmwareImage version file)
  Config.imageDigest version file == d && Config.verify Config.firmwareKey d (Config.imageSignature version file)
/-- FIRMWARE_LOAD (R408): a verified image of a version not below the fused minimum runs; another is refused,
and after lock raises the alarm. The image is one of two files of its version. -/
def execFirmwareLoad (version : Nat) (file : Bool) (s : State) : Host.Outcome State Fault Refusal :=
  .next (if imageVerifies version file ∧ s.pkg.fwMin ≤ version then { s with pkg := { s.pkg with fwVer := version, fwFile := file } }
    else
      let s := s.report rImage version
      if s.pkg.sec = .unprovisioned then s else s.alarm 3)

/-- Whether a token verifies (R410): it is signed by the fused debug key, over the SHAKE256 digest of its bytes (R408), and names
the identity public key of the part. -/
def State.tokenVerifies (s : State) (level tenant : Nat) (file : Bool) : Bool :=
  Config.verify Config.debugKey (Config.shake256 (Config.tokenBytes level tenant file)) (Config.tokenSignature level tenant file)
    && Config.tokenIdentity level tenant file == Config.identityPublic s.pkg.seed
/-- DEBUG_TOKEN (R410): a verified token takes a Locked part to Debug-Authorised at its level; tenant is 0, or
one more than the job it names, and the token is one of two files that name them. -/
def execDebugToken (level tenant : Nat) (file : Bool) (s : State) : Host.Outcome State Fault Refusal :=
  .next (if s.pkg.sec = .locked ∧ s.tokenVerifies level tenant file ∧ 1 ≤ level ∧ level ≤ 2 then
      { s with pkg := { s.pkg with sec := .debug, dbg := level, tenant := if tenant = 0 then none else some (tenant - 1) } }
    else { s with pkg := { s.pkg with dbgLog := s.pkg.dbgLog + 1 } })

/-- DEBUG_TOKEN_EXPIRE (R410): expiry or revocation. -/
def execDebugTokenExpire (s : State) : Host.Outcome State Fault Refusal :=
  .next (if s.pkg.sec = .debug then s.debugOff else s)

/-- PROVISIONING_FUSE (R410). -/
def execProvisioningFuse (s : State) : Host.Outcome State Fault Refusal :=
  .next (if s.pkg.sec = .unprovisioned then { s.debugOff with pkg := { s.debugOff.pkg with sec := .locked } } else s)

/-- The security state of power-up, by fuse (Table 24-7, O). -/
def SecSt.byFuse : SecSt → SecSt
  | .unprovisioned => .unprovisioned
  | _ => .locked

/-- COLD_RESET (R378, R409, R410): everything is as at reset but the fuses, and what is not the machine's own:
the steps to come and the counter of free values. -/
def execColdReset (s : State) : Host.Outcome State Fault Refusal :=
  .next { State.reset with
    agenda := s.agenda, free := s.free,
    pkg := { State.reset.pkg with sec := s.pkg.sec.byFuse, seed := s.pkg.seed, fwMin := s.pkg.fwMin } }

/-- PACKAGE_OFF (R411, Table 24-7, O). -/
def execPackageOff (s : State) : Host.Outcome State Fault Refusal :=
  let t := s.debugOff
  .next { t with pkg := { t.pkg with off := true, keys := false, sec := t.pkg.sec.byFuse } }

/-! ## Islands (R176, R412) -/

def State.coreIdle (s : State) (core : Nat) : Bool :=
  ((List.range 4).all fun k => (s.ctx (core * 4 + k)).run.kind == .free)
    && (s.keptOf core).isEmpty && (s.core core).clearing.isEmpty

/-- Whether the power manager may gate an island (R412). -/
def State.mayGate (s : State) (island : Nat) : Bool :=
  let die := island / 128
  let i := island % 128
  if 4 ≤ die then false
  else if i < 96 then
    (List.range 4).all fun k => s.coreIdle ((die * 48 + i / 2) * 8 + i % 2 * 4 + k)
  else if i < 120 then
    [0, 1].all fun k =>
      let c := s.clu (die * 48 + (i - 96) * 2 + k)
      c.jobs.isEmpty && c.tiles.all fun t => t.2.own.isNone
  else false

/-- ISLAND_GATE (R412). -/
def execIslandGate (island : Nat) (s : State) : Host.Outcome State Fault Refusal :=
  if s.mayGate island ∧ !s.pkg.gated.contains island then
    .next { s with pkg := { s.pkg with gated := s.pkg.gated ++ [island], boosted := s.pkg.boosted.filter (· != island) } }
  else .next s
/-- ISLAND_WAKE (R412). -/
def execIslandWake (island : Nat) (s : State) : Host.Outcome State Fault Refusal := .next (s.ungate island)

/-- Whether every context of a core island sleeps in BWAIT or is free (R176). -/
def State.sleeps (s : State) (island : Nat) : Bool :=
  (List.range 16).all fun k =>
    let c := s.ctx (((island / 128 * 48 + island % 128 / 2) * 8 + island % 2 * 4) * 4 + k)
    c.run.kind == .free || (c.stage.bar.isSome && decide (2 ≤ c.stage.b))
/-- The nodes whose runs stand on a core island. -/
def State.islandNodes (s : State) (island : Nat) : List (Nat × Nat × Nat) :=
  ((List.range 16).map fun k => (s.ctx (((island / 128 * 48 + island % 128 / 2) * 8 + island % 2 * 4) * 4 + k)).run).filterMap
    fun r => if r.kind = .free then none else some (r.job, r.graph, r.node)
/-- CLOCK_BOOST (R176): of a core island, while another one that runs the same node sleeps. An island all of whose contexts
are free runs no node (assumption log 80). -/
def execClockBoost (island : Nat) (s : State) : Host.Outcome State Fault Refusal :=
  let cores (i : Nat) : Bool := decide (i % 128 < 96) && decide (i < 512)
  let mine := s.islandNodes island
  let idle (i : Nat) : Bool := s.sleeps i && (s.islandNodes i).any fun x => mine.contains x
  if cores island ∧ !s.pkg.boosted.contains island ∧ ((List.range 512).any fun i => i != island && cores i && idle i) then
    .next { s with pkg := { s.pkg with boosted := s.pkg.boosted ++ [island] } }
  else .next s

/-! ## Die retention (R412) -/

/-- No job holds a cluster of the die, or every such job is pre-empted. -/
def State.mayRetain (s : State) (die : Nat) : Bool :=
  s.clus.all fun p => p.1 / 48 != die || (match p.2.owner with | some j => (s.job j).pre == .saved | none => true)

/-- DIE_RETENTION (R412): the die's home-slice cache is written back first. -/
def execDieRetention (die : Nat) (s : State) : Host.Outcome State Fault Refusal :=
  if die < 4 ∧ s.mayRetain die ∧ !s.pkg.retained.contains die then
    .next { s with homes := { s.homes with chan := s.homes.chan.filter fun p => homeOf p.1 / 16 != die },
                   pkg := { s.pkg with retained := s.pkg.retained ++ [die] } }
  else .next s
/-- DIE_RETENTION_EXIT (R412). -/
def execDieRetentionExit (die : Nat) (s : State) : Host.Outcome State Fault Refusal :=
  .next { s with pkg := { s.pkg with retained := s.pkg.retained.filter (· != die) } }

/-! ## Errors (R378, R414, R415) -/

/-- CORRECTED_ERROR (R414). -/
def execCorrectedError (die : Nat) (s : State) : Host.Outcome State Fault Refusal :=
  .next { s with pkg := { s.pkg with corrected := s.pkg.corrected.set die (s.pkg.corrected.get 0 die + 1) } }

/-- UNCORRECTABLE_ERROR (R414, R415): a parity error in the context of a run arises in the run, and line is the
VA known, or 0; otherwise the line, or the accumulator tile, by its place, is marked poisoned and reported, and a run that
reads it has the error. -/
def execUncorrectableError (ctx line : Nat) (s : State) : Host.Outcome State Fault Refusal :=
  let c := s.ctx ctx
  if ctx < 6144 ∧ c.run.kind ≠ .free then
    .next (if c.sys.ending = 0 then s.raise ctx c.pc c.pc (flt clsSecurity line) else s)
  else
    let l := if tileLine 0 0 ≤ line then line else lineOf line
    .next ({ s with pkg := { s.pkg with poison := l :: s.pkg.poison.filter (· != l) } }.report rPoison l)

/-- HEALTH_TEST_FAILURE (R378). -/
def execHealthTestFailure (s : State) : Host.Outcome State Fault Refusal :=
  .next ({ s with pkg := { s.pkg with rbgBad := true } }.report rHealth 0)

end Sys2Proof.Machine
end

