-- ==== Sys2Proof/Machine/Debug.lean ====
section
/-!
DEFINITION. Debug access (R410, R411): what the debug port reads and writes, and when it is admitted.
-/
namespace Sys2Proof.Machine

/-! ## Debug access (R410, R411, Tables 24-6 and 24-7) -/

/-- What a debug access asks for. -/
inductive DbgOp
  /-- the debug level -/
  | request
  | attach | detach | halt | resume
  /-- a counter of Table 20-6 -/
  | counter
  | readReg | writeReg | readMem | writeMem
  /-- a package-wide counter -/
  | package
  /-- a word of a context's trace -/
  | trace
  deriving DecidableEq, Repr

def dbgOp : Nat → Option DbgOp
  | 0 => some .request | 1 => some .attach | 2 => some .detach | 3 => some .halt | 4 => some .resume | 5 => some .counter
  | 6 => some .readReg | 7 => some .writeReg | 8 => some .readMem | 9 => some .writeMem | 10 => some .package
  | 11 => some .trace
  | _ => none

/-- The level an access needs (R410). -/
def DbgOp.level (o : DbgOp) (asked : Nat) : Nat :=
  match o with
  | .request => asked
  | .counter | .package | .trace => 1
  | _ => 2

/-- Accesses to one context and its memory. -/
def DbgOp.ofCtx : DbgOp → Bool
  | .request | .package => false
  | _ => true

/-- The cell of Table 24-6 for an access: admitted, refused and logged, or refused with the alarm. -/
inductive DbgCell | j | x | xa
  deriving DecidableEq, Repr

/-- A management context: one that runs firmware (assumption log 112). -/
def State.manages (s : State) (n : Nat) : Bool := (s.ctx n).sys.lvl == .firm
/-- Whether a token admits an access (R410): its level; with a tenant, the contexts and the memory of the tenant's clusters; without
one, the management contexts and package-wide counters. -/
def State.inToken (s : State) (o : DbgOp) (lv ctx : Nat) : Bool :=
  decide (lv ≤ s.pkg.dbg)
    && match s.pkg.tenant with
       | some j => (o.ofCtx && (s.clu (cluOf ctx)).owner == some j && !s.manages ctx) || o == .request
       | none => !o.ofCtx || s.manages ctx

/-- Table 24-6 (R411). DESIGN CHOICE (assumption log 68): an access of an Unprovisioned part above the debug level it is at is
refused and logged. -/
def State.cell (s : State) (o : DbgOp) (lv ctx : Nat) : DbgCell :=
  let refused : DbgCell := if lv < 2 then .x else .xa
  match s.pkg.sec with
  | .unprovisioned => if lv ≤ s.pkg.dbg ∨ o = .request then .j else .x
  | .locked => if lv = 0 then .j else refused
  | .debug => if s.inToken o lv ctx then .j else refused

/-! ### The state of a context by number (assumption log 68): 0 to 63 x, 64 the PC, 72 to 79 p, 256 + 8n + k word k of v n, 4096 + i
special register i, 8192 + 64q + 8e + k word k of entry e of queue q, 12288 + 16k + w and 13312 + 16k + w stream slot k and shape k
(snapshot words, then position, elements done and accumulator, or progress and PC), 14336 + 16i + w the bytes of SB entry i, 15360 and
15361 the matrix configurations, 15392 + b barrier b, 32768 + 4096t + k word k of tile t, and 2^20 + a the word at a of its save area
(Table 21-7), which holds all of it. -/

/-- The 8-byte word at an offset of an image. -/
def wordAt (cs : List Host.Cell) (a : Nat) : Nat :=
  leNat ((List.range 8).map fun i => ((cs.find? fun c => c.1 == a + i).map (·.2)).getD 0)

def State.dbgRead (s : State) (n a : Nat) : Word :=
  let c := s.ctx n
  let at_ (x : Nat) : Word := BitVec.ofNat 64 (wordAt (s.standing n).image x)
  if a < 64 then c.getX a
  else if a = 64 then c.pc
  else if 72 ≤ a ∧ a < 80 then c.getP (a - 72)
  else if 256 ≤ a ∧ a < 768 then BitVec.ofNat 64 (vecLane (c.getV ((a - 256) / 8)) 8 (a % 8))
  else if 4096 ≤ a ∧ a < 8192 then s.csr n (a - 4096)
  else if 8192 ≤ a ∧ a < 9216 then at_ (0xA80 + 640 * ((a - 8192) / 64) + 8 * (a % 64))
  else if 12288 ≤ a ∧ a < 12544 then at_ (0x3280 + 256 * ((a - 12288) / 16) + 8 * (a % 16))
  else if 13312 ≤ a ∧ a < 13568 then
    let h := c.getH ((a - 13312) / 16)
    if a % 16 < 8 then BitVec.ofNat 64 (h.snap.toNat / 2 ^ (64 * (a % 16))) else if a % 16 = 8 then BitVec.ofNat 64 h.prog else if a % 16 = 9 then h.pc else 0
  else if 14336 ≤ a ∧ a < 15360 then BitVec.ofNat 64 (leNat ((((c.sb[(a - 14336) / 16]?).map (·.bytes)).getD []).drop (8 * (a % 16)) |>.take 8))
  else if a = 15360 then c.sys.mxRun.cfg
  else if a = 15361 then c.sys.mxHnd.cfg
  else if 15392 ≤ a ∧ a < 15424 then BitVec.ofNat 64 ((s.core (coreOf n)).bar (a - 15392)).word
  else if 32768 ≤ a ∧ a < 163840 then
    let x := (s.clu (cluOf n)).tile ((a - 32768) / 4096)
    if (x.own.map (·.1)) = some n then BitVec.ofNat 64 (x.word (a % 4096)) else 0
  else if 2 ^ 20 ≤ a then at_ (a - 2 ^ 20)
  else 0

/-- Word k of a value of 512 bits replaced. -/
def putWord (v : BitVec 512) (k : Nat) (w : Word) : BitVec 512 := vecSetLane v 8 k w.toNat
/-- Element i of a list replaced. -/
def modAt {α : Type} (l : List α) (i : Nat) (f : α → α) : List α := l.zipIdx.map fun p => if p.2 = i then f p.1 else p.1

def State.dbgWrite (s : State) (n a : Nat) (w : Word) : State :=
  let v := w.toNat
  let i := a % 16
  if a < 64 then s.modCtx n fun c => c.setX a w
  else if a = 64 then s.modCtx n fun c => { c.anew with pc := w }
  else if 72 ≤ a ∧ a < 80 then s.modCtx n fun c => c.setP (a - 72) w
  else if 256 ≤ a ∧ a < 768 then s.modCtx n fun c => c.setV ((a - 256) / 8) (putWord (c.getV ((a - 256) / 8)) (a % 8) w)
  else if 4096 ≤ a ∧ a < 8192 then (if csrWritable .handler (a - 4096) ∨ a = 4098 then s.setCsr n (a - 4096) w else s)
  else if 8192 ≤ a ∧ a < 9216 then
    let q := (a - 8192) / 64
    s.modCtx n fun c => c.setQ q { c.getQ q with ents := modAt (c.getQ q).ents (a % 64 / 8) fun e => { e with data := putWord e.data (a % 8) w } }
  else if 12288 ≤ a ∧ a < 12544 then
    let k := (a - 12288) / 16
    s.modCtx n fun c =>
      let t := c.getS k
      c.setS k (if i < 8 then { t with desc := putWord t.desc i w } else if i = 8 then { t with pos := v } else if i = 9 then { t with done := v }
        else if i = 10 then { t with acc := w } else t)
  else if 13312 ≤ a ∧ a < 13568 then
    let k := (a - 13312) / 16
    s.modCtx n fun c =>
      let h := c.getH k
      c.setH k (if i < 8 then { h with snap := putWord h.snap i w } else if i = 8 then { h with prog := v } else if i = 9 then { h with pc := w } else h)
  else if 14336 ≤ a ∧ a < 15360 then
    s.modCtx n fun c => { c with sb := modAt c.sb ((a - 14336) / 16) fun e =>
      { e with bytes := e.bytes.zipIdx.map fun b => if b.2 / 8 = i then BitVec.ofNat 8 (v / 2 ^ (8 * (b.2 % 8))) else b.1 } }
  else if a = 15360 then s.modCtx n fun c => c.modSys fun y => { y with mxRun := { y.mxRun with cfg := w } }
  else if a = 15361 then s.modCtx n fun c => c.modSys fun y => { y with mxHnd := { y.mxHnd with cfg := w } }
  else if 15392 ≤ a ∧ a < 15424 then
    s.modCore (coreOf n) fun k =>
      k.setBar (a - 15392) { k.bar (a - 15392) with own := w.getLsbD 3, exp := fld v 47 32, cnt := fld v 31 16, ph := w.getLsbD 2, ctx := v % 4 }
  else if 32768 ≤ a ∧ a < 163840 then
    let t := (a - 32768) / 4096
    if (((s.clu (cluOf n)).tile t).own.map (·.1)) = some n then
      s.modTile (cluOf n) t fun x => { x with data := SMap.setD 0 x.data (a % 4096) (BitVec.ofNat 32 v) }
    else s
  else s

/-- A byte of a context's memory as its cluster sees it. -/
def State.dbgByte (s : State) (n va : Nat) : Option Byte :=
  match s.check n .rgsync va 1 with
  | .error _ => none
  | .ok l => some ((((s.cv (cluOf n) (lineOf l.key)).bind fun x => x.byte? false (l.key % 128))).getD ((s.homeRead l 1 0).1.headD 0))
def State.dbgSetByte (s : State) (n va : Nat) (b : Byte) : State :=
  match s.check n .rgsync va 1 with
  | .error _ => s
  | .ok l =>
    if l.isPlaned then s
    else
      let t := s.homeWrite l.key [some b]
      match t.cv (cluOf n) (lineOf l.key) with
      | some x => t.setCv (cluOf n) (lineOf l.key) { x with data := lineSet x.data (l.key % 128) b }
      | none => t

def State.dbgSay (s : State) (v : Nat) : State := { s with pkg := { s.pkg with dbgOut := v :: s.pkg.dbgOut } }

/-- Package-wide counters: 0 refused link requests, 1 refused debug requests, 16 + d corrected errors of die d,
32 + k window misses of stack controller k. -/
def Package.counter (p : Package) (a : Nat) : Nat :=
  if a = 0 then p.refusals
  else if a = 1 then p.dbgLog
  else if 16 ≤ a ∧ a < 20 then p.corrected.get 0 (a - 16)
  else if 32 ≤ a ∧ a < 40 then p.misses.get 0 (a - 32)
  else 0

/-- An admitted access takes effect. -/
def State.dbgDo (s : State) (o : DbgOp) (level n a : Nat) (data : Nat) : State :=
  match o with
  | .request => State.dbgSay { s with pkg := { s.pkg with dbg := if s.pkg.sec = SecSt.unprovisioned then min level 2 else s.pkg.dbg } } 0
  | .attach => (s.modCtx n fun c => c.modSys fun y => { y with dbgOn := true }).dbgSay 0
  | .detach => (s.modCtx n fun c => c.modSys fun y => { y with dbgOn := false, dbgHalt := false }).dbgSay 0
  | .halt => (s.modCtx n fun c => c.modSys fun y => { y with dbgHalt := true }).dbgSay 0
  | .resume => (s.modCtx n fun c => c.modSys fun y => { y with dbgHalt := false }).dbgSay 0
  | .counter =>
    -- the counters of a gated island are frozen (Table 24-7)
    let t := if s.pkg.gated.contains (coreIsland (coreOf n)) then s else s.cycles n a
    t.dbgSay (t.counterVal n a)
  | .trace => s.bump.dbgSay (Config.freeWord s.free).toNat
  | .readReg => s.dbgSay (s.dbgRead n a).toNat
  | .writeReg => (s.dbgWrite n a (BitVec.ofNat 64 data)).dbgSay 0
  | .readMem => s.dbgSay (match s.dbgByte n a with | some b => b.toNat | none => 256)
  | .writeMem => (s.dbgSetByte n a (BitVec.ofNat 8 data)).dbgSay 0
  | .package => s.dbgSay (s.pkg.counter a)

/-- DEBUG_ACCESS (R410, R411). A refused access is logged; a cell XA raises the alarm; an access to a retained
die is refused with status RETAINED, here a report; an invasive access wakes the island of its context. -/
def execDebugAccess (kind level ctx addr data : Nat) (s : State) : Host.Outcome State Fault Refusal :=
  match dbgOp kind with
  | none => .next s
  | some o =>
    let lv := o.level level
    match s.cell o lv ctx with
    | .x => .next { s with pkg := { s.pkg with dbgLog := s.pkg.dbgLog + 1 } }
    | .xa => .next ({ s with pkg := { s.pkg with dbgLog := s.pkg.dbgLog + 1 } }.alarm 2)
    | .j =>
      if o.ofCtx ∧ s.pkg.retained.contains (dieOfCore (coreOf ctx)) then .next (s.report rDebug ctx)
      else
        let s := if o.ofCtx ∧ lv = 2 then s.ungate (coreIsland (coreOf ctx)) else s
        .next (s.dbgDo o level ctx addr data)

end Sys2Proof.Machine
end

