-- ==== Sys2Proof/Machine/IntOps.lean ====
section
/-!
DEFINITION. Meanings of the INT class (R266 to R269).
-/
namespace Sys2Proof.Machine

/-- An integer instruction of two sources at its type (R262). -/
def State.intOp2 (s : State) (o : OpI) (f : Int → Int → Int) : Host.Outcome State Fault Refusal :=
  s.finish (s.alu2 o.d o.a o.b fun x y => o.ty.res (f (o.ty.src x) (o.ty.src y)))
/-- One source. -/
def State.intOp1 (s : State) (o : OpI) (f : Int → Int) : Host.Outcome State Fault Refusal :=
  s.finish (s.alu1 o.d o.a fun x => o.ty.res (f (o.ty.src x)))

/-- IADD (R266). -/
def execIadd (o : OpI) (s : State) : Host.Outcome State Fault Refusal := s.intOp2 o fun a b => a + b
/-- ISUB (R266). -/
def execIsub (o : OpI) (s : State) : Host.Outcome State Fault Refusal := s.intOp2 o fun a b => a - b
/-- IMUL (R266). -/
def execImul (o : OpI) (s : State) : Host.Outcome State Fault Refusal := s.intOp2 o fun a b => a * b
/-- IMULH: the upper w bits of the exact 2w-bit product (R266). -/
def execImulh (o : OpI) (s : State) : Host.Outcome State Fault Refusal :=
  s.intOp2 o fun a b => (a * b) / (2 ^ o.ty.width : Int)
/-- IMAD: D is a source as well (R266). -/
def execImad (o : OpI) (s : State) : Host.Outcome State Fault Refusal :=
  s.finish (s.alu3 o.d o.a o.b fun x y z => o.ty.res (o.ty.src z + o.ty.src x * o.ty.src y))

/-- Quotient and remainder of R267. -/
def divRem (t : IntTy) (a b : Int) : Int × Int :=
  if b = 0 then ((if t.signed then -1 else (2 ^ t.width : Int) - 1), a)
  else if t.signed ∧ a = -(2 ^ (t.width - 1) : Int) ∧ b = -1 then (-(2 ^ (t.width - 1) : Int), 0)
  else (a.tdiv b, a - a.tdiv b * b)
/-- IDIV (R267). -/
def execIdiv (o : OpI) (s : State) : Host.Outcome State Fault Refusal := s.intOp2 o fun a b => (divRem o.ty a b).1
/-- IREM (R267). -/
def execIrem (o : OpI) (s : State) : Host.Outcome State Fault Refusal := s.intOp2 o fun a b => (divRem o.ty a b).2

/-- INEG (R266). -/
def execIneg (o : OpI) (s : State) : Host.Outcome State Fault Refusal := s.intOp1 o fun a => 0 - a
/-- IABS (R266). -/
def execIabs (o : OpI) (s : State) : Host.Outcome State Fault Refusal :=
  s.intOp1 o fun a => if 0 ≤ a then a else 0 - a
/-- IMIN (R266). -/
def execImin (o : OpI) (s : State) : Host.Outcome State Fault Refusal := s.intOp2 o fun a b => if a ≤ b then a else b
/-- IMAX (R266). -/
def execImax (o : OpI) (s : State) : Host.Outcome State Fault Refusal := s.intOp2 o fun a b => if a ≤ b then b else a

/-- The truth of an integer comparison (R238). -/
def intCond (c : Cond) (a b : Int) : Bool :=
  match c with
  | .eq => a == b
  | .ne => a != b
  | .lt => decide (a < b)
  | .le => decide (a ≤ b)
  | .gt => decide (b < a)
  | .ge => decide (b ≤ a)
  | .un | .ord => false

/-- A comparison writes x(D), then its predicate (R268, R276). -/
def State.wrCond (s : State) (d : Opd) (p : Fin 8) (t : Bool) : Op State := do
  let u ← s.wr d (if t then 1 else 0)
  pure ((u.modMe fun c => c.setPB p.val t).advance)

/-- ICMP (R268). -/
def execIcmp (c : Cond) (dp : Fin 8) (o : OpI) (s : State) : Host.Outcome State Fault Refusal :=
  s.finish do
    s.dirs o.d o.a o.b
    let (x, k) ← s.me.val o.a
    let (y, k) ← k.val o.b
    (s.setMe k).wrCond o.d dp (intCond c (o.ty.src x) (o.ty.src y))

/-- ISEL: both sources are read whatever the predicate holds (R268). -/
def execIsel (dp : Fin 8) (o : OpI) (s : State) : Host.Outcome State Fault Refusal :=
  s.finish (s.alu2 o.d o.a o.b fun x y =>
    o.ty.res (if (s.me.getP dp.val).getLsbD 0 then o.ty.src x else o.ty.src y))

/-- LEA (R269). -/
def execLea (sh : Fin 16) (o : OpI) (s : State) : Host.Outcome State Fault Refusal :=
  s.finish (s.alu2 o.d o.a o.b fun x y => x + (y <<< sh.val))

/-- Leading zeros of the low w bits, from the top bit down. -/
def clzFrom : Nat → Nat → Nat
  | 0, _ => 0
  | w + 1, v => if v.testBit w then 0 else 1 + clzFrom w v
/-- Trailing zeros of the low w bits. -/
def ctzFrom : Nat → Nat → Nat
  | 0, _ => 0
  | w + 1, v => if v.testBit 0 then 0 else 1 + ctzFrom w (v / 2)
/-- One bits of the low w bits. -/
def popCount : Nat → Nat → Nat
  | 0, _ => 0
  | w + 1, v => (v.testBit w).toNat + popCount w v
/-- Bit k moves to bit w - 1 - k. -/
def bitReverse : Nat → Nat → Nat
  | 0, _ => 0
  | w + 1, v => (v.testBit 0).toNat * 2 ^ w + bitReverse w (v / 2)

/-- CLZ (R269). -/
def execClz (o : OpI) (s : State) : Host.Outcome State Fault Refusal :=
  s.finish (s.alu1 o.d o.a fun x => o.ty.res (clzFrom o.ty.width (o.ty.raw x) : Nat))
/-- CTZ (R269). -/
def execCtz (o : OpI) (s : State) : Host.Outcome State Fault Refusal :=
  s.finish (s.alu1 o.d o.a fun x => o.ty.res (ctzFrom o.ty.width (o.ty.raw x) : Nat))
/-- POPC (R269). -/
def execPopc (o : OpI) (s : State) : Host.Outcome State Fault Refusal :=
  s.finish (s.alu1 o.d o.a fun x => o.ty.res (popCount o.ty.width (o.ty.raw x) : Nat))
/-- BREV (R269). -/
def execBrev (o : OpI) (s : State) : Host.Outcome State Fault Refusal :=
  s.finish (s.alu1 o.d o.a fun x => o.ty.res (bitReverse o.ty.width (o.ty.raw x) : Nat))

end Sys2Proof.Machine
end

