-- ==== Sys2Proof/Machine/FpOps.lean ====
section
/-!
DEFINITION. Meanings of the FP class (R274 to R278).
-/
namespace Sys2Proof.Machine

/-- The format of ET; the types of the FP class are F (R240). -/
def OpV.fmt (o : OpV) : Fmt := o.et.fmt?.getD fp32

/-- FADD (R274). -/
def execFadd (o : OpV) (s : State) : Host.Outcome State Fault Refusal :=
  s.finish (s.fpu2 o.d o.a o.b ((OpV.fmt o).add o.rm))
/-- FSUB (R274). -/
def execFsub (o : OpV) (s : State) : Host.Outcome State Fault Refusal :=
  s.finish (s.fpu2 o.d o.a o.b ((OpV.fmt o).sub o.rm))
/-- FMUL (R274). -/
def execFmul (o : OpV) (s : State) : Host.Outcome State Fault Refusal :=
  s.finish (s.fpu2 o.d o.a o.b ((OpV.fmt o).mul o.rm))
/-- FFMA: a × b + d, rounded once (R274). -/
def execFfma (o : OpV) (s : State) : Host.Outcome State Fault Refusal :=
  s.finish (s.fpu3 o.d o.a o.b ((OpV.fmt o).fma o.rm))
/-- FDIV (R274). -/
def execFdiv (o : OpV) (s : State) : Host.Outcome State Fault Refusal :=
  s.finish (s.fpu2 o.d o.a o.b ((OpV.fmt o).div o.rm))
/-- FSQRT (R274). -/
def execFsqrt (o : OpV) (s : State) : Host.Outcome State Fault Refusal :=
  s.finish (s.fpu1 o.d o.a ((OpV.fmt o).sqrt o.rm))
/-- FMIN (R275). -/
def execFmin (o : OpV) (s : State) : Host.Outcome State Fault Refusal :=
  s.finish (s.fpu2 o.d o.a o.b fun a b => ((OpV.fmt o).minmax false a b, 0))
/-- FMAX (R275). -/
def execFmax (o : OpV) (s : State) : Host.Outcome State Fault Refusal :=
  s.finish (s.fpu2 o.d o.a o.b fun a b => ((OpV.fmt o).minmax true a b, 0))

/-- FCMP (R276). -/
def execFcmp (c : Cond) (o : OpV) (s : State) : Host.Outcome State Fault Refusal :=
  s.finish do
    s.dirs o.d o.a o.b
    let (x, k) ← s.me.val o.a
    let (y, k) ← k.val o.b
    let (t, fl) := (OpV.fmt o).compare c x.toNat y.toNat
    (s.setMe (k.raiseFlags fl)).wrCond o.d o.lp t

/-- A converted value as it is written to x(D): integers extended by their signedness, floating values with
zeros above (R263). -/
def cvtWord (t : Esz) (r : Flagged) : Flagged :=
  if t.isS then (mod64 (toSigned t.width r.1), r.2) else r
/-- FCVT (R277). -/
def execFcvt (src : Esz) (o : OpV) (s : State) : Host.Outcome State Fault Refusal :=
  s.finish (s.fpu1 o.d o.a fun a => cvtWord o.et (convert src o.et o.rm a))
/-- FCLASS (R278). -/
def execFclass (o : OpV) (s : State) : Host.Outcome State Fault Refusal :=
  s.finish (s.fpu1 o.d o.a fun a => (2 ^ (OpV.fmt o).cls a, 0))

end Sys2Proof.Machine
end

