-- ==== Sys2Proof/Machine/LogicOps.lean ====
section
/-!
DEFINITION. Meanings of the LOGIC class (R270 to R273).
-/
namespace Sys2Proof.Machine

/-- A logic instruction on the w bits of its sources (R270). -/
def State.logicOp (s : State) (o : OpI) (f : Nat → Nat → Nat) : Host.Outcome State Fault Refusal :=
  s.finish (s.alu2 o.d o.a o.b fun x y => o.ty.res (f (o.ty.raw x) (o.ty.raw y) : Nat))

/-- NOT of w bits. -/
def notBits (w v : Nat) : Nat := 2 ^ w - 1 - v % 2 ^ w

/-- AND (R270). -/
def execAnd (o : OpI) (s : State) : Host.Outcome State Fault Refusal := s.logicOp o fun a b => a &&& b
/-- OR (R270). -/
def execOr (o : OpI) (s : State) : Host.Outcome State Fault Refusal := s.logicOp o fun a b => a ||| b
/-- XOR (R270). -/
def execXor (o : OpI) (s : State) : Host.Outcome State Fault Refusal := s.logicOp o fun a b => a ^^^ b
/-- ANDN (R270). -/
def execAndn (o : OpI) (s : State) : Host.Outcome State Fault Refusal :=
  s.logicOp o fun a b => a &&& notBits o.ty.width b
/-- ORN (R270). -/
def execOrn (o : OpI) (s : State) : Host.Outcome State Fault Refusal :=
  s.logicOp o fun a b => a ||| notBits o.ty.width b
/-- SHL: the count is b mod w (R270). -/
def execShl (o : OpI) (s : State) : Host.Outcome State Fault Refusal :=
  s.logicOp o fun a b => a <<< (b % o.ty.width)
/-- SHR (R270). -/
def execShr (o : OpI) (s : State) : Host.Outcome State Fault Refusal :=
  s.logicOp o fun a b => a >>> (b % o.ty.width)
/-- SAR (R270). -/
def execSar (o : OpI) (s : State) : Host.Outcome State Fault Refusal :=
  s.finish (s.alu2 o.d o.a o.b fun x y =>
    o.ty.res (toSigned o.ty.width (o.ty.raw x) / (2 ^ (o.ty.raw y % o.ty.width) : Nat)))
/-- ROL (R270). -/
def execRol (o : OpI) (s : State) : Host.Outcome State Fault Refusal :=
  s.logicOp o fun a b =>
    let n := b % o.ty.width
    (a <<< n) % 2 ^ o.ty.width ||| a >>> (o.ty.width - n)

/-- The field of BFX (R271). -/
def bfxVal (t : IntTy) (a b : Nat) : Int :=
  let w := t.width
  let pos := b % 64
  let len := b / 256 % 128
  if w ≤ pos ∨ len = 0 then 0
  else
    let l := min len (w - pos)
    let f := (a >>> pos) % 2 ^ l
    if t.signed then toSigned l f else f
/-- BFX (R271). -/
def execBfx (o : OpI) (s : State) : Host.Outcome State Fault Refusal :=
  s.finish (s.alu2 o.d o.a o.b fun x y => o.ty.res (bfxVal o.ty (o.ty.raw x) y.toNat))

/-- The value of BFI (R271). -/
def bfiVal (w a b d : Nat) : Nat :=
  let pos := b % 64
  let len := b / 256 % 128
  if w ≤ pos ∨ len = 0 then d
  else
    let l := min len (w - pos)
    let m := (2 ^ l - 1) <<< pos
    (d &&& notBits w m) ||| ((a <<< pos) &&& m)
/-- BFI: D is a source as well (R271). -/
def execBfi (o : OpI) (s : State) : Host.Outcome State Fault Refusal :=
  s.finish (s.alu3 o.d o.a o.b fun x y z =>
    o.ty.res (bfiVal o.ty.width (o.ty.raw x) y.toNat (o.ty.raw z) : Nat))

/-- SEXT (R272). -/
def execSext (w : SrcW) (o : OpI) (s : State) : Host.Outcome State Fault Refusal :=
  s.finish (s.alu1 o.d o.a fun x =>
    match w with
    | .w8 => (x.truncate 8).signExtend 64
    | .w16 => (x.truncate 16).signExtend 64
    | .w32 => (x.truncate 32).signExtend 64)
/-- ZEXT (R272). -/
def execZext (w : SrcW) (o : OpI) (s : State) : Host.Outcome State Fault Refusal :=
  s.finish (s.alu1 o.d o.a fun x =>
    match w with
    | .w8 => (x.truncate 8).zeroExtend 64
    | .w16 => (x.truncate 16).zeroExtend 64
    | .w32 => (x.truncate 32).zeroExtend 64)

/-- MOV (R272). -/
def execMov (o : OpI) (s : State) : Host.Outcome State Fault Refusal := s.finish (s.alu1 o.d o.a id)
/-- MOVI (R272). -/
def execMovi (o : OpI) (s : State) : Host.Outcome State Fault Refusal := s.finish (s.alu1 o.d o.b id)

/-- V of MOVHI: imm32 × 2^32, or the sign-extended immediate (R272). -/
def movhiImm : Opd → Word
  | .long i => (i.zeroExtend 64) <<< 32
  | o => Opd.immVal o
/-- MOVHI (R272). -/
def execMovhi (o : OpI) (s : State) : Host.Outcome State Fault Refusal :=
  s.finish (s.alu1 o.d o.a fun x => (movhiImm o.b &&& 0xFFFFFFFF00000000) ||| (x &&& 0xFFFFFFFF))

/-- The operation of PLOG (R273). -/
def plogVal (op : PlogOp) (a b : Word) : Word :=
  match op with
  | .and => a &&& b
  | .or => a ||| b
  | .xor => a ^^^ b
  | .andn => a &&& ~~~b
  | .orn => a ||| ~~~b
  | .not => ~~~a
/-- PLOG (R273). -/
def execPlog (op : PlogOp) (o : OpI) (s : State) : Host.Outcome State Fault Refusal :=
  s.finish (s.alu2 o.d o.a o.b (plogVal op))
/-- PMOV (R273). -/
def execPmov (o : OpI) (s : State) : Host.Outcome State Fault Refusal := s.finish (s.alu1 o.d o.a id)

end Sys2Proof.Machine
end

