-- ==== Sys2Proof/Machine/WinOps.lean ====
section
/-!
DEFINITION. Meanings of the WIN class (R219 to R221, R338): the 576-bit window accumulator in scratchpad.
-/
namespace Sys2Proof.Machine

/-- Address of the area, which an X register holds. -/
def Ctx.winAddr (c : Ctx) : Opd → Nat | .x n => (c.getX n.val).toNat | _ => 0

/-- The checks of an area (R338). -/
def State.winCheck (s : State) (va : Nat) : Chk Unit := do
  if va % 8 ≠ 0 then throw (flt clsAlign va)
  if va / 2 ^ 48 ≠ 0x00C8 then throw (flt clsRegion va)
  let _ ← s.placesOf s.cur .store 8 (spread va 10 8)
  pure ()

/-- The ten words of an area, each a load of the context at a turn of its own, in ascending order (R221). -/
def State.winWords (s : State) (va : Nat) : EltRead :=
  let got := s.me.stage.cap
  match s.loadNow s.cur (va + got.length) 8 0 with
  | .got b l t =>
    if got.length < 72 then .wait (t.modMe fun c => { c with stage := { c.stage with cap := got ++ b } })
    else .got (got ++ b) l (t.modMe fun c => { c with stage := { c.stage with cap := [] } })
  | x => x

/-- The accumulator and its status word. -/
structure Win where
  v  : Int
  st : Nat
  deriving DecidableEq, Repr

def Win.ofBytes (bs : List Byte) : Win := { v := toSigned 576 (leNat (bs.take 72)), st := leNat (bs.drop 72) }
def wOVF : Nat := 1
def wNAN : Nat := 2
def wPINF : Nat := 4
def wNINF : Nat := 8

/-- ACCUM (R220), and the words from lo to hi that it writes. DESIGN CHOICE (assumption log 42): the product spans its whole 48-bit
significand, low zero bits with it. -/
def Win.accum (w : Win) (x y : Nat) (neg : Bool) : Win × Option (Nat × Nat) :=
  match mulV (fp32.val x) (fp32.val y) with
  | (.nan, _) => ({ w with st := w.st ||| wNAN }, none)
  | (.inf n, _) => ({ w with st := w.st ||| (if (n != neg) then wNINF else wPINF) }, none)
  | (.fin n m e, _) =>
    if m = 0 then (w, none)
    else
      let pos := (e + 300).toNat
      let d : Int := (m <<< pos : Nat)
      let t := if n != neg then w.v - d else w.v + d
      let out := t < -(2 ^ 575 : Nat) ∨ (2 ^ 575 : Nat) ≤ t
      let v := toSigned 576 (lowBits 576 t)
      let diff := lowBits 576 w.v ^^^ lowBits 576 v
      ({ v := v, st := if out then w.st ||| wOVF else w.st },
        some (pos / 64, min 8 (max ((pos + Nat.log2 m) / 64) (Nat.log2 diff / 64))))

/-- Words written back in ascending order, the status word where it changed. -/
def State.winStore (s : State) (va : Nat) (old w : Win) (span : Option (Nat × Nat)) : State :=
  let put (t : State) (i v : Nat) : State :=
    match t.check t.cur .store (va + 8 * i) 8 with
    | .ok loc => t.storeIssue t.cur loc (va + 8 * i) (leBytes 8 v) .rlx .core 0
    | .error _ => t
  let s := match span with
    | some (lo, hi) => (List.range (hi + 1 - lo)).foldl (fun t k => put t (lo + k) (lowBits 576 w.v / 2 ^ (64 * (lo + k)))) s
    | none => s
  if w.st = old.st then s else put s 9 w.st

/-- An instruction on an area: its checks, its words, and what it does with them. -/
def State.onWin (s : State) (va : Nat) (f : Win → State → Host.Outcome State Fault Refusal) : Host.Outcome State Fault Refusal :=
  match s.winCheck va with
  | .error i => .next (s.fault i)
  | .ok _ =>
    match s.winWords va with
    | .wait t => .next t
    | .bad i => .next (s.fault i)
    | .got bs _ t => f (Win.ofBytes bs) t

/-- WCLR (R338, R220). -/
def execWclr (o : OpV) (s : State) : Host.Outcome State Fault Refusal :=
  let va := s.me.winAddr o.d
  match s.winCheck va with
  | .error i => .next (s.fault i)
  | .ok _ =>
    .next ((List.range 10).foldl (fun t i =>
      match t.check t.cur .store (va + 8 * i) 8 with
      | .ok loc => t.storeIssue t.cur loc (va + 8 * i) (leBytes 8 0) .rlx .core 0
      | .error _ => t) s).advance

/-- WADD and WSUB. -/
def State.winAdd (s : State) (o : OpV) (neg : Bool) : Host.Outcome State Fault Refusal :=
  if !(s.me.srcOk o.a && s.me.srcOk o.b) then .next s.illegal
  else
    match (do let (a, k) ← s.me.val o.a; let (b, k) ← k.val o.b; pure (a, b, k) : Op (Word × Word × Ctx)) with
    | .error e => s.finish (.error e)
    | .ok (a, b, k) =>
      let va := s.me.winAddr o.d
      s.onWin va fun w t =>
        let (u, span) := w.accum (a.toNat % 2 ^ 32) (b.toNat % 2 ^ 32) neg
        .next ((t.winStore va w u span).commitQ k).advance

/-- WADD (R338, R220). -/
def execWadd (o : OpV) (s : State) : Host.Outcome State Fault Refusal := s.winAdd o false
/-- WSUB (R338, R220). -/
def execWsub (o : OpV) (s : State) : Host.Outcome State Fault Refusal := s.winAdd o true

/-- WRND of an accumulator (R220). DESIGN CHOICE (assumption log 122): a V of 0, which has no sign, is +0 in every mode. -/
def Win.round (w : Win) (rm : Rm) : Flagged :=
  let p := w.st &&& wPINF ≠ 0
  let n := w.st &&& wNINF ≠ 0
  if w.st &&& wNAN ≠ 0 ∨ w.st &&& wOVF ≠ 0 ∨ (p ∧ n) then (fp32.nan, fNV)
  else if p then (fp32.inf false, 0)
  else if n then (fp32.inf true, 0)
  else fp32.rnd rm (decide (w.v < 0)) w.v.natAbs (-300) false

/-- An instruction that issues only once its destination has room (R229). -/
def State.withRoom (s : State) (o : OpV) (f : State → Host.Outcome State Fault Refusal) : Host.Outcome State Fault Refusal :=
  match s.destRoom s.cur o.d .z64 with
  | .ok _ => f s
  | .error e => s.finish (.error e)

/-- WRND (R338, R220). -/
def execWrnd (o : OpV) (s : State) : Host.Outcome State Fault Refusal :=
  if !(s.me.dstOk o.d) then .next s.illegal
  else s.withRoom o fun s => s.onWin (s.me.winAddr o.a) fun w t => t.finish (t.wrF o.d (w.round o.rm))

/-- WSTAT (R338, R220). -/
def execWstatWin (o : OpV) (s : State) : Host.Outcome State Fault Refusal :=
  if !(s.me.dstOk o.d) then .next s.illegal
  else s.withRoom o fun s => s.onWin (s.me.winAddr o.a) fun w t => t.finish ((t.wr o.d (BitVec.ofNat 64 w.st)).map State.advance)

/-- WADDV: one active lane at a turn (R338, R220). -/
def execWaddv (o : OpV) (s : State) : Host.Outcome State Fault Refusal :=
  if !(s.me.srcOk o.a && s.me.srcOk o.b) then .next s.illegal
  else
    match (do let (a, k) ← s.me.valV o.a; let (b, k) ← k.valV o.b; pure (a, b, k) : Op (Vec × Vec × Ctx)) with
    | .error e => s.finish (.error e)
    | .ok (a, b, k) =>
      let c := s.me
      let from_ := if c.sys.wpc = c.pc then c.sys.wlane else 0
      let va := c.winAddr o.d
      match (List.range 16).find? fun i => decide (from_ ≤ i) && c.active o.lp i with
      | none =>
        match s.winCheck va with
        | .error i => .next (s.fault i)
        | .ok _ => .next (((s.commitQ k).modMe fun c => c.modSys fun y => { y with wlane := 0, wpc := 0 }).advance)
      | some i =>
        s.onWin va fun w t =>
          let (u, span) := w.accum (vecLane a 4 i) (vecLane b 4 i) false
          .next ((t.winStore va w u span).modMe fun c => c.modSys fun y => { y with wlane := i + 1, wpc := c.pc })

end Sys2Proof.Machine
end

