-- ==== Sys2Proof/Machine/Dispatch.lean ====
section
/-!
DEFINITION. The dispatch: one arm per constructor of Instr, each one direct call of its meaning.
-/
namespace Sys2Proof.Machine
open Sys2Proof

def exec (i : Instr) (s : State) : Host.Outcome State Fault Refusal :=
  match i with
  | .iadd o => Sys2Proof.Machine.execIadd o s
  | .isub o => Sys2Proof.Machine.execIsub o s
  | .imul o => Sys2Proof.Machine.execImul o s
  | .imulh o => Sys2Proof.Machine.execImulh o s
  | .imad o => Sys2Proof.Machine.execImad o s
  | .idiv o => Sys2Proof.Machine.execIdiv o s
  | .irem o => Sys2Proof.Machine.execIrem o s
  | .ineg o => Sys2Proof.Machine.execIneg o s
  | .iabs o => Sys2Proof.Machine.execIabs o s
  | .imin o => Sys2Proof.Machine.execImin o s
  | .imax o => Sys2Proof.Machine.execImax o s
  | .icmp c dp o => Sys2Proof.Machine.execIcmp c dp o s
  | .isel dp o => Sys2Proof.Machine.execIsel dp o s
  | .lea sh o => Sys2Proof.Machine.execLea sh o s
  | .clz o => Sys2Proof.Machine.execClz o s
  | .ctz o => Sys2Proof.Machine.execCtz o s
  | .popc o => Sys2Proof.Machine.execPopc o s
  | .brev o => Sys2Proof.Machine.execBrev o s
  | .and o => Sys2Proof.Machine.execAnd o s
  | .or o => Sys2Proof.Machine.execOr o s
  | .xor o => Sys2Proof.Machine.execXor o s
  | .andn o => Sys2Proof.Machine.execAndn o s
  | .orn o => Sys2Proof.Machine.execOrn o s
  | .shl o => Sys2Proof.Machine.execShl o s
  | .shr o => Sys2Proof.Machine.execShr o s
  | .sar o => Sys2Proof.Machine.execSar o s
  | .rol o => Sys2Proof.Machine.execRol o s
  | .bfx o => Sys2Proof.Machine.execBfx o s
  | .bfi o => Sys2Proof.Machine.execBfi o s
  | .sext w o => Sys2Proof.Machine.execSext w o s
  | .zext w o => Sys2Proof.Machine.execZext w o s
  | .mov o => Sys2Proof.Machine.execMov o s
  | .movi o => Sys2Proof.Machine.execMovi o s
  | .movhi o => Sys2Proof.Machine.execMovhi o s
  | .plog op o => Sys2Proof.Machine.execPlog op o s
  | .pmov o => Sys2Proof.Machine.execPmov o s
  | .fadd o => Sys2Proof.Machine.execFadd o s
  | .fsub o => Sys2Proof.Machine.execFsub o s
  | .fmul o => Sys2Proof.Machine.execFmul o s
  | .ffma o => Sys2Proof.Machine.execFfma o s
  | .fdiv o => Sys2Proof.Machine.execFdiv o s
  | .fsqrt o => Sys2Proof.Machine.execFsqrt o s
  | .fmin o => Sys2Proof.Machine.execFmin o s
  | .fmax o => Sys2Proof.Machine.execFmax o s
  | .fcmp c o => Sys2Proof.Machine.execFcmp c o s
  | .fcvt src o => Sys2Proof.Machine.execFcvt src o s
  | .fclass o => Sys2Proof.Machine.execFclass o s
  | .nop o => Sys2Proof.Machine.execNop o s
  | .br o => Sys2Proof.Machine.execBr o s
  | .call o => Sys2Proof.Machine.execCall o s
  | .calli o => Sys2Proof.Machine.execCalli o s
  | .ret o => Sys2Proof.Machine.execRet o s
  | .jmpi o => Sys2Proof.Machine.execJmpi o s
  | .loop o => Sys2Proof.Machine.execLoop o s
  | .fork o => Sys2Proof.Machine.execFork o s
  | .spawn o => Sys2Proof.Machine.execSpawn o s
  | .rspawn o => Sys2Proof.Machine.execRspawn o s
  | .join o => Sys2Proof.Machine.execJoin o s
  | .yield o => Sys2Proof.Machine.execYield o s
  | .halt o => Sys2Proof.Machine.execHalt o s
  | .haltRetain o => Sys2Proof.Machine.execHaltRetain o s
  | .trap o => Sys2Proof.Machine.execTrap o s
  | .rte o => Sys2Proof.Machine.execRte o s
  | .ld o => Sys2Proof.Machine.execLd o s
  | .st o => Sys2Proof.Machine.execSt o s
  | .ldl o => Sys2Proof.Machine.execLdl o s
  | .stl o => Sys2Proof.Machine.execStl o s
  | .prf o => Sys2Proof.Machine.execPrf o s
  | .wbk o => Sys2Proof.Machine.execWbk o s
  | .dis o => Sys2Proof.Machine.execDis o s
  | .inv o => Sys2Proof.Machine.execInv o s
  | .plf o => Sys2Proof.Machine.execPlf o s
  | .rgsync h => Sys2Proof.Machine.execRgsync h s
  | .amo op o => Sys2Proof.Machine.execAmo op o s
  | .cas o => Sys2Proof.Machine.execCas o s
  | .red op o => Sys2Proof.Machine.execRed op o s
  | .fput o => Sys2Proof.Machine.execFput o s
  | .fget o => Sys2Proof.Machine.execFget o s
  | .fpeek pm o => Sys2Proof.Machine.execFpeek pm o s
  | .acq o => Sys2Proof.Machine.execAcq o s
  | .rel o => Sys2Proof.Machine.execRel o s
  | .fence o => Sys2Proof.Machine.execFence o s
  | .binit o => Sys2Proof.Machine.execBinit o s
  | .bexp o => Sys2Proof.Machine.execBexp o s
  | .barv o => Sys2Proof.Machine.execBarv o s
  | .bwait o => Sys2Proof.Machine.execBwait o s
  | .btest o => Sys2Proof.Machine.execBtest o s
  | .brarv o => Sys2Proof.Machine.execBrarv o s
  | .bbindCopy o => Sys2Proof.Machine.execBbindCopy o s
  | .bbindMxrow o => Sys2Proof.Machine.execBbindMxrow o s
  | .bbindSink o => Sys2Proof.Machine.execBbindSink o s
  | .bbindCnt o => Sys2Proof.Machine.execBbindCnt o s
  | .sopen o => Sys2Proof.Machine.execSopen o s
  | .sclose o => Sys2Proof.Machine.execSclose o s
  | .srclImm o => Sys2Proof.Machine.execSrclImm o s
  | .srclAt o => Sys2Proof.Machine.execSrclAt o s
  | .sfltAuto o => Sys2Proof.Machine.execSfltAuto o s
  | .sfltNever o => Sys2Proof.Machine.execSfltNever o s
  | .sfltNear o => Sys2Proof.Machine.execSfltNear o s
  | .ssnk o => Sys2Proof.Machine.execSsnk o s
  | .sstat o => Sys2Proof.Machine.execSstat o s
  | .sevt o => Sys2Proof.Machine.execSevt o s
  | .qput o => Sys2Proof.Machine.execQput o s
  | .qget o => Sys2Proof.Machine.execQget o s
  | .qpeek o => Sys2Proof.Machine.execQpeek o s
  | .qcnt o => Sys2Proof.Machine.execQcnt o s
  | .qbind o => Sys2Proof.Machine.execQbind o s
  | .vadd o => Sys2Proof.Machine.execVadd o s
  | .vsub o => Sys2Proof.Machine.execVsub o s
  | .vmul o => Sys2Proof.Machine.execVmul o s
  | .vfma o => Sys2Proof.Machine.execVfma o s
  | .vmin o => Sys2Proof.Machine.execVmin o s
  | .vmax o => Sys2Proof.Machine.execVmax o s
  | .vabs o => Sys2Proof.Machine.execVabs o s
  | .vneg o => Sys2Proof.Machine.execVneg o s
  | .vand o => Sys2Proof.Machine.execVand o s
  | .vor o => Sys2Proof.Machine.execVor o s
  | .vxor o => Sys2Proof.Machine.execVxor o s
  | .vshl o => Sys2Proof.Machine.execVshl o s
  | .vshr o => Sys2Proof.Machine.execVshr o s
  | .vsar o => Sys2Proof.Machine.execVsar o s
  | .vcmp c o => Sys2Proof.Machine.execVcmp c o s
  | .vsel o => Sys2Proof.Machine.execVsel o s
  | .vcvt src o => Sys2Proof.Machine.execVcvt src o s
  | .vqnt f o => Sys2Proof.Machine.execVqnt f o s
  | .vdqnt f o => Sys2Proof.Machine.execVdqnt f o s
  | .vplane pm1 o => Sys2Proof.Machine.execVplane pm1 o s
  | .vunpl pm1 o => Sys2Proof.Machine.execVunpl pm1 o s
  | .vexp2 o => Sys2Proof.Machine.execVexp2 o s
  | .vlog2 o => Sys2Proof.Machine.execVlog2 o s
  | .vrcp o => Sys2Proof.Machine.execVrcp o s
  | .vrsq o => Sys2Proof.Machine.execVrsq o s
  | .vsin o => Sys2Proof.Machine.execVsin o s
  | .vcos o => Sys2Proof.Machine.execVcos o s
  | .vtanh o => Sys2Proof.Machine.execVtanh o s
  | .vld o => Sys2Proof.Machine.execVld o s
  | .vst o => Sys2Proof.Machine.execVst o s
  | .vgth o => Sys2Proof.Machine.execVgth o s
  | .vsct o => Sys2Proof.Machine.execVsct o s
  | .vred op o => Sys2Proof.Machine.execVred op o s
  | .vscan op o => Sys2Proof.Machine.execVscan op o s
  | .vperm o => Sys2Proof.Machine.execVperm o s
  | .vbcast o => Sys2Proof.Machine.execVbcast o s
  | .vext o => Sys2Proof.Machine.execVext o s
  | .vins o => Sys2Proof.Machine.execVins o s
  | .vcprs o => Sys2Proof.Machine.execVcprs o s
  | .shdef o => Sys2Proof.Machine.execShdef o s
  | .shmap op o => Sys2Proof.Machine.execShmap op o s
  | .shred op o => Sys2Proof.Machine.execShred op o s
  | .shqnt f o => Sys2Proof.Machine.execShqnt f o s
  | .shcpy o => Sys2Proof.Machine.execShcpy o s
  | .shstat o => Sys2Proof.Machine.execShstat o s
  | .wclr o => Sys2Proof.Machine.execWclr o s
  | .wadd o => Sys2Proof.Machine.execWadd o s
  | .wsub o => Sys2Proof.Machine.execWsub o s
  | .wrnd o => Sys2Proof.Machine.execWrnd o s
  | .waddv o => Sys2Proof.Machine.execWaddv o s
  | .wstatWin o => Sys2Proof.Machine.execWstatWin o s
  | .mxcfg o => Sys2Proof.Machine.execMxcfg o s
  | .mxalloc o => Sys2Proof.Machine.execMxalloc o s
  | .mxfree o => Sys2Proof.Machine.execMxfree o s
  | .mxzero o => Sys2Proof.Machine.execMxzero o s
  | .mxmm o => Sys2Proof.Machine.execMxmm o s
  | .mxgmm o => Sys2Proof.Machine.execMxgmm o s
  | .mxprom o => Sys2Proof.Machine.execMxprom o s
  | .mxcpy ofmt csv map o => Sys2Proof.Machine.execMxcpy ofmt csv map o s
  | .mxmap o => Sys2Proof.Machine.execMxmap o s
  | .mxlda o => Sys2Proof.Machine.execMxlda o s
  | .mxstat o => Sys2Proof.Machine.execMxstat o s
  | .mxfence o => Sys2Proof.Machine.execMxfence o s
  | .cpstart o => Sys2Proof.Machine.execCpstart o s
  | .cpstat o => Sys2Proof.Machine.execCpstat o s
  | .cpcan o => Sys2Proof.Machine.execCpcan o s
  | .launch o => Sys2Proof.Machine.execLaunch o s
  | .tnext o => Sys2Proof.Machine.execTnext o s
  | .split o => Sys2Proof.Machine.execSplit o s
  | .wstat o => Sys2Proof.Machine.execWstat o s
  | .cancel o => Sys2Proof.Machine.execCancel o s
  | .cntrd o => Sys2Proof.Machine.execCntrd o s
  | .ahnd o => Sys2Proof.Machine.execAhnd o s
  | .grpopGopen o => Sys2Proof.Machine.execGrpopGopen o s
  | .grpopGclose o => Sys2Proof.Machine.execGrpopGclose o s
  | .grpopPopen o => Sys2Proof.Machine.execGrpopPopen o s
  | .grpopPclose o => Sys2Proof.Machine.execGrpopPclose o s
  | .csrr o => Sys2Proof.Machine.execCsrr o s
  | .csrw o => Sys2Proof.Machine.execCsrw o s
  | .tlbinvRange o => Sys2Proof.Machine.execTlbinvRange o s
  | .tlbinvSubpage o => Sys2Proof.Machine.execTlbinvSubpage o s
  | .tlbinvJob o => Sys2Proof.Machine.execTlbinvJob o s
  | .rdtime o => Sys2Proof.Machine.execRdtime o s
  | .rdrand o => Sys2Proof.Machine.execRdrand o s
  | .ebreak o => Sys2Proof.Machine.execEbreak o s
  | .pmrd o => Sys2Proof.Machine.execPmrd o s
  | .jmark o => Sys2Proof.Machine.execJmark o s
  | .drain ctx => Sys2Proof.Machine.execDrain ctx s
  | .perform ctx load piece => Sys2Proof.Machine.execPerform ctx load piece s
  | .deliver k => Sys2Proof.Machine.execDeliver k s
  | .loopBackDeliver core => Sys2Proof.Machine.execLoopBackDeliver core s
  | .writeBack clu line => Sys2Proof.Machine.execWriteBack clu line s
  | .drop clu line => Sys2Proof.Machine.execDrop clu line s
  | .recallMerge line => Sys2Proof.Machine.execRecallMerge line s
  | .fetch ctx slot => Sys2Proof.Machine.execFetch ctx slot s
  | .streamDeliver ctx slot => Sys2Proof.Machine.execStreamDeliver ctx slot s
  | .combine ctx slot => Sys2Proof.Machine.execCombine ctx slot s
  | .streamWrite ctx slot => Sys2Proof.Machine.execStreamWrite ctx slot s
  | .float ctx slot => Sys2Proof.Machine.execFloat ctx slot s
  | .hop ctx slot => Sys2Proof.Machine.execHop ctx slot s
  | .streamRecall ctx slot cause => Sys2Proof.Machine.execStreamRecall ctx slot cause s
  | .streamLeaveBank ctx slot => Sys2Proof.Machine.execStreamLeaveBank ctx slot s
  | .ringTileReady ctx slot => Sys2Proof.Machine.execRingTileReady ctx slot s
  | .ringSlotReturn ctx slot => Sys2Proof.Machine.execRingSlotReturn ctx slot s
  | .mxCommandStart clu job => Sys2Proof.Machine.execMxCommandStart clu job s
  | .jobElement clu job => Sys2Proof.Machine.execJobElement clu job s
  | .complete clu job => Sys2Proof.Machine.execComplete clu job s
  | .deferredFaultRaise ctx => Sys2Proof.Machine.execDeferredFaultRaise ctx s
  | .nodeReady job node => Sys2Proof.Machine.execNodeReady job node s
  | .leaseAcquire job node => Sys2Proof.Machine.execLeaseAcquire job node s
  | .arenaBirth job node => Sys2Proof.Machine.execArenaBirth job node s
  | .walkerCreate job node => Sys2Proof.Machine.execWalkerCreate job node s
  | .handout job node wid clu => Sys2Proof.Machine.execHandout job node wid clu s
  | .runStart ctx source => Sys2Proof.Machine.execRunStart ctx source s
  | .bankClearComplete core bank => Sys2Proof.Machine.execBankClearComplete core bank s
  | .dequeRefill core => Sys2Proof.Machine.execDequeRefill core s
  | .cancelledHalt ctx => Sys2Proof.Machine.execCancelledHalt ctx s
  | .priorityAge job node => Sys2Proof.Machine.execPriorityAge job node s
  | .retainExpire core => Sys2Proof.Machine.execRetainExpire core s
  | .nodeComplete job node => Sys2Proof.Machine.execNodeComplete job node s
  | .arenaDeath job node => Sys2Proof.Machine.execArenaDeath job node s
  | .discardClusterStep id clu => Sys2Proof.Machine.execDiscardClusterStep id clu s
  | .discardHomeStep id home => Sys2Proof.Machine.execDiscardHomeStep id home s
  | .discardComplete id => Sys2Proof.Machine.execDiscardComplete id s
  | .arenaSweep job => Sys2Proof.Machine.execArenaSweep job s
  | .shootdownAck core => Sys2Proof.Machine.execShootdownAck core s
  | .pageMove job page frame => Sys2Proof.Machine.execPageMove job page frame s
  | .formatWindowWrite win base len scb attr => Sys2Proof.Machine.execFormatWindowWrite win base len scb attr s
  | .jobConfigure job => Sys2Proof.Machine.execJobConfigure job s
  | .thermalHotSet die => Sys2Proof.Machine.execThermalHotSet die s
  | .thermalHotClear die => Sys2Proof.Machine.execThermalHotClear die s
  | .preemptStop job => Sys2Proof.Machine.execPreemptStop job s
  | .preemptWithdraw job => Sys2Proof.Machine.execPreemptWithdraw job s
  | .preemptDrain job => Sys2Proof.Machine.execPreemptDrain job s
  | .preemptSave job => Sys2Proof.Machine.execPreemptSave job s
  | .restore job => Sys2Proof.Machine.execRestore job s
  | .flitReceive port ok => Sys2Proof.Machine.execFlitReceive port ok s
  | .linkBringup node caps => Sys2Proof.Machine.execLinkBringup node caps s
  | .inboundRequest node kind addr len data => Sys2Proof.Machine.execInboundRequest node kind addr len data s
  | .hostLaunch job record => Sys2Proof.Machine.execHostLaunch job record s
  | .hostCancel job level id => Sys2Proof.Machine.execHostCancel job level id s
  | .hostCntrd job level id => Sys2Proof.Machine.execHostCntrd job level id s
  | .attest job nonce => Sys2Proof.Machine.execAttest job nonce s
  | .tokenRefill job => Sys2Proof.Machine.execTokenRefill job s
  | .firmwareLoad version file => Sys2Proof.Machine.execFirmwareLoad version file s
  | .debugToken level tenant file => Sys2Proof.Machine.execDebugToken level tenant file s
  | .debugTokenExpire => Sys2Proof.Machine.execDebugTokenExpire s
  | .provisioningFuse => Sys2Proof.Machine.execProvisioningFuse s
  | .coldReset => Sys2Proof.Machine.execColdReset s
  | .packageOff => Sys2Proof.Machine.execPackageOff s
  | .securityAlarm cause => Sys2Proof.Machine.execSecurityAlarm cause s
  | .islandGate island => Sys2Proof.Machine.execIslandGate island s
  | .islandWake island => Sys2Proof.Machine.execIslandWake island s
  | .clockBoost island => Sys2Proof.Machine.execClockBoost island s
  | .dieRetention die => Sys2Proof.Machine.execDieRetention die s
  | .correctedError die => Sys2Proof.Machine.execCorrectedError die s
  | .uncorrectableError ctx line => Sys2Proof.Machine.execUncorrectableError ctx line s
  | .debugAccess kind level ctx addr data => Sys2Proof.Machine.execDebugAccess kind level ctx addr data s
  | .hbmChannelAcknowledge home => Sys2Proof.Machine.execHbmChannelAcknowledge home s
  | .dieRetentionExit die => Sys2Proof.Machine.execDieRetentionExit die s
  | .healthTestFailure => Sys2Proof.Machine.execHealthTestFailure s

end Sys2Proof.Machine
end

