-- ==== Sys2Proof/Machine/Place.lean ====
section
/-!
DEFINITION. Placing a program: the least that firmware, system software and a host launch do before the first
instruction of a run is fetched. A job is configured on cluster 0 with a code image of one 2 MiB page mapped
by its heap table; one node's run owns context 0 at the image's first address.
-/
namespace Sys2Proof.Machine

/-- First address of the placed code image. -/
def placedVA : Nat := 0x4000000000
/-- Tables and page the placed job uses, in class-000 memory. -/
def placedL1 : Nat := 0x100000
def placedL2 : Nat := 0x110000
def placedL3 : Nat := 0x114000
def placedPage : Nat := 0x40200000

/-- The job context of the placed job. -/
def placedCfg : JobCfg :=
  { hptb := BitVec.ofNat 64 placedL1, pmask := 1, code := (placedVA, 2 ^ 21) }

/-- The node of the placed run: one tile, no footprint. -/
def placedNode : Node := { graph := 1, id := 1, rcd := 0, st := .live, counter := 2 }

/-- The run that owns context 0. -/
def placedRun : Run := { kind := .tile, job := 0, graph := 1, node := 1, tile := some (0, 0) }

/-- A job is ready to run the instruction whose bits are w at the first address of its image. -/
def placeWord (s : State) (w : Nat) : State :=
  let s := s.setBytes (placedL1 + 8 * (placedVA / 2 ^ 43)) (leBytes 8 (placedL2 + 1))
  let s := s.setBytes (placedL2 + 8 * (placedVA / 2 ^ 32 % 2 ^ 11)) (leBytes 8 (placedL3 + 1))
  let s := s.setBytes (placedL3 + 8 * (placedVA / 2 ^ 21 % 2 ^ 11)) (leBytes 8 (placedPage + 1))
  let s := s.setBytes placedPage (leBytes 12 w)
  let s := s.setJob 0
    { (s.job 0) with cfg := placedCfg, nodes := [placedNode], graphs := [{ id := 1, phase := 1, counter := 1 }],
                     phases := [{ id := 1, counter := 1 }], counter := 1, nextGraph := 2, nextPhase := 2, pre := .none }
  let s := s.modClu 0 fun c => { c with owner := some 0 }
  let s := s.setCtx 0 { run := placedRun, pc := BitVec.ofNat 64 placedVA }
  { s with cur := 0, agenda := [] }

end Sys2Proof.Machine
end

