-- ==== Sys2Proof/Machine/Step.lean ====
section
/-!
DEFINITION. One step of the machine: the next turn of the agenda, or an instruction of the current context
when the agenda is empty (R70, R74).
-/
namespace Sys2Proof.Machine

/-- The running context takes its turn. -/
def issue (s : State) : Host.Outcome State Fault Refusal :=
  match s.turn with
  | .done t => .next t
  | .run i t => exec i t

/-- Whether the package may take its turn: when it is off nothing happens but the power-up of a cold reset
(R411, Table 24-7). -/
def State.powered (s : State) : Bool :=
  !s.pkg.off || (match s.agenda with | .event .coldReset :: _ => true | _ => false)

/-- One step of the machine; for a job in replay it is taken only when its journal has come to it (R418). -/
def step (s : State) : Host.Outcome State Fault Refusal :=
  if s.powered then
    match s.agenda with
    | [] => s.inTurn (issue s)
    | .issue n :: r => { s with agenda := r, cur := n }.inTurn (issue { s with agenda := r, cur := n })
    | .fetch n home :: r => { s with agenda := r }.inTurn (.next ({ s with agenda := r }.fetchTurn n home))
    | .event i :: r => { s with agenda := r }.inTurn (exec i { s with agenda := r })
  else .fault .machineOff

/-- The state with an instruction placed where the next step fetches it: what system software and firmware do
to run a program, and the bytes of the word at the start of the code image (assumption log 3). -/
def State.withFetchWord (s : State) (nbits w : Nat) : State := placeWord s (w % 2 ^ nbits)

end Sys2Proof.Machine
end

