-- ==== Sys2Proof/Machine/AsmText.lean ====
section
/-!
DEFINITION. The text kas reads (R243 to R245): tokens of a line, expressions and their 64-bit values, operands,
and the parts of a line. A result of none is a line in error.
-/
namespace Sys2Proof.Kas

/-! ## Tokens (R243, R244) -/

inductive Tok
  | id (s : String)
  | num (n : Nat)
  | sym (c : Char)
  | shl
  | shr
  deriving DecidableEq, Repr

def isIdStart (c : Char) : Bool := c.isAlpha || c == '_' || c == '.'
def isIdChar (c : Char) : Bool := c.isAlphanum || c == '_' || c == '.'

/-- A name in lower case: mnemonics, field values, register names and directive names are accepted in either
case (R243). -/
def low (s : String) : String := String.ofList (s.toList.map Char.toLower)

/-- The value of a digit in a base. -/
def digit (base : Nat) (c : Char) : Option Nat :=
  let v :=
    if c.isDigit then c.toNat - 48
    else if 97 ≤ c.toNat ∧ c.toNat ≤ 102 then c.toNat - 87
    else if 65 ≤ c.toNat ∧ c.toNat ≤ 70 then c.toNat - 55
    else 99
  if v < base then some v else none

/-- The digits of a number, with underscores between digits (R244). -/
def digits (base : Nat) : (acc : Option Nat) → List Char → Option Nat
  | acc, [] => acc
  | none, c :: r => (digit base c).bind fun v => digits base (some v) r
  | some a, '_' :: r => if r.isEmpty then none else digits base (some a) r
  | some a, c :: r => (digit base c).bind fun v => digits base (some (a * base + v)) r

/-- A number: decimal, hexadecimal with 0x, or binary with 0b (R244). -/
def number : List Char → Option Nat
  | '0' :: 'x' :: r => if r.head? = some '_' then none else digits 16 none r
  | '0' :: 'b' :: r => if r.head? = some '_' then none else digits 2 none r
  | r => digits 10 none r

/-- The tokens of a line; a comment begins with a semicolon or two slashes and runs to its end (R243). -/
def lex : (fuel : Nat) → List Char → Option (List Tok)
  | 0, _ => none
  | _ + 1, [] => some []
  | _ + 1, ';' :: _ => some []
  | _ + 1, '/' :: '/' :: _ => some []
  | f + 1, '<' :: '<' :: r => (lex f r).map (.shl :: ·)
  | f + 1, '>' :: '>' :: r => (lex f r).map (.shr :: ·)
  | f + 1, c :: r =>
    if c.isWhitespace then lex f r
    else if isIdStart c then
      (lex f (r.dropWhile isIdChar)).map (.id (String.ofList (c :: r.takeWhile isIdChar)) :: ·)
    else if c.isDigit then do
      let n ← number (c :: r.takeWhile isIdChar)
      (lex f (r.dropWhile isIdChar)).map (.num n :: ·)
    else if "+-*/%~&^|,:()[]=!#".toList.contains c then (lex f r).map (.sym c :: ·)
    else none

def tokens (l : List Char) : Option (List Tok) := lex (l.length + 1) l

/-! ## Expressions (R245) -/

inductive UOp | neg | not
  deriving DecidableEq, Repr
inductive BOp | mul | div | rem | add | sub | shl | shr | and | xor | or
  deriving DecidableEq, Repr

inductive Expr
  | num (n : Nat)
  | sym (s : String)
  /-- the current location -/
  | loc
  | un (o : UOp) (a : Expr)
  | bin (o : BOp) (a b : Expr)
  deriving DecidableEq, Repr

/-- The operator of a binding level at the head of the tokens: 1 binds unary operators, 7 binds or. -/
def opAt : Nat → List Tok → Option (BOp × List Tok)
  | 2, .sym '*' :: r => some (.mul, r)
  | 2, .sym '/' :: r => some (.div, r)
  | 2, .sym '%' :: r => some (.rem, r)
  | 3, .sym '+' :: r => some (.add, r)
  | 3, .sym '-' :: r => some (.sub, r)
  | 4, .shl :: r => some (.shl, r)
  | 4, .shr :: r => some (.shr, r)
  | 5, .sym '&' :: r => some (.and, r)
  | 6, .sym '^' :: r => some (.xor, r)
  | 7, .sym '|' :: r => some (.or, r)
  | _, _ => none

/-- An expression at a binding level; with a left operand read already, the operators that follow it, each
associating to the left. -/
def parseE : (fuel : Nat) → Option Expr → (lvl : Nat) → List Tok → Option (Expr × List Tok)
  | f + 1, none, 1, .sym '-' :: r => (parseE f none 1 r).map fun x => (.un .neg x.1, x.2)
  | f + 1, none, 1, .sym '~' :: r => (parseE f none 1 r).map fun x => (.un .not x.1, x.2)
  | _ + 1, none, 1, .num n :: r => some (.num n, r)
  | _ + 1, none, 1, .id s :: r => some (if s = "." then .loc else .sym s, r)
  | f + 1, none, l + 2, ts => do
    let (a, r) ← parseE f none (l + 1) ts
    parseE f (some a) (l + 2) r
  | f + 1, some a, l + 2, ts =>
    match opAt (l + 2) ts with
    | some (o, r) => do
      let (b, r) ← parseE f none (l + 1) r
      parseE f (some (.bin o a b)) (l + 2) r
    | none => some (a, ts)
  | _, _, _, _ => none

def expr (ts : List Tok) : Option (Expr × List Tok) := parseE (8 * ts.length + 16) none 7 ts

/-- What an address counts from: a section of this object, or a symbol of another. -/
inductive Base
  | sec (i : Nat)
  | ext (s : String)
  deriving DecidableEq, Repr

/-- A value: absolute, or a symbol plus an absolute addend. A global or kernel symbol keeps its name, for the
relocation that names it (R257). -/
inductive Val
  | abs (v : Word)
  | rel (b : Base) (name : Option String) (off add : Word)
  deriving DecidableEq, Repr

abbrev Env := List (String × Val)

def Env.get (e : Env) (s : String) : Option Val := (e.find? (·.1 == s)).map (·.2)

def quot (o : BOp) (a b : Word) : Option Word :=
  if b = 0 then none
  else some (BitVec.ofInt 64 (match o with | .div => a.toInt.tdiv b.toInt | _ => a.toInt.tmod b.toInt))

/-- Two absolute values combined, in 64-bit two's complement. -/
def BOp.abs (o : BOp) (a b : Word) : Option Word :=
  match o with
  | .mul => some (a * b)
  | .div | .rem => quot o a b
  | .add => some (a + b)
  | .sub => some (a - b)
  | .shl => some (a <<< b.toNat)
  | .shr => some (a.sshiftRight b.toNat)
  | .and => some (a &&& b)
  | .xor => some (a ^^^ b)
  | .or => some (a ||| b)

/-- The value of an expression; every combination of symbols but the difference of two of one section is an
error. -/
def Expr.eval (e : Env) (loc : Val) : Expr → Option Val
  | .num n => some (.abs (BitVec.ofNat 64 n))
  | .sym s => e.get s
  | .loc => some loc
  | .un o a => do
    match o, ← a.eval e loc with
    | .neg, .abs v => some (.abs (-v))
    | .not, .abs v => some (.abs (~~~v))
    | _, _ => none
  | .bin o a b => do
    match o, ← a.eval e loc, ← b.eval e loc with
    | o, .abs v, .abs w => (o.abs v w).map .abs
    | .add, .rel s n p v, .abs w => some (.rel s n p (v + w))
    | .add, .abs v, .rel s n p w => some (.rel s n p (v + w))
    | .sub, .rel s n p v, .abs w => some (.rel s n p (v - w))
    | .sub, .rel s _ p v, .rel t _ q w =>
      match s, t with
      | .sec i, .sec j => if i = j then some (.abs (p + v - (q + w))) else none
      | .ext x, .ext y => if x = y then some (.abs (v - w)) else none
      | _, _ => none
    | _, _, _ => none

/-! ## Operands (R239, R246) -/

/-- A register or handle name, or an expression. -/
inductive Item
  | fld (o : Opd)
  | csr (e : Expr)
  | ex (e : Expr)
  deriving DecidableEq, Repr

inductive Arg
  | one (i : Item)
  /-- bracketed, with pa before the bracket for the banks of the run -/
  | mem (pa : Bool) (is : List Item)
  deriving DecidableEq, Repr

/-- A register number without leading zeros, below a bound. -/
def regNum (n : Nat) (cs : List Char) : Option (Fin n) := do
  if cs.isEmpty || (cs.length > 1 && cs.head? == some '0') || cs.any fun c => !c.isDigit then none
  else
    let k ← number cs
    if h : k < n then some ⟨k, h⟩ else none

/-- A register, handle or counter level by name (Table of R246). -/
def regName (s : String) : Option Opd :=
  match (low s).toList with
  | 'x' :: r => (regNum 64 r).map .x
  | 'v' :: r => (regNum 32 r).map .v
  | 'p' :: r => (regNum 8 r).map .p
  | 's' :: r => (regNum 16 r).map .slot
  | 'h' :: r => (regNum 16 r).map .shape
  | 'b' :: r => (regNum 32 r).map .bar
  | 't' :: r => (regNum 32 r).map .tile
  | 'q' :: r =>
    if r.drop (r.length - 3) == ".pk".toList then (regNum 16 (r.take (r.length - 3))).map (.q · true)
    else (regNum 16 r).map (.q · false)
  | '.' :: r =>
    if r == "node".toList then some (.level .node)
    else if r == "graph".toList then some (.level .graph)
    else if r == "phase".toList then some (.level .phase)
    else if r == "job".toList then some (.level .job)
    else none
  | _ => none

/-- One operand without brackets; an immediate may be preceded by a number sign, which changes nothing. -/
def item (ts : List Tok) : Option (Item × List Tok) :=
  match ts with
  | .sym '#' :: r => (expr r).map fun x => (.ex x.1, x.2)
  | .id s :: .sym '(' :: r =>
    if low s = "csr" then do
      let (e, r) ← expr r
      match r with
      | .sym ')' :: r => some (.csr e, r)
      | _ => none
    else none
  | .id s :: r =>
    match regName s with
    | some o => some (.fld o, r)
    | none => (expr ts).map fun x => (.ex x.1, x.2)
  | _ => (expr ts).map fun x => (.ex x.1, x.2)

/-- Operands of brackets, up to the closing one. -/
def items : (fuel : Nat) → List Tok → Option (List Item × List Tok)
  | 0, _ => none
  | f + 1, ts => do
    let (i, r) ← item ts
    match r with
    | .sym ']' :: r => some ([i], r)
    | .sym ',' :: r => (items f r).map fun x => (i :: x.1, x.2)
    | _ => none

def arg (ts : List Tok) : Option (Arg × List Tok) :=
  match ts with
  | .sym '[' :: r => (items r.length r).map fun x => (.mem false x.1, x.2)
  | .id s :: .sym '[' :: r => if low s = "pa" then (items r.length r).map fun x => (.mem true x.1, x.2) else none
  | _ => (item ts).map fun x => (.one x.1, x.2)

/-- Operands of a line, separated by commas. -/
def args : (fuel : Nat) → List Tok → Option (List Arg)
  | 0, _ => none
  | f + 1, ts => do
    let (a, r) ← arg ts
    match r with
    | [] => some [a]
    | .sym ',' :: r => (args f r).map (a :: ·)
    | _ => none

/-! ## Lines (R243) -/

/-- A guard: whether it is negated, and its predicate. -/
structure Guard where
  neg  : Bool
  pred : Fin 8
  deriving DecidableEq, Repr

/-- The parts of a line: labels, a guard, and the first word of an instruction or directive with what follows. -/
structure Line where
  labels : List String := []
  guard  : Option Guard := none
  head   : Option String := none
  rest   : List Tok := []
  deriving DecidableEq, Repr

def predName (s : String) : Option (Fin 8) :=
  match regName s with
  | some (.p n) => some n
  | _ => none

def lineLabels : List Tok → List String × List Tok
  | .id s :: .sym ':' :: r => let (l, t) := lineLabels r; (s :: l, t)
  | ts => ([], ts)

def Line.parse (cs : List Char) : Option Line := do
  let ts ← tokens cs
  let (ls, ts) := lineLabels ts
  let (g, ts) ← match ts with
    | .sym '(' :: .id s :: .sym ')' :: r => (predName s).map fun p => (some ⟨false, p⟩, r)
    | .sym '(' :: .sym '!' :: .id s :: .sym ')' :: r => (predName s).map fun p => (some ⟨true, p⟩, r)
    | _ => some (none, ts)
  match ts with
  | [] => if g = none then some { labels := ls } else none
  | .id s :: r => some { labels := ls, guard := g, head := some s, rest := r }
  | _ => none

/-- The lines of a source text. -/
def splitLines : List Char → List (List Char)
  | [] => [[]]
  | '\n' :: r => [] :: splitLines r
  | c :: r =>
    match splitLines r with
    | l :: ls => (c :: l) :: ls
    | [] => [[c]]

/-- A mnemonic or directive cut at its dots: the base name and its field values (R239). -/
def splitDots : List Char → List (List Char)
  | [] => [[]]
  | '.' :: r => [] :: splitDots r
  | c :: r =>
    match splitDots r with
    | l :: ls => (c :: l) :: ls
    | [] => [[c]]

end Sys2Proof.Kas
end

