-- ==== Sys2Proof/Machine/AsmWord.lean ====
section
/-!
DEFINITION. An instruction line of kas and its 96-bit word (R239, R246, R247, R265): the forms of every
instruction, the field values of a mnemonic in their order, the operands in their fields, the choice between
short and long immediates, and the relocation an unfixed symbol leaves.
-/
namespace Sys2Proof.Kas

/-! ## Forms -/

/-- A field of MOD: what may be written and the code it stands for, its lowest bit in MOD, and the code it takes
when omitted; none when it must be written (R239). -/
structure MField where
  names : List (String × Nat)
  pos   : Nat
  dflt  : Option Nat
  deriving DecidableEq, Repr

/-- Where an operand of a line goes. -/
inductive Place
  | d | a | b
  /-- the length of a line operation, which may be omitted (R292) -/
  | len
  /-- B, which may be omitted -/
  | optB
  /-- an address of layout M (R234) -/
  | addr
  /-- a register in brackets into D or A -/
  | memD | memA
  /-- the address of an atomic or sync object, which also admits an offset of 0 (R239, R300) -/
  | memA0
  /-- a predicate into MOD (R265, R295) -/
  | pred (pos : Nat)
  /-- the shift of LEA (R265) -/
  | shift
  /-- a PC-relative target into B -/
  | target
  /-- the operand of MOVHI: the value whose upper half is wanted (R272) -/
  | high
  deriving DecidableEq, Repr

/-- One spelling of an instruction. -/
structure Form where
  base   : String
  opc    : Nat
  /-- the selector value this form is spelt with, and its code in MOD[3:0] -/
  sel    : Option (String × Nat) := none
  fields : List MField := []
  places : List Place := []
  /-- B admits a long immediate (R231) -/
  long   : Bool := false
  deriving DecidableEq, Repr

def codes (ns : List String) : List (String × Nat) := ns.zipIdx

def tyNames : List (String × Nat) := codes ["s32", "s64", "z32", "z64"]
def eszNames : List (String × Nat) :=
  codes ["s8", "s16", "s32", "s64", "z8", "z16", "z32", "z64", "fp16", "bf16", "fp32", "v64", "l128"]
def condNames : List (String × Nat) := codes ["eq", "ne", "lt", "le", "gt", "ge", "un", "ord"]
def blkNames : List (String × Nat) :=
  codes ["s1", "s2", "s3", "s4", "s5", "s6", "s7", "s8", "z1", "z2", "z3", "z4", "z5", "z6", "z7", "z8"]
def redNames : List (String × Nat) := codes ["sum", "max", "min", "and", "or", "xor"]
def rmNames : List (String × Nat) := codes ["rne", "rtz", "rup", "rdn"]

/-! Layout I (Table 11-3). -/
def fTy : MField := ⟨tyNames, 14, some 1⟩
def fCond : MField := ⟨condNames, 10, none⟩
def fPlog : MField := ⟨codes ["and", "or", "xor", "andn", "orn", "not"], 10, none⟩
def fSh : MField := ⟨codes ["w8", "w16", "w32"], 3, none⟩
/-! Layout V (Table 11-4). -/
def fEt : MField := ⟨eszNames.take 11, 12, some 10⟩
def fSrc : MField := ⟨eszNames.take 11, 3, none⟩
def fSubC : MField := ⟨condNames, 3, none⟩
def fBlk : MField := ⟨blkNames, 3, none⟩
def fPm : MField := ⟨blkNames.take 8, 3, none⟩
def fRed : MField := ⟨redNames, 3, none⟩
def fMap : MField :=
  ⟨codes ["add", "sub", "mul", "min", "max", "fma", "abs", "neg", "exp2", "rcp", "tanh", "dqnt"], 3, none⟩
def fRm : MField := ⟨rmNames, 10, some 0⟩
def fSat : MField := ⟨[("sat", 1)], 2, some 0⟩
def fBc : MField := ⟨[("bc", 1)], 1, some 0⟩
def fZ : MField := ⟨[("z", 1)], 0, some 0⟩
def fLp : MField := ⟨codes ["lp0", "lp1", "lp2", "lp3", "lp4", "lp5", "lp6", "lp7"], 7, some 7⟩
/-! Layouts M and A (Tables 11-5, 11-6). -/
def fOrd : MField := ⟨codes ["rlx", "acq", "rel", "sc"], 14, some 0⟩
def fScope : MField := ⟨codes ["core", "clu", "die", "pkg", "sys"], 11, some 0⟩
def evpNames : List (String × Nat) := codes ["e0", "e1", "e2", "e3", "e4", "e5", "e6", "e7"]
def fEvp : MField := ⟨evpNames, 8, some 3⟩
def fEvp0 : MField := ⟨evpNames, 8, some 0⟩
def fEsz : MField := ⟨eszNames, 4, some 3⟩
def fLine : MField := ⟨eszNames, 4, some 12⟩
def fAop : MField := ⟨codes ["swap", "add", "and", "or", "xor", "min", "max", "fadd"], 0, none⟩
/-! Layout X (R237). -/
def fOfmt : MField := ⟨eszNames, 4, none⟩
def fCsv : MField := ⟨[("csv", 1)], 1, some 0⟩
def fMapX : MField := ⟨[("map", 1)], 0, some 0⟩

def fMem : List MField := [fEsz, fOrd, fScope, fEvp]

/-- Instructions of one shape with ascending opcodes. -/
def rows (names : List String) (opc : Nat) (fields : List MField) (places : List Place) (long : Bool := false) :
    List Form :=
  names.zipIdx.map fun x => { base := x.1, opc := opc + x.2, fields, places, long }

/-- INT and LOGIC (R266 to R273). -/
def formsInt : List Form :=
  rows ["iadd", "isub", "imul"] 0x000 [fTy] [.d, .a, .b] true
  ++ rows ["imulh", "imad", "idiv", "irem"] 0x003 [fTy] [.d, .a, .b]
  ++ rows ["ineg", "iabs"] 0x007 [fTy] [.d, .a]
  ++ rows ["imin", "imax"] 0x009 [fTy] [.d, .a, .b]
  ++ rows ["icmp"] 0x00B [fCond, fTy] [.pred 7, .d, .a, .b]
  ++ rows ["isel"] 0x00C [fTy] [.d, .pred 7, .a, .b]
  ++ rows ["lea"] 0x00D [fTy] [.d, .a, .b, .shift]
  ++ rows ["clz", "ctz", "popc", "brev"] 0x00E [fTy] [.d, .a]
  ++ rows ["and", "or", "xor"] 0x040 [fTy] [.d, .a, .b] true
  ++ rows ["andn", "orn", "shl", "shr", "sar", "rol", "bfx", "bfi"] 0x043 [fTy] [.d, .a, .b]
  ++ rows ["sext", "zext"] 0x04B [fSh, fTy] [.d, .a]
  ++ rows ["mov"] 0x04D [fTy] [.d, .a]
  ++ rows ["movi"] 0x04E [fTy] [.d, .b] true
  ++ rows ["movhi"] 0x04F [fTy] [.d, .a, .high] true
  ++ rows ["plog"] 0x050 [fPlog, fTy] [.d, .a, .optB]
  ++ rows ["pmov"] 0x051 [fTy] [.d, .a]

/-- FP and CTRL (R274 to R285, Table 13-2). -/
def formsFpCtrl : List Form :=
  rows ["fadd", "fsub", "fmul", "ffma", "fdiv"] 0x080 [fEt, fRm] [.d, .a, .b]
  ++ rows ["fsqrt"] 0x085 [fEt, fRm] [.d, .a]
  ++ rows ["fmin", "fmax"] 0x086 [fEt] [.d, .a, .b]
  ++ rows ["fcmp"] 0x088 [fSubC, fEt] [.pred 7, .d, .a, .b]
  ++ rows ["fcvt"] 0x089 [fEt, fSrc, fRm] [.d, .a]
  ++ rows ["fclass"] 0x08A [fEt] [.d, .a]
  ++ rows ["nop"] 0x0C0 [] []
  ++ rows ["br", "call"] 0x0C1 [] [.target] true
  ++ rows ["calli"] 0x0C3 [] [.a]
  ++ rows ["ret"] 0x0C4 [] []
  ++ rows ["jmpi"] 0x0C5 [] [.a]
  ++ rows ["loop"] 0x0C6 [] [.d, .target]
  ++ rows ["fork"] 0x0C7 [] [.d, .a, .target]
  ++ rows ["spawn", "rspawn"] 0x0C8 [] [.d, .a, .b]
  ++ rows ["join"] 0x0CA [] [.a]
  ++ rows ["yield", "halt"] 0x0CB [] []
  ++ [{ base := "halt", opc := 0x0CC, sel := some ("retain", 1), places := [.a] }]
  ++ rows ["trap"] 0x0CD [] [.b]
  ++ rows ["rte"] 0x0CE [] []

/-- MEM and ATOM (R288 to R299). -/
def formsMem : List Form :=
  rows ["ld"] 0x100 fMem [.d, .addr] ++ rows ["st"] 0x101 fMem [.addr, .d]
  ++ rows ["ldl"] 0x102 fMem [.d, .addr] ++ rows ["stl"] 0x103 fMem [.addr, .d]
  ++ rows ["prf"] 0x104 [fLine, fOrd, fScope, fEvp] [.len, .addr]
  ++ rows ["wbk", "dis", "inv", "plf"] 0x105 [fLine, fOrd, fScope, fEvp0] [.len, .addr]
  ++ rows ["rgsync"] 0x109 [] []
  ++ rows ["amo"] 0x140 (fAop :: fMem) [.d, .memA0, .b]
  ++ rows ["cas"] 0x141 fMem [.d, .memA0, .b]
  ++ rows ["red"] 0x142 (fAop :: fMem) [.memA0, .b]
  ++ rows ["fput"] 0x143 fMem [.d, .memA0, .b]
  ++ rows ["fget"] 0x144 fMem [.d, .memA0]
  ++ rows ["fpeek"] 0x145 fMem [.pred 0, .d, .memA0]

/-- SYNC and STRM (R300 to R314). -/
def formsSync : List Form :=
  rows ["acq", "rel"] 0x180 [fScope] [.memA0]
  ++ rows ["fence"] 0x182 [fScope] []
  ++ rows ["binit"] 0x183 [] [.d, .a, .b]
  ++ rows ["bexp"] 0x184 [] [.a, .b]
  ++ rows ["barv"] 0x185 [fScope] [.a]
  ++ rows ["bwait"] 0x186 [fScope] [.a, .b]
  ++ rows ["btest"] 0x187 [] [.d, .a]
  ++ rows ["brarv"] 0x188 [fScope] [.a, .b]
  ++ [{ base := "bbind", opc := 0x189, sel := some ("copy", 0), places := [.a] },
      { base := "bbind", opc := 0x189, sel := some ("mxrow", 1), places := [.a] },
      { base := "bbind", opc := 0x189, sel := some ("sink", 2), places := [.a, .b] },
      { base := "bbind", opc := 0x189, sel := some ("cnt", 3), places := [.d, .a, .b] }]
  ++ rows ["sopen"] 0x1C0 [] [.d, .memA]
  ++ rows ["sclose"] 0x1C1 [] [.a]
  ++ [{ base := "srcl", opc := 0x1C2, sel := some ("imm", 0), places := [.a] },
      { base := "srcl", opc := 0x1C2, sel := some ("at", 1), places := [.a, .b] },
      { base := "sflt", opc := 0x1C3, sel := some ("auto", 0), places := [.a] },
      { base := "sflt", opc := 0x1C3, sel := some ("never", 1), places := [.a] },
      { base := "sflt", opc := 0x1C3, sel := some ("near", 2), places := [.a] }]
  ++ rows ["ssnk", "sstat"] 0x1C4 [] [.d, .a]
  ++ rows ["sevt"] 0x1C6 [] [.d]
  ++ rows ["qput", "qget", "qpeek", "qcnt", "qbind"] 0x1C7 [] [.d, .a]

/-- VEC and VDATA (R319 to R330). -/
def formsVec : List Form :=
  rows ["vadd", "vsub", "vmul", "vfma"] 0x200 [fEt, fRm, fSat, fBc, fZ, fLp] [.d, .a, .b]
  ++ rows ["vmin", "vmax"] 0x204 [fEt, fBc, fZ, fLp] [.d, .a, .b]
  ++ rows ["vabs", "vneg"] 0x206 [fEt, fSat, fZ, fLp] [.d, .a]
  ++ rows ["vand", "vor", "vxor", "vshl", "vshr", "vsar"] 0x208 [fEt, fBc, fZ, fLp] [.d, .a, .b]
  ++ rows ["vcmp"] 0x20E [fSubC, fEt, fBc, fZ, fLp] [.d, .a, .b]
  ++ rows ["vsel"] 0x20F [fEt, fBc, fLp] [.d, .a, .b]
  ++ rows ["vcvt"] 0x210 [fEt, fSrc, fRm, fZ, fLp] [.d, .a, .optB]
  ++ rows ["vqnt"] 0x211 [fBlk, fEt, fLp] [.d, .a, .b]
  ++ rows ["vdqnt"] 0x212 [fBlk, fEt, fRm, fZ, fLp] [.d, .a, .optB]
  ++ rows ["vplane", "vunpl"] 0x213 [fPm, fLp] [.d, .a]
  ++ rows ["vexp2", "vlog2", "vrcp", "vrsq", "vsin", "vcos", "vtanh"] 0x215 [fEt, fZ, fLp] [.d, .a]
  ++ rows ["vld"] 0x240 fMem [.d, .addr] ++ rows ["vst"] 0x241 fMem [.addr, .d]
  ++ rows ["vgth"] 0x242 fMem [.d, .addr] ++ rows ["vsct"] 0x243 fMem [.addr, .d]
  ++ rows ["vred"] 0x244 [fRed, fEt, fRm, fSat, fLp] [.d, .a]
  ++ rows ["vscan"] 0x245 [fRed, fEt, fRm, fZ, fLp] [.d, .a]
  ++ rows ["vperm"] 0x246 [fEt, fZ, fLp] [.d, .a, .b]
  ++ rows ["vbcast"] 0x247 [fEt, fZ, fLp] [.d, .a, .optB]
  ++ rows ["vext", "vins"] 0x248 [fEt, fLp] [.d, .a, .b]
  ++ rows ["vcprs"] 0x24A [fEt, fLp] [.d, .a]

/-- SHAPE and WIN (R331 to R338). -/
def formsShape : List Form :=
  rows ["shdef"] 0x280 [] [.d, .memA]
  ++ rows ["shmap"] 0x281 [fMap, fEt, fRm, fSat, fBc, fLp] [.d, .a, .optB]
  ++ rows ["shred"] 0x282 [fRed, fEt, fRm, fSat, fLp] [.d, .a]
  ++ rows ["shqnt"] 0x283 [fBlk, fEt, fLp] [.d, .a]
  ++ rows ["shcpy"] 0x284 [fEt, fLp] [.d, .a]
  ++ rows ["shstat"] 0x285 [] [.d, .a]
  ++ rows ["wclr"] 0x2C0 [] [.memD]
  ++ rows ["wadd", "wsub"] 0x2C1 [fEt] [.memD, .a, .b]
  ++ rows ["wrnd"] 0x2C3 [fRm] [.d, .memA]
  ++ rows ["waddv"] 0x2C4 [fEt, fLp] [.memD, .a, .b]
  ++ rows ["wstat"] 0x2C5 [] [.d, .memA]

/-- MX, COPY, TASK and SYS (Tables 18-2 and 20-1). -/
def formsTask : List Form :=
  rows ["mxcfg"] 0x300 [] [.a]
  ++ rows ["mxalloc"] 0x301 [] [.d, .a]
  ++ rows ["mxfree"] 0x302 [] [.a]
  ++ rows ["mxzero"] 0x303 [] [.d]
  ++ rows ["mxmm", "mxgmm"] 0x304 [] [.d, .a, .b]
  ++ rows ["mxprom"] 0x306 [] [.d]
  ++ rows ["mxcpy"] 0x307 [fOfmt, fCsv, fMapX] [.d, .a, .b]
  ++ rows ["mxmap"] 0x308 [] [.memA]
  ++ rows ["mxlda"] 0x309 [] [.d, .a, .b]
  ++ rows ["mxstat"] 0x30A [] [.d, .a]
  ++ rows ["mxfence"] 0x30B [] []
  ++ rows ["cpstart"] 0x340 [] [.d, .memA]
  ++ rows ["cpstat"] 0x341 [] [.d, .a]
  ++ rows ["cpcan"] 0x342 [] [.a]
  ++ rows ["launch"] 0x380 [] [.d, .memA, .b]
  ++ rows ["tnext"] 0x381 [] [.d]
  ++ rows ["split", "wstat"] 0x382 [] [.d, .a, .b]
  ++ rows ["cancel"] 0x384 [] [.a, .b]
  ++ rows ["cntrd"] 0x385 [] [.d, .a, .b]
  ++ rows ["ahnd"] 0x386 [] [.d, .a]
  ++ [{ base := "grpop", opc := 0x387, sel := some ("gopen", 0), places := [.d, .memA] },
      { base := "grpop", opc := 0x387, sel := some ("gclose", 1), places := [.a] },
      { base := "grpop", opc := 0x387, sel := some ("popen", 2), places := [.d] },
      { base := "grpop", opc := 0x387, sel := some ("pclose", 3), places := [.a] }]
  ++ rows ["csrr", "csrw"] 0x3C0 [] [.d, .a]
  ++ [{ base := "tlbinv", opc := 0x3C2, sel := some ("range", 0), places := [.a, .b] },
      { base := "tlbinv", opc := 0x3C2, sel := some ("subpage", 1), places := [.a] },
      { base := "tlbinv", opc := 0x3C2, sel := some ("job", 2), places := [] }]
  ++ rows ["rdtime", "rdrand"] 0x3C3 [] [.d]
  ++ rows ["ebreak"] 0x3C5 [] []
  ++ rows ["pmrd"] 0x3C6 [] [.d, .a]
  ++ rows ["jmark"] 0x3C7 [] [.b] true

/-- Every form of every instruction. -/
def forms : List Form :=
  formsInt ++ formsFpCtrl ++ formsMem ++ formsSync ++ formsVec ++ formsShape ++ formsTask

/-- The special registers by name (Table 20-4). -/
def sregNames : List (String × Nat) :=
  [("cstat", 0x000), ("fstat", 0x001), ("inldepth", 0x002), ("epc", 0x004), ("estat", 0x005), ("mxwgt", 0x010),
   ("mboxlim", 0x011), ("sprb", 0x012), ("sprl", 0x013), ("sptb", 0x014), ("tstat", 0x020), ("stksplit", 0x030),
   ("retq", 0x031), ("arpool", 0x032), ("retainns", 0x033), ("inlmax", 0x034), ("ageint", 0x035), ("rsvb", 0x036),
   ("rgtb", 0x037), ("hptb", 0x038), ("armb", 0x039), ("pmask0", 0x03A), ("pmask1", 0x03B), ("pmask2", 0x03C),
   ("resq", 0x03D)]

def lookup (t : List (String × Nat)) (s : String) : Option Nat := (t.find? (·.1 == s)).map (·.2)

/-! ## Field values (R239, R246) -/

/-- The field values of a mnemonic into MOD, in the order of the form's fields: a value goes to the first field
that accepts it, and none may be left. The second part tells whether a field other than a default was written. -/
def fieldValues : List MField → List String → Option (Nat × Bool)
  | [], [] => some (0, false)
  | [], _ :: _ => none
  | f :: fs, vs =>
    let omit' : Option (Nat × Bool) := do
      let d ← f.dflt
      let (m, w) ← fieldValues fs vs
      some (m + d * 2 ^ f.pos, w)
    match vs with
    | v :: r =>
      match lookup f.names v with
      | some c => do
        let (m, w) ← fieldValues fs r
        some (m + c * 2 ^ f.pos, w || f.dflt != some c)
      | none => omit'
    | [] => omit'

/-- The selector value a form is spelt with, and the field values that follow it. -/
def Form.select (f : Form) (vs : List String) : Option (List String × Nat) :=
  match f.sel, vs with
  | some (n, c), v :: r => if v = n then some (r, c) else none
  | some _, [] => none
  | none, vs => some (vs, 0)

/-- Mnemonics, which cannot be identifiers (R243): a base name, alone or with field values of its form (R239). -/
def isMnemonic (s : String) : Bool :=
  match splitDots (low s).toList with
  | b :: vs =>
    forms.any fun f => f.base == String.ofList b &&
      (vs.isEmpty || ((f.select (vs.map String.ofList)).bind fun x => fieldValues f.fields x.1).isSome)
  | [] => false

/-! ## Immediates (R247) -/

/-- Relocation kinds of instruction fields (R259). -/
inductive Fix | imm32 | hi32 | imm17 | pc17 | pc32
  deriving DecidableEq, Repr

/-- The word under construction. -/
structure Enc where
  mod  : Nat := 0
  d    : Opd := .x 0
  a    : Opd := .x 0
  b    : Opd := .x 0
  /-- the relocation B leaves -/
  rel  : Option (Fix × Val) := none
  deriving DecidableEq, Repr

/-- What an instruction line is assembled in: the symbols, its address and whether B admits a long immediate. -/
structure At where
  env  : Env
  pc   : Val
  long : Bool
  deriving DecidableEq, Repr

/-- A value within 17 signed bits. -/
def fits17 (v : Word) : Bool := decide (-65536 ≤ v.toInt) && decide (v.toInt ≤ 65535)
/-- A value that equals sext64 of its low 32 bits. -/
def fits32 (v : Word) : Bool := (v.truncate 32).signExtend 64 == v

def imm17 (v : Word) : Opd := .imm (v.truncate 17)

/-- An absolute immediate: kind 100 when it fits, else kind 111 where B admits it. -/
def immOf (long : Bool) (v : Word) : Option Opd :=
  if fits17 v then some (imm17 v) else if long && fits32 v then some (.long (v.truncate 32)) else none

/-- A value in B: an unfixed symbol takes kind 111 where admitted and leaves a relocation. -/
def Enc.immB (e : Enc) (long : Bool) : Val → Option Enc
  | .abs v => (immOf long v).map fun o => { e with b := o }
  | v => some { e with b := if long then .long 0 else .imm 0, rel := some (if long then .imm32 else .imm17, v) }

/-- The operand of MOVHI, of which bits [63:32] are encoded (R272). -/
def Enc.immHigh (e : Enc) : Val → Option Enc
  | .abs v => some { e with b := if fits17 v then imm17 v else .long (v.extractLsb' 32 32) }
  | v => some { e with b := .long 0, rel := some (.hi32, v) }

/-- A PC-relative target, counted in 4-byte units from the instruction; one of another section leaves a relocation. -/
def Enc.immTarget (e : Enc) (c : At) (v : Val) : Option Enc :=
  match v, c.pc with
  | .rel (.sec i) n p w, .rel (.sec j) _ q x =>
    if i = j then
      let k := (p + w - (q + x)).toInt
      if k % 4 ≠ 0 then none else (immOf c.long (BitVec.ofInt 64 (k / 4))).map fun o => { e with b := o }
    else some { e with b := if c.long then .long 0 else .imm 0,
                       rel := some (if c.long then .pc32 else .pc17, .rel (.sec i) n p w) }
  | v@(.rel ..), _ =>
    some { e with b := if c.long then .long 0 else .imm 0, rel := some (if c.long then .pc32 else .pc17, v) }
  | .abs _, _ => none

/-! ## Operands into fields -/

/-- An operand of a field that takes no relocation. -/
def opdOf (c : At) : Item → Option Opd
  | .fld o => some o
  | .csr e =>
    match e.eval c.env c.pc with
    | some (.abs v) => if v.toNat ≤ 0xFFF then some (.sreg (v.truncate 12)) else none
    | _ => none
  | .ex e =>
    match e.eval c.env c.pc with
    | some (.abs v) => immOf false v
    | some (.rel ..) => none
    | none =>
      match e with
      | .sym s => (lookup sregNames (low s)).map fun i => .sreg (BitVec.ofNat 12 i)
      | _ => none

/-- B from an item. -/
def Enc.setB (e : Enc) (c : At) : Item → Option Enc
  | .ex x => do e.immB c.long (← x.eval c.env c.pc)
  | i => (opdOf c i).map fun o => { e with b := o }

def isZeroItem (c : At) : Item → Bool
  | .ex x => x.eval c.env c.pc == some (.abs 0)
  | _ => false
def isOneItem (c : At) : Item → Bool
  | .ex x => x.eval c.env c.pc == some (.abs 1)
  | _ => false
/-- The name pc in an address. -/
def isPc : Item → Bool
  | .ex (.sym s) => low s == "pc"
  | _ => false

/-- An address of layout M (R234, R239): A, B and AM. -/
def Enc.setAddr (e : Enc) (c : At) : Arg → Option Enc
  | .mem true [.fld (.x n), .ex x] => do
    let v ← x.eval c.env c.pc
    ({ e with a := .x n, mod := e.mod + 3 } : Enc).immB false v
  | .mem false [.fld (.x n), .fld o, one] =>
    if isOneItem c one then some { e with a := .x n, b := o, mod := e.mod + 2 } else none
  | .mem false [.fld (.x n), .fld o] => some { e with a := .x n, b := o, mod := e.mod + 1 }
  | .mem false [i, .ex x] => do
    let v ← x.eval c.env c.pc
    if isPc i then ({ e with mod := e.mod + 4 } : Enc).immTarget { c with long := false } v
    else
      match i with
      | .fld (.x n) => ({ e with a := .x n } : Enc).immB false v
      | _ => none
  | _ => none

/-- The operands of a form, in the order they are written. -/
def place (c : At) : List Place → List Arg → Enc → Option Enc
  | [], [], e => some e
  | [], _ :: _, _ => none
  | .len :: ps, .one i :: r, e => do
    let o ← opdOf c i
    place c ps r { e with d := o }
  | .len :: ps, as, e => place c ps as e
  | .optB :: ps, [], e => place c ps [] e
  | .optB :: ps, .one i :: r, e => do place c ps r (← e.setB c i)
  | .d :: ps, .one i :: r, e => do place c ps r { e with d := ← opdOf c i }
  | .a :: ps, .one i :: r, e => do place c ps r { e with a := ← opdOf c i }
  | .b :: ps, .one i :: r, e => do place c ps r (← e.setB c i)
  | .addr :: ps, m :: r, e => do place c ps r (← e.setAddr c m)
  | .memD :: ps, .mem false [.fld (.x n)] :: r, e => place c ps r { e with d := .x n }
  | .memA :: ps, .mem false [.fld (.x n)] :: r, e => place c ps r { e with a := .x n }
  | .memA0 :: ps, .mem false [.fld (.x n)] :: r, e => place c ps r { e with a := .x n }
  | .memA0 :: ps, .mem false [.fld (.x n), z] :: r, e =>
    if isZeroItem c z then place c ps r { e with a := .x n } else none
  | .pred pos :: ps, .one (.fld (.p n)) :: r, e => place c ps r { e with mod := e.mod + n.val * 2 ^ pos }
  | .shift :: ps, .one (.ex x) :: r, e => do
    match ← x.eval c.env c.pc with
    | .abs v => if v.toNat < 16 then place c ps r { e with mod := e.mod + v.toNat * 8 } else none
    | _ => none
  | .target :: ps, .one (.ex x) :: r, e => do place c ps r (← e.immTarget c (← x.eval c.env c.pc))
  | .high :: ps, .one (.ex x) :: r, e => do place c ps r (← e.immHigh (← x.eval c.env c.pc))
  | _, _, _ => none

/-! ## The word -/

/-- An assembled instruction: its word and the relocation it leaves. -/
structure Asmd where
  word : BitVec 96
  rel  : Option (Fix × Val) := none
  deriving DecidableEq, Repr

/-- An operand with any special register in place of one: csr(n) names every index, assigned or not (R246). -/
def anySreg : Opd → Opd
  | .sreg _ => .sreg 0
  | o => o

/-- A line under one form. A line with a long immediate writes no field other than a default (R265). -/
def Form.asm (f : Form) (g : Hdr) (env : Env) (pc : Val) (vs : List String) (as : List Arg) : Option Asmd := do
  let (vs, sel) ← f.select vs
  let (mod, written) ← fieldValues f.fields vs
  let e ← place ⟨env, pc, f.long⟩ f.places as { mod := mod + sel }
  if e.b.isL && written then none
  else
    let w := packWord f.opc g (modOr e.b e.mod) e.d e.a e.b
    -- no kind or value is left that R242 refuses, but for the index of a special register
    if (decode (packWord f.opc g (modOr e.b e.mod) (anySreg e.d) (anySreg e.a) e.b)).isSome then some ⟨w, e.rel⟩ else none

/-- Guard of a line; hints are zero (R239). -/
def hdrOf : Option Guard → Hdr
  | none => ⟨false, 7, 0, false, 0⟩
  | some g => ⟨g.neg, g.pred, 0, false, 0⟩

/-- The operands of a line, of which there may be none. -/
def argsOf (rest : List Tok) : Option (List Arg) :=
  if rest.isEmpty then some [] else args (rest.length + 1) rest

/-- An instruction line: the first form of its base name that its field values and operands suit. -/
def asmLine (g : Option Guard) (env : Env) (pc : Val) (head : String) (rest : List Tok) : Option Asmd := do
  let as ← argsOf rest
  match splitDots (low head).toList with
  | b :: vs =>
    (forms.filter (·.base == String.ofList b)).findSome? fun f =>
      f.asm (hdrOf g) env pc (vs.map String.ofList) as
  | [] => none

end Sys2Proof.Kas
end

