-- ==== Sys2Proof/Machine/Kof.lean ====
section
/-!
DEFINITION. KOF version 3 objects (R256 to R259) as plain data and as bytes, their relocations, and kld, which
links them into an image (R260, R261).
-/
namespace Sys2Proof.Kof
open Sys2Proof.Machine

/-! ## The tables (Tables 12-1 to 12-4) -/

/-- Section kinds (Table 12-2). -/
def kText : Nat := 1
def kRodata : Nat := 2
def kData : Nat := 3
def kLocal : Nat := 4
def kKinfo : Nat := 5

/-- A section entry with its contents (Table 12-2); a local section has an extent and no bytes. -/
structure Sec where
  name  : Nat := 0
  kind  : Nat := 0
  alog2 : Nat := 0
  addr  : Nat := 0
  size  : Nat := 0
  kern  : Nat := 0
  bytes : List Byte := []
  deriving DecidableEq, Repr

/-- A symbol entry (Table 12-3). -/
structure Sym where
  name  : Nat := 0
  sect  : Nat := 0
  /-- 0 file-local, 1 global, 2 extern -/
  bind  : Nat := 0
  /-- 0 none, 1 code, 2 data, 3 kernel -/
  type  : Nat := 0
  value : Nat := 0
  size  : Nat := 0
  deriving DecidableEq, Repr

/-- A relocation entry (R259). -/
structure Rel where
  off  : Nat
  sect : Nat
  kind : Nat
  sym  : Nat
  add  : Word
  deriving DecidableEq, Repr

/-- An object or linked image. Names are offsets in the string table; section 0 and symbol 0 are null entries. -/
structure Obj where
  linked : Bool := false
  base   : Nat := 0
  secs   : List Sec := [{}]
  syms   : List Sym := [{}]
  rels   : List Rel := []
  strs   : List Byte := [0]
  deriving DecidableEq, Repr

/-- A section's file bytes. -/
def Sec.file (s : Sec) : List Byte := if s.kind = 0 ∨ s.kind = kLocal then [] else s.bytes

/-- File offsets of the sections' contents, from an offset on. -/
def contentOffs : Nat → List Sec → List Nat
  | _, [] => []
  | o, s :: r => (if s.file.isEmpty then 0 else o) :: contentOffs (o + s.file.length) r

def Sec.entry (s : Sec) (off : Nat) : List Byte :=
  leBytes 4 s.name ++ leBytes 4 (s.kind % 16 + s.alog2 % 32 * 16) ++ leBytes 8 s.addr ++ leBytes 4 off ++ leBytes 4 s.size
    ++ leBytes 4 s.kern ++ leBytes 4 0
def Sym.entry (s : Sym) : List Byte :=
  leBytes 4 s.name ++ leBytes 2 s.sect ++ leBytes 2 (s.bind % 4 + s.type % 4 * 4) ++ leBytes 8 s.value ++ leBytes 8 s.size
def Rel.entry (r : Rel) : List Byte :=
  leBytes 4 r.off ++ leBytes 2 r.sect ++ leBytes 1 r.kind ++ leBytes 1 0 ++ leBytes 4 r.sym ++ leBytes 4 0
    ++ leBytes 8 r.add.toNat

/-- The file of an object (R256): header, the four tables, then the sections' contents. -/
def Obj.file (k : Obj) : List Byte :=
  let symOff := 64 + 32 * k.secs.length
  let relOff := symOff + 24 * k.syms.length
  let strOff := relOff + 24 * k.rels.length
  leBytes 4 0x03464F4B ++ leBytes 2 3 ++ leBytes 2 k.linked.toNat ++ leBytes 4 64 ++ leBytes 4 k.secs.length
    ++ leBytes 4 symOff ++ leBytes 4 k.syms.length ++ leBytes 4 relOff ++ leBytes 4 k.rels.length
    ++ leBytes 4 strOff ++ leBytes 4 k.strs.length ++ leBytes 8 k.base ++ leBytes 16 0
    ++ ((k.secs.zip (contentOffs (strOff + k.strs.length) k.secs)).flatMap fun x => x.1.entry x.2)
    ++ k.syms.flatMap Sym.entry ++ k.rels.flatMap Rel.entry ++ k.strs ++ k.secs.flatMap Sec.file

/-- A little-endian field of a file. -/
def field (f : List Byte) (off n : Nat) : Nat := leNat ((f.drop off).take n)

def readSec (f : List Byte) (o : Nat) : Option Sec :=
  let w := field f (o + 4) 4
  let kind := w % 16
  let size := field f (o + 20) 4
  let at_ := field f (o + 16) 4
  let body := if kind = 0 ∨ kind = kLocal then [] else (f.drop at_).take size
  if w / 512 ≠ 0 ∨ kKinfo < kind ∨ 21 < w / 16 ∨ field f (o + 28) 4 ≠ 0 ∨
      (kind ≠ 0 ∧ kind ≠ kLocal ∧ body.length ≠ size) then none
  else some { name := field f o 4, kind, alog2 := w / 16, addr := field f (o + 8) 8, size, kern := field f (o + 24) 4,
              bytes := body }

def readSym (f : List Byte) (o : Nat) : Option Sym :=
  let w := field f (o + 6) 2
  if w / 16 ≠ 0 ∨ w % 4 = 3 then none
  else some { name := field f o 4, sect := field f (o + 4) 2, bind := w % 4, type := w / 4 % 4, value := field f (o + 8) 8,
              size := field f (o + 16) 8 }

/-- A relocation; a reserved kind makes kld refuse the object (R259). -/
def readRel (f : List Byte) (o : Nat) : Option Rel :=
  let kind := field f (o + 6) 1
  if kind = 0 ∨ 7 < kind ∨ field f (o + 7) 1 ≠ 0 ∨ field f (o + 12) 4 ≠ 0 then none
  else some { off := field f o 4, sect := field f (o + 4) 2, kind, sym := field f (o + 8) 4,
              add := BitVec.ofNat 64 (field f (o + 16) 8) }

def readAll {α : Type} (g : Nat → Option α) (off step n : Nat) : Option (List α) :=
  (List.range n).mapM fun i => g (off + step * i)

/-- The object a file holds, or none where a header, entry or reserved field makes it none (R256 to R259). -/
def Obj.read (f : List Byte) : Option Obj := do
  if f.length < 64 ∨ field f 0 4 ≠ 0x03464F4B ∨ field f 4 2 ≠ 3 ∨ 1 < field f 6 2 ∨ field f 48 16 ≠ 0 then none
  else
    let secs ← readAll (readSec f) (field f 8 4) 32 (field f 12 4)
    let syms ← readAll (readSym f) (field f 16 4) 24 (field f 20 4)
    let rels ← readAll (readRel f) (field f 24 4) 24 (field f 28 4)
    let k : Obj := { linked := field f 6 2 == 1, base := field f 40 8, secs, syms, rels,
                     strs := (f.drop (field f 32 4)).take (field f 36 4) }
    if k.secs.head? = some {} ∧ k.syms.head? = some {} ∧ (k.linked = false → k.base = 0) ∧ (k.linked = true → k.rels = [])
    then some k else none

/-- A name of the string table. -/
def Obj.str (k : Obj) (o : Nat) : List Byte := (k.strs.drop o).takeWhile (· != 0)

/-! ## Relocations (R259) -/

def relAbs64 : Nat := 1
def relAbs32 : Nat := 2
def relImm32 : Nat := 3
def relHi32 : Nat := 4
def relImm17 : Nat := 5
def relPc17 : Nat := 6
def relPc32 : Nat := 7

def inRange (lo hi : Int) (v : Word) : Bool := decide (lo ≤ v.toInt) && decide (v.toInt ≤ hi)

/-- A distance in 4-byte units, within n signed bits. -/
def pcUnits (n : Nat) (v : Word) : Option Word :=
  let u := v.sshiftRight 2
  if v.toNat % 4 = 0 ∧ inRange (-(2 ^ (n - 1) : Nat)) ((2 ^ (n - 1) : Nat) - 1) u = true then some u else none

/-- The value of a relocation from the symbol's address S, the addend A and the address P patched, where it passes
its check. -/
def relValue (kind : Nat) (s a p : Word) : Option Word :=
  match kind with
  | 1 => some (s + a)
  | 2 => if inRange (-(2 ^ 31 : Nat)) ((2 ^ 32 : Nat) - 1) (s + a) then some (s + a) else none
  | 3 => if ((s + a).truncate 32).signExtend 64 = s + a then some (s + a) else none
  | 4 => some ((s + a) >>> 32)
  | 5 => if inRange (-65536) 65535 (s + a) then some (s + a) else none
  | 6 => pcUnits 17 (s + a - p)
  | 7 => pcUnits 32 (s + a - p)
  | _ => none

/-- n bits of a word from bit lo on, replaced. -/
def setField (w : BitVec 96) (lo n v : Nat) : BitVec 96 :=
  let m : BitVec 96 := BitVec.ofNat 96 ((2 ^ n - 1) * 2 ^ lo)
  (w &&& ~~~m) ||| (BitVec.ofNat 96 (v % 2 ^ n * 2 ^ lo))

/-- The instruction word with a relocation's field patched: MOD and B[15:0] for a long immediate, the low 17 bits of
B for a short one. -/
def patchWord (kind : Nat) (v : Word) (w : BitVec 96) : BitVec 96 :=
  if kind = relImm17 ∨ kind = relPc17 then setField w 0 17 v.toNat
  else setField (setField w 0 16 v.toNat) 60 16 (v.toNat / 2 ^ 16)

/-- Bytes from a place on, replaced. -/
def splice (bs : List Byte) (off : Nat) (new : List Byte) : List Byte :=
  bs.take off ++ new ++ bs.drop (off + new.length)

/-- A section's contents with one relocation applied. -/
def patch (bs : List Byte) (off kind : Nat) (v : Word) : Option (List Byte) :=
  let n := if kind = relAbs64 then 8 else if kind = relAbs32 then 4 else 12
  if bs.length < off + n then none
  else if kind = relAbs64 then some (splice bs off (leBytes 8 v.toNat))
  else if kind = relAbs32 then some (splice bs off (leBytes 4 v.toNat))
  else some (splice bs off (bytesOfWord (patchWord kind v (wordOfBytes (bs.drop off)))))

/-! ## Linking (R260, R261) -/

/-- An object with the places of its launch records, which KOF has no table for (assumption log 91): section and
offset of each. -/
structure Input where
  obj : Obj
  launches : List (Nat × Nat) := []
  deriving DecidableEq, Repr

/-- The next multiple. -/
def alignUp (a n : Nat) : Nat := (a + n - 1) / n * n

/-- The sections of one kind, objects in their order and sections in table order: object, section, entry. -/
def ofKind (ins : List Input) (kind : Nat) : List (Nat × Nat × Sec) :=
  ins.zipIdx.flatMap fun x =>
    (x.1.obj.secs.zipIdx.filter fun y => y.1.kind == kind).map fun y => (x.2, y.2, y.1)

/-- Sections laid out one after another, each at the next multiple of its own alignment; the end of the last. -/
def layOut : Nat → List (Nat × Nat × Sec) → List (Nat × Nat × Nat) × Nat
  | p, [] => ([], p)
  | p, (o, i, s) :: r =>
    let a := alignUp p (2 ^ s.alog2)
    let (l, e) := layOut (a + s.bytes.length) r
    ((o, i, a) :: l, e)

/-- Addresses of the text, rodata and data sections: each kind at the next multiple of 128 and of its largest
input alignment. -/
def addresses (ins : List Input) (base : Nat) : List (Nat × Nat × Nat) :=
  ([kText, kRodata, kData].foldl (init := (([] : List (Nat × Nat × Nat)), base)) fun (acc : List (Nat × Nat × Nat) × Nat) k =>
    let ss := ofKind ins k
    if ss.isEmpty then acc
    else
      let al := ss.foldl (fun m x => max m (2 ^ x.2.2.alog2)) 128
      let (l, e) := layOut (alignUp acc.2 al) ss
      (acc.1 ++ l, e)).1

/-- Offset of an object's kinfo sections in the one kinfo section of the image. -/
def kinfoOff (ins : List Input) (o i : Nat) : Nat :=
  ((ofKind ins kKinfo).takeWhile fun x => !(x.1 == o && x.2.1 == i)).foldl (fun n x => n + x.2.2.bytes.length) 0

def addrOf (ads : List (Nat × Nat × Nat)) (o i : Nat) : Option Nat :=
  (ads.find? fun x => x.1 == o && x.2.1 == i).map (·.2.2)

/-- The global symbols: name, object, symbol. -/
def globals (ins : List Input) : List (List Byte × Nat × Sym) :=
  ins.zipIdx.flatMap fun x => (x.1.obj.syms.filter (·.bind == 1)).map fun y => (x.1.obj.str y.name, x.2, y)

/-- The final address of a defined symbol. -/
def symAddr (ins : List Input) (ads : List (Nat × Nat × Nat)) (o : Nat) (y : Sym) : Option Nat :=
  if y.sect = 0xFFFF then some y.value
  else
    match (ins[o]?).bind (·.obj.secs[y.sect]?) with
    | some c =>
      if c.kind = kLocal ∨ c.kind = kKinfo then some y.value else (addrOf ads o y.sect).map (· + y.value)
    | none => none

/-- The final address of symbol i of an object; an extern one is another object's global. -/
def finalAddr (ins : List Input) (ads : List (Nat × Nat × Nat)) (o i : Nat) : Option Nat := do
  let x ← ins[o]?
  let y ← x.obj.syms[i]?
  if y.bind = 2 then
    let (_, p, z) ← (globals ins).find? (·.1 == x.obj.str y.name)
    symAddr ins ads p z
  else if y.sect = 0 then none
  else symAddr ins ads o y

/-- A section's contents with the relocations of its object applied. -/
def relocated (ins : List Input) (ads : List (Nat × Nat × Nat)) (o i : Nat) (s : Sec) : Option (List Byte) := do
  let x ← ins[o]?
  (x.obj.rels.filter (·.sect == i)).foldlM (init := s.bytes) fun bs r => do
    let a ← finalAddr ins ads o r.sym
    let p := (addrOf ads o i).getD 0 + r.off
    let v ← relValue r.kind (BitVec.ofNat 64 a) r.add (BitVec.ofNat 64 p)
    patch bs r.off r.kind v

/-- A kinfo entry: entry VA and declared banks (Table 12-4). -/
def kinfos (bs : List Byte) : List (Nat × Nat) :=
  (List.range (bs.length / 32)).map fun i => (field bs (32 * i) 8, field bs (32 * i + 12) 4 % 16)

/-- Kinfo entries with their name offsets moved to the image's string table. -/
def moveNames (d : Nat) (bs : List Byte) : List Byte :=
  (List.range (bs.length / 32)).foldl (fun b i => splice b (32 * i + 16) (leBytes 4 (field b (32 * i + 16) 4 + d))) bs

/-- First string, symbol and section of an object in the image's tables. -/
def strBase (ins : List Input) (o : Nat) : Nat := ((ins.take o).map (·.obj.strs.length)).sum
def keptSyms (k : Obj) : List (Sym × Nat) := k.syms.zipIdx.filter fun x => x.2 != 0 && x.1.bind != 2
def symBase (ins : List Input) (o : Nat) : Nat := 1 + ((ins.take o).map fun x => (keptSyms x.obj).length).sum
/-- Index of a symbol of an object in the image. -/
def newSym (ins : List Input) (o i : Nat) : Nat :=
  match ins[o]? with
  | some x => symBase ins o + ((keptSyms x.obj).takeWhile (·.2 != i)).length
  | none => 0

/-- The sections of the image in their order: text, rodata, data, local, and one of kinfo. -/
def outOrder (ins : List Input) : List (Nat × Nat × Sec) :=
  [kText, kRodata, kData, kLocal].flatMap (ofKind ins)
def newSec (ins : List Input) (o i : Nat) : Nat :=
  let l := outOrder ins
  let n := (l.takeWhile fun x => !(x.1 == o && x.2.1 == i)).length
  n + 1

/-- kld: the linked image, or none where it refuses the link (R260, R261). -/
def link (base : Nat) (ins : List Input) : Option Obj := do
  let ads := addresses ins base
  let gs := globals ins
  -- an image base is 2 MiB-aligned and in the heap; no input is an image
  if base % 2 ^ 21 ≠ 0 ∨ 2 ^ 55 ≤ base ∨ ins.any (·.obj.linked) then none
  -- a global symbol is defined once, and every extern one somewhere
  else if ¬ (gs.map (·.1)).Nodup then none
  else if ins.any fun x => x.obj.syms.any fun y => y.bind == 2 && !(gs.any (·.1 == x.obj.str y.name)) then none
  else
    let out ← (outOrder ins).mapM fun (o, i, s) => do
      let bs ← if s.kind = kLocal then some [] else relocated ins ads o i s
      some { s with name := s.name + strBase ins o, addr := (addrOf ads o i).getD 0, bytes := bs,
                    kern := if s.kind = kLocal then newSym ins o s.kern else s.kern }
    let ki ← (ofKind ins kKinfo).mapM fun (o, i, s) => (relocated ins ads o i s).map (moveNames (strBase ins o))
    let kb := ki.flatten
    let names := (ofKind ins kKinfo).head?.map fun x => x.2.2.name + strBase ins x.1
    let syms := ins.zipIdx.flatMap fun x =>
      (keptSyms x.1.obj).map fun y =>
        match x.1.obj.secs[y.1.sect]? with
        | some c =>
          if c.kind = 0 then { y.1 with name := y.1.name + strBase ins x.2 }
          else if c.kind = kKinfo then
            { y.1 with name := y.1.name + strBase ins x.2, sect := (outOrder ins).length + 1,
                       value := y.1.value + kinfoOff ins x.2 y.1.sect }
          else { y.1 with name := y.1.name + strBase ins x.2, sect := newSec ins x.2 y.1.sect }
        | none => { y.1 with name := y.1.name + strBase ins x.2 }
    -- a launch record of a kernel carries at least the kernel's declared banks
    let short := ins.zipIdx.any fun x => x.1.launches.any fun l =>
      match out[newSec ins x.2 l.1 - 1]? with
      | some s =>
        (kinfos kb).any fun k => k.1 == field s.bytes l.2 8 && decide (field s.bytes (l.2 + 8) 8 / 2 ^ 12 % 16 < k.2)
      | none => false
    if short then none
    else
      some { linked := true, base,
             secs := {} :: out ++ (match names with
               | some n => [{ name := n, kind := kKinfo, size := kb.length, kern := 0xFFFFFFFF, bytes := kb }]
               | none => []),
             syms := {} :: syms, rels := [], strs := (ins.map (·.obj.strs)).flatten }

/-! ## The image of a job (R43, R260) -/

/-- The code image: the text and rodata part, from its first address to its last. -/
def Obj.codeRange (k : Obj) : Nat × Nat :=
  let ss := k.secs.filter fun s => s.kind == kText || s.kind == kRodata
  match ss.map (·.addr) with
  | [] => (k.base, 0)
  | a :: r =>
    let lo := r.foldl min a
    (lo, ss.foldl (fun m s => max m (s.addr + s.bytes.length)) lo - lo)

/-- System software puts an image into memory before a job starts: the bytes of its text, rodata and data at their
addresses, by the job's heap table; none where a page is not mapped. -/
def Obj.load (k : Obj) (hptb : Nat) (s : State) : Option State :=
  (k.secs.filter fun c => c.kind == kText || c.kind == kRodata || c.kind == kData).foldlM (init := s) fun s c =>
    (c.bytes.zipIdx).foldlM (init := s) fun t x =>
      match t.walkHeap hptb (c.addr + x.2) with
      | .ok pa => some (t.setByte pa x.1)
      | .error _ => none

end Sys2Proof.Kof
end

