-- ==== Sys2Proof/Machine/Asm.lean ====
section
/-!
DEFINITION. kas (R243 to R255): sections and locations, the data and record directives, kernels and symbols, and
the KOF object of a source text. Passes over the lines settle the symbols; the last one, in which every line must
be free of errors, emits.
-/
namespace Sys2Proof.Kas
open Sys2Proof.Machine

/-! ## The state of a pass -/

structure ASec where
  name  : String
  kind  : Nat
  /-- largest alignment used, as a power of two -/
  alog2 : Nat := 0
  bytes : List Byte := []
  /-- kernel of a local section -/
  kern  : Option Nat := none
  deriving DecidableEq, Repr

structure AKern where
  name  : String
  ctx   : Nat
  banks : Nat
  bars  : Nat
  slots : Nat
  /-- bytes from .kernel to .endk, where both stand in one section -/
  size  : Nat := 0
  /-- section and offset at .kernel -/
  start : Nat × Nat := (0, 0)
  /-- section and offset of its first instruction -/
  entry : Option (Nat × Nat) := none
  deriving DecidableEq, Repr

structure ARel where
  sec  : Nat
  off  : Nat
  kind : Nat
  val  : Val
  deriving DecidableEq, Repr

structure ASt where
  /-- errors count: the last pass -/
  strict  : Bool
  /-- symbols of the pass before -/
  look    : Env
  secs    : List ASec := []
  cur     : Option Nat := none
  env     : Env := []
  kerns   : List AKern := []
  kopen   : Option Nat := none
  globals : List String := []
  externs : List String := []
  /-- labels waiting for the next byte (R252) -/
  pend    : List String := []
  rels    : List ARel := []
  /-- launch records: section and offset, newest first -/
  launches : List (Nat × Nat) := []
  deriving DecidableEq, Repr

/-! ## Symbols (R243, R255) -/

/-- Names that cannot be identifiers: registers, special ones too, handles and mnemonics. -/
def reserved (s : String) : Bool :=
  (regName s).isSome || (lookup sregNames (low s)).isSome || isMnemonic s || s == "."

def ASt.define (a : ASt) (s : String) (v : Val) : Option ASt :=
  if reserved s || (a.env.get s).isSome || a.externs.contains s then none else some { a with env := (s, v) :: a.env }

def ASt.sec? (a : ASt) : Option (Nat × ASec) := do
  let i ← a.cur
  let s ← a.secs[i]?
  some (i, s)

/-- An offset of a section as a value; a local section's symbols are absolute (R249). -/
def here (i : Nat) (s : ASec) (off : Nat) : Val :=
  if s.kind = Kof.kLocal then .abs (BitVec.ofNat 64 off) else .rel (.sec (i + 1)) none (BitVec.ofNat 64 off) 0

/-- The waiting labels name a location. -/
def ASt.bind (a : ASt) (v : Val) : Option ASt :=
  a.pend.foldrM (init := { a with pend := [] }) fun s a => a.define s v

def ASt.bindHere (a : ASt) : Option ASt :=
  match a.sec? with
  | some (i, s) => a.bind (here i s s.bytes.length)
  | none => if a.pend.isEmpty then some a else none

def ASt.modSec (a : ASt) (i : Nat) (f : ASec → ASec) : ASt :=
  { a with secs := a.secs.modify i f }

/-- Bytes at the location; labels waiting for them name it. -/
def ASt.emit (a : ASt) (bs : List Byte) : Option ASt := do
  let (i, _) ← a.sec?
  if bs.isEmpty then some a
  else
    let a ← a.bindHere
    some (a.modSec i fun s => { s with bytes := s.bytes ++ bs })

/-- The value of an expression; before the last pass a symbol may still be unknown. -/
def ASt.val (a : ASt) (e : Expr) : Option Val :=
  let loc := match a.sec? with
    | some (i, s) => here i s s.bytes.length
    | none => .abs 0
  match e.eval a.look loc with
  | some v => some v
  | none => if a.strict then none else some (.abs 0)

def ASt.abs (a : ASt) (e : Expr) : Option Word :=
  match a.val e with
  | some (.abs v) => some v
  | _ => if a.strict then none else some 0

/-- A check that only the last pass makes. -/
def ASt.ok (a : ASt) (b : Bool) : Option Unit := if b || !a.strict then some () else none

/-! ## Arguments of directives -/

/-- Arguments between commas outside parentheses. -/
def commas : (depth : Nat) → List Tok → List (List Tok)
  | _, [] => [[]]
  | 0, .sym ',' :: r => [] :: commas 0 r
  | d, t :: r =>
    let d' := match t with
      | .sym '(' => d + 1
      | .sym ')' => d - 1
      | _ => d
    match commas d' r with
    | l :: ls => (t :: l) :: ls
    | [] => [[t]]

/-- A whole expression. -/
def exprOf (ts : List Tok) : Option Expr := do
  let (e, r) ← expr ts
  if r.isEmpty then some e else none

def exprsOf (ts : List Tok) : Option (List Expr) := (commas 0 ts).mapM exprOf

/-- A key and its value. -/
def keyed : List Tok → Option (String × List Tok)
  | .id k :: .sym '=' :: r => some (k, r)
  | _ => none

/-! ## Sections (R248, R249, R251) -/

/-- Another section opens or resumes; a predefined one keeps its kind (R248). Labels still waiting name the end of the one left. -/
def ASt.open (a : ASt) (name : String) (kind : Nat) (kern : Option Nat) : Option ASt := do
  let a ← a.bindHere
  let own := lookup [(".text", Kof.kText), (".rodata", Kof.kRodata), (".data", Kof.kData)] name
  if own.isSome ∧ own ≠ some kind then none else
  match a.secs.findIdx? fun s => s.name == name && s.kern == kern with
  | some i =>
    if (a.secs[i]?).map (·.kind) = some kind then some { a with cur := some i } else none
  | none => some { a with secs := a.secs ++ [{ name, kind, kern }], cur := some a.secs.length }

def isPow2 (n : Nat) : Bool := n == 2 ^ n.log2

/-- The padding instruction (Example 11-3). -/
def padding : List Byte := bytesOfWord (packWord 0x0C0 ⟨true, 7, 0, false, 0⟩ 0 (.x 0) (.x 0) (.x 0))

/-- Padding instructions to a multiple of n: the first of three multiples a whole number of them reaches. -/
def padCount (loc n : Nat) : Nat :=
  let m := Kof.alignUp loc n
  match [m, m + n, m + 2 * n].find? fun x => (x - loc) % 12 == 0 with
  | some x => (x - loc) / 12
  | none => 0

def ASt.align (a : ASt) (n : Nat) : Option ASt := do
  let (i, s) ← a.sec?
  if !isPow2 n || 2 ^ 21 < n || (s.kind = Kof.kText && n < 4) then (if a.strict then none else some a)
  else
    let a ← a.bindHere
    let loc := s.bytes.length
    let pad := if s.kind = Kof.kText then (List.replicate (padCount loc n) padding).flatten
      else List.replicate (Kof.alignUp loc n - loc) 0
    some (a.modSec i fun s => { s with bytes := s.bytes ++ pad, alog2 := max s.alog2 n.log2 })

/-- A record's own alignment: labels that wait name the record's first byte after it (R252). -/
def ASt.recAlign (a : ASt) (n : Nat) : Option ASt := do
  let (i, s) ← a.sec?
  let loc := s.bytes.length
  let a := a.modSec i fun s =>
    { s with bytes := s.bytes ++ List.replicate (Kof.alignUp loc n - loc) 0, alog2 := max s.alog2 n.log2 }
  a.bindHere

/-- Whether the current section takes data and records. -/
def ASt.isData (a : ASt) : Bool :=
  match a.sec? with
  | some (_, s) => s.kind == Kof.kRodata || s.kind == Kof.kData
  | none => false

/-! ## Data (R250) -/

/-- One value of n bytes; a relocatable one of 4 or 8 bytes leaves a relocation. -/
def ASt.datum (a : ASt) (n : Nat) (lo hi : Int) (v : Val) : Option ASt := do
  let (i, s) ← a.sec?
  match v with
  | .abs v => do
    a.ok (n == 8 || Kof.inRange lo hi v)
    a.emit (leBytes n v.toNat)
  | v => do
    a.ok (n == 8 || n == 4)
    let a' ← a.emit (leBytes n 0)
    some { a' with rels := ⟨i, s.bytes.length, if n = 8 then Kof.relAbs64 else Kof.relAbs32, v⟩ :: a'.rels }

def sizes : List (Nat × Int × Int) :=
  [(1, -128, 255), (2, -32768, 65535), (4, -(2 ^ 31 : Nat), (2 ^ 32 : Nat) - 1), (8, 0, 0)]

def ASt.data (a : ASt) (n : Nat) (ts : List Tok) : Option ASt := do
  let (_, lo, hi) ← sizes.find? (·.1 == n)
  if !a.isData then none
  else (← exprsOf ts).foldlM (init := a) fun a e => do a.datum n lo hi (← a.val e)

/-- .fill n, z, e: copies of one value; a local section takes only zeros (R249). -/
def ASt.fill (a : ASt) (ts : List Tok) : Option ASt := do
  let (_, s) ← a.sec?
  let (n, z, e) ← match ← exprsOf ts with
    | [n, z] => some (n, z, Expr.num 0)
    | [n, z, e] => some (n, z, e)
    | _ => none
  let n ← a.abs n
  let z ← a.abs z
  a.ok (decide (0 ≤ n.toInt))
  match sizes.find? fun x => x.1 == z.toNat with
  | none => if a.strict then none else some a
  | some (z, lo, hi) =>
    let n := if n.toInt < 0 then 0 else n.toNat
    if s.kind = Kof.kLocal then do
      a.ok ((← a.abs e) == 0)
      a.emit (List.replicate (n * z) 0)
    else if !a.isData then none
    else
      match ← a.val e with
      | .abs v => do
        a.ok (z == 8 || Kof.inRange lo hi v)
        a.emit (List.replicate n (leBytes z v.toNat)).flatten
      | v => (List.range n).foldlM (init := a) fun a _ => a.datum z lo hi v

/-! ## Records (R252, Tables 09-1, 06-1, 17-4, 09-2 and 02-7) -/

/-- A field of a record map: key, byte offset of its 64-bit word, bits, whether it is signed, and the spellings of
a selector. -/
structure RField where
  key    : String
  off    : Nat
  hi     : Nat
  lo     : Nat
  signed : Bool := false
  names  : List (String × Nat) := []
  deriving DecidableEq, Repr

def launchMap : List RField :=
  [⟨"entry", 0, 63, 0, false, []⟩, ⟨"prio", 8, 1, 0, false, []⟩, ⟨"gang", 8, 2, 2, false, []⟩,
   ⟨"early", 8, 3, 3, false, []⟩, ⟨"drain", 8, 4, 4, false, []⟩,
   ⟨"fpol", 8, 6, 5, false, codes ["end", "node", "graph"]⟩,
   ⟨"order", 8, 9, 7, false, codes ["row", "col", "morton", "band"]⟩, ⟨"dm1", 8, 11, 10, false, []⟩,
   ⟨"banks", 8, 15, 12, false, []⟩, ⟨"bandh", 8, 23, 16, false, []⟩, ⟨"smin", 8, 31, 24, false, []⟩,
   ⟨"grain", 8, 47, 32, false, []⟩, ⟨"e0", 16, 31, 0, false, []⟩, ⟨"e1", 16, 63, 32, false, []⟩,
   ⟨"e2", 24, 31, 0, false, []⟩, ⟨"e3", 24, 63, 32, false, []⟩, ⟨"t0", 32, 15, 0, false, []⟩,
   ⟨"t1", 32, 31, 16, false, []⟩, ⟨"t2", 32, 47, 32, false, []⟩, ⟨"t3", 32, 63, 48, false, []⟩,
   ⟨"pm0", 40, 63, 0, false, []⟩, ⟨"pm1", 48, 63, 0, false, []⟩, ⟨"pm2", 56, 63, 0, false, []⟩,
   ⟨"fpt", 64, 63, 0, false, []⟩, ⟨"fpn", 72, 8, 0, false, []⟩, ⟨"param", 88, 63, 0, false, []⟩,
   ⟨"parent", 96, 31, 0, false, []⟩, ⟨"graph", 96, 63, 32, false, []⟩, ⟨"ncore", 104, 12, 0, false, []⟩,
   ⟨"nbar", 104, 20, 16, false, []⟩, ⟨"nen", 104, 31, 31, false, []⟩]

/-- Counts and strides of a pattern, at the same places in stream and shape records. -/
def patternMap : List RField :=
  [⟨"c0", 16, 31, 0, false, []⟩, ⟨"c1", 16, 63, 32, false, []⟩, ⟨"c2", 24, 31, 0, false, []⟩,
   ⟨"c3", 24, 63, 32, false, []⟩, ⟨"s0", 32, 31, 0, true, []⟩, ⟨"s1", 32, 63, 32, true, []⟩,
   ⟨"s2", 40, 31, 0, true, []⟩, ⟨"s3", 40, 63, 32, true, []⟩]

def streamMap : List RField :=
  [⟨"base", 0, 63, 0, false, []⟩, ⟨"elt", 8, 3, 0, false, eszNames⟩,
   ⟨"kind", 8, 6, 4, false, codes ["load", "store", "reduce", "ringload", "ringstore", "indirect"]⟩,
   ⟨"op", 8, 10, 8, false, codes ["none", "sum", "max", "min", "count", "scaleadd", "convert"]⟩,
   ⟨"flt", 8, 12, 11, false, codes ["auto", "never", "near"]⟩, ⟨"evp", 8, 15, 13, false, []⟩,
   ⟨"ndm1", 8, 17, 16, false, []⟩, ⟨"outt", 8, 21, 18, false, eszNames⟩, ⟨"rm", 8, 23, 22, false, rmNames⟩,
   ⟨"qr", 8, 27, 24, false, []⟩, ⟨"qf", 8, 31, 28, false, []⟩, ⟨"isrc", 8, 35, 32, false, []⟩,
   ⟨"opnd", 48, 63, 0, false, []⟩, ⟨"rbase", 56, 19, 0, false, []⟩, ⟨"nsm1", 56, 22, 20, false, []⟩,
   ⟨"rmode", 56, 23, 23, false, []⟩, ⟨"pm1", 56, 26, 24, false, []⟩, ⟨"slotu", 56, 43, 32, false, []⟩]
  ++ patternMap

def shapeMap : List RField :=
  [⟨"base", 0, 63, 0, false, []⟩, ⟨"elt", 8, 3, 0, false, eszNames⟩, ⟨"ndm1", 8, 5, 4, false, []⟩,
   ⟨"qf", 8, 6, 6, false, []⟩, ⟨"qz", 8, 7, 7, false, []⟩, ⟨"qpm1", 8, 10, 8, false, []⟩, ⟨"qpl", 8, 11, 11, false, []⟩,
   ⟨"qlay", 8, 12, 12, false, codes ["line", "dense"]⟩, ⟨"evp", 8, 15, 13, false, []⟩, ⟨"scb", 48, 63, 0, false, []⟩]
  ++ patternMap

def footMap : List RField :=
  [⟨"b", 0, 63, 0, false, []⟩, ⟨"l", 8, 47, 0, false, []⟩, ⟨"acc", 8, 49, 48, false, [("r", 1), ("w", 2), ("rw", 3)]⟩,
   ⟨"cls", 8, 51, 50, false, codes ["data", "warm", "edge"]⟩]

def regionMap : List RField :=
  [⟨"b", 0, 63, 0, false, []⟩, ⟨"l", 8, 63, 0, false, []⟩,
   ⟨"st", 16, 1, 0, false, [("ro", 1), ("priv", 2), ("shrw", 3)]⟩, ⟨"v", 24, 63, 0, false, []⟩]

/-- A selector's spelling, with or without the dot of a field value. -/
def selector (f : RField) : List Tok → Option Nat
  | [.id s] => lookup f.names (String.ofList ((low s).toList.dropWhile (· == '.')))
  | _ => none

/-- Whether a value fits its field. -/
def RField.fits (f : RField) (v : Word) : Bool :=
  let w := f.hi + 1 - f.lo
  if w = 64 then true
  else if f.signed then Kof.inRange (-(2 ^ (w - 1) : Nat)) ((2 ^ (w - 1) : Nat) - 1) v else decide (v.toNat < 2 ^ w)

/-- A record under construction: as a number, and the relocations it leaves, each an offset, a kind and a value. -/
abbrev Rcd := Nat × List (Nat × Nat × Val)

/-- One field into a record; an unfixed symbol in a field of 64 or 32 bits leaves a relocation (R245, R259). -/
def ASt.recField (a : ASt) (f : RField) (ts : List Tok) (r : Rcd) : Option Rcd := do
  match selector f ts with
  | some c => some (r.1 + c * 2 ^ (8 * f.off + f.lo), r.2)
  | none =>
    match ← a.val (← exprOf ts) with
    | .abs v => do
      a.ok (f.fits v)
      some (r.1 + v.toNat % 2 ^ (f.hi + 1 - f.lo) * 2 ^ (8 * f.off + f.lo), r.2)
    | v => do
      let w := f.hi + 1 - f.lo
      a.ok (w == 64 || (w == 32 && f.lo % 32 == 0))
      some (r.1, (f.off + f.lo / 8, if w = 64 then Kof.relAbs64 else Kof.relAbs32, v) :: r.2)

/-- A record at its alignment. -/
def ASt.putRec (a : ASt) (size : Nat) (r : Rcd) : Option ASt := do
  let (i, s) ← a.sec?
  let off := s.bytes.length
  let a ← a.emit (leBytes size r.1)
  some { a with rels := (r.2.map fun x => ⟨i, off + x.1, x.2.1, x.2.2⟩) ++ a.rels }

/-- A record of keyed fields, each written at most once. -/
def ASt.keyedRec (a : ASt) (m : List RField) (size al : Nat) (ts : List Tok) : Option ASt := do
  if !a.isData then none
  else
    let a ← a.recAlign al
    let ks ← if ts.isEmpty then some [] else (commas 0 ts).mapM keyed
    if ¬ (ks.map (·.1)).Nodup then none
    else
      let r ← ks.foldlM (init := ((0, []) : Rcd)) fun r k => do
        let f ← m.find? (·.key == k.1)
        a.recField f k.2 r
      a.putRec size r

/-- A record of fields in their order. -/
def ASt.posRec (a : ASt) (fs : List (RField × List Tok)) (size al extra : Nat) : Option ASt := do
  if !a.isData then none
  else
    let a ← a.recAlign al
    let r ← fs.foldlM (init := ((extra, []) : Rcd)) fun r f => a.recField f.1 f.2 r
    a.putRec size r

def ASt.foot (a : ASt) (ts : List Tok) : Option ASt :=
  let as := commas 0 ts
  if as.length = 3 ∨ as.length = 4 then a.posRec (footMap.zip as) 16 16 0 else none

/-- .region b, l, st and what its state takes. -/
def ASt.region (a : ASt) (ts : List Tok) : Option ASt := do
  match commas 0 ts with
  | b :: l :: st :: r =>
    let fs := regionMap.zip [b, l, st]
    match ← selector ⟨"st", 16, 1, 0, false, [("ro", 1), ("priv", 2), ("shrw", 3)]⟩ st, r with
    | 1, [] => a.posRec fs 64 64 0
    | 2, k :: ks => do
      let m ← (k :: ks).foldlM (init := 0) fun m t => do
        let c ← a.abs (← exprOf t)
        a.ok (decide (c.toNat < 192))
        some (m ||| 2 ^ (256 + c.toNat % 192))
      a.posRec fs 64 64 m
    | 3, [v] => a.posRec (regionMap.zip [b, l, st, v]) 64 64 0
    | _, _ => none
  | _ => none

/-- .arena i, pages: ASZ of the most recent launch record of the section. -/
def ASt.arena (a : ASt) (ts : List Tok) : Option ASt := do
  let (i, _) ← a.sec?
  let (_, off) ← a.launches.find? (·.1 == i)
  match ← exprsOf ts with
  | [k, n] => do
    let k ← a.abs k
    let n ← a.abs n
    a.ok (decide (k.toNat < 4) && decide (n.toNat < 2 ^ 16))
    some (a.modSec i fun s => { s with bytes := Kof.splice s.bytes (off + 80 + 2 * (k.toNat % 4)) (leBytes 2 n.toNat) })
  | _ => none

/-! ## Planed blocks (R253) -/

/-- Items of .plane, with dup(n, e) written out. -/
def ASt.planeItems (a : ASt) : List (List Tok) → Option (List Int)
  | [] => some []
  | t :: r => do
    let rest ← a.planeItems r
    match t with
    | .id d :: .sym '(' :: body =>
      if low d = "dup" ∧ body.getLast? = some (.sym ')') then
        match ← exprsOf body.dropLast with
        | [n, e] => do
          let n := (← a.abs n).toInt
          a.ok (decide (0 ≤ n))
          some (List.replicate n.toNat (← a.abs e).toInt ++ rest)
        | _ => none
      else none
    | _ => do some ((← a.abs (← exprOf t)).toInt :: rest)

/-- The integer element of an item: v = elt × 2^(s − 127). -/
def planeElt (s : Nat) (v : Int) : Option Int :=
  if s < 127 then some (v * (2 ^ (127 - s) : Nat))
  else if v % (2 ^ (s - 127) : Nat) = 0 then some (v / (2 ^ (s - 127) : Nat)) else none

/-- The planes of a block of 32 elements: bit e of word j is bit j of element e (R212). -/
def planes (p : Nat) (es : List Int) : List Byte :=
  (List.range p).flatMap fun j =>
    leBytes 4 ((es.zipIdx.map fun (x : Int × Nat) => (x.1 % ((2 ^ p : Nat) : Int)).toNat / 2 ^ j % 2 * 2 ^ x.2).sum)

/-- Groups of 32. -/
def groups : (fuel : Nat) → List Int → List (List Int)
  | 0, _ => []
  | _, [] => []
  | f + 1, l => l.take 32 :: groups f (l.drop 32)

/-- The line .plane. DESIGN CHOICE (assumption log 124): one without items, as dup(0, e) alone leaves it, is an error. -/
def ASt.plane (a : ASt) (ts : List Tok) : Option ASt := do
  if !a.isData then none
  else
    match commas 0 ts with
    | [.id fmt] :: s :: its => do
      let f ← match (low fmt).toList with
        | '.' :: r => lookup blkNames (String.ofList r)
        | _ => none
      let p := f % 8 + 1
      let s ← a.abs (← exprOf s)
      a.ok (decide (s.toNat ≤ 254))
      let vs ← a.planeItems its
      a.ok (!vs.isEmpty && vs.length % 32 == 0)
      let es := vs.map (planeElt (s.toNat % 255))
      let inFmt (e : Option Int) : Bool :=
        match e with
        | some v =>
          if f < 8 then decide (-(2 ^ (p - 1) : Nat) ≤ v) && decide (v < (2 ^ (p - 1) : Nat))
          else decide (0 ≤ v) && decide (v < (2 ^ p : Nat))
        | none => false
      a.ok (es.all inFmt)
      a.emit ((groups vs.length (es.map (·.getD 0))).flatMap (planes p))
    | _ => none

/-! ## Kernels (R254) -/

/-- A declared number of a kernel. -/
def ASt.decl (a : ASt) (ks : List (String × List Tok)) (k : String) (lo hi : Nat) : Option Nat := do
  let (_, ts) ← ks.find? (·.1 == k)
  let v ← a.abs (← exprOf ts)
  a.ok (decide (lo ≤ v.toNat) && decide (v.toNat ≤ hi))
  some v.toNat

def ASt.kernel (a : ASt) (ts : List Tok) : Option ASt := do
  let (i, s) ← a.sec?
  if s.kind ≠ Kof.kText ∨ a.kopen.isSome then none
  else
    match commas 0 ts with
    | [.id n] :: ks => do
      let ks ← ks.mapM keyed
      if ks.length ≠ 4 ∨ reserved n then none
      else
        let k : AKern := { name := n, ctx := ← a.decl ks "contexts" 1 4, banks := ← a.decl ks "banks" 0 12,
                           bars := ← a.decl ks "barriers" 0 32, slots := ← a.decl ks "streams" 0 16,
                           start := (i, s.bytes.length) }
        some { a with kerns := a.kerns ++ [k], kopen := some a.kerns.length }
    | _ => none

/-- Extent of a kernel's local section. -/
def ASt.localSize (a : ASt) (k : Nat) : Nat :=
  ((a.secs.find? (·.kern == some k)).map (·.bytes.length)).getD 0

def ASt.endk (a : ASt) : Option ASt := do
  let i ← a.kopen
  let k ← a.kerns[i]?
  let (j, s) ← a.sec?
  if s.kind ≠ Kof.kText ∨ k.entry.isNone then none
  else do
    a.ok (decide (a.localSize i ≤ k.banks * 32768))
    let size := if k.start.1 = j then s.bytes.length - k.start.2 else 0
    some { a with kopen := none, kerns := a.kerns.modify i fun x => { x with size } }

/-- Slot and barrier operands of a kernel's instructions stay below what it declares. -/
def kernOk (k : AKern) (w : BitVec 96) : Bool :=
  let r := Raw.ofWord w
  [r.d, r.a, r.b].all fun f =>
    match decOpd r.mod f with
    | some (.slot n) => decide (n.val < k.slots)
    | some (.bar n) => decide (n.val < k.bars)
    | _ => true

/-! ## Instruction lines -/

def Fix.kind : Fix → Nat
  | .imm32 => Kof.relImm32 | .hi32 => Kof.relHi32 | .imm17 => Kof.relImm17 | .pc17 => Kof.relPc17 | .pc32 => Kof.relPc32

def ASt.instr (a : ASt) (g : Option Guard) (head : String) (rest : List Tok) : Option ASt := do
  let (i, s) ← a.sec?
  if s.kind ≠ Kof.kText then none
  else
    let off := s.bytes.length
    let pc := here i s off
    let w ← match asmLine g a.look pc head rest with
      | some w => some w
      | none => if a.strict then none else some ⟨0, none⟩
    let a ← match a.kopen with
      | none => some a
      | some k => do
        let kn ← a.kerns[k]?
        a.ok (kernOk kn w.word)
        if kn.entry.isNone then
          ({ a with kerns := a.kerns.modify k fun x => { x with entry := some (i, off) } } : ASt).define kn.name pc
        else some a
    let a ← a.emit (bytesOfWord w.word)
    match w.rel with
    | some (f, v) => some { a with rels := ⟨i, off, f.kind, v⟩ :: a.rels }
    | none => some a

/-! ## Directives and lines -/

/-- .equ: a symbol of known value, defined once; before the last pass it may have none yet, so that one that needs
itself never gets one (R255). -/
def ASt.equ (a : ASt) (n : String) (e : Expr) : Option ASt :=
  let loc := match a.sec? with
    | some (i, s) => here i s s.bytes.length
    | none => .abs 0
  match e.eval a.look loc with
  | some v => a.define n v
  | none => if a.strict then none else some a

def kindOf (s : String) : Option Nat := lookup [("text", Kof.kText), ("rodata", Kof.kRodata), ("data", Kof.kData)] (low s)

def names (ts : List Tok) : Option (List String) :=
  (commas 0 ts).mapM fun t => match t with
    | [.id s] => some s
    | _ => none

def ASt.directive (a : ASt) (d : String) (ts : List Tok) : Option ASt :=
  if d = ".text" ∧ ts = [] then a.open ".text" Kof.kText none
  else if d = ".rodata" ∧ ts = [] then a.open ".rodata" Kof.kRodata none
  else if d = ".data" ∧ ts = [] then a.open ".data" Kof.kData none
  else if d = ".section" then
    match commas 0 ts with
    | [[.id n], [.id k]] => (kindOf k).bind fun k => a.open n k none
    | _ => none
  else if d = ".local" ∧ ts = [] then a.kopen.bind fun k => a.open ".local" Kof.kLocal (some k)
  else if d = ".byte" then a.data 1 ts
  else if d = ".half" then a.data 2 ts
  else if d = ".word" then a.data 4 ts
  else if d = ".dword" then a.data 8 ts
  else if d = ".fill" then a.fill ts
  else if d = ".align" then (exprOf ts).bind fun e => (a.abs e).bind fun n => a.align n.toNat
  else if d = ".launch" then do
    let a ← a.keyedRec launchMap 128 8 ts
    let (i, s) ← a.sec?
    some { a with launches := (i, s.bytes.length - 128) :: a.launches }
  else if d = ".stream" then a.keyedRec streamMap 64 64 ts
  else if d = ".shape" then a.keyedRec shapeMap 64 64 ts
  else if d = ".foot" then a.foot ts
  else if d = ".region" then a.region ts
  else if d = ".arena" then a.arena ts
  else if d = ".plane" then a.plane ts
  else if d = ".kernel" then a.kernel ts
  else if d = ".endk" ∧ ts = [] then a.endk
  else if d = ".equ" then
    match commas 0 ts with
    | [.id n] :: e :: [] => (exprOf e).bind fun e => a.equ n e
    | _ => none
  else if d = ".global" then (names ts).map fun ns => { a with globals := a.globals ++ ns }
  else if d = ".extern" then do
    let ns ← names ts
    if ns.any fun n => reserved n || (a.env.get n).isSome then none else some { a with externs := a.externs ++ ns }
  else none

/-- One line. -/
def ASt.line (a : ASt) (cs : List Char) : Option ASt := do
  let l ← Line.parse cs
  let a := { a with pend := l.labels.reverse ++ a.pend }
  match l.head with
  | none => some a
  | some h =>
    if h.toList.head? = some '.' then if l.guard = none then a.directive (low h) l.rest else none
    else a.instr l.guard h l.rest

/-- One pass over the lines. -/
def pass (strict : Bool) (look : Env) (ls : List (List Char)) : Option ASt := do
  let a ← ls.foldlM (init := ({ strict, look } : ASt)) ASt.line
  let a ← a.bindHere
  if a.kopen.isSome then none else some a

/-- The symbols after a pass: a location of this object is one offset, and only a global symbol keeps its name for the
relocations that use it (R257). -/
def ASt.symbols (a : ASt) : Env :=
  (a.env.map fun x => (x.1, match x.2 with
    | .rel (.sec i) _ o v => .rel (.sec i) (if a.globals.contains x.1 then some x.1 else none) (o + v) 0
    | v => v))
  ++ a.externs.map fun s => (s, .rel (.ext s) (some s) 0 0)

/-- Passes until the symbols stand still, then the last one; symbols that never do are an error. -/
def settle : (fuel : Nat) → Env → List (List Char) → Option ASt
  | 0, _, _ => none
  | f + 1, e, ls => do
    let a ← pass false e ls
    if a.symbols = e then pass true e ls else settle f a.symbols ls

/-! ## The object (R255 to R258) -/

/-- A string and its offset in a string table it is added to. -/
def addStr (t : List Byte) (s : String) : List Byte × Nat :=
  (t ++ s.toList.map (fun c => BitVec.ofNat 8 c.toNat) ++ [0], t.length)

/-- Strings added one after another. -/
def addStrs : List Byte → List String → List Byte × List Nat
  | t, [] => (t, [])
  | t, s :: r =>
    let (t, o) := addStr t s
    let (t, os) := addStrs t r
    (t, o :: os)

/-- An identifier beginning with .L never enters the symbol table (R243). -/
def isLocalName (s : String) : Bool := s.toList.take 2 == ".L".toList

/-- A symbol entry; the span of a kernel is known (R258). -/
def ASt.symOf (a : ASt) (s : String) (v : Val) (name : Nat) : Kof.Sym :=
  let bind := if a.globals.contains s then 1 else 0
  let size := ((a.kerns.find? (·.name == s)).map (·.size)).getD 0
  match v with
  | .abs w => { name, sect := 0xFFFF, bind, value := w.toNat }
  | .rel (.sec i) _ o w =>
    let type := if a.kerns.any (·.name == s) then 3
      else if (a.secs[i - 1]?).map (·.kind) = some Kof.kText then 1 else 2
    { name, sect := i, bind, type, value := (o + w).toNat, size }
  | .rel (.ext _) _ _ _ => { name, bind := 2 }

/-- The object of a finished pass. -/
def ASt.object (a : ASt) : Option Kof.Input := do
  let env := a.symbols
  -- a global symbol is defined in the file, and no table entry states one as a symbol of another object and an addend
  let outer (v : Val) : Bool := match v with | .rel (.ext _) _ _ _ => true | _ => false
  if a.globals.any fun g => ((a.env.get g).map outer).getD true then none
  else
    let secNames := a.secs.map (·.name) ++ (if a.kerns.isEmpty then [] else [".kinfo"])
    let isKern (s : String) : Bool := a.kerns.any (·.name == s)
    let named := env.reverse.filter fun x =>
      (isKern x.1 || !isLocalName x.1) && (a.externs.contains x.1 || !outer x.2)
    let (t, so) := addStrs [0] secNames
    let (t, no) := addStrs t (named.map fun x => if isLocalName x.1 then "" else x.1)
    let (t, ko) := addStrs t (a.kerns.map (·.name))
    let nsec := secNames.length
    let secSyms := (List.range nsec).map fun i => ({ name := so.getD i 0, sect := i + 1 } : Kof.Sym)
    let syms := {} :: secSyms ++ (named.zip no).map fun x => a.symOf x.1.1 x.1.2 x.2
    let symIdx (s : String) : Option Nat := (named.findIdx? (·.1 == s)).map (· + 1 + nsec)
    let kernSym (k : AKern) : Nat := (symIdx k.name).getD 0
    let rel (r : ARel) : Option Kof.Rel :=
      match r.val with
      | .rel _ (some n) _ w => (symIdx n).map fun i => ⟨r.off, r.sec + 1, r.kind, i, w⟩
      | .rel (.sec i) none o w => some ⟨r.off, r.sec + 1, r.kind, i, o + w⟩
      | _ => none
    let rels ← a.rels.reverse.mapM rel
    let kinfo := ((a.kerns.zip ko).zipIdx).flatMap fun x =>
      let k := x.1.1
      leBytes 8 0 ++ leBytes 4 (a.localSize x.2)
        ++ leBytes 4 (k.banks + (k.ctx - 1) * 2 ^ 4 + k.bars * 2 ^ 7 + k.slots * 2 ^ 13) ++ leBytes 8 x.1.2 ++ leBytes 8 0
    let krels := a.kerns.zipIdx.map fun x => (⟨32 * x.2, nsec, Kof.relAbs64, kernSym x.1, 0⟩ : Kof.Rel)
    let secs := ({} : Kof.Sec) :: (a.secs.zipIdx.map fun x =>
        ({ name := so.getD x.2 0, kind := x.1.kind, alog2 := x.1.alog2, size := x.1.bytes.length,
           kern := match x.1.kern.bind (a.kerns[·]?) with
             | some k => kernSym k
             | none => 0xFFFFFFFF,
           bytes := if x.1.kind = Kof.kLocal then [] else x.1.bytes } : Kof.Sec))
      ++ (if a.kerns.isEmpty then []
          else [{ name := so.getD (nsec - 1) 0, kind := Kof.kKinfo, size := kinfo.length, kern := 0xFFFFFFFF, bytes := kinfo }])
    some { obj := { secs, syms, rels := rels ++ krels, strs := t }, launches := a.launches.map fun x => (x.1 + 1, x.2) }

/-- kas: the object of a source text; none when any line is in error (R245). -/
def assemble (src : List Char) : Option Kof.Input := do
  let ls := splitLines src
  (← settle (ls.length + 2) [] ls).object

end Sys2Proof.Kas
end

