-- ==== Sys2Proof/Safety.lean ====
section
/-!
DEFINITION. What counts as a safe run, and the vocabulary of the statements: what an instruction reads, what it
leaves in its destination, and what stays as it was (R225, R228 to R230, R242, R262).
-/
namespace Sys2Proof

/-- One safe step: it answers a next state whose memory keeps its canonical form. -/
def SafeStep (s : Machine.State) : Prop :=
  ∃ t, Machine.step s = .next t ∧ (Machine.Memory.wf s.mem = true → Machine.Memory.wf t.mem = true)

namespace Claims

open Machine

/-! ## What an instruction reads -/

/-- The directions of the queue operands of an instruction are those of their bindings (R115, R229). -/
def Dirs (s : State) (d a b : Opd) : Prop := s.me.srcOk a = true ∧ s.me.srcOk b = true ∧ s.me.dstOk d = true

/-- Source a reads as x; k is the context after its dequeue. -/
def Reads1 (s : State) (a : Opd) (x : Word) (k : Ctx) : Prop := s.me.val a = .ok (x, k)
/-- Sources a and b read, in this order, as x and y. -/
def Reads2 (s : State) (a b : Opd) (x y : Word) (k : Ctx) : Prop :=
  ∃ c, s.me.val a = .ok (x, c) ∧ c.val b = .ok (y, k)
/-- Sources a and b, then d as a third one. -/
def Reads3 (s : State) (d a b : Opd) (x y z : Word) (k : Ctx) : Prop :=
  ∃ c e, s.me.val a = .ok (x, c) ∧ c.val b = .ok (y, e) ∧ e.val d = .ok (z, k)
/-- Vector sources. -/
def ReadsV1 (s : State) (a : Opd) (x : Vec) (k : Ctx) : Prop := s.me.valV a = .ok (x, k)
def ReadsV2 (s : State) (a b : Opd) (x y : Vec) (k : Ctx) : Prop :=
  ∃ c, s.me.valV a = .ok (x, c) ∧ c.valV b = .ok (y, k)

/-! ## What stays as it was -/

/-- Every byte of memory reads as before. -/
def SameMemory (s t : State) : Prop := ∀ k, t.byte k = s.byte k

/-- Nothing outside the contexts has changed, and no context but the running one. -/
structure OnlyMe (s t : State) : Prop where
  memory : SameMemory s t
  others : ∀ n, n ≠ s.cur → t.ctx n = s.ctx n
  rest   : { t with ctxs := s.ctxs } = s

/-- The running context after an instruction that writes destination d and status flags fl: the PC has moved by
12; every register but d, every special register but FSTAT, and everything else the context holds is as before, the
queue registers being those of k. -/
structure OnlyDest (c k c' : Ctx) (d : Opd) (fl : Nat) : Prop where
  pc    : c'.pc = c.pc + 12
  xs    : ∀ n : Fin 64, d ≠ .x n → c'.getX n.val = c.getX n.val
  vs    : ∀ n : Fin 32, d ≠ .v n → c'.getV n.val = c.getV n.val
  ps    : ∀ n : Fin 8, d ≠ .p n → c'.getP n.val = c.getP n.val
  queues : c'.qs = k.qs
  fstat : c'.sys.fstat = c.sys.fstat ||| BitVec.ofNat 64 fl
  sys   : { c'.sys with pm := c.sys.pm, fstat := c.sys.fstat } = c.sys
  rest  : { c' with pc := c.pc, x := c.x, v := c.v, p := c.p, qs := c.qs, sys := c.sys } = c.anew

/-- The destination holds the result: x0 and p7 keep reading zero and all ones (R230). -/
def Holds (c' : Ctx) (w : Word) (v : Vec) : Opd → Prop
  | .x n => c'.getX n.val = if n.val = 0 then 0 else w
  | .p n => c'.getP n.val = if n.val = 7 then BitVec.allOnes 64 else w
  | .v n => c'.getV n.val = v
  | _ => True

/-- t is the state after an instruction of s that completes with its result, the word w or the vector v, in
destination d, its sources dequeued as in k, and flags fl. A queue destination takes one entry (R229). -/
def Completes (s : State) (k : Ctx) (d : Opd) (w : Word) (v : Vec) (fl : Nat) (t : State) : Prop :=
  match d with
  | .q n _ => ∃ u, (s.commitQ k).put s.cur n.val v = .ok u ∧ t = (u.modMe fun c => c.raiseFlags fl).advance
  | d => OnlyMe s t ∧ OnlyDest s.me k t.me d fl ∧ Holds t.me w v d

/-- A queue destination has room for the result. -/
def Room (s : State) (k : Ctx) (d : Opd) (v : Vec) : Prop :=
  match d with
  | .q n _ => ∃ u, (s.commitQ k).put s.cur n.val v = .ok u
  | _ => True

/-- An instruction completes with a scalar result: it answers the next state in which its destination holds the
word, provided its destination has room. -/
def Yields (i : Instr) (s : State) (k : Ctx) (d : Opd) (w : Word) (fl : Nat) : Prop :=
  Room s k d (entryOf w) → ∃ t, exec i s = .next t ∧ Completes s k d w (entryOf w) fl t
/-- The same for a vector result. -/
def YieldsV (i : Instr) (s : State) (k : Ctx) (d : Opd) (v : Vec) (fl : Nat) : Prop :=
  Room s k d v → ∃ t, exec i s = .next t ∧ Completes s k d (entryWord v) v fl t

/-- Only the program counter of the running context moves on, and its cycle count: an instruction without any
other effect. -/
def JustNext (s t : State) : Prop := OnlyMe s t ∧ OnlyDest s.me s.me t.me (.imm 0) 0

/-- The low w bits of a word, extended as the type extends them (R262). -/
def narrow (t : IntTy) (w : Word) : Word :=
  match t with
  | .s32 => (w.truncate 32).signExtend 64
  | .z32 => (w.truncate 32).zeroExtend 64
  | .s64 | .z64 => w
/-- The low w bits of a word with their sign, whatever the type. -/
def signed (t : IntTy) (w : Word) : Word := if t.width = 32 then (w.truncate 32).signExtend 64 else w
/-- The low w bits of a word with zeros above. -/
def low (t : IntTy) (w : Word) : Word := if t.width = 32 then (w.truncate 32).zeroExtend 64 else w
/-- A source at twice the width of any type. -/
def wide (t : IntTy) (w : Word) : BitVec 128 :=
  if t.signed then (narrow t w).signExtend 128 else (narrow t w).zeroExtend 128
/-- The order of two sources. -/
def below (t : IntTy) (x y : Word) : Bool :=
  if t.signed then (narrow t x).sle (narrow t y) else (narrow t x).ule (narrow t y)
/-- The low w bits turned left. -/
def turned (t : IntTy) (w : Word) (n : Nat) : Word :=
  if t.width = 32 then ((w.truncate 32).rotateLeft n).zeroExtend 64 else w.rotateLeft n
/-- Position and effective length of the field of BFX and BFI; length 0 where there is none (R271). -/
def fieldPos (y : Word) : Nat := (y.extractLsb' 0 6).toNat
def fieldLen (t : IntTy) (y : Word) : Nat :=
  if t.width ≤ fieldPos y then 0 else min (y.extractLsb' 8 7).toNat (t.width - fieldPos y)

/-- The running context goes on at another PC, with the registers of k: nothing else has changed (R223, R280). -/
def GoesTo (s : State) (k : Ctx) (pc : Word) (t : State) : Prop :=
  OnlyMe s t ∧ { t.me with sys := k.sys } = { k.anew with pc := pc } ∧ { t.me.sys with pm := k.sys.pm } = k.sys

/-- The value of a finite number as a multiple of 2^e, for an e at or below its exponent. -/
def valueAt (v : FVal) (e : Int) : Int :=
  match v with
  | .fin n m x => (if n then -1 else 1) * ((m * 2 ^ (x - e).toNat : Nat) : Int)
  | _ => 0
/-- The order of two numbers that are not NaN: infinities outermost, finite values by value (R276). -/
def Below (a b : FVal) : Prop :=
  match a, b with
  | .inf true, .inf true => False
  | .inf true, .inf false => True
  | .inf true, .fin _ _ _ => True
  | .inf false, _ => False
  | .fin _ _ _, .inf n => n = false
  | .fin an am ae, .fin bn bm be =>
      valueAt (.fin an am ae) (min ae be) < valueAt (.fin bn bm be) (min ae be)
  | _, _ => False

/-- A scalar floating instruction completes with a bit pattern and flags. -/
def YieldsF (i : Instr) (s : State) (k : Ctx) (d : Opd) (r : Nat) (fl : Nat) : Prop :=
  Yields i s k d (BitVec.ofNat 64 r) fl

/-- Handler entry has happened for a resumable fault of the running context (R386): the return PC, the cause and
the sequence number of the record, x63 and its saved value, the level and the PC; every other register, the queues
and the streams are as they were. -/
structure Entered (s t : State) (ret : Word) (code seq : Nat) : Prop where
  pc    : t.me.pc = (s.job s.me.run.job).cfg.hentry
  level : t.me.sys.lvl = .handler
  epc   : t.me.sys.epc = ret
  estat : t.me.sys.estat = BitVec.ofNat 64 (seq % 2 ^ 32 * 2 ^ 32 + 256 + code)
  saved : t.me.sys.x63 = s.me.getX 63
  x63   : t.me.getX 63 = BitVec.ofNat 64 (recordVA (s.job s.me.run.job).cfg seq)
  xs    : ∀ n, n ≠ 63 → t.me.getX n = s.me.getX n
  vs    : t.me.v = s.me.v
  ps    : t.me.p = s.me.p
  held  : t.me.qs = s.me.qs ∧ t.me.streams = s.me.streams ∧ t.me.sb = s.me.sb ∧ t.me.run = s.me.run
  flags : t.me.sys.fstat = s.me.sys.fstat ∧ t.me.sys.cstat = s.me.sys.cstat
  others : ∀ n, n ≠ s.cur → t.ctx n = s.ctx n

/-- A fault of the running context would enter the handler, its record taking this sequence number: the context runs
at RUN, the job has a handler, the fault is resumable and its queue has room (R384, R386, R389). -/
def Enters (s : State) (pc : Word) (i : FaultInfo) (seq : Nat) : Prop :=
  s.me.sys.lvl = .run ∧ (s.job s.me.run.job).cfg.hentry ≠ 0 ∧ resumable .run i = true ∧ s.redoes s.cur i = false
    ∧ (s.post s.me.run.job (cluOf s.cur) (recordWords s.me pc true i)).2 = some seq

/-- An instruction answers a next state of which something holds. -/
def Gives (i : Instr) (s : State) (P : State → Prop) : Prop := ∃ t, exec i s = .next t ∧ P t

/-- The x, v and p registers of the running context are as before. -/
def SameRegs (s t : State) : Prop :=
  (∀ n, t.me.getX n = s.me.getX n) ∧ (∀ n, t.me.getV n = s.me.getV n) ∧ ∀ n, t.me.getP n = s.me.getP n
/-- Every context but the running one is as before. -/
def SameOthers (s t : State) : Prop := ∀ n, n ≠ s.cur → t.ctx n = s.ctx n

/-- The instruction at the PC has not begun. -/
def Fresh (s : State) : Prop := s.me.stage = {}
/-- A fresh instruction of a context whose stores have reached their images and whose loads are performed, in a
cluster without dirty lines or write-backs on their way: every release half is met at once (Table 04-4). -/
def Quiet (s : State) : Prop :=
  s.me.stage = {} ∧ s.me.sb = [] ∧ s.me.unack = 0 ∧ s.me.loads = []
    ∧ (s.clu (cluOf s.cur)).dl = [] ∧ (s.clu (cluOf s.cur)).wbOut = []
/-- A blocked instruction sends its request and waits at its PC (R72, R90). -/
def Asks (i : Instr) (s : State) (pl : Payload) : Prop :=
  Gives i s fun t =>
    (∃ p, t.net = s.net ++ [p] ∧ p.pl = pl ∧ p.cls = .req ∧ p.who = .instr s.cur)
    ∧ t.me.pc = s.me.pc ∧ t.me.stage.ph = 2 ∧ t.me.stage.out = s.me.stage.out + 1
    ∧ SameRegs s t ∧ SameMemory s t ∧ SameOthers s t
/-- FSTAT, the level, the exception registers and the inline stack of the running context are as before. -/
def SameFlags (s t : State) : Prop :=
  t.me.sys.fstat = s.me.sys.fstat ∧ t.me.sys.lvl = s.me.sys.lvl ∧ t.me.sys.epc = s.me.sys.epc
    ∧ t.me.sys.estat = s.me.sys.estat ∧ t.me.sys.x63 = s.me.sys.x63 ∧ t.me.sys.inlStack = s.me.sys.inlStack
/-- A blocked instruction whose answer stands completes: the next instruction follows, and nothing but its
destination, and CSTAT where it says so, has changed in the running context. -/
def Answered (s t : State) (d : Opd) (w : Word) : Prop :=
  t.me.pc = s.me.pc + 12 ∧ t.me.stage = {} ∧ SameMemory s t ∧ SameOthers s t ∧ SameFlags s t
    ∧ (∀ n : Fin 64, d ≠ .x n → t.me.getX n.val = s.me.getX n.val)
    ∧ (∀ n : Fin 32, d ≠ .v n → t.me.getV n.val = s.me.getV n.val)
    ∧ (∀ n : Fin 8, d ≠ .p n → t.me.getP n.val = s.me.getP n.val)
    ∧ Holds t.me w (entryOf w) d
/-- An instruction without sources completes: a word goes into its destination, and the next instruction follows. -/
def Writes (i : Instr) (s : State) (d : Opd) (w : Word) : Prop := ∀ u, s.wr d w = .ok u → exec i s = .next u.advance
/-! ## Lanes -/

/-- An integer wrapped or saturated to a type, as a bit pattern (R202). -/
def fitted (t : Esz) (sat : Bool) (i : Int) : Nat :=
  ((if sat then max t.lo (min t.hi i) else i) % (2 ^ t.width : Nat)).toNat
/-- A vector whose active lanes hold f; the others keep their old value, or are zero (R320). -/
def Lanes (s : State) (o : OpV) (v : Vec) (f : Nat → Nat) : Prop :=
  ∀ i, i < lanesN o.et → vecLane v o.et.size i =
    if s.me.active o.lp i then f i else if OpV.keeps o then vecLane (s.me.oldV o.d) o.et.size i else 0
/-- The flags of the active lanes together. -/
def laneFlags (s : State) (o : OpV) (g : Nat → Nat) : Nat :=
  (List.range (lanesN o.et)).foldl (fun a i => if s.me.active o.lp i then a ||| g i else a) 0
/-- A lane instruction completes with these lanes and flags. -/
def YieldsLanes (i : Instr) (s : State) (k : Ctx) (o : OpV) (f g : Nat → Nat) : Prop :=
  ∃ v, Lanes s o v f ∧ YieldsV i s k o.d v (laneFlags s o g)
/-- A reduction of patterns in their order, with its flags (R329). -/
def reduced (op : RedOp) (t : Esz) (rm : Rm) (sat : Bool) (xs : List Nat) : Nat × Nat :=
  match t.fmt?, op with
  | none, .sum => (fitted t sat (xs.foldl (fun a x => a + t.toInt x) 0), 0)
  | none, .max => (fitted t false (xs.foldl (fun a x => max a (t.toInt x)) t.lo), 0)
  | none, .min => (fitted t false (xs.foldl (fun a x => min a (t.toInt x)) t.hi), 0)
  | none, .and => (xs.foldl (fun a x => a &&& x) (2 ^ t.width - 1), 0)
  | none, .or => (xs.foldl (fun a x => a ||| x) 0, 0)
  | none, .xor => (xs.foldl (fun a x => a ^^^ x) 0, 0)
  | some f, .sum =>
      xs.foldl (fun r x => ((f.add rm r.1 x).1, r.2 ||| (f.add rm r.1 x).2)) (f.zero true, 0)
  | some f, .max => (xs.foldl (fun a x => f.minmax true a x) (f.inf true), 0)
  | some f, .min => (xs.foldl (fun a x => f.minmax false a x) (f.inf false), 0)
  | some _, _ => (0, 0)
/-- The active lanes of a vector below a lane number, in ascending order. -/
def activeLanes (s : State) (o : OpV) (v : Vec) (n : Nat) : List Nat :=
  ((List.range n).filter (s.me.active o.lp)).map (vecLane v o.et.size)

/-- A step of the machine's own for a context: its program sees no change of PC and registers, no byte of memory
changes, and no other context. -/
def Unseen (s t : State) (n : Nat) : Prop :=
  (t.ctx n).pc = (s.ctx n).pc ∧ (t.ctx n).x = (s.ctx n).x ∧ (t.ctx n).v = (s.ctx n).v ∧ (t.ctx n).p = (s.ctx n).p
    ∧ (t.ctx n).run = (s.ctx n).run ∧ SameMemory s t ∧ ∀ m, m ≠ n → t.ctx m = s.ctx m
/-- The next instruction follows, registers, memory and the other contexts as they were. -/
def Moves (s t : State) : Prop := t.me.pc = s.me.pc + 12 ∧ SameRegs s t ∧ SameMemory s t ∧ SameOthers s t
/-- The next instruction follows and nothing a program can read in registers, status or memory has changed. -/
def Passes (s t : State) : Prop := Moves s t ∧ SameFlags s t ∧ t.me.sys.cstat = s.me.sys.cstat
/-- A predicate answer. -/
def truth (b : Bool) : Word := if b then BitVec.allOnes 64 else 0

/-- A predicate answer in p(D), the next instruction following: every other register, memory and the other
contexts are as they were. -/
def Says (s t : State) (d : Opd) (b : Bool) : Prop :=
  t.me.pc = s.me.pc + 12 ∧ Holds t.me (truth b) 0 d ∧ (∀ n, t.me.getX n = s.me.getX n)
    ∧ (∀ n, t.me.getV n = s.me.getV n) ∧ (∀ n : Fin 8, d ≠ .p n → t.me.getP n.val = s.me.getP n.val)
    ∧ SameMemory s t ∧ SameOthers s t ∧ SameFlags s t ∧ t.me.sys.cstat = s.me.sys.cstat

/-! ## Shapes and windows -/

/-- No store, load or stream of the running context is under way. -/
def Still (s : State) : Prop := s.me.sb = [] ∧ s.me.loads = [] ∧ s.me.streams = []
/-- The stores an instruction has put into SB, by address. -/
def Stored (s t : State) (es : List (Nat × List Byte)) : Prop :=
  ∃ ss, t.me.sb = s.me.sb ++ ss ∧ ss.map (fun e => (e.va, e.bytes)) = es
/-- A whole-tensor instruction on handles that may be named, and the units it takes (R335 to R337). -/
def Whole (s : State) (o : OpV) (i : Instr) (n : Nat) : Prop :=
  let dh := s.me.getH (shapeNo o.d)
  let ah := s.me.getH (shapeNo o.a)
  let bh := s.me.getH (shapeNo o.b)
  let d := dh.snap
  let a := ah.snap
  let g := 64 / o.et.size
  (i = .shcpy o ∧ dh.st ≠ 0 ∧ ah.st ≠ 0 ∧ shQf d = false ∧ shQf a = false ∧ (shEsz d).size = o.et.size
      ∧ (shEsz a).size = o.et.size ∧ sameCounts d a = true ∧ n = (shN d + g - 1) / g)
    ∨ (∃ op, i = .shmap op o ∧ op ≠ .dqnt ∧ dh.plain o.et = true ∧ ah.plain o.et = true ∧ shNdm1 d = shNdm1 a
      ∧ sameCounts d a = true ∧ n = (shN d + g - 1) / g
      ∧ (op.hasB = true → o.bc = false →
          bh.plain o.et = true ∧ shNdm1 d = shNdm1 bh.snap ∧ sameCounts d bh.snap = true))
    ∨ (i = .shmap .dqnt o ∧ dh.plain o.et = true ∧ ah.st ≠ 0 ∧ shQf a = true ∧ shNdm1 d = shNdm1 a
      ∧ sameCounts d a = true ∧ n = (shN d + 31) / 32)
    ∨ (∃ op, i = .shred op o ∧ dh.plain o.et = true ∧ ah.plain o.et = true ∧ shNdm1 d = shNdm1 a ∧ shCount d 0 = 1
      ∧ (∀ k, k < 3 → shCount a (k + 1) = shCount d (k + 1)) ∧ n = shN d)
    ∨ (∃ f : BlkFmt, i = .shqnt f o ∧ ah.plain .fp32 = true ∧ dh.st ≠ 0 ∧ shQf d = true ∧ shQz d = f.z
      ∧ shP d = f.pm1.val + 1 ∧ sameCounts d a = true ∧ n = shN a / 32)
/-- One lane of SHMAP by its VEC operation (R322, R336). -/
def mapped (op : MapOp) (t : Esz) (sat : Bool) (rm : Rm) (a b d : Nat) : Nat :=
  match t.fmt?, op with
  | none, .add => fitted t sat (t.toInt a + t.toInt b)
  | none, .sub => fitted t sat (t.toInt a - t.toInt b)
  | none, .mul => fitted t sat (t.toInt a * t.toInt b)
  | none, .min => if t.toInt a ≤ t.toInt b then a else b
  | none, .max => if t.toInt a ≤ t.toInt b then b else a
  | none, .abs => fitted t sat (t.toInt a).natAbs
  | none, .neg => fitted t sat (- t.toInt a)
  | none, _ => a
  | some f, .add => (f.add rm a b).1
  | some f, .sub => (f.sub rm a b).1
  | some f, .mul => (f.mul rm a b).1
  | some f, .fma => (f.fma rm a b d).1
  | some f, .min => f.minmax false a b
  | some f, .max => f.minmax true a b
  | some f, .abs => if (f.val a).isNan then f.nan else a % 2 ^ (f.eb + f.fb)
  | some f, .neg => if (f.val a).isNan then f.nan else (a + 2 ^ (f.eb + f.fb)) % 2 ^ f.width
  | some _, .exp2 => (specialFn 0 t a).1
  | some _, .rcp => (specialFn 2 t a).1
  | some _, .tanh => (specialFn 6 t a).1
  | some _, .dqnt => a
/-- Elements of unit u, g to a unit, of n in all. -/
def unitOf (n g u : Nat) : List Nat := (List.range (min g (n - u * g))).map (u * g + ·)
/-- Loads of plain elements: element, address and size. -/
def plainLoads (x : BitVec 512) (es : List Nat) : List (Nat × Nat × Nat) := es.map fun e => (e, shAddr x e, (shEsz x).size)
/-- The loads of unit u of a whole-tensor instruction, handle by handle (R335 to R337). -/
def unitLoads (s : State) (o : OpV) (i : Instr) (u : Nat) : List (List (Nat × Nat × Nat)) :=
  let d := (s.me.getH (shapeNo o.d)).snap
  let a := (s.me.getH (shapeNo o.a)).snap
  let b := (s.me.getH (shapeNo o.b)).snap
  let es := unitOf (shN d) (64 / o.et.size) u
  match i with
  | .shmap .dqnt _ =>
    [(List.range (shP a)).map (fun j => (u * 32, (shBlock a (u * 32) + 4 * j) % 2 ^ 64, 4)) ++ [(u * 32, shScale a (u * 32), 1)]]
  | .shmap op _ =>
    [plainLoads a es] ++ (if op.hasB && !o.bc then [plainLoads b es] else []) ++ (if op = .fma then [plainLoads d es] else [])
  | .shred _ _ => [plainLoads a ((List.range (shCount a 0)).map (u * shCount a 0 + ·))]
  | .shqnt _ _ => [plainLoads a (unitOf (shN a) 32 u)]
  | _ => [plainLoads a es]
/-- The stores of unit u, from the values its loads gave: element, address and bytes (R335 to R337). -/
def unitStores (s : State) (o : OpV) (i : Instr) (u : Nat) (vs : List (List Nat)) : List (Nat × Nat × List Byte) :=
  let d := (s.me.getH (shapeNo o.d)).snap
  let a := (s.me.getH (shapeNo o.a)).snap
  let plain (es xs : List Nat) := (es.zip xs).map fun p => (p.1, shAddr d p.1, leBytes (shEsz d).size p.2)
  let es := unitOf (shN d) (64 / o.et.size) u
  let xs := vs.getD 0 []
  match i with
  | .shmap .dqnt _ =>
    let blk := leNat ((xs.take (shP a)).flatMap (leBytes 4))
    plain (unitOf (shN d) 32 u) ((List.range 32).map fun k =>
      dequant o.rm (eltVal (shQz a) (shP a) (if shQpl a then planedElt (shP a) blk k else storedElt (shP a) blk k))
        (xs.getD (shP a) 0))
  | .shmap op _ =>
    let two := op.hasB && !o.bc
    plain es ((List.range es.length).map fun k => mapped op o.et o.sat o.rm (xs.getD k 0)
      (if two then (vs.getD 1 []).getD k 0 else (s.me.xi o.b).toNat % 2 ^ o.et.width)
      ((vs.getD (if two then 2 else 1) []).getD k 0))
  | .shred op _ => plain [u] [(reduced op o.et o.rm o.sat xs).1]
  | .shqnt f _ =>
    let q := quant (f.pm1.val + 1) f.z xs
    let img := if shQpl d then toPlanes (f.pm1.val + 1) q.1 else q.1
    (List.range (f.pm1.val + 1)).map (fun k => (u * 32, (shBlock d (u * 32) + 4 * k) % 2 ^ 64, leBytes 4 (img / 2 ^ (32 * k))))
      ++ [(u * 32, shScale d (u * 32), leBytes 1 q.2)]
  | _ => plain es xs
/-- The types an operation of a whole-tensor instruction has (R336, R337). -/
def mapTyped (i : Instr) (t : Esz) : Prop :=
  match i with
  | .shmap op _ => op ∈ [MapOp.fma, .exp2, .rcp, .tanh] → t.fmt? ≠ none
  | .shred op _ => (t.fmt? ≠ none → op ∈ [RedOp.sum, .max, .min]) ∧ t.width ≤ 64
  | _ => True
/-- A window area in one bank of the run: k is the place of its first byte, and every word may be read and
written (R338). -/
def AreaAt (s : State) (va k : Nat) : Prop :=
  va % 8 = 0 ∧ va / 2 ^ 48 = 0xC8 ∧ ∃ c b off, k = bankKey c b off ∧ s.bankAt c b = .held ∧ ∀ i, i < 10 →
    s.check s.cur .store (va + 8 * i) 8 = .ok (.own c b (off + 8 * i))
    ∧ s.check s.cur .load (va + 8 * i) 8 = .ok (.own c b (off + 8 * i))
/-- The 80 bytes of an area as the running context's loads find them (R77). -/
def areaOf (s : State) (va k : Nat) : List Byte := (List.range 80).map fun i => (s.me.sbByte (va + i)).getD (s.byte (k + i))
/-- An area holds an accumulator, modulo 2^576, and a status word (R219). -/
def Area (bs : List Byte) (v : Int) (st : Nat) : Prop :=
  bs = leBytes 72 (v % (2 ^ 576 : Nat)).toNat ++ leBytes 8 st
/-- ACCUM of R220: what an area becomes when a product of two FP32 numbers is added to it or subtracted. -/
def Accumulated (x y : Nat) (neg : Bool) (v : Int) (st : Nat) (bs : List Byte) : Prop :=
  let a := fp32.val x
  let b := fp32.val y
  (a = .nan ∨ b = .nan → Area bs v (st ||| 2))
    ∧ ((∃ n m e, a = .inf n ∧ b = .fin m 0 e) ∨ (∃ n m e, a = .fin m 0 e ∧ b = .inf n) → Area bs v (st ||| 2))
    ∧ (∀ n m, (a = .inf n ∧ (b = .inf m ∨ ∃ q e, q ≠ 0 ∧ b = .fin m q e)) ∨ ((∃ q e, q ≠ 0 ∧ a = .fin n q e) ∧ b = .inf m) →
        Area bs v (st ||| if (n != m) != neg then 8 else 4))
    ∧ (∀ n m e p q g, a = .fin n m e → b = .fin p q g →
        let d := valueAt (.fin (n != p) (m * q) (e + g)) (-300)
        let w := if neg then v - d else v + d
        Area bs w (if w < -(2 ^ 575 : Nat) ∨ (2 ^ 575 : Nat) ≤ w then st ||| 1 else st))

/-- A step beside the programs: every context and every byte of memory is as before. -/
def Beside (s t : State) : Prop := t.ctxs = s.ctxs ∧ SameMemory s t

end Claims

end Sys2Proof
end

