-- ==== Sys2Proof/Certificates/Slice0/Obligations.lean ====
section
/-!
DEFINITION. The statements for the provers. Each docstring names the rules of spec/ it formalises; the
constructors whose completion a statement gives are named in it.
-/

open Sys2Proof Sys2Proof.Machine Sys2Proof.Claims

/-! ## Decoding, stepping, memory -/

/-- R74, R222 to R225, R242: when the running context may issue, its fetch has the bytes at its PC and leaves a state
u, the bytes decode to an instruction whose guard holds, and no open load names its registers, a step with an
empty agenda is exec of that instruction at u, where counter 1 has counted it once; and a step whose agenda is
headed by an event is exec of the event with the agenda's rest. R225: a guard that is false adds 12 to the PC and
does nothing else, whatever the rest of the word encodes. R418: a step whose turn a job in replay has not come to leaves the
state as it was, and one that a journal cannot follow any more stops its job with a report (inTurn; assumption log 67); no step
leaves such a mark behind. -/
def Obligations.StepRunsTheDecodedInstruction : Prop :=
  (∀ (s u : State) (w : BitVec 96) (i : Instr), s.powered = true →
      (s.agenda = [] → s.mayIssue s.cur = true → s.fetchAll s.cur 4 = .got w u → decode w = some i →
        u.me.guardOk (Raw.ofWord w).gn (Raw.ofWord w).gp = true → hazard u.me i = false →
        step s = s.inTurn (exec i (u.modMe Ctx.issued)))
      ∧ (∀ r, s.agenda = .event i :: r → step s = { s with agenda := r }.inTurn (exec i { s with agenda := r }))
      ∧ (∀ n r, s.agenda = .issue n :: r → step s = { s with agenda := r, cur := n }.inTurn (issue { s with agenda := r, cur := n })))
  ∧ (∀ (s t : State),
      (t.pkg.turn = 0 → s.inTurn (.next t) = .next t) ∧ (t.pkg.turn = 1 → s.inTurn (.next t) = .next s)
      ∧ (∀ j, t.pkg.turn = j + 2 → ∃ u, s.inTurn (.next t) = .next u ∧ u.ctxs = s.ctxs ∧ SameMemory s u
          ∧ u.pkg.reports = s.pkg.reports ++ [⟨17, j⟩] ∧ (u.job j).pre ≠ .none)
      ∧ (s.pkg.turn = 0 → step s = .next t → t.pkg.turn = 0))
  ∧ (∀ (s u : State) (w : BitVec 96), s.powered = true → s.agenda = [] → s.mayIssue s.cur = true →
      s.fetchAll s.cur 4 = .got w u → u.me.guardOk (Raw.ofWord w).gn (Raw.ofWord w).gp = false → u.pkg.turn = 0 →
      ∃ t, step s = .next t ∧ t = u.setMe t.me ∧ t.me = { u.me with pc := u.me.pc + 12, fetched := [] })
  ∧ (∀ (s : State), s.powered = true → s.agenda = [] → s.mayIssue s.cur = true →
      (∀ i, s.fetchAll s.cur 4 = .bad i → step s = s.inTurn (.next (s.fault i)))
      ∧ (∀ u, s.fetchAll s.cur 4 = .wait u → step s = s.inTurn (.next u))
      ∧ (∀ w u, s.fetchAll s.cur 4 = .got w u → u.me.guardOk (Raw.ofWord w).gn (Raw.ofWord w).gp = true →
          decode w = none → step s = s.inTurn (.next u.illegal)))

/-- R222, R232 to R237: words written out from the encoding tables decode to the instructions they stand for. -/
def Obligations.WordsDecode : Prop :=
  let h : Hdr := ⟨false, 7, 0, false, 0⟩
  decode 0x401C04B20000040000280010 = some (.ld ⟨h, .acq, .clu, 3, .s32, .imm, .x 4, .x 2, .imm 16⟩)
    ∧ decode 0x139C012340000500000E5678 = some (.movi ⟨h, .s64, .x 5, .x 0, .long 0x12345678⟩)
    ∧ decode 0x303C00000000000000000000 = some (.nop ⟨⟨true, 7, 0, false, 0⟩, .core, .x 0, .x 0, .x 0⟩)
    ∧ decode 0x501C00B21000050000200004 = some (.amo .add ⟨h, .rlx, .clu, 3, .s32, .x 5, .x 2, .x 4⟩)
    ∧ decode 0x801C01184200012000220003 = some (.vadd ⟨h, .s16, .rne, 3, true, false, false, .v 1, .v 2, .v 3⟩)
    ∧ decode 0xC11C00000A60030000400005 = some (.mxmm ⟨h, .tile 3, .x 4, .x 5⟩)
    ∧ decode 0xF1DC012340000000000E5678 = some (.jmark ⟨h, .core, .x 0, .x 0, .long 0x12345678⟩)
    ∧ decode 0x01DC08000000060000300000 = none

/-- R222, R227 to R240: decoding the word of a well-formed instruction gives the instruction back, with every operand
at every value its encoding admits. R222, R242: a word that decodes is the word of a well-formed instruction, bit
for bit: no bit of a word that executes is ignored. -/
def Obligations.DecodeAndEncodeAgree : Prop :=
  (∀ (i : Instr) (w : BitVec 96), i.wf = true → encode i = some w → decode w = some i)
  ∧ (∀ (w : BitVec 96) (i : Instr), decode w = some i → i.wf = true ∧ encode i = some w)

/-- The memory of the machine keeps its canonical form in every step, from every state. -/
def Obligations.StepKeepsMemoryForm : Prop :=
  ∀ (s t : State), Memory.wf s.mem = true → step s = .next t → Memory.wf t.mem = true

/-- The memory right after reset has its canonical form, lists nothing, and every run, job and packet is absent. -/
def Obligations.ResetMemoryForm : Prop :=
  Memory.wf State.reset.mem = true ∧ (∀ k, State.reset.byte k = Memory.unlisted)
    ∧ (∀ n, (State.reset.ctx n).run.kind = .free) ∧ State.reset.net = []

/-- R230: x0 reads zero and p7 reads all ones in every state; a write of either changes nothing, and a write of any
other register is read back and leaves every other register as it was. -/
def Obligations.FixedRegisters : Prop :=
  ∀ (c : Ctx) (n m : Nat) (w : Word) (v : Vec),
    (c.setX n w).getX 0 = 0 ∧ (c.setP n w).getP 7 = BitVec.allOnes 64
    ∧ c.setX 0 w = c ∧ c.setP 7 w = c
    ∧ (n ≠ 0 → (c.setX n w).getX n = w) ∧ (n ≠ 7 → (c.setP n w).getP n = w) ∧ (c.setV n v).getV n = v
    ∧ (m ≠ n → (c.setX n w).getX m = c.getX m ∧ (c.setP n w).getP m = c.getP m ∧ (c.setV n v).getV m = c.getV m)

/-! ## Integer and logic instructions -/

/-- R262, R266: IADD, ISUB, IMUL, IMULH, IMIN, IMAX, INEG and IABS. Nothing but the destination changes (R229, R230).
R266, R271: IMAD and BFI read their destination as a third source. -/
def Obligations.IntegerArithmetic : Prop :=
  (∀ (s : State) (o : OpI) (x : Word) (k : Ctx),
      (∀ y, Dirs s o.d o.a o.b → Reads2 s o.a o.b x y k →
        Yields (.iadd o) s k o.d (narrow o.ty (x + y)) 0
        ∧ Yields (.isub o) s k o.d (narrow o.ty (x - y)) 0
        ∧ Yields (.imul o) s k o.d (narrow o.ty (x * y)) 0
        ∧ Yields (.imulh o) s k o.d
            (narrow o.ty (((wide o.ty x * wide o.ty y) >>> o.ty.width).truncate 64)) 0
        ∧ Yields (.imin o) s k o.d (narrow o.ty (if below o.ty x y then x else y)) 0
        ∧ Yields (.imax o) s k o.d (narrow o.ty (if below o.ty x y then y else x)) 0)
      ∧ (Dirs s o.d o.a o.a → Reads1 s o.a x k →
        Yields (.ineg o) s k o.d (narrow o.ty (0 - x)) 0
        ∧ (o.ty.signed = true →
            Yields (.iabs o) s k o.d (narrow o.ty (if (narrow o.ty x).slt 0 then 0 - x else x)) 0)))
  ∧ (∀ (s : State) (o : OpI) (x y z : Word) (k : Ctx), Dirs s o.d o.a o.b → Reads3 s o.d o.a o.b x y z k →
      Yields (.imad o) s k o.d (narrow o.ty (z + x * y)) 0
      ∧ (∀ r : Word,
          (∀ i, i < o.ty.width → r.getLsbD i =
            if fieldPos y ≤ i ∧ i < fieldPos y + fieldLen o.ty y then x.getLsbD (i - fieldPos y) else z.getLsbD i) →
          Yields (.bfi o) s k o.d (narrow o.ty r) 0))
  ∧ (∀ (w : BitVec 96) (o : OpI), decode w = some (.ineg o) ∨ decode w = some (.iabs o) → o.ty = .s32 ∨ o.ty = .s64)

/-- R267: IDIV and IREM. Away from division by zero and the one overflow the quotient is rounded toward zero and the
remainder has the sign of the dividend; division by zero gives all ones and the dividend; the overflow gives the
dividend and zero. -/
def Obligations.Division : Prop :=
  ∀ (s : State) (o : OpI) (x y : Word) (k : Ctx), Dirs s o.d o.a o.b → Reads2 s o.a o.b x y k →
    (narrow o.ty y = 0 →
      Yields (.idiv o) s k o.d (narrow o.ty (BitVec.allOnes 64)) 0 ∧ Yields (.irem o) s k o.d (narrow o.ty x) 0)
    ∧ (o.ty.signed = true → narrow o.ty x = signed o.ty (1 <<< (o.ty.width - 1)) → narrow o.ty y = BitVec.allOnes 64 →
      Yields (.idiv o) s k o.d (narrow o.ty x) 0 ∧ Yields (.irem o) s k o.d 0 0)
    ∧ (∀ q r : Int, o.ty.src y ≠ 0 → o.ty.src x = q * o.ty.src y + r → r.natAbs < (o.ty.src y).natAbs →
      (r = 0 ∨ (0 < r ↔ 0 < o.ty.src x)) →
      Yields (.idiv o) s k o.d (narrow o.ty (BitVec.ofInt 64 q)) 0
      ∧ Yields (.irem o) s k o.d (narrow o.ty (BitVec.ofInt 64 r)) 0)

/-- R268, R238: ICMP writes 1 or 0 to its destination, then all ones or zero to its predicate, by the truth of the
comparison at the type's signedness. R268, R269: ISEL reads both sources; LEA; CLZ, CTZ, POPC and BREV on the w
bits of their source. -/
def Obligations.CompareSelectAndCount : Prop :=
  (∀ (s : State) (o : OpI) (c : Cond) (dp : Fin 8) (x y : Word) (k : Ctx) (b : Bool) (u : State),
      Dirs s o.d o.a o.b → Reads2 s o.a o.b x y k → c ≠ .un → c ≠ .ord →
      (b = true ↔ match c with
        | .eq => narrow o.ty x = narrow o.ty y
        | .ne => narrow o.ty x ≠ narrow o.ty y
        | .le => below o.ty x y = true
        | .ge => below o.ty y x = true
        | .lt => below o.ty y x = false
        | .gt => below o.ty x y = false
        | .un | .ord => False) →
      (s.commitQ k).wr o.d (if b then 1 else 0) = .ok u →
      exec (.icmp c dp o) s = .next (u.modMe fun c => (c.setPB dp.val b).advance))
  ∧ (∀ (s : State) (o : OpI) (x : Word) (k : Ctx),
      (∀ (y : Word) (dp : Fin 8) (sh : Fin 16), Dirs s o.d o.a o.b → Reads2 s o.a o.b x y k →
        Yields (.isel dp o) s k o.d (narrow o.ty (if (s.me.getP dp.val).getLsbD 0 then x else y)) 0
        ∧ Yields (.lea sh o) s k o.d (x + y * BitVec.ofNat 64 (2 ^ sh.val)) 0)
      ∧ (Dirs s o.d o.a o.a → Reads1 s o.a x k →
        (∀ n, n ≤ o.ty.width → (∀ i, i < n → x.getLsbD (o.ty.width - 1 - i) = false) →
            (n < o.ty.width → x.getLsbD (o.ty.width - 1 - n) = true) → Yields (.clz o) s k o.d (BitVec.ofNat 64 n) 0)
        ∧ (∀ n, n ≤ o.ty.width → (∀ i, i < n → x.getLsbD i = false) →
            (n < o.ty.width → x.getLsbD n = true) → Yields (.ctz o) s k o.d (BitVec.ofNat 64 n) 0)
        ∧ Yields (.popc o) s k o.d (BitVec.ofNat 64 ((List.range o.ty.width).filter fun i => x.getLsbD i).length) 0
        ∧ (∀ r : Word, (∀ i, i < o.ty.width → r.getLsbD i = x.getLsbD (o.ty.width - 1 - i)) →
            Yields (.brev o) s k o.d (narrow o.ty r) 0)))
  ∧ (∀ (w : BitVec 96) (o : OpI), (∀ dp, decode w ≠ some (.icmp .un dp o) ∧ decode w ≠ some (.icmp .ord dp o))
      ∧ (∀ sh, decode w = some (.lea sh o) → o.ty = .s64)
      ∧ ∀ i, i ∈ [Instr.clz o, .ctz o, .popc o, .brev o] → decode w = some i → o.ty = .s32 ∨ o.ty = .s64)

/-- R270: AND, OR, XOR, ANDN, ORN, SHL, SHR, SAR and ROL act on the w bits of their sources; a count is taken modulo
w. R271, R272, R273: BFX takes its field bit by bit and extends it by the type; SEXT, ZEXT, MOV, MOVI, MOVHI, PLOG
and PMOV. -/
def Obligations.BitwiseShiftsAndFields : Prop :=
  (∀ (s : State) (o : OpI) (x y : Word) (k : Ctx), Dirs s o.d o.a o.b → Reads2 s o.a o.b x y k →
      let n := y.toNat % o.ty.width
      Yields (.and o) s k o.d (narrow o.ty (x &&& y)) 0
      ∧ Yields (.or o) s k o.d (narrow o.ty (x ||| y)) 0
      ∧ Yields (.xor o) s k o.d (narrow o.ty (x ^^^ y)) 0
      ∧ Yields (.andn o) s k o.d (narrow o.ty (x &&& ~~~y)) 0
      ∧ Yields (.orn o) s k o.d (narrow o.ty (x ||| ~~~y)) 0
      ∧ Yields (.shl o) s k o.d (narrow o.ty (x <<< n)) 0
      ∧ Yields (.shr o) s k o.d (narrow o.ty (low o.ty x >>> n)) 0
      ∧ Yields (.sar o) s k o.d (narrow o.ty ((signed o.ty x).sshiftRight n)) 0
      ∧ Yields (.rol o) s k o.d (narrow o.ty (turned o.ty x n)) 0)
  ∧ (∀ (s : State) (o : OpI) (x : Word) (k : Ctx),
      (∀ y, Dirs s o.d o.a o.b → Reads2 s o.a o.b x y k →
        (∀ r : Word,
          (∀ i, i < 64 → r.getLsbD i =
            if fieldLen o.ty y = 0 then false
            else if i < fieldLen o.ty y then x.getLsbD (fieldPos y + i)
            else o.ty.signed && x.getLsbD (fieldPos y + fieldLen o.ty y - 1)) →
          Yields (.bfx o) s k o.d (narrow o.ty r) 0)
        ∧ Yields (.plog .and o) s k o.d (x &&& y) 0 ∧ Yields (.plog .or o) s k o.d (x ||| y) 0
        ∧ Yields (.plog .xor o) s k o.d (x ^^^ y) 0 ∧ Yields (.plog .andn o) s k o.d (x &&& ~~~y) 0
        ∧ Yields (.plog .orn o) s k o.d (x ||| ~~~y) 0 ∧ Yields (.plog .not o) s k o.d (~~~x) 0)
      ∧ (Dirs s o.d o.a o.a → Reads1 s o.a x k →
        Yields (.sext .w8 o) s k o.d ((x.truncate 8).signExtend 64) 0
        ∧ Yields (.sext .w16 o) s k o.d ((x.truncate 16).signExtend 64) 0
        ∧ Yields (.sext .w32 o) s k o.d ((x.truncate 32).signExtend 64) 0
        ∧ Yields (.zext .w8 o) s k o.d (x &&& 0xFF) 0
        ∧ Yields (.zext .w16 o) s k o.d (x &&& 0xFFFF) 0
        ∧ Yields (.zext .w32 o) s k o.d (x &&& 0xFFFFFFFF) 0
        ∧ Yields (.mov o) s k o.d x 0 ∧ Yields (.pmov o) s k o.d x 0
        ∧ (∀ i, o.b = .imm i → Yields (.movhi o) s k o.d ((i.signExtend 64 &&& 0xFFFFFFFF00000000) ||| (x &&& 0xFFFFFFFF)) 0)
        ∧ (∀ i, o.b = .long i → Yields (.movhi o) s k o.d ((i.zeroExtend 64 <<< 32) ||| (x &&& 0xFFFFFFFF)) 0))
      ∧ (Dirs s o.d o.b o.b → Reads1 s o.b x k → Yields (.movi o) s k o.d x 0))
  ∧ (∀ (w : BitVec 96) (o : OpI) (i : Instr), i ∈ [.and o, .or o, .xor o, .andn o, .orn o, .shl o, .shr o, .sar o, .rol o] →
      decode w = some i → o.ty = .s32 ∨ o.ty = .s64)

/-! ## Floating instructions -/

/-- R205, R274: FADD, FSUB, FMUL and FDIV. Finite operands give the exact result rounded once; NaN, infinities and
zeros give what IEEE 754 gives, with NV and DZ where it calls for them. -/
def Obligations.FloatArithmetic : Prop :=
  ∀ (s : State) (o : OpV) (x y : Word) (k : Ctx), Dirs s o.d o.a o.b → Reads2 s o.a o.b x y k →
    let f := OpV.fmt o
    let a := f.val x.toNat
    let b := f.val y.toNat
    (a = .nan ∨ b = .nan → ∀ i, i ∈ [Instr.fadd o, .fsub o, .fmul o, .fdiv o] → YieldsF i s k o.d f.nan 0)
    ∧ (∀ n m, a = .inf n → b = .inf m →
        YieldsF (.fadd o) s k o.d (if n = m then f.inf n else f.nan) (if n = m then 0 else fNV)
        ∧ YieldsF (.fsub o) s k o.d (if n = m then f.nan else f.inf n) (if n = m then fNV else 0)
        ∧ YieldsF (.fmul o) s k o.d (f.inf (n != m)) 0 ∧ YieldsF (.fdiv o) s k o.d f.nan fNV)
    ∧ (∀ n m c e, a = .inf n → b = .fin m c e →
        YieldsF (.fadd o) s k o.d (f.inf n) 0 ∧ YieldsF (.fsub o) s k o.d (f.inf n) 0
        ∧ YieldsF (.fmul o) s k o.d (if c = 0 then f.nan else f.inf (n != m)) (if c = 0 then fNV else 0)
        ∧ YieldsF (.fdiv o) s k o.d (f.inf (n != m)) 0)
    ∧ (∀ n c e m, a = .fin n c e → b = .inf m →
        YieldsF (.fadd o) s k o.d (f.inf m) 0 ∧ YieldsF (.fsub o) s k o.d (f.inf !m) 0
        ∧ YieldsF (.fmul o) s k o.d (if c = 0 then f.nan else f.inf (n != m)) (if c = 0 then fNV else 0)
        ∧ YieldsF (.fdiv o) s k o.d (f.zero (n != m)) 0)
    ∧ (∀ n c e m g h, a = .fin n c e → b = .fin m g h →
        (let v := valueAt a (min e h) + valueAt b (min e h)
         if v = 0 then YieldsF (.fadd o) s k o.d (f.zero (if c = 0 ∧ g = 0 ∧ n = m then n else o.rm == .rdn)) 0
         else YieldsF (.fadd o) s k o.d (f.rnd o.rm (decide (v < 0)) v.natAbs (min e h) false).1
                (f.rnd o.rm (decide (v < 0)) v.natAbs (min e h) false).2)
        ∧ (let v := valueAt a (min e h) - valueAt b (min e h)
           if v = 0 then YieldsF (.fsub o) s k o.d (f.zero (if c = 0 ∧ g = 0 ∧ n ≠ m then n else o.rm == .rdn)) 0
           else YieldsF (.fsub o) s k o.d (f.rnd o.rm (decide (v < 0)) v.natAbs (min e h) false).1
                  (f.rnd o.rm (decide (v < 0)) v.natAbs (min e h) false).2)
        ∧ YieldsF (.fmul o) s k o.d (f.rnd o.rm (n != m) (c * g) (e + h) false).1
            (f.rnd o.rm (n != m) (c * g) (e + h) false).2
        ∧ (g = 0 → c = 0 → YieldsF (.fdiv o) s k o.d f.nan fNV)
        ∧ (g = 0 → c ≠ 0 → YieldsF (.fdiv o) s k o.d (f.inf (n != m)) fDZ)
        ∧ (g ≠ 0 → c = 0 → YieldsF (.fdiv o) s k o.d (f.zero (n != m)) 0)
        ∧ (∀ q r, g ≠ 0 → c ≠ 0 → c * 2 ^ 64 = q * g + r → r < g →
            YieldsF (.fdiv o) s k o.d (f.rnd o.rm (n != m) q (e - h - 64) (r != 0)).1
              (f.rnd o.rm (n != m) q (e - h - 64) (r != 0)).2))

/-- R204, R205, R274, R275, R278: FFMA rounds once, an exact zero having IEEE 754's sign; it is invalid for 0 × ∞ whatever D is, and
for infinities of two signs; a NaN gives NaN without a flag. FSQRT rounds the root and keeps −0;
FMIN and FMAX; FCLASS; none of the last three raises a flag. R276: FCMP. A NaN operand makes NE and UN true and
the others false, and the four orderings raise NV; otherwise the values are compared, +0 equal to −0, and no flag
is raised. The destination is written, then the predicate. -/
def Obligations.FloatRootsChoicesAndCompares : Prop :=
  (∀ (s : State) (o : OpV) (x : Word) (k : Ctx),
      let f := OpV.fmt o
      let a := f.val x.toNat
      (∀ y z, Dirs s o.d o.a o.b → Reads3 s o.d o.a o.b x y z k →
        (∀ n c e m g h p q j, a = .fin n c e → f.val y.toNat = .fin m g h → f.val z.toNat = .fin p q j →
          (let l := min (e + h) j
           let v := valueAt (.fin (n != m) (c * g) (e + h)) l + valueAt (.fin p q j) l
           (v ≠ 0 → YieldsF (.ffma o) s k o.d (f.rnd o.rm (decide (v < 0)) v.natAbs l false).1
              (f.rnd o.rm (decide (v < 0)) v.natAbs l false).2)
           ∧ (v = 0 → YieldsF (.ffma o) s k o.d
                (f.zero (if c * g = 0 ∧ q = 0 ∧ (n != m) = p then p else o.rm == .rdn)) 0)))
        ∧ (∀ n m, (a = .inf n ∧ f.val y.toNat = .inf m) ∨ (∃ g h, a = .inf n ∧ f.val y.toNat = .fin m g h ∧ g ≠ 0)
              ∨ (∃ c e, a = .fin n c e ∧ c ≠ 0 ∧ f.val y.toNat = .inf m) →
            (∀ p q j, f.val z.toNat = .fin p q j → YieldsF (.ffma o) s k o.d (f.inf (n != m)) 0)
            ∧ (∀ p, f.val z.toNat = .inf p →
                (p = (n != m) → YieldsF (.ffma o) s k o.d (f.inf p) 0) ∧ (p ≠ (n != m) → YieldsF (.ffma o) s k o.d f.nan fNV))
            ∧ (f.val z.toNat = .nan → YieldsF (.ffma o) s k o.d f.nan 0))
        ∧ (∀ n c e m g h, a = .fin n c e → f.val y.toNat = .fin m g h →
            (∀ p, f.val z.toNat = .inf p → YieldsF (.ffma o) s k o.d (f.inf p) 0)
            ∧ (f.val z.toNat = .nan → YieldsF (.ffma o) s k o.d f.nan 0))
        ∧ ((∃ n m e, a = .inf n ∧ f.val y.toNat = .fin m 0 e) ∨ (∃ n m e, a = .fin m 0 e ∧ f.val y.toNat = .inf n) →
            YieldsF (.ffma o) s k o.d f.nan fNV)
        ∧ (a = .nan ∨ f.val y.toNat = .nan → YieldsF (.ffma o) s k o.d f.nan 0))
      ∧ (Dirs s o.d o.a o.a → Reads1 s o.a x k →
        (a = .nan → YieldsF (.fsqrt o) s k o.d f.nan 0) ∧ (a = .inf false → YieldsF (.fsqrt o) s k o.d (f.inf false) 0)
        ∧ (a = .inf true → YieldsF (.fsqrt o) s k o.d f.nan fNV)
        ∧ (∀ n c e, a = .fin n c e →
            (c = 0 → YieldsF (.fsqrt o) s k o.d (f.zero n) 0)
            ∧ (c ≠ 0 → n = true → YieldsF (.fsqrt o) s k o.d f.nan fNV)
            ∧ (∀ r : Nat, c ≠ 0 → n = false → o.et = .fp32 →
                r * r ≤ (c * 2 ^ (e % 2).toNat) * 2 ^ 64 → (c * 2 ^ (e % 2).toNat) * 2 ^ 64 < (r + 1) * (r + 1) →
                YieldsF (.fsqrt o) s k o.d (f.rnd o.rm false r (e / 2 - 32) (r * r != (c * 2 ^ (e % 2).toNat) * 2 ^ 64)).1
                  (f.rnd o.rm false r (e / 2 - 32) (r * r != (c * 2 ^ (e % 2).toNat) * 2 ^ 64)).2))
        ∧ YieldsF (.fclass o) s k o.d
            (match a with
              | .nan => 256 | .inf true => 1 | .inf false => 128
              | .fin n c _ => if c = 0 then (if n then 8 else 16)
                              else if c < 2 ^ f.fb then (if n then 4 else 32) else (if n then 2 else 64)) 0)
      ∧ (∀ y, Dirs s o.d o.a o.b → Reads2 s o.a o.b x y k →
        let b := f.val y.toNat
        (a = .nan ∨ b = .nan → YieldsF (.fmin o) s k o.d f.nan 0 ∧ YieldsF (.fmax o) s k o.d f.nan 0)
        ∧ (a ≠ .nan → b ≠ .nan → (Below a b ∨ (a.isZero = true ∧ b.isZero = true ∧ a.neg? = true)) →
            YieldsF (.fmin o) s k o.d (x.toNat % 2 ^ f.width) 0 ∧ YieldsF (.fmax o) s k o.d (y.toNat % 2 ^ f.width) 0)
        ∧ (a ≠ .nan → b ≠ .nan → (Below b a ∨ (a.isZero = true ∧ b.isZero = true ∧ b.neg? = true)) →
            YieldsF (.fmin o) s k o.d (y.toNat % 2 ^ f.width) 0 ∧ YieldsF (.fmax o) s k o.d (x.toNat % 2 ^ f.width) 0)
        ∧ (a ≠ .nan → b ≠ .nan → ¬ Below a b → ¬ Below b a → a.neg? = b.neg? →
            YieldsF (.fmin o) s k o.d (y.toNat % 2 ^ f.width) 0 ∧ YieldsF (.fmax o) s k o.d (x.toNat % 2 ^ f.width) 0)))
  ∧ (∀ (s : State) (o : OpV) (c : Cond) (x y : Word) (k : Ctx) (b : Bool) (fl : Nat) (u : State),
      Dirs s o.d o.a o.b → Reads2 s o.a o.b x y k →
      (let v := (OpV.fmt o).val x.toNat
       let w := (OpV.fmt o).val y.toNat
       (v = .nan ∨ w = .nan → (b = true ↔ c = .ne ∨ c = .un) ∧ fl = if c ∈ [Cond.lt, .le, .gt, .ge] then fNV else 0)
       ∧ (v ≠ .nan → w ≠ .nan → fl = 0 ∧ (b = true ↔ match c with
          | .eq => ¬ Below v w ∧ ¬ Below w v
          | .ne => Below v w ∨ Below w v
          | .lt => Below v w
          | .le => ¬ Below w v
          | .gt => Below w v
          | .ge => ¬ Below v w
          | .un => False
          | .ord => True))) →
      ((s.commitQ k).modMe fun c => c.raiseFlags fl).wr o.d (if b then 1 else 0) = .ok u →
      exec (.fcmp c o) s = .next (u.modMe fun c => (c.setPB o.lp.val b).advance))

/-- R205, R277: FCVT. A floating value to an integer type saturates with NV, gives 0 with NV for NaN, and else
rounds with NX; an integer, or a value of another format, is rounded once. -/
def Obligations.FloatConvert : Prop :=
  ∀ (o : OpV) (src : Esz), (∀ w : BitVec 96, decode w = some (.fcvt src o) →
      (src.isF = true ∧ o.et.isN = true ∧ o.et ≠ src) ∨ (src.isInt = true ∧ o.et.isF = true))
  ∧ ∀ (s : State) (x : Word) (k : Ctx), Dirs s o.d o.a o.a → Reads1 s o.a x k →
    (∀ f, o.et.fmt? = some f → src.fmt? = none →
      let i := src.toInt x.toNat
      YieldsF (.fcvt src o) s k o.d (f.rnd o.rm (decide (i < 0)) i.natAbs 0 false).1
        (f.rnd o.rm (decide (i < 0)) i.natAbs 0 false).2)
    ∧ (∀ f g, o.et.fmt? = some f → src.fmt? = some g →
      (g.val x.toNat = .nan → YieldsF (.fcvt src o) s k o.d f.nan 0)
      ∧ (∀ n, g.val x.toNat = .inf n → YieldsF (.fcvt src o) s k o.d (f.inf n) 0)
      ∧ (∀ n c e, g.val x.toNat = .fin n c e →
          YieldsF (.fcvt src o) s k o.d (f.rnd o.rm n c e false).1 (f.rnd o.rm n c e false).2))
    ∧ (∀ g, o.et.fmt? = none → o.et.width ≤ 64 → src.fmt? = some g →
      (g.val x.toNat = .nan → Yields (.fcvt src o) s k o.d 0 fNV)
      ∧ (∀ n, g.val x.toNat = .inf n →
          Yields (.fcvt src o) s k o.d (BitVec.ofInt 64 (if n then o.et.lo else o.et.hi)) fNV)
      ∧ (∀ n c e i z, g.val x.toNat = .fin n c e → roundInt o.rm n c e = (i, z) →
          if i < o.et.lo then Yields (.fcvt src o) s k o.d (BitVec.ofInt 64 o.et.lo) fNV
          else if o.et.hi < i then Yields (.fcvt src o) s k o.d (BitVec.ofInt 64 o.et.hi) fNV
          else Yields (.fcvt src o) s k o.d (BitVec.ofInt 64 i) (if z then fNX else 0)))

/-- R205, R207: rounding. A value the format holds is kept exactly, with no flag; rounding down and up bracket the
exact value, agree just when it is exact, and nearest rounding gives one of the two. -/
def Obligations.RoundingIsFaithful : Prop :=
  ∀ (f : Fmt), f ∈ [fp32, fp16, bf16] →
    (∀ (rm : Rm) (w : Nat) (n : Bool) (m : Nat) (e : Int), f.val w = .fin n m e →
      f.rnd rm n m e false = (w % 2 ^ f.width, 0))
    ∧ (∀ (n : Bool) (m : Nat) (e : Int), m ≠ 0 →
      let dn := (f.rnd .rdn n m e false).1
      let up := (f.rnd .rup n m e false).1
      ¬ Below (.fin n m e) (f.val dn) ∧ ¬ Below (f.val up) (.fin n m e)
      ∧ (dn = up ↔ (f.rnd .rne n m e false).2 % 2 = 0)
      ∧ ((f.rnd .rne n m e false).1 = dn ∨ (f.rnd .rne n m e false).1 = up)
      ∧ (f.rnd .rtz n m e false).1 = if n then up else dn)

/-! ## Control -/

/-- R223, R280, R285: NOP and YIELD only move on; BR, CALL, CALLI, JMPI, RET and LOOP go to their target, CALL and
CALLI with the return address in x61, LOOP with its register one less, staying in line when that is zero. R223,
R280: a misaligned target is an ALIGN fault at the transfer, and nothing the transfer would write is written. -/
def Obligations.ControlTransfer : Prop :=
  (∀ (s : State) (o : OpS) (x : Word) (k : Ctx) (n : Fin 64),
      let target := s.me.pc + Opd.immVal o.b * 4
      Gives (.nop o) s (JustNext s) ∧ Gives (.yield o) s (JustNext s)
      ∧ (target.toNat % 4 = 0 →
        Gives (.br o) s (GoesTo s s.me target) ∧ Gives (.call o) s (GoesTo s (s.me.setX 61 (s.me.pc + 12)) target)
        ∧ (o.d = .x n → s.me.getX n.val ≠ 1 →
            Gives (.loop o) s (GoesTo s (s.me.setX n.val (s.me.getX n.val - 1)) target)))
      ∧ (o.d = .x n → s.me.getX n.val = 1 → Gives (.loop o) s (GoesTo s (s.me.setX n.val 0) (s.me.pc + 12)))
      ∧ (Dirs s o.d o.a o.a → Reads1 s o.a x k → x.toNat % 4 = 0 →
        Gives (.calli o) s (GoesTo s (k.setX 61 (s.me.pc + 12)) x) ∧ Gives (.jmpi o) s (GoesTo s k x))
      ∧ ((s.me.getX 61).toNat % 4 = 0 → s.me.sys.inlStack.head? ≠ some (s.me.getX 61) →
        Gives (.ret o) s (GoesTo s s.me (s.me.getX 61))))
  ∧ (∀ (s : State) (o : OpS) (x : Word) (k : Ctx) (n : Fin 64),
      let target := s.me.pc + Opd.immVal o.b * 4
      (target.toNat % 4 ≠ 0 →
        exec (.br o) s = .next (s.fault (flt clsAlign target.toNat))
        ∧ exec (.call o) s = .next (s.fault (flt clsAlign target.toNat))
        ∧ (o.d = .x n → s.me.getX n.val ≠ 1 → exec (.loop o) s = .next (s.fault (flt clsAlign target.toNat))))
      ∧ (Dirs s o.d o.a o.a → Reads1 s o.a x k → x.toNat % 4 ≠ 0 →
        exec (.calli o) s = .next (s.fault (flt clsAlign x.toNat))
        ∧ exec (.jmpi o) s = .next (s.fault (flt clsAlign x.toNat)))
      ∧ ((s.me.getX 61).toNat % 4 ≠ 0 → exec (.ret o) s = .next (s.fault (flt clsAlign (s.me.getX 61).toNat))))

/-- R384 to R386: a resumable fault of a run at RUN whose record finds room enters the handler: EPC is the return PC,
ESTAT names the class and the record, x63 points to the record and its old value is kept, the level is HANDLER and
the PC is HENTRY. R388, R389: a fault that is not resumable, or meets no handler or no room in its queue, ends the
run: the context keeps its registers, issues nothing more, and never enters a handler. R389: a record takes the
slot PUT points to and PUT rises by one; a full queue takes none and LOST rises by one; no other byte of memory
changes. -/
def Obligations.TakingAFault : Prop :=
  (∀ (s : State) (pc ret : Word) (i : FaultInfo) (seq : Nat), Enters s pc i seq →
      Entered s (s.raise s.cur pc ret i) ret i.code seq)
  ∧ (∀ (s : State) (pc ret : Word) (i : FaultInfo), s.redoes s.cur i = false →
      (resumable s.me.sys.lvl i = false ∨ (s.job s.me.run.job).cfg.hentry = 0
        ∨ (s.post s.me.run.job (cluOf s.cur) (recordWords s.me pc (resumable s.me.sys.lvl i) i)).2 = none) →
      let t := s.raise s.cur pc ret i
      t.me.sys.ending = 2 ∧ t.me.x = s.me.x ∧ t.me.v = s.me.v ∧ t.me.p = s.me.p ∧ t.me.pc = s.me.pc
        ∧ t.me.sys.lvl = s.me.sys.lvl ∧ t.mayIssue s.cur = false ∧ SameOthers s t)
  ∧ (∀ (s : State) (j clu put take lost slot : Nat) (ws : List Nat), ws.length = 4 → 0 < (s.job j).cfg.fqn →
      s.queueWord j 0 = some put → s.queueWord j 8 = some take → s.queueWord j 16 = some lost →
      s.queueWord j (64 + s.word put % (s.job j).cfg.fqn * 32) = some slot →
      (put + 8 ≤ slot ∨ slot + 32 ≤ put) →
      ((s.word put + 2 ^ 64 - s.word take) % 2 ^ 64 = (s.job j).cfg.fqn →
        (s.post j clu ws).2 = none
        ∧ (s.post j clu ws).1.word lost = (s.word lost + 1) % 2 ^ 64
        ∧ ∀ a, ¬ (lost ≤ a ∧ a < lost + 8) → (s.post j clu ws).1.byte a = s.byte a)
      ∧ ((s.word put + 2 ^ 64 - s.word take) % 2 ^ 64 ≠ (s.job j).cfg.fqn →
        (s.post j clu ws).2 = some (s.word put)
        ∧ (s.post j clu ws).1.word put = (s.word put + 1) % 2 ^ 64
        ∧ (∀ i w, ws[i]? = some w → (s.post j clu ws).1.word (slot + 8 * i) = w % 2 ^ 64)
        ∧ ∀ a, ¬ (put ≤ a ∧ a < put + 8) → ¬ (slot ≤ a ∧ a < slot + 32) → (s.post j clu ws).1.byte a = s.byte a))

/-- R286, R379, R385: TRAP enters the handler with its code, and RTE will resume after it; so does EBREAK, unless an
invasive debugger is attached: then the context halts behind it. R382, R387: RTE at HANDLER returns to EPC at RUN
with x63 restored, once the handler's matrix commands have finished; its tiles are free. At RUN it is a PRIV
fault; a misaligned EPC is an ALIGN fault. R364: what Table 20-1 admits at RUN and HANDLER alone is a PRIV fault at FIRM. The
model's choices: RTE does not wait for the handler's copy jobs (assumption log 49), ADDR of the ALIGN fault is EPC (log 28). -/
def Obligations.TrapsAndReturn : Prop :=
  (∀ (s : State) (o : OpS) (seq : Nat),
      (Enters s s.me.pc { code := clsTrap, idx := (Opd.immVal o.b).toNat } seq →
        Gives (.trap o) s fun t => Entered s t (s.me.pc + 12) clsTrap seq)
      ∧ (¬ (s.pkg.dbg = 2 ∧ s.me.sys.dbgOn = true) → Enters s s.me.pc { code := clsTrap, idx := 0x10001 } seq →
        Gives (.ebreak o) s fun t => Entered s t (s.me.pc + 12) clsTrap seq)
      ∧ (s.me.sys.lvl ≠ .firm → s.pkg.dbg = 2 → s.me.sys.dbgOn = true → Gives (.ebreak o) s fun t =>
          t.me.sys.dbgHalt = true ∧ t.me.pc = s.me.pc + 12 ∧ SameRegs s t ∧ SameMemory s t ∧ SameOthers s t))
  ∧ (∀ (s : State) (o : OpS),
      (s.me.sys.lvl = .run → exec (.rte o) s = .next (s.fault { code := clsPriv }))
      ∧ (s.me.sys.lvl = .handler → s.me.sys.epc.toNat % 4 ≠ 0 →
          exec (.rte o) s = .next (s.fault (flt clsAlign s.me.sys.epc.toNat)))
      ∧ (s.me.sys.lvl = .handler → s.me.sys.epc.toNat % 4 = 0 →
          ((s.clu (cluOf s.cur)).jobs.all fun j => j.ctx != s.cur || j.lvl != .handler || j.isCopy) = true →
          Gives (.rte o) s fun t =>
            t.me.pc = s.me.sys.epc ∧ t.me.sys.lvl = .run ∧ t.me.getX 63 = s.me.sys.x63
            ∧ (∀ n, n ≠ 63 → t.me.getX n = s.me.getX n) ∧ t.me.v = s.me.v ∧ t.me.p = s.me.p ∧ t.me.sb = s.me.sb
            ∧ SameMemory s t ∧ SameOthers s t
            ∧ ∀ e ∈ (t.clu (cluOf s.cur)).tiles, e.2.own ≠ some (s.cur, .handler)))
  ∧ (∀ (s : State) (o : OpS),
      (s.me.sys.lvl ≠ .firm → ¬ (s.pkg.dbg = 2 ∧ s.me.sys.dbgOn = true) →
        exec (.ebreak o) s = .next (s.raise s.cur s.me.pc (s.me.pc + 12) { code := clsTrap, idx := 0x10001 }))
      ∧ (s.me.sys.lvl = .firm → ∀ i, i ∈ [Instr.launch o, .tnext o, .split o, .wstat o, .cancel o, .cntrd o, .ahnd o,
          .grpopGopen o, .grpopGclose o, .grpopPopen o, .grpopPclose o, .rdtime o, .rdrand o, .ebreak o, .pmrd o, .jmark o] →
        exec i s = .next (s.fault { code := clsPriv })))

/-- R281, R164: SPAWN and FORK. A cancelled node takes no task; with room in the deque the record joins its young end
and the node's counter rises; p(D) tells; FORK with bit 0 of p(A) clear creates nothing. R281, R282, R166, R223:
with the deque full and inlining allowed SPAWN and FORK call their record: the return address joins the inline
stack, and the child starts at CODE with its record in x1, x10 and x11; a CODE off a multiple of 4 is an ALIGN
fault. With no inlining left the 8 oldest records move to the graph's ring and the new one joins the deque, or,
where the ring has no room, the fault is SPILL. RET to the address on top takes it back off and completes the
child. R283, R169: RSPAWN sends its record to the mailbox of the core x(A) names and waits; the answer is p(D). A
coordinate that names no core of the partition is a LEASE fault; a cancelled node's record goes nowhere. The model's choices:
a misaligned CODE of an inline child is a fault of SPAWN or FORK itself (assumption log 27), a cancelled SPAWN dequeues B (log 26),
the LEASE fault of RSPAWN has ADDR 0 (log 88). -/
def Obligations.TaskCreation : Prop :=
  (∀ (s : State) (o : OpS) (p : Fin 8) (k k' : Ctx) (code arg : Word), o.d = .p p → Fresh s → s.me.quiet = true →
      let r := s.me.run
      let record (code arg : Word) : Task :=
        { code := code, fp := s.me.getX 10, jrec := s.me.getX 11, arg := arg, graph := r.graph, node := r.node }
      let created (k : Ctx) (code arg : Word) (t : State) : Prop :=
        (t.core (coreOf s.cur)).deque = (s.core (coreOf s.cur)).deque ++ [record code arg]
        ∧ t.job r.job = (s.job r.job).modNode r.graph r.node (fun x => { x with counter := x.counter + 1 })
        ∧ OnlyDest s.me k t.me o.d 0 ∧ Holds t.me (truth true) 0 o.d ∧ SameMemory s t ∧ SameOthers s t ∧ t.net = s.net
      let none_ (k : Ctx) (t : State) : Prop := OnlyMe s t ∧ OnlyDest s.me k t.me o.d 0 ∧ Holds t.me (truth false) 0 o.d
      (s.me.srcOk o.b = true → s.me.val o.b = .ok (arg, k) → s.me.val o.a = .ok (code, k') →
        (s.cancelledRun s.cur = true → Gives (.spawn o) s (none_ k))
        ∧ (s.cancelledRun s.cur = false → (s.core (coreOf s.cur)).deque.length < 16 →
            Gives (.spawn o) s (created k code arg)))
      ∧ (∀ a : Fin 8, o.a = .p a →
        ((s.me.getP a.val).getLsbD 0 = false → Gives (.fork o) s (none_ s.me))
        ∧ ((s.me.getP a.val).getLsbD 0 = true → s.cancelledRun s.cur = false → (s.core (coreOf s.cur)).deque.length < 16 →
            Gives (.fork o) s (created s.me (s.me.pc + Opd.immVal o.b * 4) (s.me.getX 1)))))
  ∧ (∀ (s : State) (o : OpS) (i : Instr) (p : Fin 8) (k : Ctx) (code arg : Word),
      let r := s.me.run
      let dq := (s.core (coreOf s.cur)).deque
      let count (f : Nat → Nat) (t : State) : Prop :=
        t.job r.job = (s.job r.job).modNode r.graph r.node (fun x => { x with counter := f x.counter })
      let fields (x : Task) := [x.code, x.fp, x.jrec, x.arg]
      (o.d = .p p → Fresh s → s.me.quiet = true → s.cancelledRun s.cur = false → 16 ≤ dq.length →
        ((i = .spawn o ∧ s.me.srcOk o.b = true ∧ s.me.val o.b = .ok (arg, k) ∧ ∃ k', s.me.val o.a = .ok (code, k'))
          ∨ (i = .fork o ∧ k = s.me ∧ arg = s.me.getX 1 ∧ code = s.me.pc + Opd.immVal o.b * 4
              ∧ ∃ q : Fin 8, o.a = .p q ∧ (s.me.getP q.val).getLsbD 0 = true)) →
        (s.me.sys.inlDepth < (s.job r.job).cfg.inlmax → code.toNat % 4 = 0 →
          Gives i s fun t =>
            t.me.pc = code ∧ t.me.getX 61 = s.me.pc + 12 ∧ t.me.getX 1 = arg
            ∧ t.me.getX 10 = s.me.getX 10 ∧ t.me.getX 11 = s.me.getX 11
            ∧ t.me.sys.inlStack = (s.me.pc + 12) :: s.me.sys.inlStack ∧ t.me.sys.inlDepth = s.me.sys.inlDepth + 1
            ∧ Holds t.me (truth true) 0 o.d ∧ count (· + 1) t ∧ SameMemory s t ∧ SameOthers s t)
        ∧ (s.me.sys.inlDepth < (s.job r.job).cfg.inlmax → code.toNat % 4 ≠ 0 →
          exec i s = .next (s.fault (flt clsAlign code.toNat)))
        ∧ ((s.job r.job).cfg.inlmax ≤ s.me.sys.inlDepth →
          ((∀ g, (s.job r.job).graph? r.graph = some g → g.spillq < g.spill.length + 8) →
            exec i s = .next (s.fault { code := clsSpill }))
          ∧ ∀ g, Quiet s → (s.job r.job).cfg.mode = 0 → (s.job r.job).graph? r.graph = some g →
            g.spill.length + 8 ≤ g.spillq → Gives i s fun t =>
              ((t.core (coreOf s.cur)).deque = dq.drop 8
                ++ [{ code := code, fp := s.me.getX 10, jrec := s.me.getX 11, arg := arg, graph := r.graph, node := r.node }])
              ∧ ((t.job r.job).graph? r.graph).map (·.spill.map fields) = some ((g.spill ++ dq.take 8).map fields)
              ∧ ((t.job r.job).node? r.graph r.node).map (·.counter)
                  = ((s.job r.job).node? r.graph r.node).map (·.counter + 1)
              ∧ OnlyDest s.me k t.me o.d 0 ∧ Holds t.me (truth true) 0 o.d ∧ SameOthers s t))
      ∧ (s.me.sys.inlStack.head? = some (s.me.getX 61) → (s.me.getX 61).toNat % 4 = 0 →
        Gives (.ret o) s fun t =>
          t.me.pc = s.me.getX 61 ∧ t.me.sys.inlStack = s.me.sys.inlStack.tail ∧ t.me.sys.inlDepth = s.me.sys.inlDepth - 1
          ∧ count (· - 1) t ∧ SameRegs s t ∧ SameMemory s t ∧ SameOthers s t))
  ∧ (∀ (s : State) (o : OpS) (a : Fin 64) (p : Fin 8) (k : Ctx) (arg : Word),
      (∀ bs, s.me.stage.rep = some bs → o.d = .p p → Gives (.rspawn o) s fun t =>
        OnlyMe s t ∧ OnlyDest s.me s.me t.me o.d 0 ∧ Holds t.me (truth (bs.head? == some 1)) 0 o.d)
      ∧ (Quiet s → o.a = .x a → s.me.srcOk o.b = true → s.me.val o.b = .ok (arg, k) →
        (∀ core, s.coordCore (s.me.getX a.val).toNat = some core → s.cancelledRun s.cur = false → s.mayInject s.cur = true →
          Asks (.rspawn o) s (.mail core
            { code := s.me.getX (a.val + 1), fp := s.me.getX 10, jrec := s.me.getX 11, arg := arg,
              graph := s.me.run.graph, node := s.me.run.node, sender := packCoord s.cur }))
        ∧ (∀ core, s.coordCore (s.me.getX a.val).toNat = some core → s.cancelledRun s.cur = true → o.d = .p p →
          Gives (.rspawn o) s fun t =>
            OnlyMe s t ∧ OnlyDest s.me k t.me o.d 0 ∧ Holds t.me (truth false) 0 o.d)
        ∧ (s.coordCore (s.me.getX a.val).toNat = none → exec (.rspawn o) s = .next (s.fault (flt clsLease 0)))))

/-- R167, R284: JOIN on a record of the run's own bank takes one from its count in one step; the last arrival goes on
at CPC, an earlier one halts, and a count that is not positive is a terminal TRAP. On a record elsewhere the
answer of its home decides in the same way. A halt of an inline child's handler returns from the handler first (assumption log
115). R161, R162, R285: HALT ends a run that has nothing outstanding at
once: its context is free, its task completes at its node, and HALT.retain keeps its banks for the successor it
names. -/
def Obligations.JoinAndHalt : Prop :=
  (∀ (s : State) (o : OpS) (a : Fin 64), o.a = .x a →
      (∀ core bank off,
        let va := (s.me.getX a.val).toNat
        let k := bankKey core bank off
        Quiet s → s.check s.cur .atomic va 16 = .ok (.own core bank off) → s.me.sys.inlStack = [] →
        (s.job s.me.run.job).cfg.mode = 0 →
        (s.word k = 1 → s.word (k + 8) % 4 = 0 → Gives (.join o) s fun t =>
            t.me.pc = BitVec.ofNat 64 (s.word (k + 8)) ∧ t.word k = 0 ∧ SameRegs s t
            ∧ ∀ b, ¬ (k ≤ b ∧ b < k + 8) → t.byte b = s.byte b)
        ∧ (1 < s.word k → s.word k < 2 ^ 63 → s.word (k + 8) % 4 = 0 → Gives (.join o) s fun t =>
            (t.me.run.kind = .free ∨ t.me.sys.ending = 4) ∧ t.word k = s.word k - 1)
        ∧ (s.word k = 0 ∨ 2 ^ 63 ≤ s.word k →
            ∃ u, exec (.join o) s = .next (State.fault u { code := clsTrap, idx := 0x10000 }) ∧ SameRegs s u))
      ∧ (∀ bs, s.me.stage.rep = some bs → (s.me.sys.lvl = .handler → s.me.sys.inlStack ≠ [] → s.handlerBusy s.cur = false) →
        let cnt := toSigned 64 (leNat (bs.take 8))
        let cpc := BitVec.ofNat 64 (leNat (bs.drop 8))
        (cnt ≤ 0 → exec (.join o) s = .next (s.fault { code := clsTrap, idx := 0x10000 }))
        ∧ (0 < cnt → cpc.toNat % 4 ≠ 0 → exec (.join o) s = .next (s.fault (flt clsAlign cpc.toNat)))
        ∧ (cnt = 1 → cpc.toNat % 4 = 0 → Gives (.join o) s fun t => t.me.pc = cpc ∧ SameRegs s t ∧ SameMemory s t)
        ∧ (1 < cnt → cpc.toNat % 4 = 0 → s.me.sys.inlStack = [] → Gives (.join o) s fun t =>
            t.me.run.kind = .free ∨ t.me.sys.ending = 4)))
  ∧ (∀ (s : State) (o : OpS) (a : Fin 64), Quiet s → s.me.sys.inlStack = [] → s.me.sys.inlDepth = 0 →
      s.me.streams = [] → s.me.run.kind = .task → s.me.run.hand = none → s.me.sys.deferred = none →
      ((s.clu (cluOf s.cur)).jobs.all fun j => j.ctx != s.cur) = true → s.heldSyncs s.cur = [] →
      ((s.core (coreOf s.cur)).bars.all fun b => !(b.2.own && b.2.ctx == s.cur % 4)) = true →
      let r := s.me.run
      (∀ g ∈ (s.job r.job).graphs, g.parent ≠ some (r.graph, r.node)) →
      let gone (t : State) : Prop :=
        t.me = { nextId := s.me.nextId } ∧ SameMemory s t ∧ SameOthers s t
        ∧ ((t.job r.job).node? r.graph r.node).map (·.counter)
            = ((s.job r.job).node? r.graph r.node).map (·.counter - 1)
      Gives (.halt o) s (fun t => gone t ∧ (t.core (coreOf s.cur)).kept = (s.core (coreOf s.cur)).kept)
      ∧ (o.a = .x a → Gives (.haltRetain o) s fun t => gone t
          ∧ (t.core (coreOf s.cur)).kept = (s.core (coreOf s.cur)).kept
              ++ [{ graph := (s.me.getX a.val).toNat / 2 ^ 32, node := (s.me.getX a.val).toNat % 2 ^ 32, banks := r.banks }]))
  ∧ (∀ (s : State) (o : OpS) (ret : Word) (r : List Word), s.me.sys.lvl = .handler → s.me.sys.inlStack = ret :: r →
      (s.handlerBusy s.cur = true → exec (.halt o) s = .next s)
      ∧ (s.handlerBusy s.cur = false → Gives (.halt o) s fun t =>
        t.me.pc = ret ∧ t.me.sys.lvl = .run ∧ t.me.getX 63 = s.me.sys.x63 ∧ (∀ n, n ≠ 63 → t.me.getX n = s.me.getX n)
        ∧ t.me.sys.inlStack = r ∧ SameMemory s t ∧ SameOthers s t
        ∧ ∀ e ∈ (t.clu (cluOf s.cur)).tiles, e.2.own ≠ some (s.cur, .handler)))

/-! ## Loads and stores -/

/-- R28, R77, R289 to R291: LD and LDL. An unordered load to a register issues: it is open with its destination and
place, an own window's read enters the core's loop-back port, and nothing else changes; an ACQ or SC load, or one to a queue, blocks its context; a load whose check fails faults.
A rank whose run has halted reads zero at once and sets LWND. That a blocking load blocks its whole context is the model's
choice (assumption log 10). -/
def Obligations.LoadsIssue : Prop :=
  ∀ (s : State) (o : OpM) (i : Instr) (va : Nat) (loc : Loc), Fresh s → (o.ord.hasRel = true → Quiet s) →
    let near := loc.route (coreOf s.cur) = .lp
    let opened (dst : LdDst) (wide : Bool) (t : State) : Prop :=
      t.me.loads = s.me.loads ++ [{
        id := s.me.nextId, dst := dst, evp := o.evp.val, wide := wide, pc := s.me.pc,
        pieces := [{ va := va, loc := loc, size := o.esz.size, st := if near then .sent else .waiting }] }]
      ∧ (if near then ∃ q, (t.core (coreOf s.cur)).lp = (s.core (coreOf s.cur)).lp ++ [q] ∧ q.cls = .req
            ∧ q.who = .load s.cur s.me.nextId 0 ∧ q.pl = .read loc o.esz.size false
          else ∀ c, (t.core c).lp = (s.core c).lp)
      ∧ t.me.sb = s.me.sb ∧ t.net = s.net ∧ SameRegs s t ∧ SameMemory s t ∧ SameOthers s t
    (i = .ld o ∧ va = s.me.ea o o.esz.size ∧ s.check s.cur .load va o.esz.size = .ok loc
      ∨ i = .ldl o ∧ s.rankLoc o = .ok (some (va, loc))) →
    (o.ord.hasAcq = false → o.d.isQ = false →
      Gives i s fun t => opened (loadDst o.d o.esz) false t ∧ t.me.pc = s.me.pc + 12)
    ∧ (o.ord.hasAcq = true ∨ o.d.isQ = true → s.destRoom s.cur o.d o.esz = .ok () →
      Gives i s fun t => opened .rep (o.ord.hasAcq && o.scope.wide) t ∧ t.me.pc = s.me.pc ∧ t.me.stage.ph = 2)

/-- R19, R290, R291: a load or store whose address fails a check takes its fault and does nothing else: no store
enters SB or NET, no destination is written. R289 to R291: the bytes a blocked LD or LDL waited for reach its
destination, extended by the type, and the next instruction follows; so do zeros where the rank has halted. -/
def Obligations.BlockedLoadsAndFailures : Prop :=
  (∀ (s : State) (o : OpM) (f : FaultInfo), Fresh s →
      (s.destRoom s.cur o.d o.esz = .ok () → s.check s.cur .load (s.me.ea o o.esz.size) o.esz.size = .error f →
        exec (.ld o) s = .next (s.fault f))
      ∧ (s.destRoom s.cur o.d o.esz = .ok () → s.rankLoc o = .error f → exec (.ldl o) s = .next (s.fault f))
      ∧ (∀ d, s.me.srcOk o.d = true → s.me.storeData o.d o.esz = .ok d →
        (s.check s.cur .store (s.me.ea o o.esz.size) o.esz.size = .error f → exec (.st o) s = .next (s.fault f))
        ∧ (s.rankLoc o = .error f → exec (.stl o) s = .next (s.fault f))))
  ∧ (∀ (s : State) (o : OpM) (bs : List Byte), (s.job s.me.run.job).cfg.mode = 0 →
      (s.me.stage.rep = some bs →
        (∀ n, o.d = .x n → Gives (.ld o) s (Answered s · o.d (loadWord o.esz bs))
          ∧ Gives (.ldl o) s (Answered s · o.d (loadWord o.esz bs)))
        ∧ (∀ n, o.d = .v n → Gives (.ld o) s fun t =>
            t.me.getV n.val = BitVec.ofNat 512 (leNat bs) ∧ t.me.pc = s.me.pc + 12 ∧ t.me.x = s.me.x ∧ SameMemory s t)
        ∧ (∀ n pk u, o.d = .q n pk → o.ord.hasAcq = false → o.esz.width ≤ 64 →
            s.put s.cur n.val (entryOf (loadWord o.esz bs)) = .ok u →
            exec (.ld o) s = .next u.advance ∧ exec (.ldl o) s = .next u.advance))
      ∧ (∀ n, o.d = .x n → Quiet s → s.rankLoc o = .ok none →
        Gives (.ldl o) s fun t => Answered s t o.d 0 ∧ t.me.sys.cstat = s.me.sys.cstat ||| BitVec.twoPow 64 cstatLwnd))

/-- R71, R75, R289 to R291: ST and STL to a place that goes by way of SB join SB with their bytes and change no byte
of memory; to another place they leave as a write packet counted in UNACK, by NET or, to the core's own windows, by its
loop-back port. A rank that has halted takes nothing. -/
def Obligations.StoresIssue : Prop :=
  ∀ (s : State) (o : OpM) (i : Instr) (va : Nat) (loc : Loc) (bs : List Byte) (k : Ctx), Fresh s →
    (o.ord.hasRel = true → Quiet s) → o.ord.hasAcq = false → s.me.streams = [] → s.me.srcOk o.d = true →
    s.me.storeData o.d o.esz = .ok (bs, k) →
    ((i = .st o ∧ va = s.me.ea o o.esz.size ∧ s.check s.cur .store va o.esz.size = .ok loc
        ∨ i = .stl o ∧ s.rankLoc o = .ok (some (va, loc))) →
      (loc.route (coreOf s.cur) = .sb → Gives i s fun t =>
        (∃ e, t.me.sb = s.me.sb ++ [e] ∧ e.va = va ∧ e.loc = loc ∧ e.bytes = bs ∧ e.evp = o.evp.val
          ∧ e.ord = o.ord ∧ e.scope = o.scope ∧ e.red = none)
        ∧ t.net = s.net ∧ t.me.unack = s.me.unack ∧ t.me.qs = k.qs ∧ t.me.pc = s.me.pc + 12
        ∧ SameRegs s t ∧ SameMemory s t ∧ SameOthers s t)
      ∧ (loc.route (coreOf s.cur) = .net → s.mayInject s.cur = true → Gives i s fun t =>
        (∃ p, t.net = s.net ++ [p] ∧ p.cls = .req ∧ p.who = .store s.cur ∧ p.pl = .write loc bs)
        ∧ t.me.unack = s.me.unack + 1 ∧ t.me.sb = s.me.sb ∧ t.me.qs = k.qs ∧ t.me.pc = s.me.pc + 12
        ∧ SameRegs s t ∧ SameMemory s t ∧ SameOthers s t)
      ∧ (loc.route (coreOf s.cur) = .lp → Gives i s fun t =>
        (∃ p, (t.core (coreOf s.cur)).lp = (s.core (coreOf s.cur)).lp ++ [p] ∧ p.cls = .req ∧ p.who = .store s.cur
          ∧ p.pl = .write loc bs)
        ∧ t.net = s.net ∧ t.me.unack = s.me.unack + 1 ∧ t.me.sb = s.me.sb ∧ t.me.qs = k.qs ∧ t.me.pc = s.me.pc + 12
        ∧ SameRegs s t ∧ SameMemory s t ∧ SameOthers s t))
    ∧ (s.rankLoc o = .ok none → Gives (.stl o) s fun t =>
        t.me.sb = s.me.sb ∧ t.net = s.net ∧ t.me.unack = s.me.unack ∧ t.me.pc = s.me.pc + 12
        ∧ t.me.sys.cstat = s.me.sys.cstat ||| BitVec.twoPow 64 cstatLwnd ∧ SameRegs s t ∧ SameMemory s t)

/-- R76: DRAIN performs the oldest store of a context. To the run's own bank its bytes, and no other byte, change in
memory; to class 000 they become valid and dirty in the cluster's view, where their line is present or its set has
room, and no byte of memory changes. It waits for no earlier load: one of the same bytes that is not performed yet takes
its value first (R77; assumption log 99). R77: PERFORM of a load of one piece. From the run's own bank each byte is that of the youngest
store in SB that covers it, else the bank's; from class 000 it is SB's or the view's; where the view lacks a byte
the line is asked for. The performed load writes its register and is open no more. -/
def Obligations.StoresArePerformed : Prop :=
  (∀ (s : State) (n : Nat) (e : SbEntry) (r : List SbEntry), (s.ctx n).sb = e :: r → (s.ctx n).streams = [] →
      (∀ c b off, s.inPort n e.tag (bankKey c b off) e.bytes.length = false → e.loc = .own c b off → Gives (.drain n) s fun t =>
        (t.ctx n).sb = r ∧ t.bytes (bankKey c b off) e.bytes.length = e.bytes
        ∧ (∀ a, ¬ (bankKey c b off ≤ a ∧ a < bankKey c b off + e.bytes.length) → t.byte a = s.byte a)
        ∧ t.net = s.net ∧ (∀ m, m ≠ n → t.ctx m = s.ctx m)
        ∧ ∀ (l : OpenLoad) (p : Piece) (q : Fin 64) (ty : Esz) (lo : Nat), (s.ctx n).loads = [l] → l.pieces = [p] → p.st = .waiting →
            l.dst = .x q.val ty → l.id < e.tag → p.loc = .own c b lo → covers (bankKey c b lo) p.size (bankKey c b off) e.bytes.length = true →
            (t.ctx n).loads = [] ∧ Holds (t.ctx n) (loadWord ty ((List.range p.size).map fun i =>
              ((s.ctx n).sbByteBy l.id (p.va + i)).getD (s.byte (bankKey c b lo + i)))) 0 (.x q))
      ∧ (∀ pa, e.loc = .hbm pa → e.red = none → e.ord = .rlx → e.evp ≠ 0 →
        (s.clu (cluOf n)).rb = [] → ((s.cv (cluOf n) (lineOf pa)).isSome = true
          ∨ ((s.clu (cluOf n)).lines.filter fun p => p.1 != lineOf pa && l1Mates p.1 (lineOf pa)).length < 8) →
        ((s.clu (cluOf n)).wbOut.all fun p => p.2 != lineOf pa + 1) = true → (s.clu (cluOf n)).dl.length < 4096 →
        pa % 128 + e.bytes.length ≤ 128 → Gives (.drain n) s fun t =>
          (t.ctx n).sb = r ∧ SameMemory s t ∧ t.net = s.net
          ∧ ∃ l, t.cv (cluOf n) (lineOf pa) = some l
              ∧ (∀ i b, e.bytes[i]? = some b → l.byte? true (pa % 128 + i) = some b ∧ l.byte? false (pa % 128 + i) = some b)
              ∧ ∀ x j, s.cv (cluOf n) (lineOf pa) = some x → j < 128 →
                  ¬ (pa % 128 ≤ j ∧ j < pa % 128 + e.bytes.length) → l.byte? false j = x.byte? false j))
  ∧ (∀ (s : State) (n : Nat) (l : OpenLoad) (p : Piece) (r : Fin 64) (ty : Esz),
      (s.ctx n).loads = [l] → l.pieces = [p] → p.st = .waiting → l.dst = .x r.val ty →
      let performed (bs : List Byte) (t : State) : Prop :=
        (t.ctx n).loads = [] ∧ Holds (t.ctx n) (loadWord ty bs) 0 (.x r)
        ∧ (∀ m, m ≠ r.val → (t.ctx n).getX m = (s.ctx n).getX m) ∧ (t.ctx n).pc = (s.ctx n).pc
        ∧ SameMemory s t ∧ ∀ m, m ≠ n → t.ctx m = s.ctx m
      (∀ c b off, p.loc = .own c b off → Gives (.perform n l.id 0) s
        (performed ((List.range p.size).map fun i => ((s.ctx n).sbByteBy l.id (p.va + i)).getD (s.byte (bankKey c b off + i)))))
      ∧ (∀ pa, p.loc = .hbm pa → (s.clu (cluOf n)).rb = [] →
        ((s.clu (cluOf n)).wbOut.all fun q => q.2 != lineOf pa + 1) = true →
        ((s.nearBytes n l.id p l.wide).all (·.isSome) = true → Gives (.perform n l.id 0) s
          (performed ((s.nearBytes n l.id p l.wide).map (·.getD 0))))
        ∧ ((s.nearBytes n l.id p l.wide).all (·.isSome) = false → s.mayInject n = true → l.evp ≠ 0 →
          Gives (.perform n l.id 0) s fun t =>
            (∃ q, t.net = s.net ++ [q] ∧ q.cls = .req ∧ q.who = .load n l.id 0 ∧ q.pl = .read (.hbm (lineOf pa)) 128 true)
            ∧ (∀ m, (t.ctx n).getX m = (s.ctx n).getX m) ∧ SameMemory s t ∧ ∀ m, m ≠ n → t.ctx m = s.ctx m)))

/-- R28, R72, R75: DELIVER and LOOP_BACK_DELIVER. A write stores exactly its bytes where it arrives and is
acknowledged; a read is answered with the bytes there; an acknowledgement takes one from its context's UNACK. -/
def Obligations.PacketsAreDelivered : Prop :=
  ∀ (s : State) (k n : Nat) (p : Packet) (a : Nat) (bs : List Byte),
    (s.net[k]? = some p → s.mayDeliver k = true →
      (p.cls = .req → p.who = .store n → p.pl = .write (.hbm a) bs → p.epo = none → a < 2 ^ 39 →
        Gives (.deliver k) s fun t =>
          t.bytes a bs.length = bs ∧ (∀ b, ¬ (a ≤ b ∧ b < a + bs.length) → t.byte b = s.byte b)
          ∧ t.ctxs = s.ctxs ∧ ∃ q, t.net = s.net.eraseIdx k ++ [q] ∧ q.cls = .rsp ∧ q.who = p.who ∧ q.pl = .ack false)
      ∧ (∀ len f, p.cls = .req → p.pl = .read (.hbm a) len f → s.homeFree (lineOf a) = true →
        Gives (.deliver k) s fun t => SameMemory s t ∧ (∀ m, (t.ctx m).x = (s.ctx m).x ∧ (t.ctx m).pc = (s.ctx m).pc)
          ∧ ∃ q, t.net = s.net.eraseIdx k ++ [q] ∧ q.cls = .rsp ∧ q.who = p.who ∧ q.pl = .value (s.bytes a len) false)
      ∧ (p.cls = .rsp → p.who = .store n → p.pl = .ack false → Gives (.deliver k) s fun t =>
          (t.ctx n).unack = (s.ctx n).unack - 1 ∧ t.net = s.net.eraseIdx k ∧ SameMemory s t
          ∧ (∀ m, (t.ctx n).getX m = (s.ctx n).getX m) ∧ ∀ m, m ≠ n → t.ctx m = s.ctx m))
    ∧ (∀ core b off r, (s.core core).lp = p :: r → p.cls = .req → p.pl = .write (.window core b off) bs →
        p.epo = none → s.bankAt core b = .held →
        Gives (.loopBackDeliver core) s fun t =>
          t.bytes (bankKey core b off) bs.length = bs
          ∧ (∀ c, ¬ (bankKey core b off ≤ c ∧ c < bankKey core b off + bs.length) → t.byte c = s.byte c)
          ∧ t.ctxs = s.ctxs ∧ ∃ q, (t.core core).lp = r ++ [q] ∧ q.cls = .rsp ∧ q.who = p.who ∧ q.pl = .ack false)

/-- R80, R94 to R96: WRITE_BACK sends a line's dirty bytes and leaves the line clean; DROP takes a clean line from the
view and leaves a dirty one; RECALL_MERGE combines a returned partial with the home's word and empties the holder
set. None of the first two changes a byte of memory. R292 to R294, R46, R104, R144: a line operation on a
misaligned range faults, PRF then does nothing. PRF asks for a line it lacks and drops one that fails its check;
WBK, INV, DIS and PLF complete once what they wait for has come; RGSYNC sends the dirty bytes and calls back the update-only
lines of the ranges that change, then drops their copies and installs the image its table gives, or names the table's first bad
entry, whose address in the record is the model's choice (assumption log 95). -/
def Obligations.LinesComeHome : Prop :=
  (∀ (s : State) (clu k : Nat) (l : CvLine),
      (s.cv clu k = some l →
        (l.isDirty = true → Gives (.writeBack clu k) s fun t =>
          (∃ q m, t.net = s.net ++ [q] ∧ q.cls = .wb ∧ q.pl = .writeBack k l.dirty l.data m)
          ∧ t.cv clu k = some { l with dirty := 0, mdirty := false } ∧ k ∉ (t.clu clu).dl
          ∧ (∃ id, (t.clu clu).wbOut = (s.clu clu).wbOut ++ [(id, k)]) ∧ t.ctxs = s.ctxs ∧ SameMemory s t)
        ∧ (l.isDirty = false → Gives (.drop clu k) s fun t =>
          t.cv clu k = none ∧ (∀ j, j ≠ k → t.cv clu j = s.cv clu j) ∧ t.ctxs = s.ctxs ∧ SameMemory s t)
        ∧ (l.isDirty = true → exec (.drop clu k) s = .next s))
      ∧ (∀ w : RbWord, k % 128 = 0 → k < 2 ^ 39 → w.off + w.esz.size ≤ 128 → w.esz.size ≤ 8 →
        (s.home k).recalls = some [] → (s.home k).back = [(clu, [w])] → (s.home k).waiting = [] → s.pkg.inbox = [] →
        (∀ c, (s.job c).cfg.mode = 0) →
        Gives (.recallMerge k) s fun t =>
          leNat (t.bytes (k + w.off) w.esz.size)
              = aopVal w.op w.esz (leNat (s.bytes (k + w.off) w.esz.size)) w.val.toNat % 2 ^ (8 * w.esz.size)
          ∧ (∀ a, ¬ (k + w.off ≤ a ∧ a < k + w.off + w.esz.size) → t.byte a = s.byte a)
          ∧ (t.home k).holders = [] ∧ (t.home k).recalls = none ∧ t.ctxs = s.ctxs))
  ∧ (∀ (s : State) (o : OpM),
      let r := s.me.lineRange o
      let clu := cluOf s.cur
      (lineRangeOk r = false →
        (∀ i, i ∈ [Instr.wbk o, .inv o, .dis o, .plf o] → exec i s = .next (s.fault (flt clsAlign r.1)))
        ∧ Gives (.prf o) s (JustNext s))
      ∧ (lineRangeOk r = true → r.2 = 128 → r.1 < 2 ^ 64 →
        (∀ pa, Fresh s → s.check s.cur .prf r.1 128 = .ok (.hbm pa) → s.mayInject s.cur = true →
          Gives (.prf o) s fun t => Passes s t
            ∧ ∃ q, t.net = s.net ++ [q] ∧ q.cls = .req ∧ q.pl = .read (.hbm pa) 128 true)
        ∧ (∀ f, Fresh s → s.check s.cur .prf r.1 128 = .error f → Gives (.prf o) s (JustNext s))
        ∧ (∀ pa l op, s.me.stage = {} → s.me.sb = [] → (s.clu clu).rb = [] → (s.clu clu).wbOut = [] →
          s.me.unack = 0 → (op = LineOp.wbk ∨ op = .inv) → s.lineCheck op r.1 = .ok (.hbm pa) → s.cv clu pa = some l →
          l.isDirty = true → Gives (match op with | .wbk => .wbk o | _ => .inv o) s fun t =>
            (∃ q m, t.net = s.net ++ [q] ∧ q.cls = .wb ∧ q.pl = .writeBack pa l.dirty l.data m)
            ∧ t.me.pc = s.me.pc ∧ t.me.stage.a = 1 ∧ SameRegs s t ∧ SameMemory s t)
        ∧ (s.me.stage.a = 1 → (s.clu clu).awaits s.me.stage.ids = false →
          Gives (.wbk o) s (JustNext s)
          ∧ (Gives (.inv o) s fun t => Passes s t ∧ ∀ pa ∈ s.me.stage.keys,
              (∀ l, s.cv clu pa = some l → l.isDirty = false) → t.cv clu pa = none)
          ∧ (s.me.stage.ph = 4 → Gives (.dis o) s fun t =>
              t.me.pc = s.me.pc ∧ t.me.stage.ph = 5 ∧ (t.discards.get? t.me.stage.b).isSome = true ∧ SameRegs s t ∧ SameMemory s t)
          ∧ (∀ d, s.me.stage.ph = 5 → s.discards.get? s.me.stage.b = some d → d.done = true →
              Gives (.dis o) s fun t => Passes s t ∧ t.discards.get? s.me.stage.b = none)
          ∧ (s.me.stage.ph = 5 → s.me.stage.out = 0 → (s.me.stage.keys.filter keyIsHome).length ≤ s.me.stage.b →
              Gives (.plf o) s fun t => Passes s t
              ∧ ∀ pa ∈ s.me.stage.keys, ∀ c, keyIsHome pa = true → (s.clu c).owner = some s.me.run.job →
                  t.cv c (pa + 2 ^ 47) = none)))
      ∧ (∀ h, (s.job s.me.run.job).rgq = [s.cur] → 16384 ≤ s.me.stage.cap.length →
        (∀ k, regImage s.myJob s.me.stage.cap = .error k → ∃ u : State, exec (.rgsync h) s
            = .next (u.fault { code := clsRegion, idx := k, elem := true, addr := s.myJob.cfg.rgtb.toNat + 64 * k })
          ∧ (u.job s.me.run.job).regions = s.myJob.regions)
        ∧ (∀ im, regImage s.myJob s.me.stage.cap = .ok im →
          let old := s.myJob.regions
          let cl := s.clusOf s.me.run.job
          ((∀ c ∈ cl, (∀ p ∈ (s.clu c).lines, p.2.changes old im = true → p.2.isDirty = false)
              ∧ (∀ r ∈ (s.clu c).rb, namesChange r.vas old im = false) ∧ (s.clu c).wbOut = []) →
            (∀ l ∈ s.me.stage.keys, (s.home l).recalls = none) →
            Gives (.rgsync h) s fun t => Passes s t ∧ (t.job s.me.run.job).regions = im ∧ (t.job s.me.run.job).rgq = []
              ∧ ∀ c ∈ cl, ∀ p, p ∈ (t.clu c).lines ↔ p ∈ (s.clu c).lines ∧ p.2.changes old im = false)
          ∧ (∀ c k l, cl = [c] → (s.clu c).lines = [(k, l)] → l.changes old im = true → l.isDirty = true → (s.clu c).rb = [] →
            Gives (.rgsync h) s fun t => t.me.pc = s.me.pc ∧ SameRegs s t ∧ SameMemory s t ∧ (t.job s.me.run.job).regions = old
              ∧ ∃ q m, t.net = s.net ++ [q] ∧ q.cls = .wb ∧ q.pl = .writeBack k l.dirty l.data m)
          ∧ (∀ c r, cl = [c] → (s.clu c).lines = [] → (s.clu c).rb = [r] → namesChange r.vas old im = true →
            (s.home r.line).holders = [(c, r.life)] → (s.home r.line).recalls = none →
            Gives (.rgsync h) s fun t => t.me.pc = s.me.pc ∧ SameRegs s t ∧ SameMemory s t ∧ (t.job s.me.run.job).regions = old
              ∧ t.me.stage.keys.contains r.line = true ∧ (t.home r.line).recalls = some [(c, r.life)]
              ∧ ∃ q, t.net = s.net ++ [q] ∧ q.cls = .req ∧ q.pl = .recallReq r.line c r.life))))

/-! ## Atomics -/

/-- R89, R90, R97, R296, R298: in the run's own bank AMO, CAS, FPUT, FGET and FPEEK act in one step: the old value is
their result, the word and its mark become what the operation makes of them, and no other byte changes. FPUT on a full
word writes nothing and answers 0. -/
def Obligations.AtomicsInTheOwnBank : Prop :=
  ∀ (s : State) (o : OpA) (core bank off : Nat) (b : Word) (k : Ctx) (n : Fin 64) (p m : Fin 8),
    let va := s.me.aAddr o
    let a := bankKey core bank off
    let sz := o.esz.size
    let old := leNat (s.bytes a sz)
    let word (n v : Nat) (t : State) : Prop :=
      leNat (t.bytes a n) = v ∧ ∀ c, ¬ (a ≤ c ∧ c < a + n) → t.byte c = s.byte c
    Quiet s → s.me.srcOk o.b = true → s.me.dstOk o.d = true → s.me.val o.b = .ok (b, k) →
    (s.job s.me.run.job).cfg.mode = 0 →
    (∀ op, o.d = .x n → o.esz ∈ [Esz.s32, .s64, .z32, .z64, .fp32] →
      s.check s.cur .atomic va sz = .ok (.own core bank off) → Gives (.amo op o) s fun t =>
        Holds t.me (loadWord o.esz (s.bytes a sz)) 0 o.d ∧ word sz (aopVal op o.esz old b.toNat % 2 ^ (8 * sz)) t
        ∧ t.me.pc = s.me.pc + 12 ∧ t.me.qs = k.qs ∧ (∀ j, j ≠ n.val → t.me.getX j = s.me.getX j) ∧ t.full = s.full)
    ∧ (o.d = .x n → o.esz ∈ [Esz.s32, .s64, .z32, .z64] →
      s.check s.cur .atomic va sz = .ok (.own core bank off) → Gives (.cas o) s fun t =>
        Holds t.me (loadWord o.esz (s.bytes a sz)) 0 o.d
        ∧ word sz (if old = (s.me.getX n.val).toNat % 2 ^ (8 * sz) then b.toNat % 2 ^ (8 * sz) else old) t
        ∧ t.me.pc = s.me.pc + 12 ∧ t.me.qs = k.qs ∧ (∀ j, j ≠ n.val → t.me.getX j = s.me.getX j) ∧ t.full = s.full)
    ∧ (s.check s.cur .atomic va 8 = .ok (.own core bank off) → a % 8 = 0 → s.homes.fwait.get [] a = [] →
      (o.d = .p p → Gives (.fput o) s fun t =>
        Holds t.me (truth !(s.mark a)) 0 o.d ∧ t.mark a = true
        ∧ word 8 (if s.mark a then s.word a else b.toNat) t ∧ t.me.pc = s.me.pc + 12 ∧ t.me.x = s.me.x)
      ∧ (o.d = .x n → s.mark a = true → Gives (.fget o) s fun t =>
        Holds t.me (BitVec.ofNat 64 (s.word a)) 0 o.d ∧ t.mark a = false ∧ SameMemory s t ∧ t.me.pc = s.me.pc + 12)
      ∧ (o.d = .x n → Gives (.fpeek m o) s fun t =>
        Holds t.me (BitVec.ofNat 64 (s.word a)) 0 o.d ∧ Holds t.me (truth (s.mark a)) 0 (.p m)
        ∧ t.mark a = s.mark a ∧ SameMemory s t ∧ t.me.pc = s.me.pc + 12))

/-- R90, R296 to R298: a returning atomic on a class-000 word leaves its cluster as a request with its operands, and
its context waits; the answer is its result. RED leaves in the same way and does not wait. R90, R92, R98: an
atomic request at its home finds the old value and leaves the new one, in one step with its answer; no other byte
changes. A waiting FGET is handed the value of the next FPUT. -/
def Obligations.AtomicsAtTheirHome : Prop :=
  (∀ (s : State) (o : OpA) (pa : Nat) (b : Word) (k : Ctx),
      let va := s.me.aAddr o
      let asks (i : Instr) (op : AtomOp) (c : Word) : Prop :=
        s.check s.cur .atomic va (op.size o.esz) = .ok (.hbm pa) → s.atPlace s.cur va op (.hbm pa) = .ok (.home (.hbm pa)) →
        (s.setMe k).destRoom s.cur o.d o.esz = .ok () → Asks i s (.atomic (.hbm pa) op o.esz b c none)
      (Quiet s → s.me.srcOk o.b = true → s.me.dstOk o.d = true → s.me.val o.b = .ok (b, k) →
        s.cv (cluOf s.cur) (lineOf pa) = none → (s.clu (cluOf s.cur)).rb = [] → s.mayInject s.cur = true →
        (∀ op, asks (.amo op o) (.op op) 0)
        ∧ asks (.cas o) .cas (match o.d with | .x n => s.me.getX n.val | _ => 0)
        ∧ asks (.fput o) .fput 0 ∧ asks (.fget o) .fget 0 ∧ (∀ m, asks (.fpeek m o) .fpeek 0)
        ∧ (∀ op, s.check s.cur .atomic va o.esz.size = .ok (.hbm pa) → s.redJoins o (.hbm pa) va = false →
            s.atPlace s.cur va (.red op) (.hbm pa) = .ok (.home (.hbm pa)) → Gives (.red op o) s fun t =>
              (∃ q, t.net = s.net ++ [q] ∧ q.cls = .req ∧ q.who = .store s.cur
                ∧ q.pl = .atomic (.hbm pa) (.red op) o.esz b 0 none)
              ∧ t.me.unack = s.me.unack + 1 ∧ t.me.pc = s.me.pc + 12 ∧ t.me.qs = k.qs ∧ SameRegs s t ∧ SameMemory s t))
      ∧ (∀ bs, s.me.stage.rep = some bs →
        (∀ n op, o.d = .x n → Gives (.amo op o) s (Answered s · o.d (loadWord o.esz bs))
          ∧ Gives (.cas o) s (Answered s · o.d (loadWord o.esz bs))
          ∧ Gives (.fget o) s (Answered s · o.d (BitVec.ofNat 64 (leNat (bs.take 8)))))
        ∧ (∀ n, o.d = .p n → Gives (.fput o) s (Answered s · o.d (truth (bs.head? == some 1))))))
  ∧ (∀ (s : State) (j n pa : Nat) (p : Packet) (t0 : Esz) (b c : Word),
      s.net[j]? = some p → s.mayDeliver j = true → p.cls = .req → p.who = .instr n → p.epo = none → pa < 2 ^ 39 →
      s.homeFree (lineOf pa) = true → (s.job (s.ctx n).run.job).cfg.mode = 0 →
      let word (n v : Nat) (t : State) : Prop :=
        leNat (t.bytes pa n) = v ∧ ∀ c, ¬ (pa ≤ c ∧ c < pa + n) → t.byte c = s.byte c
      let answered (bs : List Byte) (t : State) : Prop :=
        ∃ q, t.net = s.net.eraseIdx j ++ [q] ∧ q.cls = .rsp ∧ q.who = p.who ∧ q.pl = .value bs false
      let old := leNat (s.bytes pa t0.size)
      (∀ op, p.pl = .atomic (.hbm pa) (.op op) t0 b c none → t0.width ≤ 64 → Gives (.deliver j) s fun t =>
        word t0.size (aopVal op t0 old b.toNat % 2 ^ (8 * t0.size)) t ∧ answered (s.bytes pa t0.size) t ∧ t.full = s.full)
      ∧ (p.pl = .atomic (.hbm pa) .cas t0 b c none → t0.width ≤ 64 → Gives (.deliver j) s fun t =>
        word t0.size (if old = c.toNat % 2 ^ t0.width then b.toNat % 2 ^ t0.width else old) t
          ∧ answered (s.bytes pa t0.size) t ∧ t.full = s.full)
      ∧ (p.pl = .atomic (.hbm pa) .fget t0 b c none → s.mark pa = false → Gives (.deliver j) s fun t =>
        SameMemory s t ∧ t.net = s.net.eraseIdx j ∧ t.homes.fwait.get [] pa = s.homes.fwait.get [] pa ++ [n])
      ∧ (∀ m r, p.pl = .atomic (.hbm pa) .fput t0 b c none → s.mark pa = false → s.homes.fwait.get [] pa = m :: r →
        Gives (.deliver j) s fun t => SameMemory s t ∧ t.mark pa = false ∧ t.homes.fwait.get [] pa = r
          ∧ ∃ q q', t.net = s.net.eraseIdx j ++ [q, q'] ∧ q.who = .instr m ∧ q.pl = .value (leBytes 8 b.toNat) false
              ∧ q'.who = .instr n ∧ q'.pl = .value [1] false))

/-- R93, R94, R111: a RED of a cached SHRW line joins SB; when it drains its cluster registers an update-only line
with the operand combined with the operation's identity, and no byte of memory changes. -/
def Obligations.ReductionsGather : Prop :=
  ∀ (s : State) (o : OpA) (op : Aop) (pa : Nat) (b : Word) (k : Ctx),
    (s.me.srcOk o.b = true → s.me.val o.b = .ok (b, k) → s.check s.cur .atomic (s.me.aAddr o) o.esz.size = .ok (.hbm pa) →
      s.redJoins o (.hbm pa) (s.me.aAddr o) = true → Gives (.red op o) s fun t =>
        (∃ e, t.me.sb = s.me.sb ++ [e] ∧ e.loc = .hbm pa ∧ e.red = some (op, o.esz, b))
        ∧ t.me.pc = s.me.pc + 12 ∧ t.me.qs = k.qs ∧ t.net = s.net ∧ SameRegs s t ∧ SameMemory s t ∧ SameOthers s t)
    ∧ (∀ n e r, (s.ctx n).sb = e :: r → e.loc = .hbm pa → e.red = some (op, o.esz, b) →
      (s.clu (cluOf n)).rb = [] → s.mayInject n = true → Gives (.drain n) s fun t =>
        (t.ctx n).sb = r ∧ (t.ctx n).unack = (s.ctx n).unack + 1 ∧ SameMemory s t
        ∧ (t.clu (cluOf n)).rb
            = [⟨lineOf pa, [⟨pa % 128, op, o.esz, BitVec.ofNat 64 (aopVal op o.esz (aopId op o.esz) b.toNat)⟩], s.sent, [lineOf e.va]⟩]
        ∧ ∃ q, t.net = s.net ++ [q] ∧ q.cls = .req ∧ q.who = .store n ∧ q.pl = .reg (lineOf pa) (cluOf n) s.sent)

/-! ## Ordering and barriers -/

/-- R79, R82, R84 to R86, R300, R301: FENCE completes when nothing of its context is outstanding, and a wide one
leaves no clean byte outside RO ranges in the view; ACQ and REL ask the object's home and wait for the grant. Only
the holder releases. R83 to R85: at its home a free object is granted to the first that asks, its mirror word
naming the holder; a release passes it to the next in order of arrival, or frees it with mirror 0. -/
def Obligations.FencesAndObjects : Prop :=
  (∀ (s : State) (o : OpS) (pa : Nat),
      let va := s.me.sAddr o
      (Quiet s → (o.scope = .sys → s.linkAsked s.cur = false) → Gives (.fence o) s fun t =>
        t.me.pc = s.me.pc + 12 ∧ SameRegs s t ∧ SameMemory s t ∧ SameOthers s t ∧ t.net = s.net
        ∧ (o.scope.wide = true → ∀ k l, t.cv (cluOf s.cur) k = some l →
            l.inRo (s.job s.me.run.job) = true ∨ l.valid = l.dirty))
      ∧ (s.me.stage = {} → s.me.quiet = false → Gives (.fence o) s fun t => t.me.pc = s.me.pc ∧ SameRegs s t ∧ SameMemory s t)
      ∧ (Quiet s → s.syncCheck va = .ok pa → s.mayInject s.cur = true →
        ((s.sync pa).holder ≠ some s.cur → Asks (.acq o) s (.acquire pa va)
          ∧ exec (.rel o) s = .next (State.fault (s.relHalf s.cur o.scope.wide fun l => l.boundTo s.myJob va).2 (flt clsRegion va)))
        ∧ ((s.sync pa).holder = some s.cur → Asks (.rel o) s (.release pa va)
          ∧ Gives (.acq o) s fun t => t.me.pc = s.me.pc + 12 ∧ SameRegs s t ∧ SameMemory s t))
      ∧ (∀ bs, s.me.stage.rep = some bs →
        Gives (.acq o) s (fun t => t.me.pc = s.me.pc + 12 ∧ SameRegs s t ∧ SameMemory s t ∧ SameOthers s t)
        ∧ Gives (.rel o) s (fun t => t.me.pc = s.me.pc + 12 ∧ SameRegs s t ∧ SameMemory s t ∧ SameOthers s t)))
  ∧ (∀ (s : State) (j n pa va : Nat) (p : Packet), s.net[j]? = some p → s.mayDeliver j = true → p.cls = .req →
      p.who = .instr n → pa < 2 ^ 39 →
      (∀ c, (s.job c).cfg.mode = 0) →
      (p.pl = .acquire pa va → (s.sync pa).holder = none → (s.sync pa).fifo = [] → Gives (.deliver j) s fun t =>
        (t.sync pa).holder = some n ∧ (t.sync pa).fifo = [] ∧ t.word pa = n % 2 ^ 16 + 1
        ∧ ∃ q, t.net = s.net.eraseIdx j ++ [q] ∧ q.who = .instr n ∧ q.pl = .grant false)
      ∧ (p.pl = .acquire pa va → (s.sync pa).holder ≠ none → Gives (.deliver j) s fun t =>
        (t.sync pa).holder = (s.sync pa).holder ∧ (t.sync pa).fifo = (s.sync pa).fifo ++ [n] ∧ SameMemory s t
        ∧ t.net = s.net.eraseIdx j)
      ∧ (∀ m r, p.pl = .release pa va → (s.sync pa).fifo = m :: r → Gives (.deliver j) s fun t =>
        (t.sync pa).holder = some m ∧ (t.sync pa).fifo = r ∧ t.word pa = m % 2 ^ 16 + 1)
      ∧ (p.pl = .release pa va → (s.sync pa).fifo = [] → Gives (.deliver j) s fun t =>
        (t.sync pa).holder = none ∧ t.word pa = 0 ∧ ∀ a, ¬ (pa ≤ a ∧ a < pa + 8) → t.byte a = s.byte a))

/-- R171 to R174, R302, R303: BINIT, BEXP, BARV, BWAIT and BTEST on the barriers of the core. R175, R304, R305: the
four forms of BBIND join their source to a barrier its context owns, at most four of them; BBIND.cnt on a counter
at zero arrives at once. BRARV sends its arrival to the core it names, by way of LP to its own. -/
def Obligations.Barriers : Prop :=
  (∀ (s : State) (o : OpS) (b : Fin 32) (p : Fin 8), o.a = .bar b →
      let core := coreOf s.cur
      let x := (s.core core).bar b.val
      let mine := x.own = true ∧ x.ctx = s.cur % 4
      let moved (t : State) : Prop := t.me.pc = s.me.pc + 12 ∧ SameMemory s t ∧ SameOthers s t
      let rest (t : State) : Prop := ∀ c, c ≠ b.val → (t.core core).bar c = (s.core core).bar c
      let clamp (i : Int) : Nat := (max 0 (min 65535 i)).toNat
      let checked (y : Bar) : Bar :=
        if 0 < y.exp ∧ y.exp ≤ y.cnt then { y with cnt := y.cnt - y.exp, ph := !y.ph } else y
      (o.d = .p p → (x.own = true → x.ctx = s.cur % 4) → Gives (.binit o) s fun t =>
        moved t ∧ rest t ∧ Holds t.me (truth true) 0 o.d
        ∧ (t.core core).bar b.val = { own := true, exp := clamp (s.me.xi o.b).toInt, ctx := s.cur % 4 })
      ∧ (o.d = .p p → x.own = true → x.ctx ≠ s.cur % 4 → Gives (.binit o) s fun t =>
        moved t ∧ t.cores = s.cores ∧ Holds t.me (truth false) 0 o.d)
      ∧ (mine → Gives (.bexp o) s fun t =>
        moved t ∧ rest t ∧ (t.core core).bar b.val = checked { x with exp := clamp ((x.exp : Int) + (s.me.xi o.b).toInt) })
      ∧ (¬ mine → exec (.bexp o) s = .next s.illegal)
      ∧ (x.own = true → Quiet s → Gives (.barv o) s fun t =>
        moved t ∧ rest t ∧ SameRegs s t ∧ (t.core core).bar b.val = checked { x with cnt := min (x.cnt + 1) 65535 })
      ∧ (x.own = true → Fresh s → x.ph ≠ (s.me.xi o.b).getLsbD 0 → Gives (.bwait o) s fun t =>
        moved t ∧ SameRegs s t ∧ t.cores = s.cores)
      ∧ (x.own = true → Fresh s → x.ph = (s.me.xi o.b).getLsbD 0 → Gives (.bwait o) s fun t =>
        t.me.pc = s.me.pc ∧ t.me.stage.bar = some b.val ∧ SameRegs s t ∧ SameMemory s t ∧ t.cores = s.cores)
      ∧ (s.me.dstOk o.d = true → Writes (.btest o) s o.d
          (if x.own then BitVec.ofNat 64 (x.exp % 65536 * 2 ^ 32 + x.cnt % 65536 * 2 ^ 16 + 8 + x.ph.toNat * 4 + x.ctx % 4)
           else 0))
      ∧ (x.own = false → Fresh s →
          exec (.barv o) s = .next s.illegal ∧ exec (.bwait o) s = .next s.illegal))
  ∧ (∀ (s : State) (o : OpS) (b : Fin 32),
      let core := coreOf s.cur
      let x := (s.core core).bar b.val
      let bound (y : Bind) (now : Bool) (t : State) : Prop :=
        t.me.pc = s.me.pc + 12 ∧ SameRegs s t ∧ SameMemory s t ∧ SameOthers s t
        ∧ (t.core core).bar b.val = (let z := { x with binds := x.binds ++ [y] }; if now then z.arrive else z)
      (o.a = .bar b → x.own = true → x.ctx = s.cur % 4 → x.binds.length < 4 →
        (Bind.copy ∉ x.binds → Gives (.bbindCopy o) s (bound .copy false))
        ∧ (Bind.mxrow ∉ x.binds → Gives (.bbindMxrow o) s (bound .mxrow false))
        ∧ (∀ k : Fin 16, o.b = .slot k → Bind.sink k.val ∉ x.binds → Gives (.bbindSink o) s (bound (.sink k.val) false))
        ∧ (o.b = .level .job → Bind.cnt .job 0 ∉ x.binds →
            Gives (.bbindCnt o) s (bound (.cnt .job 0) (s.myJob.counter == 0))))
      ∧ (o.a = .bar b → x.own = true → x.ctx = s.cur % 4 → 4 ≤ x.binds.length → Bind.copy ∉ x.binds →
          exec (.bbindCopy o) s = .next s.illegal)
      ∧ (∀ c, Quiet s → s.coordCore (s.me.sAddr o) = some c → (s.me.xi o.b).toNat ≤ 31 →
        let p : Packet := { cls := .req, who := .store s.cur, pl := .arrive c (s.me.xi o.b).toNat .plain }
        (c = core → Gives (.brarv o) s fun t => (t.core core).lp = (s.core core).lp ++ [p] ∧ t.net = s.net
          ∧ t.me.unack = s.me.unack + 1 ∧ t.me.pc = s.me.pc + 12 ∧ SameRegs s t ∧ SameMemory s t ∧ SameOthers s t)
        ∧ (c ≠ core → s.mayInject s.cur = true → Gives (.brarv o) s fun t =>
          (∃ q, t.net = s.net ++ [q] ∧ q.cls = p.cls ∧ q.who = p.who ∧ q.pl = p.pl)
          ∧ t.me.unack = s.me.unack + 1 ∧ t.me.pc = s.me.pc + 12 ∧ SameRegs s t ∧ SameMemory s t ∧ SameOthers s t)))

/-! ## Streams and queues -/

/-- R107 to R109, R114, R121 to R123, R306 to R309: SOPEN opens its slot from the captured descriptor and binds its
queue, or is ILLEGAL; SCLOSE closes a slot with nothing left to write; SRCL and SFLT act on an open slot; SSNK,
SSTAT and SEVT read the sink, the status word and the oldest event. R155, R229, R310 to R314: QPUT appends and
waits for room, QGET removes the head, QPEEK leaves it, QCNT reads the queue's word, QBIND binds a free empty
queue to a rank of the gang and takes a binding back. -/
def Obligations.StreamsAndQueues : Prop :=
  (∀ (s : State) (o : OpS) (k : Fin 16),
      (∀ n : Fin 64, o.d = .slot k → o.a = .x n →
        let va := (s.me.getX n.val).toNat
        (va % 64 ≠ 0 → exec (.sopen o) s = .next (s.fault (flt clsAlign va)))
        ∧ (va % 64 = 0 → 64 ≤ s.me.stage.cap.length →
          let d := BitVec.ofNat 512 (leNat s.me.stage.cap)
          (s.me.openOk k.val d = false → exec (.sopen o) s = .next s.illegal)
          ∧ (s.me.openOk k.val d = true → dN d ≠ 0 → Gives (.sopen o) s fun t =>
            t.me.getS k.val = { st := 1, desc := d, flt := dFlt d, acc := BitVec.ofNat 64 (redInit d), no := s.sent,
                                filt := dBounds d }
            ∧ (t.me.getQ (dQr d)).ents = []
            ∧ (t.me.getQ (dQr d)).bind = (match dKind d with
                | 0 | 5 => .load k.val | 1 => .store k.val | 2 => .reduce k.val
                | 3 => .ringReady k.val true | _ => .ringReady k.val false)
            ∧ Passes s t)))
      ∧ (o.a = .slot k →
        let u := s.me.getS k.val
        (u.st = 0 → Gives (.sclose o) s (JustNext s))
        ∧ (u.st ≠ 0 → u.feeds = none → u.fault = none → u.place = 0 → u.draining = false →
            Gives (.sclose o) s fun t => t.me.getS k.val = {} ∧ Passes s t)
        ∧ (u.st = 0 → ∀ i, i ∈ [Instr.srclImm o, .srclAt o, .sfltAuto o, .sfltNever o, .sfltNear o] → exec i s = .next s.illegal)
        ∧ (u.st = 2 → ∀ i, i ∈ [Instr.srclImm o, .srclAt o, .sfltAuto o, .sfltNever o, .sfltNear o] → Gives i s (JustNext s))
        ∧ (u.st = 1 ∨ u.st = 3 →
          Gives (.srclImm o) s (fun t => (t.me.getS k.val).place = 0 ∧ (t.me.getS k.val).pin = true ∧ Passes s t)
          ∧ (u.place ≠ 0 → u.pos ≤ (s.me.xi o.b).toNat → (s.me.xi o.b).toNat < dN u.desc →
              (s.mayInject s.cur = true → Gives (.srclAt o) s fun t => t.me.getS k.val = u ∧ Passes s t
                ∧ ∃ q, t.net = s.net ++ [q] ∧ q.cls = .req ∧ q.who = .stream s.cur k.val
                    ∧ q.pl = .srcl s.cur k.val u.no (s.me.xi o.b).toNat u.place)
              ∧ (s.mayInject s.cur = false → exec (.srclAt o) s = .next s))
          ∧ (u.place ≠ 0 → (s.me.xi o.b).toNat < u.pos ∨ dN u.desc ≤ (s.me.xi o.b).toNat →
              Gives (.srclAt o) s fun t => (t.me.getS k.val).place = 0 ∧ (t.me.getS k.val).pin = true ∧ Passes s t)
          ∧ (u.place = 0 → Gives (.srclAt o) s fun t => t.me.getS k.val = { u with pin := true } ∧ Passes s t)
          ∧ Gives (.sfltAuto o) s (fun t => t.me.getS k.val = { u with flt := 0 } ∧ Passes s t)
          ∧ Gives (.sfltNever o) s (fun t => (t.me.getS k.val).flt = 1 ∧ (t.me.getS k.val).place = 0 ∧ Passes s t)
          ∧ Gives (.sfltNear o) s (fun t => t.me.getS k.val = { u with flt := 2 } ∧ Passes s t)))
      ∧ (o.a = .slot k →
        let u := s.me.getS k.val
        (∀ w, u.st ≠ 0 → dKind u.desc = kReduce → u.fault = none → u.sink = some w → Writes (.ssnk o) s o.d w)
        ∧ Writes (.sstat o) s o.d (if u.st = 0 then 0 else BitVec.ofNat 64
            (u.done % 2 ^ 48 * 2 ^ 16 + u.extra.toNat * 2 ^ 12 + u.bad.toNat * 2 ^ 11 + u.pin.toNat * 2 ^ 10
              + (u.place != 0).toNat * 2 ^ 9 + u.st % 4)))
      ∧ (∀ n : Fin 32, o.d = .v n →
        (s.me.evq = [] → Gives (.sevt o) s fun t => t.me.getV n.val = 0 ∧ t.me.pc = s.me.pc + 12 ∧ t.me.x = s.me.x)
        ∧ (∀ e r, s.me.evq = e :: r → Gives (.sevt o) s fun t =>
            t.me.getV n.val = (if s.me.evOvf then e ||| 0x80#128 else e).zeroExtend 512 ∧ t.me.evq = r
            ∧ t.me.evOvf = false ∧ t.me.pc = s.me.pc + 12 ∧ t.me.x = s.me.x)))
  ∧ (∀ (s : State) (o : OpS) (k : Fin 16) (pk : Bool),
      (o.d = .q k pk → (s.me.getQ k.val).bind = .free → ∀ n : Fin 32, o.a = .v n →
        ((s.me.getQ k.val).ents.length + (s.me.getQ k.val).coming < 8 → Gives (.qput o) s fun t =>
          t.me.getQ k.val = { s.me.getQ k.val with ents := (s.me.getQ k.val).ents ++ [{ data := s.me.getV n.val, slot := 0 }] }
          ∧ (∀ j, j ≠ k.val → t.me.getQ j = s.me.getQ j) ∧ Passes s t)
        ∧ (8 ≤ (s.me.getQ k.val).ents.length + (s.me.getQ k.val).coming → exec (.qput o) s = .next s))
      ∧ (o.a = .q k false → (s.me.getQ k.val).bind = .free → ∀ n : Fin 32, o.d = .v n →
        (∀ e r, (s.me.getQ k.val).ents = e :: r →
          Gives (.qget o) s (fun t => t.me.getV n.val = e.data ∧ (t.me.getQ k.val).ents = r ∧ t.me.pc = s.me.pc + 12
            ∧ t.me.x = s.me.x ∧ SameMemory s t ∧ SameOthers s t)
          ∧ Gives (.qpeek o) s (fun t => t.me.getV n.val = e.data ∧ t.me.qs = s.me.qs ∧ t.me.pc = s.me.pc + 12
            ∧ t.me.x = s.me.x ∧ SameMemory s t ∧ SameOthers s t))
        ∧ ((s.me.getQ k.val).ents = [] → exec (.qget o) s = .next s ∧ exec (.qpeek o) s = .next s))
      ∧ (o.a = .q k pk → (∀ r p, (s.me.getQ k.val).bind ≠ .chan r p) →
        Writes (.qcnt o) s o.d (BitVec.ofNat 64
          ((match (s.me.getQ k.val).bind with
            | .free => 0 | .load _ => 1 | .store _ => 2 | .ringReady _ _ => 3 | .ringFree _ _ => 4 | .chan _ _ => 5
            | .reduce _ => 6) * 2 ^ 16
            + ((s.me.getQ k.val).bind.slot.getD 0) * 16 + (s.me.getQ k.val).ents.length % 16)))
      ∧ (∀ n : Fin 64, o.d = .q k pk → o.a = .x n →
        let w := (s.me.getX n.val).toNat
        (∀ y, w / 2 ^ 16 = 1 → w / 16 % 16 = 0 → (s.me.getQ k.val).bind = .free → (s.me.getQ k.val).ents = [] →
          s.nodeOf s.cur = some y → y.gang = true → w / 256 % 256 < y.tiles → Gives (.qbind o) s fun t =>
            (t.me.getQ k.val).bind = .chan (w / 256 % 256) (w % 16) ∧ Passes s t)
        ∧ (∀ r p, w / 2 ^ 16 = 0 → w / 16 % 16 = 0 → (s.me.getQ k.val).bind = .chan r p → (s.me.getQ k.val).sent = 0 →
          Gives (.qbind o) s fun t => (t.me.getQ k.val).bind = .free ∧ Passes s t)
        ∧ (∀ r p, w / 2 ^ 16 = 0 → w / 16 % 16 = 0 → (s.me.getQ k.val).bind = .chan r p → (s.me.getQ k.val).sent ≠ 0 →
          exec (.qbind o) s = .next s)
        ∧ (w / 2 ^ 17 ≠ 0 ∨ w / 16 % 16 ≠ 0 → exec (.qbind o) s = .next s.illegal)))

/-- R111 to R113, R117, R118, R121, R124, R125, R315, R419: the steps of a stream. FETCH reads the element at the position,
STREAM_DELIVER fills its queue, COMBINE folds the oldest element and sinks after the last, STREAM_WRITE sends the
oldest element to its address; FLOAT and HOP send the context of an empty stream to the bank of its next element, where
it arrives with its position and accumulator, STREAM_RECALL and STREAM_LEAVE_BANK bring it back; a ring's full tile becomes ready, a written tile's slot returns. Programs see no
change of their registers. -/
def Obligations.StreamSteps : Prop :=
  ∀ (s : State) (n k : Nat),
    let u := (s.ctx n).getS k
    let d := u.desc
    (∀ j p no src b im, s.net[j]? = some p → s.mayDeliver j = true → p.cls = .req → p.pl = .hop n k no src b im →
      u.hop = some no → Gives (.deliver j) s fun t => Unseen s t n ∧ t.net = s.net.eraseIdx j
        ∧ (t.ctx n).getS k = { u with hop := none, pos := im.toNat % 2 ^ 48, acc := im.extractLsb' 320 64 })
    ∧ (s.streamsGo n = true → u.fault = none → u.hop = none →
    (∀ c b off, u.st = 1 → dKind d = kLoad → u.closing = false → u.place = 0 → u.flt ≠ 2 → u.notes = [] → (s.ctx n).sb = [] →
      u.pos < dN d → u.fb.length * dPpe d < 16 * dEpe d → dPlane d = false →
      s.bump.check n .load (dAddr d u.pos) (dSize d) (.clu u.tr) = .ok (.own c b off) → s.bankAt c b = .held →
      Gives (.fetch n k) s fun t => Unseen s t n
        ∧ ((t.ctx n).getS k).fb = u.fb ++ [⟨u.pos, dAddr d u.pos, s.bytes (bankKey c b off) (dSize d)⟩]
        ∧ ((t.ctx n).getS k).pos = u.pos + 1 ∧ ((t.ctx n).getS k).done = u.done ∧ ((t.ctx n).getS k).st = 1)
    ∧ (u.st = 1 → dKind d = kLoad → u.feeds = none → ((s.ctx n).getQ (dQr d)).bind = .load k → dEpe d ≤ u.fb.length →
      ((s.ctx n).getQ (dQr d)).ents.length + dPpe d ≤ 8 → Gives (.streamDeliver n k) s fun t => Unseen s t n
        ∧ ((t.ctx n).getQ (dQr d)).ents.map (·.data)
            = ((s.ctx n).getQ (dQr d)).ents.map (·.data) ++ dPack d (u.fb.take (dEpe d))
        ∧ ((t.ctx n).getS k).fb = u.fb.drop (dEpe d) ∧ ((t.ctx n).getS k).done = u.done + dEpe d)
    ∧ (∀ e r, u.st = 1 → dKind d = kReduce → u.fb = e :: r →
      let a := BitVec.ofNat 64 (redAcc d u.acc.toNat (leNat e.raw))
      Gives (.combine n k) s fun t => Unseen s t n ∧ ((t.ctx n).getS k).fb = r ∧ ((t.ctx n).getS k).acc = a
        ∧ (if u.done + 1 = dN d then ((t.ctx n).getS k).st = 2 ∧ ((t.ctx n).getS k).sink = some a
           else ((t.ctx n).getS k).st = 1 ∧ ((t.ctx n).getS k).sink = u.sink))
    ∧ (∀ e r pa, u.st = 1 → dKind d = kStore → u.flt ≠ 2 → u.ent = e :: r → ¬ (u.place ≠ 0 ∧ u.stop = some u.pos) →
      s.check n .store (dAddr d e.idx) (dEsz d).size (.clu u.tr) = .ok (.hbm pa) → (s.clu (cluOf n)).rb = [] →
      (s.clu (cluOf n)).wbOut = [] → s.mayInject n = true → Gives (.streamWrite n k) s fun t => Unseen s t n
        ∧ (∃ q, t.net = s.net ++ [q] ∧ q.cls = .req ∧ q.who = .stream n k ∧ q.pl = .write (.hbm pa) (dUnapply d e.raw))
        ∧ ∃ h, (t.ctx n).getS k = { u with ent := r, pos := e.idx + 1, done := e.idx + 1, out := u.out + 1, tr := h }
          ∧ (u.place = 0 → h = u.tr))
    ∧ (∀ b, s.moveTo n k = some b → u.fb = [] → s.mayInject n = true →
      let sent (src : Nat) (t : State) : Prop :=
        ((t.ctx n).getS k).place = b ∧ ((t.ctx n).getS k).hop = some s.sent
        ∧ ∃ q, t.net = s.net ++ [q] ∧ q.cls = .req ∧ q.pl = .hop n k s.sent src b (u.image n k)
      (u.place = 0 → Gives (.float n k) s fun t => Unseen s t n ∧ sent (coreBank n) t)
      ∧ (u.place ≠ 0 → Gives (.hop n k) s fun t => Unseen s t n ∧ sent u.place t))
    ∧ (u.place ≠ 0 → u.flt = 0 → ¬ (u.stop = some u.pos ∧ u.fb = []) → Gives (.streamRecall n k 6) s fun t =>
      Unseen s t n ∧ ((t.ctx n).getS k).place = 0 ∧ ((t.ctx n).getS k).pos = u.done)
    ∧ (u.place ≠ 0 → u.stop = some u.pos → u.fb = [] → Gives (.streamRecall n k 1) s fun t =>
      Unseen s t n ∧ ((t.ctx n).getS k).place = 0 ∧ ((t.ctx n).getS k).pin = true)
    ∧ (u.place ≠ 0 → dKind d = kLoad → u.pos = dN d → u.fb = [] → Gives (.streamLeaveBank n k) s fun t =>
      Unseen s t n ∧ ((t.ctx n).getS k).place = 0)
    ∧ (∀ r, u.ring = some r → dKind d = kRingLoad → dPlane d = false → r.at_ = dTile d → dQr d ≠ dQf d →
      ((s.ctx n).getQ (dQr d)).ents.length < 8 → Gives (.ringTileReady n k) s fun t => Unseen s t n
        ∧ ((t.ctx n).getQ (dQr d)).ents.map (·.data) = ((s.ctx n).getQ (dQr d)).ents.map (·.data)
            ++ [BitVec.ofNat 512 (r.slot % 256 + r.uns.toNat * 256 + r.tile % 2 ^ 48 * 2 ^ 16)]
        ∧ ((t.ctx n).getS k).ring = none)
    ∧ (∀ r, u.ring = some r → dKind d = kRingStore → r.at_ = dTile d → u.out = 0 → ((s.ctx n).getQ (dQf d)).ents.length < 8 →
      Gives (.ringSlotReturn n k) s fun t => Unseen s t n
        ∧ ((t.ctx n).getQ (dQf d)).ents.map (·.data) = ((s.ctx n).getQ (dQf d)).ents.map (·.data)
            ++ [BitVec.ofNat 512 (r.slot % 256)]
        ∧ ((t.ctx n).getS k).ring = none))

/-! ## Vectors and shapes -/

/-- R319, R320, R322: the lane instructions. Each active lane takes the result of its lanes (B's lane 0 under .bc),
saturated where SAT asks for it; inactive lanes keep their value, or are zero under .z; VSEL writes every lane.
R326, Table 17-3: the special functions at their named arguments, in every format: NaN, infinities, zeros and
invalid arguments. -/
def Obligations.VectorLanes : Prop :=
  (∀ (s : State) (o : OpV) (x : Vec) (k : Ctx), (∃ n, o.d = .v n) ∨ o.d.isQ = true → o.et.width ≤ 64 →
      let t := o.et
      let a (i : Nat) := vecLane x t.size i
      let d (i : Nat) := vecLane (s.me.oldV o.d) t.size i
      let zero (_ : Nat) := 0
      (∀ y, Dirs s o.d o.a o.b → ReadsV2 s o.a o.b x y k →
        let b (i : Nat) := vecLane y t.size (if o.bc then 0 else i)
        (t.fmt? = none →
          YieldsLanes (.vadd o) s k o (fun i => fitted t o.sat (t.toInt (a i) + t.toInt (b i))) zero
          ∧ YieldsLanes (.vsub o) s k o (fun i => fitted t o.sat (t.toInt (a i) - t.toInt (b i))) zero
          ∧ YieldsLanes (.vmul o) s k o (fun i => fitted t o.sat (t.toInt (a i) * t.toInt (b i))) zero
          ∧ YieldsLanes (.vmin o) s k o (fun i => if t.toInt (a i) ≤ t.toInt (b i) then a i else b i) zero
          ∧ YieldsLanes (.vmax o) s k o (fun i => if t.toInt (a i) ≤ t.toInt (b i) then b i else a i) zero)
        ∧ (∀ f, t.fmt? = some f →
          YieldsLanes (.vadd o) s k o (fun i => (f.add o.rm (a i) (b i)).1) (fun i => (f.add o.rm (a i) (b i)).2)
          ∧ YieldsLanes (.vsub o) s k o (fun i => (f.sub o.rm (a i) (b i)).1) (fun i => (f.sub o.rm (a i) (b i)).2)
          ∧ YieldsLanes (.vmul o) s k o (fun i => (f.mul o.rm (a i) (b i)).1) (fun i => (f.mul o.rm (a i) (b i)).2)
          ∧ YieldsLanes (.vfma o) s k o (fun i => (f.fma o.rm (a i) (b i) (d i)).1) (fun i => (f.fma o.rm (a i) (b i) (d i)).2)
          ∧ YieldsLanes (.vmin o) s k o (fun i => f.minmax false (a i) (b i)) zero
          ∧ YieldsLanes (.vmax o) s k o (fun i => f.minmax true (a i) (b i)) zero)
        ∧ YieldsLanes (.vand o) s k o (fun i => a i &&& b i) zero
        ∧ YieldsLanes (.vor o) s k o (fun i => a i ||| b i) zero
        ∧ YieldsLanes (.vxor o) s k o (fun i => a i ^^^ b i) zero
        ∧ YieldsLanes (.vshl o) s k o (fun i => a i * 2 ^ (b i % t.width) % 2 ^ t.width) zero
        ∧ YieldsLanes (.vshr o) s k o (fun i => a i / 2 ^ (b i % t.width)) zero
        ∧ YieldsLanes (.vsar o) s k o (fun i => fitted t false (toSigned t.width (a i) / (2 ^ (b i % t.width) : Nat))) zero
        ∧ ∃ v : Vec, (∀ i, i < lanesN t → vecLane v t.size i = if s.me.active o.lp i then a i else b i)
            ∧ YieldsV (.vsel o) s k o.d v 0)
      ∧ (Dirs s o.d o.a o.a → ReadsV1 s o.a x k →
        (t.fmt? = none →
          YieldsLanes (.vabs o) s k o (fun i => fitted t o.sat (t.toInt (a i)).natAbs) zero
          ∧ YieldsLanes (.vneg o) s k o (fun i => fitted t o.sat (- t.toInt (a i))) zero)
        ∧ (∀ f, t.fmt? = some f →
          (YieldsLanes (.vabs o) s k o
              (fun i => if (f.val (a i)).isNan then f.nan else a i % 2 ^ (f.eb + f.fb)) zero)
          ∧ (YieldsLanes (.vneg o) s k o
              (fun i => if (f.val (a i)).isNan then f.nan else (a i + 2 ^ (f.eb + f.fb)) % 2 ^ f.width) zero)
          ∧ ∀ j i, (j, i) ∈ [(0, Instr.vexp2 o), (1, .vlog2 o), (2, .vrcp o), (3, .vrsq o), (4, .vsin o), (5, .vcos o),
              (6, .vtanh o)] →
              YieldsLanes i s k o (fun i => (specialFn j t (a i)).1) (fun i => (specialFn j t (a i)).2))))
  ∧ (∀ (t : Esz) (f : Fmt) (w : Nat), t.fmt? = some f →
      (f.val w = .nan → ∀ j, j < 7 → specialFn j t w = (f.nan, 0))
      ∧ (f.val w = .inf false → specialFn 0 t w = (f.inf false, 0) ∧ specialFn 1 t w = (f.inf false, 0)
          ∧ specialFn 2 t w = (f.zero false, 0) ∧ specialFn 3 t w = (f.zero false, 0) ∧ specialFn 4 t w = (f.nan, fNV)
          ∧ specialFn 5 t w = (f.nan, fNV) ∧ specialFn 6 t w = (f.one false, 0))
      ∧ (f.val w = .inf true → specialFn 0 t w = (f.zero false, 0) ∧ specialFn 1 t w = (f.nan, fNV)
          ∧ specialFn 2 t w = (f.zero true, 0) ∧ specialFn 3 t w = (f.nan, fNV) ∧ specialFn 6 t w = (f.one true, 0))
      ∧ (∀ n e, f.val w = .fin n 0 e → specialFn 0 t w = (f.one false, 0) ∧ specialFn 1 t w = (f.inf true, fDZ)
          ∧ specialFn 2 t w = (f.inf n, fDZ) ∧ specialFn 3 t w = (f.inf n, fDZ) ∧ specialFn 4 t w = (f.zero n, 0)
          ∧ specialFn 5 t w = (f.one false, 0) ∧ specialFn 6 t w = (f.zero n, 0))
      ∧ (∀ m e, m ≠ 0 → f.val w = .fin true m e → specialFn 1 t w = (f.nan, fNV) ∧ specialFn 3 t w = (f.nan, fNV)))

/-- R323 to R325, R212: VCMP fills its predicate bit by lane; VCVT converts lane by lane, between lanes k × n on and
lane 0 on of the wider and the narrower type; VQNT and VDQNT; VPLANE moves bit j of element e to plane j, VUNPL back,
and the bytes behind the block stay. -/
def Obligations.VectorComparesAndBlocks : Prop :=
  ∀ (s : State) (o : OpV) (x : Vec) (k : Ctx),
    let t := o.et
    let blk (p : Nat) (r : Vec) (up : Bool) : Prop :=
      (∀ e j, e < 32 → j < p → (if up then r.getLsbD (32 * j + e) = x.getLsbD (e * p + j)
                                 else r.getLsbD (e * p + j) = x.getLsbD (32 * j + e)))
      ∧ ∀ i, 32 * p ≤ i → i < 512 → r.getLsbD i = x.getLsbD i
    (∀ y (n : Fin 8) (c : Cond), o.d = .p n → t.width ≤ 64 → Dirs s (.x 0) o.a o.b → ReadsV2 s o.a o.b x y k →
      let r (i : Nat) := laneCmp t c (vecLane x t.size i) (vecLane y t.size (if o.bc then 0 else i))
      ∃ w : Word, (∀ i, i < 64 → w.getLsbD i = if i < lanesN t then (if s.me.active o.lp i then (r i).1
                                     else !o.z && (s.me.getP n.val).getLsbD i) else false)
      ∧ Gives (.vcmp c o) s fun u => OnlyMe s u ∧ OnlyDest s.me k u.me o.d (laneFlags s o fun i => (r i).2)
        ∧ Holds u.me w 0 o.d)
    ∧ (∀ (src : Esz), (∃ n, o.d = .v n) ∨ o.d.isQ = true → t.width ≤ 64 → src.width ≤ 64 → Dirs s o.d o.a o.a → ReadsV1 s o.a x k →
      let n := 64 / max src.size t.size
      let h := (Opd.immVal o.b).toNat
      let si := if src.size < t.size then h * n else 0
      let di := if t.size < src.size then h * n else 0
      let old := s.me.oldV o.d
      let r (i : Nat) := convert src t o.rm (vecLane x src.size (si + i))
      h < max src.size t.size / min src.size t.size →
      ∃ v : Vec, (∀ j, j < lanesN t → vecLane v t.size j =
        if di ≤ j ∧ j < di + n then
          (if s.me.active o.lp (j - di) then (r (j - di)).1 else if o.z then 0 else vecLane old t.size j)
        else vecLane old t.size j)
      ∧ YieldsV (.vcvt src o) s k o.d v
        ((List.range n).foldl (fun a i => if s.me.active o.lp i then a ||| (r i).2 else a) 0))
    ∧ (∀ y (f : BlkFmt), (∃ n, o.d = .v n) ∨ o.d.isQ = true → Dirs s o.d o.a o.b → ReadsV2 s o.a o.b x y k →
      let q := quant (f.pm1.val + 1) f.z ((List.range 16).map (vecLane x 4) ++ (List.range 16).map (vecLane y 4))
      YieldsV (.vqnt f o) s k o.d (BitVec.ofNat 512 (q.1 + q.2 * 2 ^ 256)) 0)
    ∧ (∀ (f : BlkFmt), (∃ n, o.d = .v n) ∨ o.d.isQ = true → o.et = .fp32 → Dirs s o.d o.a o.a → ReadsV1 s o.a x k →
      (Opd.immVal o.b).toNat < 2 →
      ∃ v, Lanes s o v (fun i => dequant o.rm (eltVal f.z (f.pm1.val + 1)
        (storedElt (f.pm1.val + 1) x.toNat (16 * (Opd.immVal o.b).toNat + i))) (vecLane x 1 32))
      ∧ YieldsV (.vdqnt f o) s k o.d v 0)
    ∧ (∀ (p : Fin 8), (∃ n, o.d = .v n) ∨ o.d.isQ = true → Dirs s o.d o.a o.a → ReadsV1 s o.a x k →
      (∃ v, blk (p.val + 1) v true ∧ YieldsV (.vplane p o) s k o.d v 0)
      ∧ ∃ v, blk (p.val + 1) v false ∧ YieldsV (.vunpl p o) s k o.d v 0)

/-- R327, R328: VLD and VGTH open one load with a piece for each element, lanes of the most negative index left out;
VST and VSCT put their elements into SB in ascending order. No byte of memory changes. -/
def Obligations.VectorMemory : Prop :=
  ∀ (s : State) (o : OpM) (k : Ctx) (x : Vec), (o.ord.hasRel = true → Quiet s) → o.ord.hasAcq = false →
    let opened (dst : LdDst) (ps : List (Nat × Loc × Nat)) (t : State) : Prop :=
      t.me.loads = s.me.loads ++ [{ id := s.me.nextId, dst := dst, evp := o.evp.val, wide := false, pc := s.me.pc,
                                    pieces := ps.map (pieceOf (coreOf s.cur)) }]
      ∧ t.net = s.net ∧ Passes s t
    (∀ n : Fin 32, o.d = .v n → Fresh s →
      (∀ ps, s.placesOf s.cur .load (vecShape o.esz).2
          (spread (s.me.ea o o.esz.size) (vecShape o.esz).1 (vecShape o.esz).2) = .ok ps →
        Gives (.vld o) s (opened (.v n.val) ps))
      ∧ (∀ ps, s.me.srcOk o.b = true → s.me.valV o.b = .ok (x, k) → ps ≠ [] →
        s.placesOf s.cur .load o.esz.size ((s.me.laneAddrs o x).map (·.2)) = .ok ps →
        Gives (.vgth o) s (opened (.lanes n.val o.esz.size ((s.me.laneAddrs o x).map (·.1))) ps))
      ∧ (s.me.srcOk o.b = true → s.me.valV o.b = .ok (x, k) → s.me.laneAddrs o x = [] →
        Gives (.vgth o) s fun t => t.me.getV n.val = 0 ∧ t.me.pc = s.me.pc + 12 ∧ t.me.x = s.me.x ∧ t.me.loads = s.me.loads
          ∧ SameMemory s t ∧ SameOthers s t))
    ∧ (∀ (n : Fin 32) bs, o.d = .v n → s.me.stage.rep = some bs → ∀ i, i ∈ [Instr.vld o, .vgth o] →
      Gives i s fun t => t.me.getV n.val = BitVec.ofNat 512 (leNat bs) ∧ t.me.pc = s.me.pc + 12 ∧ t.me.x = s.me.x
        ∧ SameMemory s t ∧ SameOthers s t)
    ∧ (∀ (i : Instr) (es : List (Nat × List Byte)), Fresh s → s.me.streams = [] → s.me.srcOk o.d = true →
      (∀ p ∈ es, ∃ c b off, s.check s.cur .store p.1 p.2.length = .ok (.own c b off)) →
      (∀ v, i = .vst o → s.me.valV o.d = .ok (v, k) → es = (spread (s.me.ea o o.esz.size) (vecShape o.esz).1
          (vecShape o.esz).2).zipIdx.map (fun p => (p.1, leBytes (vecShape o.esz).2 (vecLane v (vecShape o.esz).2 p.2))) →
        Gives i s fun t => (∃ ss, t.me.sb = s.me.sb ++ ss ∧ ss.map (fun e => (e.va, e.bytes)) = es) ∧ t.me.qs = k.qs
          ∧ Passes s t)
      ∧ (∀ v c, i = .vsct o → s.me.srcOk o.b = true → s.me.valV o.b = .ok (x, c) → c.valV o.d = .ok (v, k) →
        es = (s.me.laneAddrs o x).map (fun p => (p.2, leBytes o.esz.size (vecLane v o.esz.size p.1))) →
        Gives i s fun t => (∃ ss, t.me.sb = s.me.sb ++ ss ∧ ss.map (fun e => (e.va, e.bytes)) = es) ∧ t.me.qs = k.qs
          ∧ Passes s t))

/-- R329, R330: VRED and VSCAN reduce the active lanes in ascending order; VPERM, VBCAST, VEXT, VINS and VCPRS move
lanes. -/
def Obligations.VectorReductionsAndMoves : Prop :=
  ∀ (s : State) (o : OpV) (x : Vec) (k : Ctx), o.et.width ≤ 64 →
    let t := o.et
    let n := lanesN t
    (∀ op, (t.fmt? ≠ none → op ∈ [RedOp.sum, .max, .min]) → Dirs s o.d o.a o.a → ReadsV1 s o.a x k →
      (∀ d, o.d = .x d →
        let r := reduced op t o.rm o.sat (activeLanes s o x n)
        Yields (.vred op o) s k o.d (if t.isS then BitVec.ofInt 64 (toSigned t.width r.1) else BitVec.ofNat 64 r.1) r.2)
      ∧ ((∃ d, o.d = .v d) ∨ o.d.isQ = true →
        ∃ v, Lanes s o v (fun i => (reduced op t o.rm false (activeLanes s o x (i + 1))).1)
          ∧ YieldsV (.vscan op o) s k o.d v (reduced op t o.rm false (activeLanes s o x n)).2))
    ∧ (∀ y, (∃ d, o.d = .v d) ∨ o.d.isQ = true → Dirs s o.d o.a o.b → ReadsV2 s o.a o.b x y k →
      ∃ v, Lanes s o v (fun i => vecLane x t.size (vecLane y t.size i % n)) ∧ YieldsV (.vperm o) s k o.d v 0)
    ∧ ((∃ d, o.d = .v d) ∨ o.d.isQ = true → Dirs s o.d o.a o.a → ReadsV1 s o.a x k →
      (∀ j, j = (if o.a.isV || o.a.isQ then (Opd.immVal o.b).toNat else 0) → j < n →
        ∃ v, Lanes s o v (fun _ => vecLane x t.size j) ∧ YieldsV (.vbcast o) s k o.d v 0)
      ∧ (∃ v : Vec, (∀ i, i < n → vecLane v t.size i = (activeLanes s o x n).getD i 0) ∧ YieldsV (.vcprs o) s k o.d v 0))
    ∧ (∀ d, o.d = .x d → Dirs s (.x 0) o.a o.a → ReadsV1 s o.a x k →
      Yields (.vext o) s k o.d (BitVec.ofNat 64 (vecLane x t.size ((s.me.xi o.b).toNat % n))) 0)
    ∧ (∀ d, o.d = .v d →
      ∃ v : Vec, (∀ i, i < n → vecLane v t.size i = if i = (s.me.xi o.b).toNat % n then (s.me.xi o.a).toNat % 2 ^ t.width
                                         else vecLane (s.me.getV d.val) t.size i)
      ∧ YieldsV (.vins o) s s.me o.d v 0)

/-- R333, R334: SHDEF captures a shape record into its handle, or is ILLEGAL where the record fails a check, or an
ALIGN fault off a multiple of 64; SHSTAT reads the handle's word. R335 to R337: SHMAP, SHRED, SHQNT and SHCPY
begin with the first unit a PARTIAL or FAULTED handle has left, load the elements of a unit one by one, store it,
unit after unit in ascending order, and complete with the handle DEFINED; a load or a store of a unit that fails
its check leaves the handle FAULTED with the units completed, and nothing of its unit stored. -/
def Obligations.Shapes : Prop :=
  (∀ (s : State) (o : OpV) (k : Fin 16),
      (∀ n : Fin 64, o.d = .shape k → o.a = .x n →
        let va := (s.me.getX n.val).toNat
        (va % 64 ≠ 0 → exec (.shdef o) s = .next (s.fault (flt clsAlign va)))
        ∧ (va % 64 = 0 → 64 ≤ s.me.stage.cap.length →
          let d := BitVec.ofNat 512 (leNat s.me.stage.cap)
          (shapeOk d = true → Gives (.shdef o) s fun t =>
            t.me.getH k.val = { st := 1, snap := d } ∧ (∀ j, j ≠ k.val → t.me.getH j = s.me.getH j) ∧ Passes s t)
          ∧ (shapeOk d = false → exec (.shdef o) s = .next s.illegal)))
      ∧ (o.a = .shape k → s.me.dstOk o.d = true →
        let h := s.me.getH k.val
        Writes (.shstat o) s o.d (BitVec.ofNat 64 ((if 2 ≤ h.st then h.prog % 2 ^ 48 * 2 ^ 16 else 0) + h.st % 4))))
  ∧ (∀ (s : State) (o : OpV) (i : Instr) (n : Nat) (hd : Fin 16), Whole s o i n → o.d = .shape hd → mapTyped i o.et →
      let dh := s.me.getH hd.val
      let g := s.me.stage
      let u := g.a
      let lists := unitLoads s o i u
      let vs := unpackVals lists.length g.cap
      let ps := unitStores s o i u vs
      let stays (t : State) : Prop := t.me.pc = s.me.pc ∧ SameRegs s t ∧ SameMemory s t ∧ SameOthers s t
      let faulted (f : FaultInfo) (e : Nat) : State :=
        (s.modMe fun c => c.setH hd.val { dh with st := 3, prog := u, pc := s.me.pc }).fault (lineFault f e)
      (g.ph = 0 → Gives i s fun t => t.me.stage.ph = 1
        ∧ t.me.stage.a = (if 2 ≤ dh.st ∧ dh.pc = s.me.pc then dh.prog else 0) ∧ t.me.stage.cap = [] ∧ stays t)
      ∧ (g.ph = 1 → n ≤ u → Gives i s fun t => t.me.getH hd.val = { dh with st := 1, prog := 0 } ∧ Passes s t)
      ∧ (g.ph = 1 → u < n → s.me.loads = [] →
        (∀ j e va sz f, g.cap.length = 8 * j → lists.flatten[j]? = some (e, va, sz) → s.check s.cur .load va sz = .error f →
          exec i s = .next (faulted f e))
        ∧ (∀ j e va sz c b off, g.cap.length = 8 * j → lists.flatten[j]? = some (e, va, sz) → s.me.sb = [] →
          s.check s.cur .load va sz = .ok (.own c b off) → s.bankAt c b = .held → Gives i s fun t =>
            t.me.stage.cap = g.cap ++ leBytes 8 (leNat (s.bytes (bankKey c b off) sz)) ∧ t.me.stage.ph = 1
            ∧ t.me.stage.a = u ∧ stays t)
        ∧ (∀ ws : List (List Nat), ws.map (·.length) = lists.map (·.length) → (∀ l ∈ ws, ∀ w ∈ l, w < 2 ^ 64) →
          g.cap = ws.flatten.flatMap (leBytes 8) → Gives i s fun t =>
            t.me.stage.ph = 2 ∧ t.me.stage.a = u ∧ t.me.stage.b = 0 ∧ t.me.stage.cap = packVals ws ∧ stays t))
      ∧ (g.ph = 2 → g.b = 0 → u < n → vs.map (·.length) = lists.map (·.length) → (∀ l ∈ vs, ∀ w ∈ l, w < 2 ^ o.et.width) →
        (s.me.streams = [] → (∀ p ∈ ps, ∃ c b off, s.check s.cur .store p.2.1 p.2.2.length = .ok (.own c b off)) →
          Gives i s fun t => Stored s t (ps.map (·.2)) ∧ t.me.stage.ph = 1 ∧ t.me.stage.a = u + 1 ∧ t.me.getH hd.val = dh
            ∧ stays t)
        ∧ (∀ pre p post f, ps = pre ++ p :: post → (∀ q ∈ pre, ∃ l, s.check s.cur .store q.2.1 q.2.2.length = .ok l) →
          s.check s.cur .store p.2.1 p.2.2.length = .error f → exec i s = .next (faulted f p.1))))

/-- R219 to R221, R338: WCLR clears an area; the others read its ten words one at a turn and act with the last of them:
WADD and WSUB add an exact product to its accumulator modulo 2^576 and set the status bits; WADDV takes its active lanes
in ascending order, one after another; WRND rounds the accumulator once, the status deciding first; WSTAT reads the
status word. -/
def Obligations.WindowAccumulator : Prop :=
  ∀ (s : State) (o : OpV) (n : Fin 64) (k st : Nat) (v : Int), Still s →
    let va := (s.me.getX n.val).toNat
    AreaAt s va k → Area (areaOf s va k) v st → -(2 ^ 575 : Nat) ≤ v → v < (2 ^ 575 : Nat) → st < 2 ^ 64 →
    let word (i : Instr) : Prop := ∀ j, j < 9 → s.me.stage.cap = (areaOf s va k).take (8 * j) → Gives i s fun t =>
      t.me.stage.cap = (areaOf s va k).take (8 * (j + 1)) ∧ t.me.pc = s.me.pc ∧ t.me.sb = s.me.sb ∧ t.me.qs = s.me.qs
      ∧ SameRegs s t ∧ SameMemory s t ∧ SameOthers s t
    let last := s.me.stage.cap = (areaOf s va k).take 72
    (o.d = .x n →
      (Gives (.wclr o) s fun t => Area (areaOf t va k) 0 0 ∧ Passes s t)
      ∧ (∀ x y c, s.me.srcOk o.a = true → s.me.srcOk o.b = true → Reads2 s o.a o.b x y c →
        word (.wadd o) ∧ word (.wsub o)
        ∧ (last → Gives (.wadd o) s (fun t => Accumulated (x.toNat % 2 ^ 32) (y.toNat % 2 ^ 32) false v st (areaOf t va k)
            ∧ t.me.qs = c.qs ∧ Passes s t)
          ∧ Gives (.wsub o) s (fun t => Accumulated (x.toNat % 2 ^ 32) (y.toNat % 2 ^ 32) true v st (areaOf t va k)
            ∧ t.me.qs = c.qs ∧ Passes s t)))
      ∧ (∀ x y c, s.me.srcOk o.a = true → s.me.srcOk o.b = true → ReadsV2 s o.a o.b x y c →
        let at_ := if s.me.sys.wpc = s.me.pc then s.me.sys.wlane else 0
        (∀ i, at_ ≤ i → i < 16 → s.me.active o.lp i = true → (∀ j, at_ ≤ j → j < i → s.me.active o.lp j = false) →
          word (.waddv o)
          ∧ (last → Gives (.waddv o) s fun t => Accumulated (vecLane x 4 i) (vecLane y 4 i) false v st (areaOf t va k)
            ∧ t.me.sys.wlane = i + 1 ∧ t.me.sys.wpc = s.me.pc ∧ t.me.pc = s.me.pc ∧ t.me.qs = s.me.qs
            ∧ SameRegs s t ∧ SameMemory s t ∧ SameOthers s t))
        ∧ ((∀ j, at_ ≤ j → j < 16 → s.me.active o.lp j = false) →
          Gives (.waddv o) s fun t => t.me.sb = [] ∧ t.me.sys.wlane = 0 ∧ t.me.qs = c.qs ∧ Passes s t)))
    ∧ (o.a = .x n → s.me.dstOk o.d = true →
      ((∃ u, s.wr o.d 0 = .ok u) → word (.wrnd o) ∧ word (.wstatWin o))
      ∧ (last → ∀ r fl,
        (if st % 2 = 1 ∨ st / 2 % 2 = 1 ∨ (st / 4 % 2 = 1 ∧ st / 8 % 2 = 1) then r = fp32.nan ∧ fl = fNV
          else if st / 4 % 2 = 1 then r = fp32.inf false ∧ fl = 0
          else if st / 8 % 2 = 1 then r = fp32.inf true ∧ fl = 0
          else (r, fl) = fp32.rnd o.rm (decide (v < 0)) v.natAbs (-300) false) →
        ∀ t, s.wr o.d (BitVec.ofNat 64 r) = .ok t → exec (.wrnd o) s = .next (t.modMe fun c => c.raiseFlags fl).advance)
      ∧ (last → Writes (.wstatWin o) s o.d (BitVec.ofNat 64 st)))

/-! ## Matrix commands and copy jobs -/

/-- R343 to R345, R352, R354: MXALLOC takes a free tile and tells who owns one; MXSTAT reads the status of an own tile
once no job of its context names it; MXCFG and MXMAP replace the configuration and the map of the level, whole or
not at all; MXFENCE completes when no matrix command of its context and level is left. R101, R339, R343, R346,
R349 to R351: a queued command whose checks are met joins the queue of its core with its captured operands and its
edges, and the next instruction follows; a full queue holds it; a tile of another owner is an MXOWN fault;
ownership ends when MXFREE issues. The LEASE fault of MXMAP has ADDR 0, which is the model's choice (assumption log 46). -/
def Obligations.MatrixCommands : Prop :=
  (∀ (s : State) (o : OpX) (k : Fin 32) (n : Fin 64) (p : Fin 8),
      let clu := cluOf s.cur
      let q := s.clu clu
      let tile := q.tile k.val
      let mine := tile.own = some (s.cur, s.me.sys.lvl) ∧ tile.freeing = false
      (o.a = .tile k → o.d = .p p →
        (q.tiles.get? k.val = none → Gives (.mxalloc o) s fun t =>
          (t.clu clu).tile k.val = { own := some (s.cur, s.me.sys.lvl) }
          ∧ (∀ j, j ≠ k.val → (t.clu clu).tile j = q.tile j) ∧ Says s t o.d true)
        ∧ (q.tiles.get? k.val ≠ none → (mine → Gives (.mxalloc o) s fun t => t.clus = s.clus ∧ Says s t o.d true)
          ∧ (¬ mine → Gives (.mxalloc o) s fun t => t.clus = s.clus ∧ Says s t o.d false)))
      ∧ (o.a = .tile k → s.me.dstOk o.d = true →
        (mine → (∀ j ∈ q.jobs, j.ctx = s.cur → j.namesTile k.val = false) → Writes (.mxstat o) s o.d
          (BitVec.ofNat 64 (2 ^ 15 + (if s.me.sys.lvl = .handler then 2 ^ 14 else 0) + s.cur % 32 * 256 + tile.uf.toNat * 2
            + tile.ovf.toNat)))
        ∧ (mine → (∃ j ∈ q.jobs, j.ctx = s.cur ∧ j.namesTile k.val = true) → exec (.mxstat o) s = .next s)
        ∧ (¬ mine → exec (.mxstat o) s = .next (s.fault { code := clsMxown })))
      ∧ (o.a = .x n →
        let w := (s.me.getX n.val).toNat
        let ok := w / 2 ^ 24 = 0 ∧ w / 2 ^ 12 % 16 = 0 ∧ w / 16 % 16 = 0 ∧ w % 16 ≤ 8 ∧ w / 256 % 16 ≤ 8
        (ok → Gives (.mxcfg o) s fun t =>
          t.me.mxBank = { s.me.mxBank with cfg := BitVec.ofNat 64 w } ∧ Passes s t)
        ∧ (¬ ok → exec (.mxcfg o) s = .next s.illegal)
        ∧ (w % 128 = 0 → 128 ≤ s.me.stage.cap.length →
          let e (i : Nat) := leNat ((s.me.stage.cap.drop (2 * i)).take 2)
          ((∀ i, i < 64 → e i = 0xFFFF ∨ (e i / 8 % 64 < 48 ∧ s.myJob.cfg.holds (cluOfCore (mapCore (e i))) = true)) →
            Gives (.mxmap o) s fun t =>
              (∀ i, i < 64 → t.me.mxBank.entry i = e i) ∧ t.me.mxBank.cfg = s.me.mxBank.cfg ∧ Passes s t)
          ∧ (∀ i, i < 64 → e i ≠ 0xFFFF → 48 ≤ e i / 8 % 64 →
              (∀ j, j < i → e j = 0xFFFF ∨ (e j / 8 % 64 < 48 ∧ s.myJob.cfg.holds (cluOfCore (mapCore (e j))) = true)) →
              exec (.mxmap o) s = .next s.illegal)
          ∧ (∀ i, i < 64 → e i ≠ 0xFFFF → e i / 8 % 64 < 48 → s.myJob.cfg.holds (cluOfCore (mapCore (e i))) = false →
              (∀ j, j < i → e j = 0xFFFF ∨ (e j / 8 % 64 < 48 ∧ s.myJob.cfg.holds (cluOfCore (mapCore (e j))) = true)) →
              exec (.mxmap o) s = .next (s.fault (flt clsLease 0)))))
      ∧ ((∀ j ∈ q.jobs, j.ctx = s.cur → j.lvl = s.me.sys.lvl → j.isCopy = true) → Gives (.mxfence o) s (JustNext s))
      ∧ ((∃ j ∈ q.jobs, j.ctx = s.cur ∧ j.lvl = s.me.sys.lvl ∧ j.isCopy = false) → exec (.mxfence o) s = .next s))
  ∧ (∀ (s : State) (o : OpX) (i : Instr) (e : EKind) (k : Fin 32),
      let q := s.clu (cluOf s.cur)
      let mxq := (s.core (coreOf s.cur)).mxq
      let a := s.me.xOpd o.a
      let b := s.me.xOpd o.b
      let d := s.me.xOpd o.d
      let v := (s.me.xi o.b).toNat
      let cap := s.me.stage.cap
      let ra := BitVec.ofNat 256 (leNat (cap.take 32))
      let rb := BitVec.ofNat 256 (leNat ((cap.drop 32).take 32))
      let l := BitVec.ofNat 2048 (leNat (cap.drop 64))
      let cfg := s.me.mxBank.cfg
      let mine := s.ownsTile s.cur k.val = true
      let records (lo hi : Nat) := a % 32 = 0 ∧ b % 32 = 0 ∧ opK ra = opK rb
        ∧ recordOk s.cur (mxA cfg ra) lo hi = true ∧ recordOk s.cur (mxB cfg rb) 64 64 = true
      ((i = .mxzero o ∧ o.d = .tile k ∧ mine ∧ e = .mxzero k.val)
        ∨ (i = .mxprom o ∧ o.d = .tile k ∧ mine ∧ e = .mxprom k.val)
        ∨ (i = .mxfree o ∧ o.a = .tile k ∧ mine ∧ e = .mxfree k.val)
        ∨ (i = .mxlda o ∧ o.d = .tile k ∧ mine ∧ v % 64 = 0 ∧ (v = 0 ∨ 256 ≤ v) ∧ nearVA s.cur a = true ∧ a % 64 = 0
            ∧ e = .mxlda k.val a (if v = 0 then 256 else v))
        ∨ (i = .mxmm o ∧ o.d = .tile k ∧ mine ∧ 64 ≤ cap.length ∧ records 64 64 ∧ e = .mxmm k.val ra rb)
        ∨ (i = .mxgmm o ∧ d % 128 = 0 ∧ 320 ≤ cap.length ∧ records 1 4096
            ∧ (∀ j, j < 64 → (listAt l j = 0xFFFF ∨ listAt l j < opRows ra)
                ∧ (listAt l (64 + j) = 0xFFFF ∨ (listAt l (64 + j) < 2 ^ 13 ∧ listAt l (64 + j) / 64 % 4 = 0)))
            ∧ (∀ t ∈ gmmTiles l, s.ownsTile s.cur t = true) ∧ e = .mxgmm l ra rb)
        ∨ (∃ f c m, i = .mxcpy f c m o ∧ o.a = .tile k ∧ mine ∧ v / 2 ^ 48 = 0 ∧ v / 2 ^ 20 % 2 ^ 12 = 0
            ∧ v / 2 ^ 32 % 64 = 0 ∧ (v / 2 ^ 32 = 0 ∨ outRow f ≤ v / 2 ^ 32)
            ∧ (if c then v % 2 ^ 20 % 64 = 0 else v % 2 ^ 20 = 0)
            ∧ (if m then d / 2 ^ 20 = 0
                else d / 2 ^ 48 = 0xC8 ∨ (d / 2 ^ 48 = 0xC0 ∧ d / 2 ^ 40 % 64 < 48
                  ∧ s.myJob.cfg.holds (d / 2 ^ 46 % 4 * 48 + d / 2 ^ 40 % 64) = true))
            ∧ e = .mxcpy k.val d (s.me.xi o.b) f c m) →
        (mxq.length < 8 → Gives i s fun t =>
          (∃ j, (t.clu (cluOf s.cur)).jobs = q.jobs ++ [j] ∧ (t.core (coreOf s.cur)).mxq = mxq ++ [j.id] ∧ j.kind = e
            ∧ j.id = q.jobSeq ∧ j.ctx = s.cur ∧ j.lvl = s.me.sys.lvl ∧ j.bank = s.me.mxBank ∧ j.started = false
            ∧ j.edges = (q.jobs.filter fun x => s.edge x j).map (·.id))
          ∧ (i = .mxfree o → t.ownsTile s.cur k.val = false) ∧ Passes s t)
        ∧ (8 ≤ mxq.length → exec i s = .next s))
      ∧ (¬ mine →
        (o.d = .tile k → ∀ j, j ∈ [Instr.mxzero o, .mxprom o, .mxlda o, .mxmm o] →
          exec j s = .next (s.fault { code := clsMxown }))
        ∧ (o.a = .tile k → exec (.mxfree o) s = .next (s.fault { code := clsMxown })
          ∧ ∀ f c m, exec (.mxcpy f c m o) s = .next (s.fault { code := clsMxown }))))

/-- R102, R340, R341, R343, R348, R350, R351, R355, R360: the steps of jobs. MX_COMMAND_START takes the head of its
core's queue; JOB_ELEMENT clears or promotes a tile, loads one of its rows, writes one row out, copies one
element, or, with its last operand block, completes the arithmetic of MXMM; COMPLETE takes the job out of the
queue and out of the edges of the others, or leaves its fault for the next boundary; DEFERRED_FAULT_RAISE ends the
run. R217, R218, R209: one k-block into a tile position that holds zero: a dot product of at most 18 significant
bits, scaled by the two scales within the range of FP26, reaches the tile exactly; a scale of 0xFF makes the
position NaN. -/
def Obligations.EngineSteps : Prop :=
  (∀ (s : State) (clu : Nat) (j : EJob), (s.clu clu).job? j.id = some j →
      (s.job (s.ctx j.ctx).run.job).pre = .none →
      let job (t : State) := (t.clu clu).job? j.id
      let tile (t : State) (x : Nat) := (t.clu clu).tile x
      let open_ := j.started = true ∧ j.ended = false ∧ j.fault = none ∧ j.cancelled = false ∧ j.edges = []
      let ready := open_ ∧ j.part = [] ∧ ∀ x ∈ j.tilesRead, s.tileBad clu x = false
      (∀ x, open_ → j.kind = .mxprom x → s.tileBad clu x = true → Gives (.jobElement clu j.id) s fun t =>
        (job t).map (·.fault.map (·.code)) = some (some clsSecurity) ∧ (∀ y, tile t y = tile s y) ∧ SameMemory s t ∧ t.ctxs = s.ctxs) ∧
      (∀ r, (s.core (coreOf j.ctx)).mxq = j.id :: r → j.started = false → j.edges = [] →
        (∀ x, j.kind = .mxfree x → Gives (.mxCommandStart clu j.id) s fun t =>
          (t.core (coreOf j.ctx)).mxq = r ∧ job t = some { j with started := true, ended := true }
          ∧ (t.clu clu).tiles.get? x = none ∧ SameMemory s t ∧ t.ctxs = s.ctxs)
        ∧ ((∀ x, j.kind ≠ .mxfree x) → Gives (.mxCommandStart clu j.id) s fun t =>
          (t.core (coreOf j.ctx)).mxq = r ∧ job t = some { j with started := true } ∧ SameMemory s t ∧ t.ctxs = s.ctxs))
      ∧ (ready →
        (∀ x, j.kind = .mxzero x → Gives (.jobElement clu j.id) s fun t =>
          tile t x = { tile s x with data := [], ovf := false, uf := false } ∧ job t = some { j with ended := true }
          ∧ SameMemory s t)
        ∧ (∀ x, j.kind = .mxprom x → Gives (.jobElement clu j.id) s fun t =>
          (∀ k, k < 4096 → (tile t x).word k = (fp32.addV .rne (fp32.val ((tile s x).word k)) (.fin false 0 0)).1 % 2 ^ 32)
          ∧ job t = some { j with ended := true } ∧ SameMemory s t)
        ∧ (∀ x src st bs l u, j.kind = .mxlda x src st → s.readPieces j.ctx ((src + j.pos * st) % 2 ^ 64) 4 = .got bs l u →
          Gives (.jobElement clu j.id) s fun t =>
            (∀ k, k < 64 → (tile t x).word (64 * j.pos + k) = leNat ((bs.drop (4 * k)).take 4))
            ∧ (∀ k, ¬ (64 * j.pos ≤ k ∧ k < 64 * j.pos + 64) → (tile t x).word k = (tile s x).word k)
            ∧ SameMemory s t)
        ∧ (∀ x dst w f b off,
          let va := (dst + j.pos * (if w.toNat / 2 ^ 32 % 2 ^ 16 = 0 then 64 * f.size else w.toNat / 2 ^ 32 % 2 ^ 16)) % 2 ^ 64
          let k := bankKey (coreOf j.ctx) b off
          j.kind = .mxcpy x dst w f false false → va % 32768 + 64 * f.size ≤ 32768 → 1 ≤ f.size →
          s.check j.ctx .store va 1 (.clu none) = .ok (.own (coreOf j.ctx) b off) → s.bankAt (coreOf j.ctx) b = .held →
          Gives (.jobElement clu j.id) s fun t =>
            t.bytes k (64 * f.size) = (List.range 64).flatMap (fun c => leBytes f.size
              ((f.fmt?.getD fp32).rndV .rne (fp32.val ((tile s x).word (64 * j.pos + c)))).1)
            ∧ (∀ a, ¬ (k ≤ a ∧ a < k + 64 * f.size) → t.byte a = s.byte a)
            ∧ job t = some { j with pos := j.pos + 1, ended := decide (j.pos = 63) })
        ∧ (∀ x a b bs l u,
          let cfg := j.bank.cfg
          let n := opK a / 32
          let m : MxRead := ⟨mxA cfg a, mxB cfg b, 64, j.buf ++ bs ++ [127]⟩
          j.kind = .mxmm x a b → cfgUnitB cfg = true → 1 ≤ n → j.pos + 1 = 128 * n →
          s.blkRead j.ctx ((mxB cfg b).block (n - 1) 63) {} (mxB cfg b).d = .got bs l u →
          Gives (.jobElement clu j.id) s fun t =>
            (∀ k, k < 4096 → (tile t x).word k
              = (({ tile := (tile s x).word k } : Pos).run (cfgPromn cfg) (m.blocks (k / 64) (k % 64) n)).tile % 2 ^ 32)
            ∧ job t = some { j with pos := j.pos + 1, buf := [], ended := true } ∧ SameMemory s t)
        ∧ (∀ d slot c b off c' b' off', j.kind = .copy d slot →
          let r := j.pos / cardC0 d
          let at_ := j.pos % cardC0 d
          let m := j.step d
          let from_ := bankKey c b off
          let to_ := bankKey c' b' off'
          cardFill d = false → cardC0 d * cardC1 d ≠ 0 → c' = coreOf j.ctx →
          s.touchCheck j.ctx .load (cardS d r at_) (cardC0 d - at_) = .ok () →
          s.touchCheck j.ctx .store (cardD d r at_) (cardC0 d - at_) = .ok () →
          s.check j.ctx .load (cardS d r at_) m (.clu none) = .ok (.own c b off) →
          s.check j.ctx .store (cardD d r at_) m (.clu none) = .ok (.own c' b' off') → s.bankAt c b = .held → s.bankAt c' b' = .held →
          Gives (.jobElement clu j.id) s fun t =>
            t.bytes to_ m = s.bytes from_ m ∧ (∀ a, ¬ (to_ ≤ a ∧ a < to_ + m) → t.byte a = s.byte a)
            ∧ job t = some { j with pos := j.pos + m, ended := j.pos + m == cardC0 d * cardC1 d }))
      ∧ (j.outs = [] →
        (j.ended = true → j.isCopy = false → j.fault = none → Gives (.complete clu j.id) s fun t =>
          (t.clu clu).jobs = ((s.clu clu).jobs.filter (·.id != j.id)).map
            (fun x => { x with edges := x.edges.filter (· != j.id) })
          ∧ t.ctxs = s.ctxs ∧ SameMemory s t)
        ∧ (∀ d k, j.ended = true ∨ j.cancelled = true → j.kind = .copy d k → j.edges = [] → j.fault = none → cardBen d = false →
          Gives (.complete clu j.id) s fun t =>
          ((t.ctx j.ctx).sys.cps.get {} k).st = (if j.cancelled then 4 else 3) ∧ job t = none ∧ SameMemory s t ∧ (t.ctx j.ctx).x = (s.ctx j.ctx).x)
        ∧ (∀ i, j.isCopy = false → j.fault = some i → (s.ctx j.ctx).sys.ending = 0 ∨ (s.ctx j.ctx).sys.ending = 4 →
          (s.ctx j.ctx).sys.deferred = none → Gives (.complete clu j.id) s fun t => (t.ctx j.ctx).sys.deferred = some ⟨i, j.pc, j.lvl⟩ ∧ job t = none))
      ∧ (∀ n d, n = j.ctx → (s.ctx n).sys.deferred = some d → (s.ctx n).sys.ending = 0 → (s.ctx n).stage = {} →
        d.info.org ≠ 0 → d.lvl = (s.ctx n).sys.lvl → s.redoes n d.info = false → s.banksReady n = true →
        Gives (.deferredFaultRaise n) s fun t => (t.ctx n).sys.ending = 2 ∧ (t.ctx n).sys.deferred = none
          ∧ (t.ctx n).x = (s.ctx n).x ∧ (t.ctx n).pc = (s.ctx n).pc))
  ∧ (∀ (promn sa sb : Nat) (i : Int),
      (sa < 255 → sb < 255 → 128 ≤ sa + sb → sa + sb ≤ 364 → i.natAbs < 2 ^ 18 →
        (({ tile := 0 } : Pos).run promn [(i, sa, sb)]).tile = (fp32.rnd .rne (decide (i < 0)) i.natAbs ((sa : Int) + sb - 254) false).1)
      ∧ (sa = 255 ∨ sb = 255 → (({ tile := 0 } : Pos).run promn [(i, sa, sb)]).tile = fp32.nan))

/-- R19, R358, R359, R361: CPSTART captures a card, its checks coming first, takes the lowest slot that is free and answers the job's tag; CPSTAT reads
the state and the rows of the job a tag names, or 0; CPCAN asks for its cancellation. -/
def Obligations.CopyJobs : Prop :=
  ∀ (s : State) (o : OpS),
    let va := s.me.sAddr o
    let q := s.clu (cluOf s.cur)
    let slot (k : Nat) := s.me.sys.cps.get {} k
    let seq := (s.me.sys.cpSeq + 1) % 2 ^ 13
    (∀ n : Fin 64, o.d = .x n →
      (∀ f, s.me.stage.cap.length < 64 → s.checkAt s.cur .capture va 64 64 = .error f → f.addr = va →
        exec (.cpstart o) s = .next (s.fault f))
      ∧ (64 ≤ s.me.stage.cap.length →
        let d := BitVec.ofNat 512 (leNat s.me.stage.cap)
        (cardOk d = false → exec (.cpstart o) s = .next s.illegal)
        ∧ (∀ k, cardOk d = true → k < 8 → (slot k).st ≠ 1 → (slot k).st ≠ 2 →
          (∀ l, l < k → (slot l).st = 1 ∨ (slot l).st = 2) → Gives (.cpstart o) s fun t =>
            Answered s t o.d (BitVec.ofNat 64 (seq * 8 + k))
            ∧ t.me.sys.cps.get {} k = { seq := seq, st := 1, id := q.jobSeq }
            ∧ (∀ l, l ≠ k → t.me.sys.cps.get {} l = slot l)
            ∧ ∃ j, (t.clu (cluOf s.cur)).jobs = q.jobs ++ [j] ∧ j.kind = .copy d k ∧ j.ctx = s.cur ∧ j.started = false
                ∧ j.edges = (q.jobs.filter fun x => s.edge x j).map (·.id))
        ∧ (cardOk d = true → (∀ k, k < 8 → (slot k).st = 1 ∨ (slot k).st = 2) → exec (.cpstart o) s = .next s)))
    ∧ (s.me.dstOk o.d = true →
      let x := slot (va % 8)
      (x.st = 0 ∨ x.seq ≠ va / 8 → Writes (.cpstat o) s o.d 0)
      ∧ (x.seq = va / 8 → 3 ≤ x.st → Writes (.cpstat o) s o.d (BitVec.ofNat 64 (x.rdone % 2 ^ 32 * 2 ^ 16 + x.st)))
      ∧ (∀ j, x.seq = va / 8 → x.st = 1 ∨ x.st = 2 → q.job? x.id = some j →
          Writes (.cpstat o) s o.d (BitVec.ofNat 64 (j.rowsDone % 2 ^ 32 * 2 ^ 16 + x.st))))
    ∧ (∀ j, (slot (va % 8)).seq = va / 8 → ((slot (va % 8)).st = 1 ∨ (slot (va % 8)).st = 2) →
      q.job? (slot (va % 8)).id = some j → Gives (.cpcan o) s fun t =>
        (t.clu (cluOf s.cur)).job? (slot (va % 8)).id = some { j with cancelled := true } ∧ Passes s t)
    ∧ ((slot (va % 8)).st = 0 ∨ (slot (va % 8)).seq ≠ va / 8 ∨ 3 ≤ (slot (va % 8)).st → Gives (.cpcan o) s (JustNext s))

/-! ## Launches, tiles, counters, graphs -/

/-- R177, R178, R183, R187 to R190, R366: LAUNCH. A cancelled node launches nothing; a record or footprint table that
fails a check is answered with its code and p(D) zero, a misaligned record is an ALIGN fault; otherwise the node enters its graph with the next id, its counter
at its tiles plus one and an edge from every node whose footprint conflicts, and the graph's counter rises, with the
parent's. The code 0x1D for PARENT 0 into a child graph is the model's reading (assumption log 52). -/
def Obligations.Launching : Prop :=
  ∀ (s : State) (o : OpS) (p : Fin 8) (a b : Fin 64), s.me.sys.lvl ≠ .firm → o.d = .p p → o.a = .x a → o.b = .x b →
    let va := (s.me.getX a.val).toNat
    let cap := s.me.stage.cap
    let rcd := BitVec.ofNat 1024 (leNat (cap.take 128))
    let r := s.me.run
    let j := s.job r.job
    let tells (w : Nat) (ok : Bool) (t : State) : Prop :=
      t.me.getX b.val = (if b.val = 0 then 0 else BitVec.ofNat 64 w) ∧ Holds t.me (truth ok) 0 o.d
      ∧ (∀ n, n ≠ b.val → t.me.getX n = s.me.getX n) ∧ t.me.pc = s.me.pc + 12 ∧ SameMemory s t ∧ SameOthers s t
    (s.cancelledRun s.cur = true → Gives (.launch o) s fun t => tells 1 false t ∧ t.jobs = s.jobs)
    ∧ (s.cancelledRun s.cur = false → s.me.stage.ph = 1 → (s.clu (cluOf s.cur)).awaits s.me.stage.ids = false →
      (va % 8 ≠ 0 → ∃ u, exec (.launch o) s = .next (State.fault u (flt clsAlign va)) ∧ SameRegs s u)
      ∧ (va % 8 = 0 → 128 ≤ cap.length →
      (launchCode j.cfg rcd ≠ 0 → Gives (.launch o) s (tells (launchCode j.cfg rcd) false))
      ∧ (launchCode j.cfg rcd = 0 → rcdFpt rcd % 16 = 0 → rcdFpn rcd ≤ 256 → 128 + 16 * rcdFpn rcd ≤ cap.length →
        let fpt := fpEntries (cap.drop 128) (rcdFpn rcd)
        let gid := rcdFld rcd 96 63 32
        let parent := rcdFld rcd 96 31 0
        let x : Node := { graph := gid, id := 0, rcd := rcd, fpt := fpt }
        (fpt.all fpEntryOk = false → Gives (.launch o) s (tells 0x19 false))
        ∧ (fpt.all fpEntryOk = true → (∀ i, i < 4 → rcdFld rcd 80 (16 * i + 15) (16 * i) ≤ 2048) →
          (gangOk x = false → Gives (.launch o) s (tells 0x1B false))
          ∧ (gangOk x = true → ∀ g, j.graph? gid = some g →
            (g.closed = true ∨ g.done = true → Gives (.launch o) s (tells 0x1C false))
            ∧ (g.closed = false → g.done = false →
              ((parent = 0 ∧ g.parent ≠ none) ∨ (parent ≠ 0 ∧ (parent ≠ r.node ∨ g.parent ≠ some (r.graph, r.node))) →
                Gives (.launch o) s (tells 0x1D false))
              ∧ ((parent = 0 ∧ g.parent = none) ∨ (parent = r.node ∧ parent ≠ 0 ∧ g.parent = some (r.graph, r.node)
                  ∧ gid ≠ r.graph) → gid ≠ 0 → g.nextId < 2 ^ 32 →
                (j.nodes.filter fun m => m.graph == gid && m.st != .done).length < 256 →
                Gives (.launch o) s fun t =>
                  tells (gid * 2 ^ 32 + g.nextId) true t
                  ∧ ((t.job r.job).node? gid g.nextId = some { x with
                      id := g.nextId, counter := x.tiles + 1,
                      preds := (j.nodes.filter fun m => m.graph == gid && m.st != .done
                        && m.fpt.any fun e => fpt.any fun f => fpConflict e f).map (·.id) })
                  ∧ (t.job r.job).graph? gid = some { g with counter := g.counter + 1, nextId := g.nextId + 1 }
                  ∧ (parent ≠ 0 → ((t.job r.job).node? r.graph r.node).map (·.counter)
                      = (j.node? r.graph r.node).map (·.counter + 1)))))))))

/-- R191: in orders 0 and 1 the coordinates of a tile lie in the space, and together they give its index back; in
order 2 they are the interleaved bits of the index; indices run over every tile, padded to powers of two in order
2. R159, R193 to R197, R367, R368: TNEXT completes the tile held and hands the run the next index of its hand-out,
else the first of a walker's; without one, in a handler, or in a run that holds no tiles it gives none. SPLIT
halves the range of a walker that is long enough and makes a spur of the upper half; naming node 0 it first
chooses a walker, and then does at that walker's home what naming it does. -/
def Obligations.TilesAndSpurs : Prop :=
  (∀ (x : Node) (i : Nat),
      let c := x.coords i
      (x.order = 0 → i < x.tiles → c.1 < x.nd 0 ∧ c.2.1 < x.nd 1 ∧ c.2.2.1 < x.nd 2 ∧ c.2.2.2 < x.nd 3
        ∧ i = c.1 + x.nd 0 * (c.2.1 + x.nd 1 * (c.2.2.1 + x.nd 2 * c.2.2.2)))
      ∧ (x.order = 1 → i < x.tiles → c.1 < x.nd 0 ∧ c.2.1 < x.nd 1 ∧ c.2.2.1 < x.nd 2 ∧ c.2.2.2 < x.nd 3
        ∧ i = c.2.2.2 + x.nd 3 * (c.2.2.1 + x.nd 2 * (c.2.1 + x.nd 1 * c.1)))
      ∧ (x.order = 2 → powUp (x.nd 0) = powUp (x.nd 1) → i < x.count → ∀ b, b < Nat.log2 (powUp (x.nd 0)) →
          c.1.testBit b = i.testBit (2 * b) ∧ c.2.1.testBit b = i.testBit (2 * b + 1))
      ∧ (x.order ≠ 2 → x.count = x.tiles ∧ x.valid i = true))
  ∧ (∀ (s : State) (o : OpS) (x : Node) (p : Fin 8), o.d = .p p →
      let r := s.me.run
      let given (i hi wid : Nat) (t : State) : Prop :=
        t.me.getX 1 = BitVec.ofNat 64 i ∧ t.me.getX 2 = BitVec.ofNat 64 (x.coords i).1
        ∧ t.me.getX 3 = BitVec.ofNat 64 (x.coords i).2.1 ∧ t.me.getX 4 = BitVec.ofNat 64 (x.coords i).2.2.1
        ∧ t.me.getX 5 = BitVec.ofNat 64 (x.coords i).2.2.2 ∧ (∀ n, n = 0 ∨ 5 < n → t.me.getX n = s.me.getX n)
        ∧ t.me.run = { r with tile := some (i, wid), hand := some ⟨i + 1, hi, wid⟩ } ∧ Holds t.me (truth true) 0 o.d
        ∧ t.me.pc = s.me.pc + 12 ∧ SameMemory s t ∧ SameOthers s t
      (s.me.sys.lvl ≠ .run → exec (.tnext o) s = .next (s.fault { code := clsPriv }))
      ∧ (s.me.sys.lvl = .run →
        (r.kind ≠ .tile → Gives (.tnext o) s (Says s · o.d false))
        ∧ (r.kind = .tile → (s.me.sb ≠ [] ∨ s.me.unack ≠ 0) → exec (.tnext o) s = .next s)
        ∧ (r.kind = .tile → s.me.sb = [] → s.me.unack = 0 → s.nodeOf s.cur = some x → x.cancelled = false →
          (∀ h i, r.hand = some h → h.next ≤ i → i < h.hi → x.valid i = true →
            (∀ k, h.next ≤ k → k < i → x.valid k = false) → Gives (.tnext o) s fun t => given i h.hi h.wid t
              ∧ ((t.job r.job).node? r.graph r.node).map (·.counter)
                  = some (x.counter - if r.tile.isSome then 1 else 0))
          ∧ (∀ clu w, r.hand = none → r.tile = none → s.walkersOf r.job r.graph r.node = [(clu, w)] → w.wid = 0 →
            x.order ≠ 2 → w.next < w.hi → 1 ≤ x.grain → s.myJob.cfg.mode = 0 → x.graph = r.graph → x.id = r.node →
            Gives (.tnext o) s fun t => given w.next (min (w.next + x.grain) w.hi) 0 t
              ∧ ∀ v ∈ (t.clu clu).walkers, v.is r.graph r.node = true → v.wid = 0 → v.next = min (w.next + x.grain) w.hi)
          ∧ (r.hand = none → r.tile = none → s.walkersOf r.job r.graph r.node = [] → Gives (.tnext o) s (Says s · o.d false))))
      ∧ (∀ g m wid clu w, s.me.sys.lvl ≠ .firm →
        let a := s.me.xOpd o.a
        let q := cluOf s.cur
        let left := w.hi - w.next
        let mid := w.next + (left / 2 + x.grain - 1) / x.grain * x.grain
        (a ≠ 0 ∧ g = a / 2 ^ 32 ∧ m = a % 2 ^ 32 ∧ wid = (s.me.xi o.b).toNat) ∨ (a = 0 ∧ s.me.stage.ids = [g, m, wid]) →
        s.myJob.node? g m = some x → s.walker? r.job g m wid = some (clu, w) → s.myJob.cfg.mode = 0 →
        (x.cancelled = false → x.places q = true → x.smin ≠ 0 → x.gang = false → 2 * x.grain * x.smin ≤ left →
          (s.clu q).walkers.length < 16 → (s.walkersOf r.job x.graph x.id).length < 64 →
          Gives (.split o) s fun t => Says s t o.d true ∧ ∃ v, (t.clu q).walkers.getLast? = some v ∧ v.lo = mid ∧ v.next = mid
            ∧ v.hi = w.hi ∧ v.out = 0 ∧ v.spur = true ∧ v.graph = x.graph ∧ v.node = x.id)
        ∧ (x.cancelled = true ∨ x.places q = false ∨ x.smin = 0 ∨ x.gang = true ∨ left < 2 * x.grain * x.smin
            ∨ 16 ≤ (s.clu q).walkers.length ∨ 64 ≤ (s.walkersOf r.job x.graph x.id).length →
          Gives (.split o) s fun t => Says s t o.d false ∧ t.clus = s.clus))
      ∧ (s.me.sys.lvl ≠ .firm → s.me.xOpd o.a = 0 → s.me.stage.ids = [] →
        (s.bestSplit r.job (cluOf s.cur) = none → Gives (.split o) s fun t => Says s t o.d false ∧ t.clus = s.clus)
        ∧ (∀ k w, s.bestSplit r.job (cluOf s.cur) = some (x, k, w) → Gives (.split o) s fun t =>
            t.me.stage.ids = [x.graph, x.id, w.wid] ∧ t.me.pc = s.me.pc ∧ t.clus = s.clus ∧ SameRegs s t ∧ SameMemory s t
            ∧ SameOthers s t)))

/-- R152, R153, R369 to R373: WSTAT reads a walker's record, AHND an arena's handle, CNTRD a level's counter with its
cancellation mark; CANCEL marks the live nodes of what it names; an id with high bits set is ILLEGAL. -/
def Obligations.CountersAndCancellation : Prop :=
  ∀ (s : State) (o : OpS), s.me.sys.lvl ≠ .firm →
    let job := s.me.run.job
    let j := s.job job
    let a := s.me.xOpd o.a
    let b := s.me.xOpd o.b
    let count (n : Nat) (c : Bool) : Word := BitVec.ofNat 64 (n % 2 ^ 63 + c.toNat * 2 ^ 63)
    (∀ n : Fin 32, o.d = .v n →
      (∀ x clu w, j.node? (a / 2 ^ 32) (a % 2 ^ 32) = some x →
        s.walker? job (a / 2 ^ 32) (a % 2 ^ 32) (s.me.xi o.b).toNat = some (clu, w) → Gives (.wstat o) s fun t =>
          let v := t.me.getV n.val
          v.extractLsb' 64 32 = BitVec.ofNat 32 w.node ∧ v.extractLsb' 96 32 = BitVec.ofNat 32 w.lo
          ∧ v.extractLsb' 128 32 = BitVec.ofNat 32 w.next ∧ v.extractLsb' 160 32 = BitVec.ofNat 32 w.hi
          ∧ v.extractLsb' 192 32 = BitVec.ofNat 32 w.out ∧ v.extractLsb' 224 8 = BitVec.ofNat 8 w.wid
          ∧ v.getLsbD 14 = w.spur ∧ v.extractLsb' 11 3 = BitVec.ofNat 3 x.order ∧ v.extractLsb' 9 2 = BitVec.ofNat 2 x.dm1
          ∧ v.extractLsb' 0 9 = BitVec.ofNat 9 x.grain ∧ t.me.pc = s.me.pc + 12 ∧ t.me.x = s.me.x ∧ SameMemory s t)
      ∧ (j.node? (a / 2 ^ 32) (a % 2 ^ 32) = none → Gives (.wstat o) s fun t =>
          t.me.getV n.val = 0 ∧ t.me.pc = s.me.pc + 12 ∧ t.me.x = s.me.x ∧ SameMemory s t))
    ∧ (s.me.dstOk o.d = true →
      let i := (s.me.xi o.a).toNat
      (3 < i → exec (.ahnd o) s = .next s.illegal)
      ∧ (∀ x k, i ≤ 3 → s.nodeOf s.cur = some x → x.arenas.get? i = some k →
          Writes (.ahnd o) s o.d (BitVec.ofNat 64 (0xA * 2 ^ 52 + k * 2 ^ 40 + (j.slot k).gen * 2 ^ 32)))
      ∧ (∀ x, i ≤ 3 → s.nodeOf s.cur = some x → x.arenas.get? i = none → Writes (.ahnd o) s o.d 0))
    ∧ (∀ n : Fin 64, o.d = .x n →
      (o.a = .level .job → Gives (.cntrd o) s (Answered s · o.d (count j.counter j.cancelled)))
      ∧ (∀ f, o.a = .level .phase → b / 2 ^ 32 = 0 → j.phase? b = some f → f.done = false →
          Gives (.cntrd o) s (Answered s · o.d (count (f.counter + (!f.closed).toNat) f.cancelled)))
      ∧ (∀ g, o.a = .level .graph → b / 2 ^ 32 = 0 → j.graph? b = some g → g.done = false →
          Gives (.cntrd o) s (Answered s · o.d (count (g.counter + (!g.closed).toNat) g.cancelled)))
      ∧ (∀ x g, o.a = .level .node → j.node? (b / 2 ^ 32) (b % 2 ^ 32) = some x → j.graph? (b / 2 ^ 32) = some g →
          g.done = false → Gives (.cntrd o) s (Answered s · o.d (count x.counter x.cancelled))))
    ∧ (∀ g m x, j.node? g m = some x → x.st ≠ .done →
      (o.a = .level .job ∨ (o.a = .level .graph ∧ b = g ∧ g < 2 ^ 32)
        ∨ (o.a = .level .node ∧ b = g * 2 ^ 32 + m ∧ m < 2 ^ 32)
        ∨ (o.a = .level .phase ∧ b < 2 ^ 32 ∧ ∃ h ∈ j.graphs, h.id = g ∧ h.phase = b) →
        Gives (.cancel o) s fun t => ((t.job job).node? g m).map (·.cancelled) = some true ∧ Passes s t))
    ∧ (o.a = .level .graph ∨ o.a = .level .phase → b / 2 ^ 32 ≠ 0 →
        exec (.cancel o) s = .next s.illegal ∧ exec (.cntrd o) s = .next s.illegal)

/-- R150, R374, R375: GRPOP.gopen opens a graph in the phase its card asks for, with the pages of its spill ring pinned, waits for
them to be resident and within the quota, or answers a reason with bit 63 set;
gclose and pclose close, and complete what has nothing left; popen opens a phase. -/
def Obligations.GraphsAndPhases : Prop :=
  ∀ (s : State) (o : OpS) (k : Fin 64), s.me.sys.lvl ≠ .firm →
    let job := s.me.run.job
    let j := s.job job
    let a := s.me.xOpd o.a
    let d := BitVec.ofNat 256 (leNat s.me.stage.cap)
    let x := s.nodeOf s.cur
    let tells (w : Nat) (t : State) : Prop := Answered s t o.d (BitVec.ofNat 64 w)
    let creator := if d.getLsbD 96 then some (s.me.run.graph, s.me.run.node) else none
    let spq := (d.extractLsb' 64 32).toNat
    let ring := (d.extractLsb' 0 64).toNat
    let pages := j.cfg.pagesOf ring (32 * spq)
    let opened (f : Nat) : Graph :=
      { id := j.nextGraph, phase := f, ring := ring, spillq := spq, held := spq != 0, parent := creator }
    (o.d = .x k →
      (∀ f, s.me.stage.cap.length < 32 → s.checkAt s.cur .capture a 32 32 = .error f → f.addr = a →
        exec (.grpopGopen o) s = .next (s.fault f))
      ∧ (32 ≤ s.me.stage.cap.length →
        (∀ y, x = some y → y.cancelled = true → Gives (.grpopGopen o) s (tells (2 ^ 63 + 1)))
        ∧ (∀ y f, x = some y → y.cancelled = false → j.gopenCheck x d = (0, f) →
          ((∀ k ∈ pages, s.resident job k = true ∧ j.moves.get? k = none) → j.quotaFits pages (j.pins.map (·.1)) = true →
            Gives (.grpopGopen o) s fun t => tells j.nextGraph t
              ∧ (t.job job).graphs = j.graphs ++ [opened f]
              ∧ (t.job job).nextGraph = j.nextGraph + 1
              ∧ ((t.job job).phase? f).map (·.counter) = (j.phase? f).map (·.counter + 1)
              ∧ ∀ q, (t.job job).pins.get 0 q = j.pins.get 0 q + pages.count q)
          ∧ ((∃ k ∈ pages, s.resident job k = false) → Gives (.grpopGopen o) s fun t => t.me.pc = s.me.pc ∧ SameRegs s t
            ∧ SameMemory s t ∧ (t.job job).graphs = j.graphs ∧ ∀ k ∈ pages, s.resident job k = false → k ∈ (t.job job).asked)
          ∧ ((∀ k ∈ pages, s.resident job k = true) → j.quotaFits pages (j.pins.map (·.1)) = false →
            exec (.grpopGopen o) s = .next s))
        ∧ (∀ c, c ≠ 0 → (j.gopenCheck x d).1 = c → Gives (.grpopGopen o) s fun t =>
            tells (2 ^ 63 + c) t ∧ (t.job job).graphs = j.graphs))
      ∧ (Gives (.grpopPopen o) s fun t => tells j.nextPhase t ∧ (t.job job).phases = j.phases ++ [{ id := j.nextPhase }]
          ∧ (t.job job).counter = j.counter + 1 ∧ (t.job job).nextPhase = j.nextPhase + 1))
    ∧ (∀ g, j.graph? a = some g → g.done = false → Gives (.grpopGclose o) s fun t => Passes s t
      ∧ ∃ h, (t.job job).graph? a = some h ∧ h.closed = true ∧ h.done = (g.counter == 0))
    ∧ (∀ f, j.phase? a = some f → f.done = false → Gives (.grpopPclose o) s fun t => Passes s t
      ∧ ∃ h, (t.job job).phase? a = some h ∧ h.closed = true ∧ h.done = (f.counter == 0)
      ∧ (t.job job).counter = j.counter - (f.counter == 0).toNat)

/-! ## System registers, time, invalidation -/

/-- R376, Tables 20-4, 20-5, 03-4: CSRR reads each special register; EPC and ESTAT
are PRIV faults at RUN. CSRW writes the writable fields of FSTAT, CSTAT (bits written as 1 are cleared) and MXWGT, of EPC,
ESTAT and TSTAT in a handler alone; every other write at these levels is a PRIV fault. FIRM writes every register, of its core or of the job its
management context names: which context that is, and what fields above the register's width or reserved come to, is the model's
choice (assumption log 112). -/
def Obligations.SystemRegisters : Prop :=
  ∀ (s : State) (o : OpS) (i : BitVec 12),
    let c := s.me.sys
    let f := s.myJob.cfg
    let k := s.core (coreOf s.cur)
    let die := dieOfCore (coreOf s.cur)
    let w := s.me.xi o.a
    let known : List (Nat × Word) :=
      [(0x000, (c.cstat &&& 0x3C#64) ||| if c.lvl = .handler then 0x100#64 else 0), (0x001, c.fstat),
       (0x002, BitVec.ofNat 64 (c.inlDepth % 16)), (0x004, c.epc), (0x005, c.estat), (0x010, BitVec.ofNat 64 k.mxwgt),
       (0x011, BitVec.ofNat 64 k.mbox), (0x012, k.sprb), (0x013, k.sprl), (0x014, k.sptb), (0x030, f.stk),
       (0x031, BitVec.ofNat 64 f.retq), (0x032, BitVec.ofNat 64 f.arpool), (0x033, BitVec.ofNat 64 f.retainns),
       (0x034, BitVec.ofNat 64 f.inlmax), (0x035, BitVec.ofNat 64 f.ageint), (0x036, BitVec.ofNat 64 f.rsvb),
       (0x037, f.rgtb), (0x038, f.hptb), (0x039, f.armb), (0x03A, f.pmask.extractLsb' 0 64),
       (0x03B, f.pmask.extractLsb' 64 64), (0x03C, f.pmask.extractLsb' 128 64), (0x03D, BitVec.ofNat 64 f.resq)]
    let writes (q : CtxSys) : Prop := Gives (.csrw o) s fun t => t.me.sys = { q with pm := t.me.sys.pm } ∧ Moves s t
    (o.a = .sreg i → s.me.dstOk o.d = true →
      (c.lvl ≠ .run ∨ (i ≠ 0x004 ∧ i ≠ 0x005) →
        (∀ p ∈ known, p.1 = i.toNat → Writes (.csrr o) s o.d p.2)
        ∧ (i = 0x020 → Writes (.csrr o) s o.d (BitVec.ofNat 64 ((s.pkg.was.get 0 die).toNat * 256
            + (s.pkg.hot.get false 0).toNat * 16 + (s.pkg.hot.get false 1).toNat * 32 + (s.pkg.hot.get false 2).toNat * 64
            + (s.pkg.hot.get false 3).toNat * 128 + (s.pkg.hot.get false die).toNat))))
      ∧ (c.lvl = .run → i = 0x004 ∨ i = 0x005 → exec (.csrr o) s = .next (s.fault { code := clsPriv })))
    ∧ (o.d = .sreg i →
      (i = 0x000 → writes { c with cstat := c.cstat &&& ~~~(w &&& 0x2C#64) })
      ∧ (i = 0x001 → writes { c with fstat := w &&& 0x1F#64 })
      ∧ (i = 0x010 → Gives (.csrw o) s fun t =>
          (t.core (coreOf s.cur)).mxwgt = (if w.toNat % 16 = 0 then 1 else w.toNat % 16) ∧ Passes s t)
      ∧ (c.lvl ≠ .run → i = 0x004 → writes { c with epc := w })
      ∧ (c.lvl ≠ .run → i = 0x005 → writes { c with estat := w &&& 0xFFFFFFFF0000010F#64 })
      ∧ (c.lvl ≠ .run → i = 0x020 → Gives (.csrw o) s fun t =>
          t.pkg.was.get 0 die = (s.pkg.was.get 0 die &&& ~~~(w.extractLsb' 8 4)) ∧ Passes s t)
      ∧ (i ≠ 0x000 → i ≠ 0x001 → i ≠ 0x010 → c.lvl = .run ∨ (c.lvl = .handler ∧ i ≠ 0x004 ∧ i ≠ 0x005 ∧ i ≠ 0x020) →
          exec (.csrw o) s = .next (s.fault { code := clsPriv }))
      ∧ (c.lvl = .firm → Gives (.csrw o) s fun t =>
          let g := (t.job s.me.run.job).cfg
          let q := t.core (coreOf s.cur)
          (i = 0x002 → t.me.sys.inlDepth = w.toNat % 16) ∧ (i = 0x011 → q.mbox = w.toNat % 16)
          ∧ (i = 0x012 → q.sprb = BitVec.ofNat 64 (w.toNat % 2 ^ 34))
          ∧ (i = 0x013 → q.sprl = BitVec.ofNat 64 (min (w.toNat % 64) 32))
          ∧ (i = 0x014 → q.sptb = BitVec.ofNat 64 (w.toNat % 2 ^ 48 / 4096 * 4096))
          ∧ (i = 0x030 → g.stk = w &&& 0xFFFFF#64)
          ∧ (i = 0x031 → g.retq = min (w.toNat % 2 ^ 12) 2048
              ∧ ∀ c, (s.clu c).owner = some s.me.run.job → ((t.clu c).lines.filter (·.2.retained)).length ≤ g.retq)
          ∧ (i = 0x032 → g.arpool = w.toNat % 2 ^ 32)
          ∧ (i = 0x033 → g.retainns = w.toNat % 2 ^ 32) ∧ (i = 0x034 → g.inlmax = w.toNat % 16)
          ∧ (i = 0x035 → g.ageint = w.toNat % 2 ^ 32) ∧ (i = 0x036 → g.rsvb = w.toNat % 16)
          ∧ (i = 0x037 → g.rgtb = w) ∧ (i = 0x038 → g.hptb = BitVec.ofNat 64 (w.toNat / 2 ^ 15 * 2 ^ 15))
          ∧ (i = 0x039 → g.armb = w) ∧ (i = 0x03D → g.resq = w.toNat % 2 ^ 32)
          ∧ (∀ k, k < 3 → i = BitVec.ofNat 12 (0x03A + k) → g.pmask.extractLsb' (64 * k) 64 = w
              ∧ ∀ l, l < 3 → l ≠ k → g.pmask.extractLsb' (64 * l) 64 = f.pmask.extractLsb' (64 * l) 64)
          ∧ Moves s t))

/-- R378, R380: RDTIME never runs back; RDRAND gives a word, or zero with RNDF set when none came in time; PMRD reads
a counter, zero above those that exist, and is ILLEGAL above 15. R381, R417, R418: JMARK without a journal only
moves on; in record mode its marker joins the journal, and its bytes the journal's region or, without room there, those that wait for
it (assumption log 66); in replay it takes the oldest marker its context has there,
and reports one that differs, or that none is left (log 67). What the time, a random word and a counter of cycles come to are free
values of the model (logs 31 and 33). -/
def Obligations.TimeCountersAndMarkers : Prop :=
  (∀ (s : State) (o : OpS) (n : Fin 64), o.d = .x n → s.myJob.cfg.mode = 0 → s.me.sys.lvl ≠ .firm →
      let k := (s.me.xi o.a).toNat
      (Gives (.rdtime o) s fun t => Answered s t o.d (BitVec.ofNat 64 t.pkg.time) ∧ s.pkg.time ≤ t.pkg.time)
      ∧ (∃ w : Word, (s.pkg.rbgBad = true → w = 0) ∧ Gives (.rdrand o) s fun t => Answered s t o.d w
          ∧ (t.me.sys.cstat = s.me.sys.cstat
            ∨ (w = 0 ∧ t.me.sys.cstat = s.me.sys.cstat ||| BitVec.twoPow 64 cstatRndf)))
      ∧ (k ∈ [1, 4, 5, 6, 7] → Gives (.pmrd o) s (Answered s · o.d (s.me.sys.pm.get 0 k)))
      ∧ (k ∈ [0, 2, 3] → ∃ w, Gives (.pmrd o) s (Answered s · o.d (s.me.sys.pm.get 0 k + w)))
      ∧ (8 ≤ k → k ≤ 15 → Gives (.pmrd o) s (Answered s · o.d 0))
      ∧ (15 < k → exec (.pmrd o) s = .next s.illegal))
  ∧ (∀ (s : State) (o : OpS) (v : BitVec 32), s.me.sys.lvl ≠ .firm → (o.b = .long v ∨ ∃ i, o.b = .imm i ∧ v = i.signExtend 32) →
      let j := s.myJob
      let e : JEv := ⟨jMarker, packCoord s.cur, v.toNat, []⟩
      let mine (f : JEv) : Prop := f.kind = jMarker ∧ f.who = packCoord s.cur
      (j.cfg.mode = 0 → Gives (.jmark o) s (JustNext s))
      ∧ (j.cfg.mode = 1 → Gives (.jmark o) s fun t =>
          let u := t.job s.me.run.job
          let at_ := j.cfg.jrnb.toNat + j.jrnAt
          u.journal = j.journal ++ [e] ∧ t.me.pc = s.me.pc + 12 ∧ SameRegs s t ∧ SameOthers s t
          ∧ (j.jrnLate = [] → j.jrnAt + 24 ≤ j.cfg.jrnl.toNat → u.jrnAt = j.jrnAt + 24 ∧ u.jrnLate = []
              ∧ t.word at_ = jMarker ∧ t.word (at_ + 8) = packCoord s.cur % 2 ^ 64 ∧ t.word (at_ + 16) = v.toNat
              ∧ ∀ a, ¬ (at_ ≤ a ∧ a < at_ + 24) → t.byte a = s.byte a)
          ∧ (j.jrnLate ≠ [] ∨ j.cfg.jrnl.toNat < j.jrnAt + 24 → u.jrnLate = j.jrnLate ++ [e] ∧ u.pre ≠ .none ∧ SameMemory s t))
      ∧ (∀ f pre post, j.cfg.mode = 2 → j.journal = pre ++ f :: post → mine f → (∀ g ∈ pre, ¬ mine g) →
        Gives (.jmark o) s fun t => (t.job s.me.run.job).journal = pre ++ post ∧ Passes s t
          ∧ t.pkg.reports = (if f = e then s.pkg.reports else s.pkg.reports ++ [⟨17, s.me.run.job⟩]))
      ∧ (j.cfg.mode = 2 → (∀ g ∈ j.journal, ¬ mine g) → Gives (.jmark o) s fun t =>
          t.pkg.reports = s.pkg.reports ++ [⟨17, s.me.run.job⟩] ∧ Passes s t))

/-- R48, R49, R377: a TLBINV is a PRIV fault at RUN; in a handler, with nothing outstanding, it directs an invalidation to
every core of its job and waits for their acknowledgements. A core first drops the translations it names, those its floated streams carry
among them (R37), and begins a new epoch, and acknowledges when no store of the old epoch is left. -/
def Obligations.Shootdowns : Prop :=
  ∀ (s : State) (o : OpS) (i : Instr) (f : InvForm),
    let a := s.me.xOpd o.a
    let len := if s.me.xOpd o.b = 0 then 1 else s.me.xOpd o.b
    (s.me.sys.lvl = .run → ∀ x, x ∈ [Instr.tlbinvRange o, .tlbinvSubpage o, .tlbinvJob o] →
      exec x s = .next (s.fault { code := clsPriv }))
    ∧ (s.me.sys.lvl = .handler → 2 ^ 55 < a + len → exec (.tlbinvRange o) s = .next s.illegal)
    ∧ ((i = .tlbinvRange o ∧ a < 2 ^ 55 ∧ a + len ≤ 2 ^ 55 ∧ f = .range a (a + len))
        ∨ (∃ c, i = .tlbinvSubpage o ∧ s.coordCore a = some c ∧ f = .subpage c) ∨ (i = .tlbinvJob o ∧ f = .all) →
      s.me.sys.lvl ≠ .run →
      (Quiet s → Gives i s fun t => t.me.pc = s.me.pc ∧ t.me.stage.ph = 5 ∧ t.me.stage.a = s.seq
        ∧ SameRegs s t ∧ SameMemory s t
        ∧ (s.clusOf s.me.run.job = [] → t.shoots = s.shoots)
        ∧ (s.clusOf s.me.run.job ≠ [] → ∃ h, t.shoots = s.shoots ++ [h] ∧ h.id = s.seq ∧ h.job = s.me.run.job ∧ h.form = f
          ∧ ∀ c, c ∈ h.cores ↔ ∃ k q, (k, q) ∈ s.clus ∧ q.owner = some s.me.run.job ∧ k * 8 ≤ c ∧ c < k * 8 + 8))
      ∧ (s.me.stage.ph = 5 → (∀ h ∈ s.shoots, h.id ≠ s.me.stage.a) → Gives i s (JustNext s))
      ∧ (s.me.stage.ph = 5 → (∃ h ∈ s.shoots, h.id = s.me.stage.a) → exec i s = .next s))
    ∧ (∀ core h, s.shoots = [h] → (s.clu (cluOfCore core)).owner = some h.job → core ∈ h.cores →
      (h.id ∉ (s.core core).inv → Gives (.shootdownAck core) s fun t =>
        (∀ e, e ∈ (t.core core).tlb ↔ e ∈ (s.core core).tlb ∧ h.form.hits h.job e = false)
        ∧ (∀ e, e ∈ (t.core core).itlb ↔ e ∈ (s.core core).itlb ∧ h.form.hits h.job e = false)
        ∧ (∀ e, e ∈ (t.clu (cluOfCore core)).tlb2 → h.form.hits h.job e = false)
        ∧ (t.core core).epoch = !(s.core core).epoch ∧ (t.core core).inv = (s.core core).inv ++ [h.id]
        ∧ t.shoots = s.shoots ∧ SameMemory s t
        ∧ (∀ n, { t.ctx n with streams := [] } = { s.ctx n with streams := [] })
        ∧ (∀ n k, { (t.ctx n).getS k with tr := none } = { (s.ctx n).getS k with tr := none })
        ∧ (∀ n k e, coreOf n = core → ((t.ctx n).getS k).tr = some e → h.form.hits h.job e = false)
        ∧ (∀ n k, coreOf n ≠ core → ((t.ctx n).getS k).tr = ((s.ctx n).getS k).tr))
      ∧ (h.id ∈ (s.core core).inv → (if (s.core core).epoch then (s.core core).cnt0 else (s.core core).cnt1) = 0 →
        (∀ c ∈ h.cores, c = core) → Gives (.shootdownAck core) s fun t => t.shoots = [] ∧ t.ctxs = s.ctxs ∧ SameMemory s t))

/-! ## Steps of the scheduler -/

/-- R39, R42, R131, R134, R136, R137, R179, R182, R192, R193: a node becomes ready, pins the pages of its lease, is given
its arenas, gets its walker at the first cluster of its mask that the partition holds, and becomes live; hand-outs leave the walker for run queues, GRAIN indices at a time; ageing
lowers the class of a node with queued tiles. What can never be met refuses the node, which is cancelled. The
model's choices: the quota counts whole sets held beside a node (assumption log 106), which queued hand-out ages and
which keys a footprint pins (logs 58 and 59), a node whose mask the partition does not meet waits (log 81). -/
def Obligations.NodesBecomeLive : Prop :=
  ∀ (s : State) (job w : Nat) (x : Node), s.nodeAt job w = some x → (s.job job).pre = .none →
    let j := s.job job
    let after (t : State) := t.nodeAt job w
    let quiet (t : State) : Prop := t.ctxs = s.ctxs ∧ SameMemory s t
    let refused (t : State) : Prop := (after t).map (·.cancelled) = some true
    (x.st = .waiting → x.cancelled = false →
      (x.early = true ∨ x.preds = [] → Gives (.nodeReady job w) s fun t =>
        after t = some { x with st := .ready, since := s.seq } ∧ quiet t)
      ∧ (x.early = false → x.preds ≠ [] → exec (.nodeReady job w) s = .next s))
    ∧ (x.st = .ready → x.cancelled = false →
      (∀ ps, j.leasePages x x.fpt.zipIdx [] = .ok ps →
        let left := ps.filter fun k => !x.pins.contains k
        let now := left.filter fun k => s.resident job k && (j.moves.get? k).isNone
        (j.quotaFits ps (j.heldBeside x) = false → exec (.leaseAcquire job w) s = .next s)
        ∧ (j.quotaFits ps (j.heldBeside x) = true → Gives (.leaseAcquire job w) s fun t =>
          after t = some { x with pins := x.pins ++ now, st := if now = left then .leased else .ready } ∧ quiet t
          ∧ (∀ k, (t.job job).pins.get 0 k = j.pins.get 0 k + if k ∈ now then 1 else 0)
          ∧ ∀ k ∈ left, s.resident job k = false → k ∈ (t.job job).asked))
      ∧ (∀ i, j.leasePages x x.fpt.zipIdx [] = .error i → Gives (.leaseAcquire job w) s refused))
    ∧ (x.st = .leased → x.cancelled = false →
      (x.arenaSizes = [] → Gives (.arenaBirth job w) s fun t => after t = some { x with st := .born } ∧ quiet t)
      ∧ (∀ i n, x.arenaSizes = [(i, n)] → x.arenas.get? i = none →
        (n ≤ j.cfg.arpool → n ≤ j.free.length → (∀ k, k < 4096 → (j.slot k).st ≠ .free) →
          (∀ y ∈ j.nodes, j.comesBefore y x = false) → exec (.arenaBirth job w) s = .next s)
        ∧ (n ≤ j.cfg.arpool → n ≤ j.free.length → (∃ k, k < 4096 ∧ (j.slot k).st = .free) →
          (∀ y ∈ j.nodes, j.comesBefore y x = false) → Gives (.arenaBirth job w) s fun t => t.ctxs = s.ctxs ∧ ∃ k fs, k < 4096 ∧ (j.slot k).st = .free ∧ fs.length = n ∧ (∀ f ∈ fs, f ∈ j.free)
          ∧ after t = some { x with st := .born, arenas := x.arenas.set i k }
          ∧ (t.job job).slot k
              = { j.slot k with st := .live, size := n, graph := x.graph, node := x.id, frames := fs }
          ∧ (t.job job).free.length = j.free.length - n
          ∧ ∀ m f, fs[m]? = some f → t.word (j.cfg.armb.toNat + k * 16384 + 8 * m) = (f + 1) % 2 ^ 64)
        ∧ (j.cfg.arpool < n → Gives (.arenaBirth job w) s refused)
        ∧ (n ≤ j.cfg.arpool → j.free.length < n → exec (.arenaBirth job w) s = .next s)))
    ∧ (x.st = .born → x.cancelled = false →
      (x.tiles = 0 → Gives (.walkerCreate job w) s fun t => after t = some { x with st := .live } ∧ quiet t)
      ∧ (∀ k, x.tiles ≠ 0 → k < 192 → x.places k = true → (∀ c, c < 192 → x.places c = true → (s.clu c).owner ≠ some job) →
        exec (.walkerCreate job w) s = .next s)
      ∧ (∀ home, x.tiles ≠ 0 → home < 192 → x.places home = true → (s.clu home).owner = some job →
        (∀ k, k < home → x.places k = true → (s.clu k).owner ≠ some job) →
        (s.clu home).walkers.length < 16 → Gives (.walkerCreate job w) s fun t =>
          after t = some { x with st := .live } ∧ quiet t ∧ (t.clu home).walkers = (s.clu home).walkers
            ++ [{ graph := x.graph, node := x.id, lo := 0, next := 0, hi := x.count, out := 0, wid := 0 }]))
    ∧ (∀ wid clu home v, x.st = .live → x.cancelled = false → x.redo = false → x.gang = false → x.places clu = true →
      (s.clu clu).owner = some job → (∀ h ∈ (s.clu clu).runq, ¬ (h.graph = x.graph ∧ h.node = x.id ∧ h.next < h.hi)) →
      s.walker? job x.graph x.id wid = some (home, v) → x.order ≠ 2 → v.next < v.hi → 1 ≤ x.grain →
      Gives (.handout job w wid clu) s fun t => t.ctxs = s.ctxs ∧ (j.cfg.mode ≠ 1 → SameMemory s t)
        ∧ (t.clu clu).runq = (s.clu clu).runq ++ [{
            graph := x.graph, node := x.id, next := v.next, hi := min (v.next + x.grain) v.hi, wid := wid, since := s.seq }])
    ∧ (s.oldestQueued job x.graph x.id = none → exec (.priorityAge job w) s = .next s)
    ∧ (∀ o, s.oldestQueued job x.graph x.id = some o → Gives (.priorityAge job w) s fun t => quiet t ∧ t.jobs = s.jobs
        ∧ (∀ k h, h ∈ (s.clu k).runq → h.graph = x.graph → h.node = x.id → h.since = o.since → (s.clu k).owner = some job →
          { h with aged := h.aged + 1 } ∈ (t.clu k).runq)
        ∧ (∀ k, (t.clu k).runq.map (fun h => { h with aged := 0 }) = (s.clu k).runq.map fun h => { h with aged := 0 })
        ∧ ∀ k h, h ∈ (t.clu k).runq → ∃ a, h.aged ≤ a + 1 ∧ a ≤ h.aged ∧ { h with aged := a } ∈ (s.clu k).runq)

/-- R157 to R160, R162, R181: RUN_START takes a free context's next run from its core's mailbox, else from the young end
of its deque, else from its cluster's run queue; the run owns its banks, those it does not inherit go through the clear
path, and its registers are those of its kind. The numbers 1, 2 and 3 of the sources are the model's (assumption log 56), as is
what fits where banks are kept (log 57). -/
def Obligations.RunsStart : Prop :=
  ∀ (s : State) (n job : Nat) (x : Node) (f : Fit),
    let core := coreOf n
    let k := s.core core
    let j := s.job job
    (s.clu (cluOf n)).owner = some job → j.pre = .none → j.savedWalkers = [] → j.savedHands = [] → j.savedTasks = [] →
    n < 6144 → (s.ctx n).run.kind = .free → s.fits core x = some f →
    let begun (r : Run) (pc : Word) (t : State) : Prop :=
      let c := t.ctx n
      c.run = { r with job := job, graph := x.graph, node := x.id, banks := f.inh ++ f.fresh } ∧ c.pc = pc
      ∧ c.getX 6 = BitVec.ofNat 64 x.param ∧ c.getX 7 = BitVec.ofNat 64 (x.graph * 2 ^ 32 + x.id)
      ∧ c.getX 62 = BitVec.ofNat 64 (packCoord n) ∧ c.v = [] ∧ c.p = [] ∧ c.qs = [] ∧ c.streams = [] ∧ c.sb = []
      ∧ c.sys.lvl = .run ∧ c.sys.fstat = 0 ∧ c.sys.cstat = (if f.inh = [] then 0 else BitVec.twoPow 64 cstatInh)
      ∧ (t.core core).clearing = k.clearing ++ f.fresh ++ f.extra
      ∧ (j.cfg.mode ≠ 1 → SameMemory s t) ∧ ∀ m, m ≠ n → t.ctx m = s.ctx m
    let record (e : Task) (c : Ctx) : Prop := c.getX 1 = e.arg ∧ c.getX 10 = e.fp ∧ c.getX 11 = e.jrec
    (∀ e r, k.mail = e :: r → s.placeable job e.graph e.node = some x → Gives (.runStart n 1) s fun t =>
      begun { kind := .handler } e.code t ∧ record e (t.ctx n) ∧ (t.ctx n).getX 12 = BitVec.ofNat 64 e.sender
      ∧ (t.core core).mail = r)
    ∧ (∀ e, k.mail = [] → k.deque.getLast? = some e → s.placeable job e.graph e.node = some x →
      Gives (.runStart n 2) s fun t => begun { kind := .task } e.code t ∧ record e (t.ctx n) ∧ (t.ctx n).getX 12 = 0
        ∧ (t.core core).deque = k.deque.dropLast)
    ∧ (∀ h, k.mail = [] → k.deque = [] → (s.clu (cluOf n)).runq = [h] → h.rem = none → h.next < h.hi → x.order ≠ 2 →
      s.placeable job h.graph h.node = some x → x.places (cluOf n) = true → Gives (.runStart n 3) s fun t =>
        begun { kind := .tile, tile := some (h.next, h.wid), hand := some ⟨h.next + 1, h.hi, h.wid⟩ }
          (BitVec.ofNat 64 x.entry) t
        ∧ (t.ctx n).getX 1 = BitVec.ofNat 64 h.next ∧ (t.ctx n).getX 2 = BitVec.ofNat 64 (x.coords h.next).1
        ∧ (t.ctx n).getX 3 = BitVec.ofNat 64 (x.coords h.next).2.1
        ∧ (t.ctx n).getX 4 = BitVec.ofNat 64 (x.coords h.next).2.2.1
        ∧ (t.ctx n).getX 5 = BitVec.ofNat 64 (x.coords h.next).2.2.2 ∧ (t.clu (cluOf n)).runq = [])

/-- R51, R153, R162, R166, R180: a bank's clear path leaves zeros in it and nothing else; spilled records return to an
empty deque; a run of a cancelled node halts unless it drains; kept banks expire, the longest kept first; a node with
counter 1, no run and no walker completes, with its graph's counter, once its arenas are gone. A refill that returns all of up to 8
records at once is the model's choice (assumption log 104). -/
def Obligations.RunsAndNodesEnd : Prop :=
  ∀ (s : State),
    (∀ core bank, bank ∈ (s.core core).clearing → Gives (.bankClearComplete core bank) s fun t =>
      (∀ off, off < 32768 → t.byte (bankKey core bank off) = 0)
      ∧ (∀ a, ¬ (bankKey core bank 0 ≤ a ∧ a < bankKey core bank 0 + 32768) → t.byte a = s.byte a)
      ∧ bank ∉ (t.core core).clearing ∧ t.ctxs = s.ctxs)
    ∧ (∀ core g,
      let job := s.ownerOf core
      (s.job job).pre = .none → (s.core core).deque = [] → (s.job job).graphs = [g] → g.spill ≠ [] → g.spill.length ≤ 8 →
      (∀ e ∈ g.spill, e.core = core) → (s.job job).cfg.mode = 0 → Gives (.dequeRefill core) s fun t =>
        (t.core core).deque = g.spill.map (s.ringRead job core g)
        ∧ (t.job job).graphs = [{ g with spill := [], held := g.held && !g.done }] ∧ t.ctxs = s.ctxs ∧ SameMemory s t
        ∧ ∀ e ∈ (t.core core).deque, e.graph ∈ g.spill.map (·.graph) ∧ e.node ∈ g.spill.map (·.node))
    ∧ (∀ n x, s.nodeOf n = some x → x.cancelled = true →
      (x.drain = true → x.redo = false → exec (.cancelledHalt n) s = .next s)
      ∧ (x.drain = false → (s.ctx n).run.kind ≠ .free → (s.ctx n).sys.ending = 0 →
          (s.job (s.ctx n).run.job).pre = .none → (s.ctx n).stage.taken = false →
          (∀ p ∈ s.homes.fwait, n ∉ p.2) → (∀ p ∈ s.homes.syncs, n ∉ p.2.fifo) → x.redo = false →
          Gives (.cancelledHalt n) s fun t => (t.ctx n).sys.ending = 1 ∧ (t.ctx n).x = (s.ctx n).x
            ∧ (t.ctx n).pc = (s.ctx n).pc ∧ SameMemory s t ∧ ∀ m, m ≠ n → t.ctx m = s.ctx m))
    ∧ (∀ core, Gives (.retainExpire core) s fun t =>
        (t.core core).kept = (s.core core).kept.drop 1 ∧ t.ctxs = s.ctxs ∧ SameMemory s t)
    ∧ (∀ job w x g, s.nodeAt job w = some x → (s.job job).pre = .none → x.st = .live → x.redo = false → x.counter = 1 →
      s.nodeBusy job x.graph x.id = false → s.walkersOf job x.graph x.id = [] →
      (∀ h ∈ (s.job job).graphs, h.parent ≠ some (x.graph, x.id)) →
      (x.arenas = [] → (s.job job).graph? x.graph = some g → Gives (.nodeComplete job w) s fun t =>
        (t.nodeAt job w).map (fun y => (y.st, y.counter)) = some (.done, 0)
        ∧ ((t.job job).graph? x.graph).map (·.counter) = some (g.counter - 1)
        ∧ (∀ y ∈ (t.job job).nodes, y.graph = x.graph → x.id ∉ y.preds) ∧ t.ctxs = s.ctxs ∧ SameMemory s t)
      ∧ (x.arenas ≠ [] → Gives (.nodeComplete job w) s fun t => t.nodeAt job w = some { x with st := .dying }
        ∧ (∀ p ∈ x.arenas, ((t.job job).slot p.2).st = .dying) ∧ t.ctxs = s.ctxs ∧ SameMemory s t))

/-! ## Arenas and discards -/

/-- R142, R144 to R146: the death of arenas begins a discard of their frames once no access by their names is on its way, and when
it is done frees their slots with the next generation, or quarantines them after 255; a sweep frees quarantined slots at
generation 0; a discard goes through the clusters, then the homes, whose bytes become those of their channel. -/
def Obligations.ArenasDie : Prop :=
  ∀ (s : State) (job w : Nat) (x : Node) (d : Discard) (id : Nat),
    let j := s.job job
    let quiet (t : State) : Prop := t.ctxs = s.ctxs ∧ t.net = s.net
    (s.nodeAt job w = some x → j.pre = .none → x.st = .dying → ∀ i k, x.arenas = [(i, k)] →
      (x.disc = none → s.arenaBusy job x = true → exec (.arenaDeath job w) s = .next s)
      ∧ (x.disc = none → s.arenaBusy job x = false → Gives (.arenaDeath job w) s fun t => quiet t ∧ SameMemory s t
        ∧ t.nodeAt job w = some { x with disc := some s.seq }
        ∧ ∃ e, t.discards.get? s.seq = some e ∧ e.ranges = (j.slot k).frames.map fun f => (f, 2 ^ 21))
      ∧ (x.disc = some id → s.discards.get? id = some d → d.done = true → x.redo = false → Gives (.arenaDeath job w) s fun t =>
        quiet t ∧ (t.nodeAt job w).map (·.arenas) = some [] ∧ t.discards.get? id = none
        ∧ (t.job job).slot k = { st := if (j.slot k).gen = 255 then .quarantined else .free,
                                  gen := ((j.slot k).gen + 1) % 256 }
        ∧ (t.job job).free = j.free ++ (j.slot k).frames))
    ∧ (j.sweep = none → (∃ p ∈ j.slots, p.2.st = .quarantined) → Gives (.arenaSweep job) s fun t =>
      quiet t ∧ SameMemory s t ∧ (t.job job).sweep = some s.seq)
    ∧ (j.sweep = some id → (∀ h ∈ s.shoots, h.id ≠ id) → Gives (.arenaSweep job) s fun t =>
      quiet t ∧ SameMemory s t ∧ (t.job job).sweep = none ∧ (∀ p ∈ (t.job job).slots, p.2.st ≠ .quarantined)
      ∧ ∀ k, (t.job job).slot k
          = if (j.slot k).st = .quarantined then { j.slot k with st := .free, gen := 0 } else j.slot k)
    ∧ (s.discards.get? id = some d →
      (∀ clu, clu ∈ d.clus → d.waits.get? clu = none → (s.clu clu).wbOut = [] → d.homed = false →
        Gives (.discardClusterStep id clu) s fun t => quiet t ∧ SameMemory s t
          ∧ (∀ p ∈ (t.clu clu).lines, ¬ (keyIsHome p.1 = true ∧ inRanges d.ranges p.1 = true))
          ∧ (∀ p ∈ (s.clu clu).lines, inRanges d.ranges p.1 = false → p ∈ (t.clu clu).lines)
          ∧ ∃ e, t.discards.get? id = some e ∧ clu ∉ e.clus ∧ (e.clus = [] → e.homed = true ∧ e.homes = List.range 64))
      ∧ (∀ home, home ∈ d.homes → home < 64 →
        (∀ l ∈ s.homes.pend, ¬ (inRanges d.ranges l = true ∧ homeOf l = home)) →
        let mine (b : Nat) : Prop := inRanges d.ranges b = true ∧ homeOf b = home
        Gives (.discardHomeStep id home) s fun t => quiet t
          ∧ (∀ b v, mine b → (b, v) ∈ s.homes.chan → (∀ w, (b, w) ∈ s.homes.chan → w = v) → t.byte b = v)
          ∧ (∀ b, ¬ (mine b ∧ ∃ v, (b, v) ∈ s.homes.chan) → t.byte b = s.byte b)
          ∧ (∀ p ∈ t.homes.chan, ¬ mine p.1) ∧ (∀ p ∈ s.homes.chan, ¬ mine p.1 → p ∈ t.homes.chan)
          ∧ (∀ p ∈ t.full, ¬ (inRanges d.ranges p.1 = true ∧ homeOf p.1 = home))
          ∧ ∃ e, t.discards.get? id = some e ∧ home ∉ e.homes ∧ home + 64 ∉ e.homes)
      ∧ (d.homed = true → d.homes = [] → Gives (.discardComplete id) s fun t =>
          quiet t ∧ SameMemory s t ∧ t.discards.get? id = some { d with done := true }))
    ∧ (∀ l r, s.homes.pend = l :: r → Gives (.hbmChannelAcknowledge (homeOf l)) s fun t =>
        t.homes = { s.homes with pend := r } ∧ quiet t ∧ SameMemory s t)

/-! ## Firmware and pre-emption -/

/-- R39, R41, R57, R60, R62, R65, R67, R132, R169, R186, R402: firmware moves a page no lease pins: its entry is cleared
and shot down, then its bytes go to the new frame and the entry is installed; a page asked for gets its frame; a format
window, a job's configuration and the thermal flags are written, and what may not be written is reported. -/
def Obligations.FirmwareSteps : Prop :=
  ∀ (s : State) (job page frame win base len scb attr die a : Nat) (m : Move) (c : JobCfg),
    let j := s.job job
    let cores := (s.clusOf job).flatMap fun k => (List.range 8).map (k * 8 + ·)
    let word (t : State) (v : Nat) : Prop := t.word a = v % 2 ^ 64 ∧ ∀ k, (k < a ∨ a + 8 ≤ k) → t.byte k = s.byte k
    (s.leafAt job page = some a →
      (j.moves.get? page = none →
        (s.frameOk job page frame = false → exec (.pageMove job page frame) s = .next s)
        ∧ (s.word a % 2 = 1 → (j.pins.get 0 page ≠ 0 ∨ j.cfg.fixedPages.contains (pageOfKey page) = true) →
          exec (.pageMove job page frame) s = .next s)
        ∧ (s.frameOk job page frame = true →
          (s.word a % 2 = 0 → Gives (.pageMove job page frame) s fun t => word t (frame + 1) ∧ t.ctxs = s.ctxs
            ∧ page ∉ (t.job job).asked)
          ∧ (s.word a % 2 = 1 → j.pins.get 0 page = 0 → j.cfg.fixedPages.contains (pageOfKey page) = false → Gives (.pageMove job page frame) s fun t => word t 0 ∧ t.ctxs = s.ctxs
            ∧ ∃ v, (t.job job).moves.get? page = some v ∧ v.old = s.word a - 1 ∧ v.frame = frame
            ∧ (cores ≠ [] → ∃ h, t.shoots = s.shoots ++ [h] ∧ h.id = v.shoot ∧ h.job = job ∧ h.cores = cores
                ∧ h.form = .range (keyVA page) (keyVA page + keySize page)))))
      ∧ (∀ src dst, j.moves.get? page = some m → s.classify job m.old = some src → s.classify job m.frame = some dst →
        (s.shoots.any (·.id == m.shoot) = true ∨ s.frameOk job page m.frame = false → exec (.pageMove job page frame) s = .next s)
        ∧ ((∀ h ∈ s.shoots, h.id ≠ m.shoot) → (∀ p ∈ s.net, p.touches src.key (keySize page) = false) →
          (∀ q ∈ s.jobs, q.2.stalled = []) → (∀ h ∈ s.homes.lines, h.2.recalls = none ∧ h.2.back = []) →
          s.frameOk job page m.frame = true →
          (∀ k ∈ s.clusOf job, (s.clu k).lines = [] ∧ (s.clu k).rb = []) → Memory.wf s.mem = true →
          (a + 8 ≤ dst.key ∨ dst.key + keySize page ≤ a) → Gives (.pageMove job page frame) s fun t =>
            (∀ i, i < keySize page → t.byte (dst.key + i) = s.byte (src.key + i))
            ∧ t.word a = (m.frame + 1) % 2 ^ 64 ∧ (t.job job).moves.get? page = none ∧ t.ctxs = s.ctxs)))
    ∧ (let bad : Prop := 16 ≤ win ∨ 32 ≤ attr ∨ base % 128 ≠ 0 ∨ len % 128 ≠ 0 ∨ len = 0 ∨ 2 ^ 39 < base + len
          ∨ 2 ^ 39 ≤ scb ∨ 2 ^ 39 < scb + len / 128 * (128 / (4 * (attr / 2 % 8 + 1)))
          ∨ (attr % 2 = 1 ∧ ∃ p ∈ s.pkg.windows, p.1 ≠ win ∧ winEn p.2 = true ∧ base < winBase p.2 + winLen p.2
              ∧ winBase p.2 < base + len)
          ∨ (attr % 2 = 1 ∧ ∃ p ∈ s.jobs, ∃ f ∈ p.2.cfg.pool, base < f + 2 ^ 21 ∧ f < base + len)
      (bad → Gives (.formatWindowWrite win base len scb attr) s fun t => Beside s t ∧ t.pkg.windows = s.pkg.windows
        ∧ t.pkg.reports = s.pkg.reports ++ [⟨rWindow, win⟩])
      ∧ (¬ bad → base < 2 ^ 39 → len < 2 ^ 39 → Gives (.formatWindowWrite win base len scb attr) s fun t => Beside s t
        ∧ (∀ n, n ≠ win → t.pkg.windows.get 0 n = s.pkg.windows.get 0 n)
        ∧ ∃ w, t.pkg.windows.get? win = some w ∧ winBase w = base ∧ winLen w = len ∧ winScb w = scb
          ∧ winEn w = (attr % 2 == 1) ∧ winPm1 w = attr / 2 % 8 ∧ winUns w = (attr / 16 == 1)))
    ∧ (s.pkg.requests.get? job = none → exec (.jobConfigure job) s = .next s)
    ∧ (j.moves ≠ [] → exec (.jobConfigure job) s = .next s)
    ∧ (s.pkg.requests.get? job = some c → (∀ x ∈ j.nodes, x.st = .done) → j.moves = [] →
      (s.configOk job c = false → Gives (.jobConfigure job) s fun t => Beside s t ∧ t.jobs = s.jobs ∧ t.clus = s.clus
        ∧ t.pkg.reports = s.pkg.reports ++ [⟨rConfig, job⟩])
      ∧ (s.configOk job c = true → Gives (.jobConfigure job) s fun t => t.ctxs = s.ctxs
        ∧ (t.job job).cfg = { c with
            stk := BitVec.ofNat 64 (c.stk.toNat % 2 ^ 20), aps := (s.apertures c).1,
            subs := c.subs.map fun (e : Nat × Word × Word × Word) => (e.1, subRegs e.2) }
        ∧ c.hptb.toNat % 2 ^ 15 = 0 ∧ c.retq ≤ 2048 ∧ c.inlmax ≤ 8 ∧ c.rsvb ≤ 12 ∧ 1 ≤ c.mbox ∧ c.mbox ≤ 8 ∧ c.resq < 2 ^ 32
        ∧ 16 ≤ c.fqn ∧ c.fqn ≤ 65536 ∧ (∀ d, d < 4 → stkUnits c.stk d ≤ 16) ∧ (∀ f ∈ c.pool, f % 2 ^ 21 = 0)
        ∧ (s.apertures c).1.length ≤ 16 ∧ (∀ p ∈ (s.apertures c).1, p.len < 2 ^ 39 ∧ p.pabase + p.len ≤ 2 ^ 39
          ∧ ∀ r ∈ s.heldRanges c, p.pabase + p.len ≤ r.1 ∨ r.1 + r.2 ≤ p.pabase)
        ∧ (t.job job).configured = true ∧ (t.job job).free = c.pool ∧ (t.job job).nodes = [] ∧ (∀ k, (t.job job).slot k = {})
        ∧ (∀ k, k < 192 → c.holds k = true → (t.clu k).owner = some job
            ∧ ∀ i, i < 8 → (t.core (k * 8 + i)).mbox = c.mbox ∧ (t.core (k * 8 + i)).kept = [])
        ∧ (∀ f ∈ c.pool, ∀ i, i < 2 ^ 21 → t.byte (f + i) = 0)
        ∧ ∀ d i, d < 4 → i < 2 ^ 32 → t.byte (2 ^ 50 + (job * 4 + d) * 2 ^ 32 + i) = 0))
    ∧ (Gives (.thermalHotSet die) s fun t => Beside s t ∧ t.pkg.hot.get false die = true
      ∧ ∀ d, d < 4 → t.pkg.was.get 0 d = s.pkg.was.get 0 d ||| BitVec.twoPow 4 die)
    ∧ (Gives (.thermalHotClear die) s fun t => Beside s t ∧ t.pkg.hot.get false die = false ∧ t.pkg.was = s.pkg.was)

/-- R198 to R201, R392 to R396, Table 21-6: pre-emption stops a job, withdraws what waits, drains, and saves contexts,
banks, walkers and records; restoration seats a saved context in a cluster of its node's mask with the bytes of its banks. -/
def Obligations.Preemption : Prop :=
  ∀ (s : State) (job : Nat),
    let j := s.job job
    let cl := s.clusOf job
    let ns := s.ctxsOf job
    (j.pre = .none → cl ≠ [] → Gives (.preemptStop job) s fun t => Beside s t ∧ (t.job job).pre = .stopped)
    ∧ (j.pre = .stopped →
      (ns.any (fun n => (s.ctx n).stage.divides) = true → exec (.preemptWithdraw job) s = .next s)
      ∧ ((∀ n ∈ ns, (s.ctx n).stage.divides = false ∧ (s.ctx n).stage.shp = none) → Gives (.preemptWithdraw job) s fun t =>
        (t.job job).pre = .withdrawn ∧ (t.job job).rgq = [] ∧ SameMemory s t ∧ (∀ n, n ∉ ns → t.ctx n = s.ctx n)
        ∧ (∀ p ∈ t.homes.fwait, ∀ n ∈ ns, n ∉ p.2)
        ∧ ∀ n ∈ ns, (t.ctx n).pc = (s.ctx n).pc ∧ (t.ctx n).x = (s.ctx n).x ∧ (t.ctx n).v = (s.ctx n).v
          ∧ (t.ctx n).p = (s.ctx n).p ∧ (t.ctx n).run = (s.ctx n).run ∧ (t.ctx n).sb = (s.ctx n).sb))
    ∧ (j.pre = .withdrawn →
      ((∀ k ∈ cl, (s.clu k).jobs = [] ∧ ∀ i, i < 8 → (s.core (k * 8 + i)).lp = []) → s.net = [] → j.stalled = [] →
        (∀ n ∈ ns, (s.ctx n).sb = [] ∧ (s.ctx n).unack = 0 ∧ (s.ctx n).loads = [] ∧ (s.ctx n).stage = {} ∧ (s.ctx n).streams = []) →
        Gives (.preemptDrain job) s fun t => SameMemory s t ∧ (∀ n, t.ctx n = s.ctx n) ∧ (t.job job).pre = .drained)
      ∧ (∀ n ∈ ns, (s.ctx n).unack ≠ 0 → Gives (.preemptDrain job) s fun t => SameMemory s t ∧ (t.job job).pre = .withdrawn))
    ∧ (j.pre = .drained → (∀ k ∈ cl, (s.clu k).wbOut = [] ∧ (s.clu k).rb = [] ∧ (s.clu k).runq = []
        ∧ ∀ p ∈ (s.clu k).lines, p.2.isDirty = false) → j.savedHands = [] → Gives (.preemptSave job) s fun t =>
      (t.job job).pre = .saved ∧ (j.cfg.save = none → SameMemory s t) ∧ (∀ n, n ∉ ns → t.ctx n = s.ctx n)
      ∧ (∀ n ∈ ns, (t.ctx n).run.kind = .free ∧ ∃ v : Saved, v ∈ (t.job job).saved ∧ v.coord = n ∧ v.ctx = s.ctx n
        ∧ ∀ (i b : Nat), (s.ctx n).run.banks[i]? = some b → b ∉ (s.core (coreOf n)).clearing →
          ∃ im : List Host.Cell, v.banks[i]? = some im ∧ ∀ off, off < 32768 → SMap.get 0 im off = s.byte (bankKey (coreOf n) b off))
      ∧ (t.job job).savedWalkers = cl.flatMap (fun k => (s.clu k).walkers) ++ j.savedWalkers
      ∧ ∀ k ∈ cl, (t.clu k).walkers = [] ∧ ∀ i, i < 8 → (t.core (k * 8 + i)).deque = [] ∧ (t.core (k * 8 + i)).mail = [])
    ∧ (∀ (v : Saved) x k core, j.pre = .saved → j.cfg.mode = 0 → s.pkg.requests.get? job = none →
      (∀ q, q < 192 → j.cfg.holds q = true → s.pkg.retained.contains (q / 48) = false
        ∧ (s.clu q).owner = none) → j.saved = [v] → j.savedWalkers = [] → j.savedHands = [] → j.savedTasks = [] →
      v.bars = [] → v.tiles = [] → v.jobs = [] → s.homes.syncs = [] → v.ctx.run.kind ≠ .gang →
      j.node? v.ctx.run.graph v.ctx.run.node = some x → k < 192 → x.places k = true → j.cfg.holds k = true →
      core / 8 = k → (∀ i, i < 4 → (s.ctx (core * 4 + i)).run.kind = .free) → (s.core core).clearing = [] →
      v.ctx.run.banks.length ≤ 12 → v.banks.length = v.ctx.run.banks.length → v.marks.length = v.banks.length →
      (∀ im ∈ v.banks, Memory.wf im = true ∧ ∀ p ∈ im, p.1 < 32768) →
      Gives (.restore job) s fun t => (t.job job).pre = .none ∧ (t.job job).saved = []
        ∧ (∀ q, q < 192 → j.cfg.holds q = true → (t.clu q).owner = some job)
        ∧ ∃ n, x.places (cluOf n) = true ∧ j.cfg.holds (cluOf n) = true ∧ (t.ctx n).pc = v.ctx.pc ∧ (t.ctx n).x = v.ctx.x
          ∧ (t.ctx n).v = v.ctx.v ∧ (t.ctx n).p = v.ctx.p ∧ (t.ctx n).sys = v.ctx.sys ∧ (t.ctx n).streams = v.ctx.streams
          ∧ (t.ctx n).run = { v.ctx.run with banks := (t.ctx n).run.banks } ∧ (t.ctx n).sb.length = v.ctx.sb.length
          ∧ (t.ctx n).run.banks.length = v.banks.length
          ∧ (∀ (i b : Nat) (im : List Host.Cell), (t.ctx n).run.banks[i]? = some b → v.banks[i]? = some im → ∀ off, off < 32768 →
              t.byte (bankKey (coreOf n) b off) = SMap.get 0 im off)
          ∧ ∀ m, m ≠ n → t.ctx m = s.ctx m)

/-! ## Links and the host -/

/-- R400, R402, R403, R405, R407: flits that fail are retried sixteen times before the port goes down, and with the last
port of a node every request on its way to it is answered with an error; inbound requests reach memory through an enabled
aperture, at the homes of their lines, or are refused and counted; a read of a line that RECALL must empty first waits; in
record mode a write joins the journal; tokens come at RATE up to BURST, and the oldest request that waits at injection takes
the first. The number of failed retries that takes a port down is log 69, a request that no aperture holds whole log 71, a node
that no port names log 29. -/
def Obligations.LinksAndInbound : Prop :=
  ∀ (s : State) (port node caps job len data : Nat) (p : Port) (a : Aperture) (j : Job),
    (s.pkg.ports.get? port = some p → p.up = true →
      let after (t : State) (q : Port) : Prop := t.pkg.ports.get? port = some q ∧ Beside s t
      (Gives (.flitReceive port true) s (after · { p with retries := 0 }))
      ∧ (p.retries < 16 → Gives (.flitReceive port false) s (after · { p with retries := p.retries + 1 }))
      ∧ (16 ≤ p.retries → Gives (.flitReceive port false) s fun t => after t { p with up := false }
        ∧ t.pkg.reports = s.pkg.reports ++ [⟨rPort, port⟩]
        ∧ ((∀ q ∈ s.pkg.ports, q.1 ≠ port → q.2.node = p.node → q.2.up = false) →
            (∀ r ∈ t.net, ¬ (r.cls = .req ∧ r.pl.linkNode = some p.node)) ∧ t.net.length = s.net.length)
        ∧ ((∃ q ∈ s.pkg.ports, q.1 ≠ port ∧ q.2.node = p.node ∧ q.2.up = true) → t.net = s.net)))
    ∧ (node < 256 → caps / 4 % 32 < 18 → Gives (.linkBringup node caps) s fun t => Beside s t
      ∧ t.pkg.hlcap.get? node = some (caps % 4) ∧ t.pkg.ports.get? (caps / 4 % 32) = some { node := node }
      ∧ ∀ q, s.pkg.ports.get? (caps / 4 % 32) = some q → q.node ≠ node →
          (∀ r ∈ s.pkg.ports, r.1 ≠ caps / 4 % 32 → r.2.node = q.node → r.2.up = false) →
          ∀ r ∈ t.net, ¬ (r.cls = .req ∧ r.pl.linkNode = some q.node))
    ∧ ((∀ q ∈ s.pkg.ports, q.2.node = node → q.2.up = false) → s.linkDown node = true)
    ∧ (s.jobs = [(job, j)] → j.cfg.aps = [a] → s.pkg.inbox = [] → ∀ addr,
      let pa := a.pabase + (addr - a.inbase)
      let within (n : Nat) : Prop := a.en = true ∧ a.node = node ∧ a.inbase ≤ addr ∧ addr + n ≤ a.inbase + a.len ∧ 0 < n
      let refused (t : State) : Prop :=
        Beside s t ∧ t.pkg.replies = [] :: s.pkg.replies ∧ t.pkg.refusals = s.pkg.refusals + 1 ∧ t.net = s.net
      let free (n : Nat) : Prop := ∀ l ∈ linesOf pa n, s.homeFree l = true
      (j.cfg.mode = 0 →
      (within len → a.acc % 2 = 1 → free len → Gives (.inboundRequest node 0 addr len data) s fun t =>
        Beside s t ∧ t.pkg.replies = s.bytes pa len :: s.pkg.replies ∧ t.pkg.inbox = [])
      ∧ (within len → a.acc % 2 = 1 → ¬ free len → Gives (.inboundRequest node 0 addr len data) s fun t =>
        Beside s t ∧ t.pkg.replies = s.pkg.replies ∧ t.pkg.inbox = [⟨node, 0, addr, len, data⟩])
      ∧ (within len → 2 ≤ a.acc → pa + len ≤ 2 ^ 39 → Gives (.inboundRequest node 1 addr len data) s fun t => t.ctxs = s.ctxs
        ∧ (∀ i, i < len → t.byte (pa + i) = BitVec.ofNat 8 (data / 256 ^ i))
        ∧ ∀ k, (k < pa ∨ pa + len ≤ k) → t.byte k = s.byte k)
      ∧ (within 8 → a.acc = 3 → pa % 8 = 0 → free 8 → pa < 2 ^ 39 → data < 2 ^ 64 →
        Gives (.inboundRequest node (16 + 16 + 1) addr len data) s fun t =>
          t.pkg.replies = s.bytes pa 8 :: s.pkg.replies ∧ t.word pa = (s.word pa + data) % 2 ^ 64
          ∧ ∀ k, (k < pa ∨ pa + 8 ≤ k) → t.byte k = s.byte k))
      ∧ (j.cfg.mode = 1 → within 8 → 2 ≤ a.acc → pa + 8 ≤ 2 ^ 39 → data < 2 ^ 64 → Gives (.inboundRequest node 1 addr 8 data) s fun t =>
        (t.job job).journal = j.journal ++ [⟨jInbound, node, addr, [1, 8, data, 0]⟩] ∧ t.ctxs = s.ctxs)
      ∧ (¬ (within len ∧ a.acc % 2 = 1) → Gives (.inboundRequest node 0 addr len data) s refused)
      ∧ (¬ (within len ∧ 2 ≤ a.acc) → Gives (.inboundRequest node 1 addr len data) s refused))
    ∧ (let n := min ((s.job job).tokens + fld (s.job job).cfg.rlim.toNat 31 0) (fld (s.job job).cfg.rlim.toNat 47 32)
      ((s.job job).stalled = [] → Gives (.tokenRefill job) s fun t => Beside s t ∧ (t.job job).tokens = n ∧ t.net = s.net)
      ∧ ∀ r, (s.job job).stalled = [r] → fld (s.job job).cfg.rlim.toNat 31 0 ≠ 0 →
        (0 < n → Gives (.tokenRefill job) s fun t => Beside s t ∧ (t.job job).tokens = n - 1 ∧ (t.job job).stalled = []
          ∧ ∃ q, t.net = s.net ++ [q] ∧ q.pl = r.pl ∧ q.who = r.who ∧ q.cls = r.cls)
        ∧ (n = 0 → Gives (.tokenRefill job) s fun t => Beside s t ∧ (t.job job).stalled = [r] ∧ t.net = s.net))

/-- R87, R366, R371, R372, R401, R404, R408, R409, Tables 24-2 and 24-4: a command of a node that is not the host of a configured
job is refused and counted. The host's commands are taken one at a time: one that finds another under way waits behind it. LAUNCH
reads its record word by word from the homes, each word a request of its own, and enters a node or answers the code of what it
fails; CANCEL marks a live node and answers 0, CNTRD answers the counter word, and ATTEST a signed report, or an error while the
seed is locked. The error reply for a record that cannot be read is log 72, the packing of the command word log 68, the bytes
JOBDIG cfin_s log 70. -/
def Obligations.HostCommands : Prop :=
  ∀ (s : State) (cmd record nonce g m : Nat) (x : Node) (h : Graph),
    let job := cmdJob cmd
    let node := cmdNode cmd
    let j := s.job job
    let queue (t : State) : List HostCmd := t.pkg.cmds.get [] node
    let replies (t : State) (ws : List Byte) : Prop := t.pkg.replies = ws :: s.pkg.replies ∧ t.ctxs = s.ctxs
    let refused (t : State) : Prop := Beside s t ∧ replies t [] ∧ t.pkg.refusals = s.pkg.refusals + 1 ∧ t.jobs = s.jobs
    let asks (t : State) (net : List Packet) (l : Loc) (cap : List Byte) : Prop :=
      (∃ q, t.net = net ++ [q] ∧ q.cls = .req ∧ q.who = .host node ∧ q.pl = .read l 8 false)
      ∧ Beside s t ∧ t.pkg.replies = s.pkg.replies ∧ t.jobs = s.jobs
      ∧ queue t = [{ job := job, op := .launch record, cap := cap, wait := true }]
    (j.configured = false ∨ node ≠ j.cfg.host → Gives (.hostLaunch cmd record) s refused ∧ Gives (.attest cmd nonce) s refused
      ∧ ∀ l id, Gives (.hostCancel cmd l id) s refused ∧ Gives (.hostCntrd cmd l id) s refused)
    ∧ (j.configured = true → node = j.cfg.host → j.cfg.mode = 0 →
    (∀ c q, queue s = c :: q → c.wait = true → Gives (.hostLaunch cmd record) s fun t => Beside s t ∧ t.jobs = s.jobs
      ∧ t.pkg.replies = s.pkg.replies ∧ queue t = queue s ++ [{ job := job, op := .launch record }])
    ∧ (queue s = [] →
      (∀ l, record % 8 = 0 → s.agentPlace job record = some l → Gives (.hostLaunch cmd record) s (asks · s.net l []))
      ∧ (record % 8 ≠ 0 ∨ s.agentPlace job record = none → Gives (.hostLaunch cmd record) s fun t =>
        replies t [] ∧ t.jobs = s.jobs ∧ queue t = [])
      ∧ (j.node? g m = some x → m < 2 ^ 32 →
        (x.st ≠ .done → Gives (.hostCancel cmd .node (g * 2 ^ 32 + m)) s fun t =>
          replies t (leBytes 8 0) ∧ ((t.job job).node? g m).map (·.cancelled) = some true ∧ SameMemory s t)
        ∧ (j.graph? g = some h → h.done = false → Gives (.hostCntrd cmd .node (g * 2 ^ 32 + m)) s fun t => SameMemory s t
          ∧ replies t (leBytes 8 (x.counter % 2 ^ 63 + x.cancelled.toNat * 2 ^ 63))))
      ∧ (s.pkg.seedLock = true → Gives (.attest cmd nonce) s fun t => replies t [] ∧ SameMemory s t)
      ∧ (s.pkg.seedLock = false → Gives (.attest cmd nonce) s fun t => SameMemory s t ∧ ∃ r, replies t r ∧ r.length = 360
        ∧ leNat (r.take 4) = 1 ∧ leNat ((r.drop 8).take 32) = nonce % 2 ^ 256
        ∧ leNat ((r.drop 40).take 1) = (match s.pkg.sec with | .unprovisioned => 0 | .locked => 1 | .debug => 2)
        ∧ leNat ((r.drop 41).take 1) = s.pkg.dbg % 256
        ∧ (r.drop 48).take 64 = bvBytes 64 (Config.shake256 (Config.firmwareImage s.pkg.fwVer s.pkg.fwFile))
        ∧ (r.drop 176).take 57 = bvBytes 57 (Config.identityPublic s.pkg.seed)
        ∧ (r.drop 240).take 114 = bvBytes 114 (Config.sign s.pkg.seed (Config.shake256 (r.take 240)))))
    -- a word of the record, or of its footprint table, comes to the agent
    ∧ (∀ (k : Nat) (p : Packet) (bs cap : List Byte) (nd : Bool), s.net[k]? = some p → s.mayDeliver k = true → p.cls = .rsp →
      p.who = .host node → p.pl = .value bs nd → queue s = [{ job := job, op := .launch record, cap := cap, wait := true }] →
      let got := cap ++ bs
      let fin_ (t : State) (w : Nat) : Prop := replies t (leBytes 8 w) ∧ queue t = [] ∧ t.net = s.net.eraseIdx k
      (∀ l, got.length < 128 → (record + got.length) % 8 = 0 → s.agentPlace job (record + got.length) = some l →
        Gives (.deliver k) s (asks · (s.net.eraseIdx k) l got))
      ∧ (got.length = 128 →
        let rcd := BitVec.ofNat 1024 (leNat got)
        (launchCode j.cfg rcd ≠ 0 → Gives (.deliver k) s (fin_ · (launchCode j.cfg rcd)))
        ∧ (launchCode j.cfg rcd = 0 → rcdFpt rcd % 16 ≠ 0 ∨ 256 < rcdFpn rcd → Gives (.deliver k) s (fin_ · 0x19))
        ∧ (∀ l, launchCode j.cfg rcd = 0 → rcdFpt rcd % 16 = 0 → 0 < rcdFpn rcd → rcdFpn rcd ≤ 256 →
          s.agentPlace job (rcdFpt rcd) = some l → Gives (.deliver k) s (asks · (s.net.eraseIdx k) l got))
        ∧ (launchCode j.cfg rcd = 0 → rcdFpn rcd = 0 → rcdFpt rcd % 16 = 0 → rcdFld rcd 96 31 0 = 0 →
          let gid := rcdFld rcd 96 63 32
          let y : Node := { graph := gid, id := 0, rcd := rcd, fpt := [] }
          (∀ i, i < 4 → rcdFld rcd 80 (16 * i + 15) (16 * i) ≤ 2048) → gangOk y = true → j.graph? gid = some h → gid ≠ 0 →
          (h.closed = true → Gives (.deliver k) s (fin_ · 0x1C))
          ∧ (h.closed = false → h.done = false → h.parent = none → h.nextId < 2 ^ 32 →
            (j.nodes.filter fun z => z.graph == gid && z.st != .done).length < 256 → Gives (.deliver k) s fun t =>
              fin_ t (gid * 2 ^ 32 + h.nextId)
              ∧ ((t.job job).node? gid h.nextId).map (fun z => (z.rcd, z.st, z.counter)) = some (rcd, .waiting, y.tiles + 1)
              ∧ ((t.job job).graph? gid).map (·.counter) = some (h.counter + 1))))))

/-! ## Security, power and errors -/

/-- R408, R410 to R413, R378, Tables 24-6 and 24-7: firmware images, tokens and fuses, the alarm, debug access, cold
reset and a package that is off. The numbers of the debug access's
kinds and registers are the model's (assumption log 68). -/
def Obligations.SecurityAndDebug : Prop :=
  ∀ (s : State) (v lv ten cause ctx n w : Nat) (ok : Bool),
    let c := s.ctx ctx
    let counted (t : State) : Prop := Beside s t ∧ t.pkg.dbgLog = s.pkg.dbgLog + 1 ∧ t.pkg.sec = s.pkg.sec ∧ t.pkg.dbg = s.pkg.dbg
    let alarmed (t : State) : Prop := t.pkg.keys = false ∧ t.pkg.seedLock = true ∧ t.pkg.dbg = 0
      ∧ t.pkg.sec = (if s.pkg.sec = .debug then .locked else s.pkg.sec)
      ∧ (∀ k, (s.ctx k).run.kind ≠ .free → (t.ctx k).sys.ending ≠ 0)
      ∧ (∀ k, (t.ctx k).sys.dbgOn = false)
      ∧ ∀ j q x, s.nodeAt j q = some x → x.st ≠ .done → (t.nodeAt j q).map (·.cancelled) = some true
    let answers (t : State) (a : Nat) : Prop := t.pkg.dbgOut = a :: s.pkg.dbgOut
    (Gives (.firmwareLoad v ok) s fun t =>
      let d := Config.shake256 (Config.firmwareImage v ok)
      if Config.imageDigest v ok = d ∧ Config.verify Config.firmwareKey d (Config.imageSignature v ok) = true ∧ s.pkg.fwMin ≤ v then
        Beside s t ∧ t.pkg.fwVer = v ∧ t.pkg.fwFile = ok ∧ t.pkg.sec = s.pkg.sec
      else t.pkg.fwVer = s.pkg.fwVer ∧ t.pkg.fwFile = s.pkg.fwFile
        ∧ (s.pkg.sec ≠ .unprovisioned → alarmed t) ∧ (s.pkg.sec = .unprovisioned → Beside s t))
    ∧ (s.pkg.sec = .locked → lv = 1 ∨ lv = 2 → Gives (.debugToken lv ten ok) s fun t =>
      if Config.verify Config.debugKey (Config.shake256 (Config.tokenBytes lv ten ok)) (Config.tokenSignature lv ten ok) = true
          ∧ Config.tokenIdentity lv ten ok = Config.identityPublic s.pkg.seed then
        Beside s t ∧ t.pkg.sec = .debug ∧ t.pkg.dbg = lv ∧ t.pkg.tenant = if ten = 0 then none else some (ten - 1)
      else counted t)
    ∧ (s.pkg.sec ≠ .locked ∨ lv = 0 ∨ 2 < lv → Gives (.debugToken lv ten ok) s counted)
    ∧ (s.pkg.sec = .debug → Gives .debugTokenExpire s fun t => t.pkg.sec = .locked ∧ t.pkg.dbg = 0 ∧ SameMemory s t
      ∧ (t.ctx ctx).sys.dbgHalt = false ∧ (t.ctx ctx).x = c.x ∧ (t.ctx ctx).pc = c.pc)
    ∧ (s.pkg.sec = .unprovisioned → Gives .provisioningFuse s fun t => t.pkg.sec = .locked ∧ t.pkg.dbg = 0 ∧ SameMemory s t)
    ∧ (s.pkg.sec ≠ .unprovisioned → exec .provisioningFuse s = .next s)
    ∧ (Gives .coldReset s fun t => t.ctxs = [] ∧ t.jobs = [] ∧ t.mem = [] ∧ t.net = [] ∧ t.clus = [] ∧ t.pkg.off = false
        ∧ t.pkg.keys = true ∧ t.pkg.seedLock = false ∧ t.pkg.rbgBad = false ∧ t.pkg.time = 0 ∧ t.pkg.dbg = 0
        ∧ t.pkg.sec = (if s.pkg.sec = .unprovisioned then .unprovisioned else .locked)
        ∧ t.pkg.seed = s.pkg.seed ∧ t.pkg.fwMin = s.pkg.fwMin)
    ∧ (Gives .packageOff s fun t => t.pkg.off = true ∧ t.pkg.keys = false ∧ t.pkg.dbg = 0
        ∧ t.pkg.sec = (if s.pkg.sec = .unprovisioned then .unprovisioned else .locked))
    ∧ (s.pkg.off = true → (∀ r, s.agenda ≠ .event .coldReset :: r) → step s = .fault .machineOff)
    ∧ (∀ r, s.agenda = .event .coldReset :: r → ∃ t, step s = .next t ∧ t.pkg.off = false ∧ t.agenda = r)
    ∧ (Gives (.securityAlarm cause) s alarmed)
    -- requests for a level: Table 24-6, power state Active
    ∧ (s.pkg.sec = .unprovisioned → Gives (.debugAccess 0 lv ctx n w) s fun t => Beside s t ∧ t.pkg.dbg = min lv 2)
    ∧ (s.pkg.sec = .locked → (Gives (.debugAccess 0 1 ctx n w) s counted) ∧ Gives (.debugAccess 0 2 ctx n w) s alarmed)
    ∧ (s.pkg.sec = .debug → s.pkg.dbg = 1 → (Gives (.debugAccess 0 1 ctx n w) s fun t => Beside s t ∧ t.pkg.dbg = 1)
        ∧ Gives (.debugAccess 3 0 ctx n w) s alarmed)
    -- an Unprovisioned part admits accesses up to its debug level (assumption log 68)
    ∧ (s.pkg.sec = .unprovisioned → s.pkg.dbg < 2 → Gives (.debugAccess 6 lv ctx n w) s counted)
    ∧ (s.pkg.sec = .unprovisioned → s.pkg.dbg = 2 → s.pkg.retained = [] → n < 64 →
      Gives (.debugAccess 6 lv ctx n w) s fun t => Beside s t ∧ answers t (c.getX n).toNat)
    -- a token without a tenant admits the management contexts, and no other
    ∧ (s.pkg.sec = .debug → s.pkg.dbg = 2 → s.pkg.tenant = none → s.pkg.retained = [] →
      (c.sys.lvl ≠ .firm → Gives (.debugAccess 6 lv ctx n w) s alarmed)
      ∧ (c.sys.lvl = .firm → n < 64 → Gives (.debugAccess 6 lv ctx n w) s fun t => Beside s t ∧ answers t (c.getX n).toNat))
    -- accesses to a context on a cluster of the token's tenant
    ∧ (∀ j k, s.pkg.sec = .debug → s.pkg.dbg = 2 → s.pkg.tenant = some j → (s.clu (cluOf ctx)).owner = some k → c.sys.lvl ≠ .firm →
      s.pkg.retained = [] →
      (k ≠ j → Gives (.debugAccess 6 lv ctx n w) s alarmed)
      ∧ (k = j →
        (s.pkg.gated.contains (coreIsland (coreOf ctx)) = true → n < 8 → Gives (.debugAccess 5 lv ctx n w) s fun t =>
          Beside s t ∧ answers t (c.sys.pm.get 0 n).toNat ∧ t.pkg.gated = s.pkg.gated) ∧
        (Gives (.debugAccess 3 lv ctx n w) s fun t => SameMemory s t ∧ (t.ctx ctx).sys.dbgHalt = true ∧ (t.ctx ctx).x = c.x)
        ∧ (Gives (.debugAccess 4 lv ctx n w) s fun t => SameMemory s t ∧ (t.ctx ctx).sys.dbgHalt = false ∧ (t.ctx ctx).x = c.x)
        ∧ (n < 64 → Gives (.debugAccess 6 lv ctx n w) s fun t => Beside s t ∧ answers t (c.getX n).toNat)
        ∧ (n < 64 → Gives (.debugAccess 7 lv ctx n w) s fun t => SameMemory s t
            ∧ (t.ctx ctx).getX n = (if n = 0 then 0 else BitVec.ofNat 64 w)
            ∧ (∀ k, k ≠ n → (t.ctx ctx).getX k = c.getX k) ∧ ∀ k, k ≠ ctx → t.ctx k = s.ctx k)
        ∧ (s.pkg.gated.contains (coreIsland (coreOf ctx)) = true → Gives (.debugAccess 6 lv ctx n w) s fun t =>
            coreIsland (coreOf ctx) ∉ t.pkg.gated)))
    ∧ (Gives .healthTestFailure s fun t => Beside s t ∧ t.pkg.rbgBad = true)

/-- R176, R411, R412, R414, R415: islands gate only when idle and wake, a core island is boosted while another that
runs its node sleeps, a die is retained only while no running job holds a cluster of it; corrected errors are counted,
an uncorrectable one marks its line or accumulator tile, or ends the run it arises in, unless its node is restartable; a command
that reads a marked tile faults. The places of tiles are log 116. -/
def Obligations.PowerAndErrors : Prop :=
  ∀ (s : State) (die i ctx line : Nat) (x : Node),
    let island := die * 128 + i
    let cores := (List.range 4).map fun k => (die * 48 + i / 2) * 8 + i % 2 * 4 + k
    let busy (core : Nat) : Prop := ∃ k, k < 4 ∧ (s.ctx (core * 4 + k)).run.kind ≠ .free
    (die < 4 → i < 96 →
      ((∀ core ∈ cores, ¬ busy core ∧ (s.core core).kept = [] ∧ (s.core core).clearing = []) →
        s.pkg.gated.contains island = false → Gives (.islandGate island) s fun t => Beside s t
          ∧ t.pkg.gated = s.pkg.gated ++ [island])
      ∧ ((∃ core ∈ cores, busy core) → exec (.islandGate island) s = .next s)
      ∧ (∀ other r, other < 96 → other ≠ i → s.pkg.boosted.contains island = false →
        (∀ k, k < 16 → let c := s.ctx (((die * 48 + other / 2) * 8 + other % 2 * 4) * 4 + k)
          c.run.kind = .free ∨ (c.stage.bar ≠ none ∧ 2 ≤ c.stage.b)) →
        r ∈ s.islandNodes (die * 128 + other) → r ∈ s.islandNodes island →
        Gives (.clockBoost island) s fun t => Beside s t ∧ t.pkg.boosted = s.pkg.boosted ++ [island])
      ∧ ((∀ o r, o ≠ island → r ∈ s.islandNodes o → r ∉ s.islandNodes island) → exec (.clockBoost island) s = .next s))
    ∧ (die < 4 → 96 ≤ i → i < 120 → s.pkg.gated.contains island = false →
      (∀ k, k < 2 → (s.clu (die * 48 + (i - 96) * 2 + k)).jobs = [] ∧ (s.clu (die * 48 + (i - 96) * 2 + k)).tiles = []) →
      Gives (.islandGate island) s fun t => Beside s t ∧ t.pkg.gated = s.pkg.gated ++ [island])
    ∧ (Gives (.islandWake i) s fun t => Beside s t ∧ t.pkg.gated = s.pkg.gated.filter (· != i))
    ∧ (die < 4 → s.pkg.retained.contains die = false →
      ((∀ p ∈ s.clus, p.1 / 48 = die → p.2.owner = none) → Gives (.dieRetention die) s fun t => Beside s t
        ∧ t.pkg.retained = s.pkg.retained ++ [die] ∧ ∀ p ∈ t.homes.chan, homeOf p.1 / 16 ≠ die)
      ∧ ((∃ p ∈ s.clus, p.1 / 48 = die ∧ ∃ j, p.2.owner = some j ∧ (s.job j).pre ≠ .saved) →
        exec (.dieRetention die) s = .next s))
    ∧ (Gives (.dieRetentionExit die) s fun t => Beside s t ∧ die ∉ t.pkg.retained)
    ∧ (Gives (.correctedError die) s fun t => Beside s t ∧ t.pkg.corrected.get 0 die = s.pkg.corrected.get 0 die + 1
      ∧ ∀ d, d ≠ die → t.pkg.corrected.get 0 d = s.pkg.corrected.get 0 d)
    ∧ (∀ clu tile, (s.ctx ctx).run.kind = .free → clu < 192 → tile < 32 → Gives (.uncorrectableError ctx (tileLine clu tile)) s fun t =>
      Beside s t ∧ t.tileBad clu tile = true ∧ ∀ c k, (c, k) ≠ (clu, tile) → k < 32 → t.tileBad c k = s.tileBad c k)
    ∧ (∀ clu id j tile, (s.clu clu).job? id = some j → j.started = true → j.ended = false → j.fault = none → j.cancelled = false →
      j.edges = [] → s.jobGoes j = true → tile ∈ j.tilesRead → s.tileBad clu tile = true → Gives (.jobElement clu id) s fun t =>
        SameMemory s t ∧ (∃ y, (t.clu clu).job? id = some y ∧ y.fault.map (·.code) = some clsSecurity)
        ∧ ∀ k, ((t.clu clu).tile k).data = ((s.clu clu).tile k).data)
    ∧ ((s.ctx ctx).run.kind = .free → line < 2 ^ 62 → Gives (.uncorrectableError ctx line) s fun t => Beside s t
      ∧ lineOf line ∈ t.pkg.poison ∧ t.pkg.reports = s.pkg.reports ++ [⟨rPoison, lineOf line⟩])
    ∧ (ctx < 6144 → (s.ctx ctx).run.kind ≠ .free → (s.ctx ctx).sys.ending = 0 → s.nodeOf ctx = some x → x.redo = false →
      (x.restartable = true → Gives (.uncorrectableError ctx line) s fun t => Beside s t
        ∧ ((t.job (s.ctx ctx).run.job).node? (s.ctx ctx).run.graph (s.ctx ctx).run.node).map (·.redo) = some true)
      ∧ (x.restartable = false → Gives (.uncorrectableError ctx line) s fun t =>
        (t.ctx ctx).sys.ending = 2 ∧ (t.ctx ctx).x = (s.ctx ctx).x ∧ ∀ n, n ≠ ctx → t.ctx n = s.ctx n))

/-- R247: kas chooses kind 100 for an absolute value within 17 signed bits, else kind 111 where B admits it and the
value is sext64 of its low 32 bits, else the line is an error; the field chosen holds the value. An unfixed symbol
takes kind 111 where admitted and leaves IMM32, HI32 or PC32, else kind 100 and IMM17 or PC17. A PC-relative target is
encoded as its distance in 4-byte units, and a distance that is no multiple of 4 is an error. -/
def Obligations.KasImmediates : Prop :=
  ∀ (e : Kas.Enc) (c : Kas.At) (long : Bool) (v : Word) (b : Kas.Base) (n : Option String) (p w : Word),
    let small : Prop := -65536 ≤ v.toInt ∧ v.toInt ≤ 65535
    let wide : Prop := (v.truncate 32).signExtend 64 = v
    (small → ∃ i : BitVec 17, e.immB long (.abs v) = some { e with b := .imm i } ∧ i.signExtend 64 = v)
    ∧ (¬ small → long = true → wide →
        ∃ i : BitVec 32, e.immB long (.abs v) = some { e with b := .long i } ∧ i.signExtend 64 = v)
    ∧ (¬ small → (long = false ∨ ¬ wide) → e.immB long (.abs v) = none)
    ∧ (small → ∃ i : BitVec 17, e.immHigh (.abs v) = some { e with b := .imm i } ∧ i.signExtend 64 = v)
    ∧ (¬ small → e.immHigh (.abs v) = some { e with b := .long (BitVec.ofNat 32 (v.toNat / 2 ^ 32)) })
    ∧ e.immB true (.rel b n p w) = some { e with b := .long 0, rel := some (.imm32, .rel b n p w) }
    ∧ e.immB false (.rel b n p w) = some { e with b := .imm 0, rel := some (.imm17, .rel b n p w) }
    ∧ e.immHigh (.rel b n p w) = some { e with b := .long 0, rel := some (.hi32, .rel b n p w) }
    ∧ (∀ (i j : Nat) (m : Option String) (q x : Word), c.pc = .rel (.sec j) m q x →
        let k := (p + w - (q + x)).toInt
        (i ≠ j → e.immTarget c (.rel (.sec i) n p w) = some
          (if c.long then { e with b := .long 0, rel := some (.pc32, .rel (.sec i) n p w) }
           else { e with b := .imm 0, rel := some (.pc17, .rel (.sec i) n p w) }))
        ∧ (i = j → k % 4 ≠ 0 → e.immTarget c (.rel (.sec i) n p w) = none)
        ∧ (i = j → k % 4 = 0 → -65536 ≤ k / 4 → k / 4 ≤ 65535 →
            ∃ u : BitVec 17, e.immTarget c (.rel (.sec i) n p w) = some { e with b := .imm u } ∧ u.toInt * 4 = k)
        ∧ (i = j → k % 4 = 0 → c.long = true → ¬ (-65536 ≤ k / 4 ∧ k / 4 ≤ 65535) →
            -(2 ^ 31 : Int) ≤ k / 4 → k / 4 < (2 ^ 31 : Int) →
            ∃ u : BitVec 32, e.immTarget c (.rel (.sec i) n p w) = some { e with b := .long u } ∧ u.toInt * 4 = k))

/-- R259: the value, the check and the patched field of every relocation kind; what stands outside the field stays. An
image exists only where every relocation of its sections has a value that passes its check; it has no relocation left,
its global names are distinct and its extern names defined. -/
def Obligations.RelocationsAndLinking : Prop :=
  (∀ (k : Nat) (s a p : Word),
    Kof.relValue 1 s a p = some (s + a)
    ∧ Kof.relValue 2 s a p = (if -(2 ^ 31 : Int) ≤ (s + a).toInt ∧ (s + a).toInt ≤ (2 ^ 32 : Int) - 1 then some (s + a) else none)
    ∧ Kof.relValue 3 s a p = (if ((s + a).truncate 32).signExtend 64 = s + a then some (s + a) else none)
    ∧ Kof.relValue 4 s a p = some (BitVec.ofNat 64 ((s + a).toNat / 2 ^ 32))
    ∧ Kof.relValue 5 s a p = (if -65536 ≤ (s + a).toInt ∧ (s + a).toInt ≤ 65535 then some (s + a) else none)
    ∧ (∀ kd n : Nat, (kd = 6 ∧ n = 16 ∨ kd = 7 ∧ n = 31) →
        let d := (s + a - p).toInt
        (d % 4 = 0 → -(2 ^ n : Int) ≤ d / 4 → d / 4 < (2 ^ n : Int) → Kof.relValue kd s a p = some (BitVec.ofInt 64 (d / 4)))
        ∧ (d % 4 ≠ 0 ∨ d / 4 < -(2 ^ n : Int) ∨ (2 ^ n : Int) ≤ d / 4 → Kof.relValue kd s a p = none))
    ∧ (k = 0 ∨ 8 ≤ k → Kof.relValue k s a p = none ∧ ∀ f o, Kof.field f (o + 6) 1 = k → Kof.readRel f o = none))
  ∧ (∀ r : Kof.Rel, r.off < 2 ^ 32 → r.sect < 2 ^ 16 → 1 ≤ r.kind → r.kind ≤ 7 → r.sym < 2 ^ 32 →
      Kof.readRel r.entry 0 = some r)
  ∧ (∀ (w : BitVec 96) (v : Word) (i : Nat), i < 96 →
      (∀ k, k = 5 ∨ k = 6 → (Kof.patchWord k v w).getLsbD i = if i < 17 then v.getLsbD i else w.getLsbD i)
      ∧ (∀ k, k = 3 ∨ k = 4 ∨ k = 7 → (Kof.patchWord k v w).getLsbD i =
          if i < 16 then v.getLsbD i else if 60 ≤ i ∧ i < 76 then v.getLsbD (i - 44) else w.getLsbD i))
  ∧ (∀ (bs : List Byte) (off k : Nat) (v : Word), 1 ≤ k → k ≤ 7 →
      let n := if k = 1 then 8 else if k = 2 then 4 else 12
      (bs.length < off + n → Kof.patch bs off k v = none)
      ∧ (off + n ≤ bs.length → ∃ r, Kof.patch bs off k v = some r ∧ r.length = bs.length
          ∧ (∀ j, j < off ∨ off + n ≤ j → r[j]? = bs[j]?)
          ∧ (k = 1 → Kof.field r off 8 = v.toNat) ∧ (k = 2 → Kof.field r off 4 = v.toNat % 2 ^ 32)
          ∧ (3 ≤ k → wordOfBytes (r.drop off) = Kof.patchWord k v (wordOfBytes (bs.drop off)))))
  ∧ (∀ (base : Nat) (ins : List Kof.Input) (m : Kof.Obj), Kof.link base ins = some m →
      m.linked = true ∧ m.base = base ∧ m.rels = [] ∧ ((Kof.globals ins).map (·.1)).Nodup
      ∧ (∀ x ∈ ins, ∀ y ∈ x.obj.syms, y.bind = 2 → ∃ g ∈ Kof.globals ins, g.1 = x.obj.str y.name)
      ∧ (∀ z ∈ Kof.outOrder ins ++ Kof.ofKind ins Kof.kKinfo, z.2.2.kind ≠ Kof.kLocal → ∀ x, ins[z.1]? = some x → ∀ r ∈ x.obj.rels, r.sect = z.2.1 →
          ∃ a v, Kof.finalAddr ins (Kof.addresses ins base) z.1 r.sym = some a
            ∧ Kof.relValue r.kind (BitVec.ofNat 64 a) r.add
                (BitVec.ofNat 64 ((Kof.addrOf (Kof.addresses ins base) z.1 z.2.1).getD 0 + r.off)) = some v))
end

