-- ==== Sys2Proof/Laws/Encoding.lean ====
section
/-!
SUPPORT. The fields of a packed word: each field the decoder extracts from it is the one the encoder put there
(Tables 11-1 and 11-2).
-/
namespace Sys2Proof

/-- A packed word as its fields, the opcode highest. -/
theorem packWord_eq (opc : Nat) (h : Hdr) (mod : Nat) (d a b : Opd) :
    packWord opc h mod d a b
      = BitVec.append (n := 76) (m := 20) (BitVec.append (n := 56) (m := 20) (BitVec.append (n := 36) (m := 20)
          (BitVec.append (n := 20) (m := 16) (BitVec.append (n := 18) (m := 2) (BitVec.append (n := 17) (m := 1)
            (BitVec.append (n := 14) (m := 3) (BitVec.append (n := 11) (m := 3) (BitVec.append (n := 10) (m := 1)
              (BitVec.ofNat 10 opc) (BitVec.ofBool h.gn)) (BitVec.ofFin h.gp : BitVec 3)) (BitVec.ofFin h.stall : BitVec 3))
            (BitVec.ofBool h.yld)) (BitVec.ofFin h.reu : BitVec 2)) (BitVec.ofNat 16 mod)) (encOpd d)) (encOpd a)) (encOpd b) :=
  rfl

theorem append_bit_low {n m : Nat} (x : BitVec n) (y : BitVec m) (i : Nat) (hi : i < m) :
    (BitVec.append x y).getLsbD i = y.getLsbD i := by
  have h := @BitVec.getLsbD_append n m i x y
  simpa [hi] using h
theorem append_bit_high {n m : Nat} (x : BitVec n) (y : BitVec m) (i : Nat) :
    (BitVec.append x y).getLsbD (m + i) = x.getLsbD i := by
  have h := @BitVec.getLsbD_append n m (m + i) x y
  simpa [Nat.not_lt.mpr (Nat.le_add_right m i)] using h

/-- A field of a word, bit by bit. -/
theorem field_eq {n : Nat} (w : BitVec 96) (lo : Nat) (f : BitVec n) (h : ∀ i, i < n → w.getLsbD (lo + i) = f.getLsbD i) :
    w.extractLsb' lo n = f := by
  apply BitVec.eq_of_getLsbD_eq
  intro i hi
  rw [BitVec.getLsbD_extractLsb']
  simp [hi, h i hi]

section
variable (opc : Nat) (h : Hdr) (mod : Nat) (d a b : Opd)

theorem packWord_b : (Raw.ofWord (packWord opc h mod d a b)).b = encOpd b :=
  field_eq _ _ _ fun i hi => by
    rw [packWord_eq, Nat.zero_add]
    exact append_bit_low _ _ i hi
theorem packWord_a : (Raw.ofWord (packWord opc h mod d a b)).a = encOpd a :=
  field_eq _ _ _ fun i hi => by
    rw [packWord_eq]
    exact (append_bit_high _ _ i).trans (append_bit_low _ _ i hi)
theorem packWord_d : (Raw.ofWord (packWord opc h mod d a b)).d = encOpd d :=
  field_eq _ _ _ fun i hi => by
    rw [packWord_eq, show 40 + i = 20 + (20 + i) by omega]
    exact (append_bit_high _ _ _).trans ((append_bit_high _ _ i).trans (append_bit_low _ _ i hi))
theorem packWord_mod : (Raw.ofWord (packWord opc h mod d a b)).mod = BitVec.ofNat 16 mod :=
  field_eq _ _ _ fun i hi => by
    rw [packWord_eq, show 60 + i = 20 + (20 + (20 + i)) by omega]
    exact (append_bit_high _ _ _).trans ((append_bit_high _ _ _).trans ((append_bit_high _ _ i).trans (append_bit_low _ _ i hi)))

/-- The bits above the operand fields and MOD. -/
theorem packWord_top (i : Nat) :
    (packWord opc h mod d a b).getLsbD (20 + (20 + (20 + (16 + i))))
      = (BitVec.append (n := 18) (m := 2) (BitVec.append (n := 17) (m := 1) (BitVec.append (n := 14) (m := 3)
          (BitVec.append (n := 11) (m := 3) (BitVec.append (n := 10) (m := 1) (BitVec.ofNat 10 opc) (BitVec.ofBool h.gn))
            (BitVec.ofFin h.gp : BitVec 3)) (BitVec.ofFin h.stall : BitVec 3)) (BitVec.ofBool h.yld))
          (BitVec.ofFin h.reu : BitVec 2)).getLsbD i := by
  rw [packWord_eq]
  exact (append_bit_high _ _ _).trans ((append_bit_high _ _ _).trans ((append_bit_high _ _ _).trans (append_bit_high _ _ i)))

theorem packWord_reu : (packWord opc h mod d a b).extractLsb' 76 2 = (BitVec.ofFin h.reu : BitVec 2) :=
  field_eq _ _ _ fun i hi => by
    rw [show 76 + i = 20 + (20 + (20 + (16 + i))) by omega, packWord_top]
    exact append_bit_low _ _ i hi
theorem packWord_yld : (packWord opc h mod d a b).getLsbD 78 = h.yld := by
  rw [show 78 = 20 + (20 + (20 + (16 + (2 + 0)))) by rfl, packWord_top]
  exact (append_bit_high _ _ 0).trans ((append_bit_low _ _ 0 (by decide)).trans (by simp))
theorem packWord_stall : (packWord opc h mod d a b).extractLsb' 79 3 = (BitVec.ofFin h.stall : BitVec 3) :=
  field_eq _ _ _ fun i hi => by
    rw [show 79 + i = 20 + (20 + (20 + (16 + (2 + (1 + i))))) by omega, packWord_top]
    exact (append_bit_high _ _ _).trans ((append_bit_high _ _ i).trans (append_bit_low _ _ i hi))
theorem packWord_gp : (packWord opc h mod d a b).extractLsb' 82 3 = (BitVec.ofFin h.gp : BitVec 3) :=
  field_eq _ _ _ fun i hi => by
    rw [show 82 + i = 20 + (20 + (20 + (16 + (2 + (1 + (3 + i)))))) by omega, packWord_top]
    exact (append_bit_high _ _ _).trans ((append_bit_high _ _ _).trans ((append_bit_high _ _ i).trans (append_bit_low _ _ i hi)))
theorem packWord_gn : (packWord opc h mod d a b).getLsbD 85 = h.gn := by
  rw [show 85 = 20 + (20 + (20 + (16 + (2 + (1 + (3 + (3 + 0))))))) by rfl, packWord_top]
  exact (append_bit_high _ _ _).trans ((append_bit_high _ _ _).trans ((append_bit_high _ _ _).trans
    ((append_bit_high _ _ 0).trans ((append_bit_low _ _ 0 (by decide)).trans (by simp)))))

/-- The header of a packed word is the one packed (R225, R226). -/
theorem packWord_hdr : (Raw.ofWord (packWord opc h mod d a b)).hdr = h := by
  have hr := packWord_reu opc h mod d a b
  have hs := packWord_stall opc h mod d a b
  have hg := packWord_gp opc h mod d a b
  show Hdr.mk ((packWord opc h mod d a b).getLsbD 85) ((packWord opc h mod d a b).extractLsb' 82 3).toFin
    ((packWord opc h mod d a b).extractLsb' 79 3).toFin ((packWord opc h mod d a b).getLsbD 78)
    ((packWord opc h mod d a b).extractLsb' 76 2).toFin = h
  rw [hr, hs, hg, packWord_yld, packWord_gn]

/-- The opcode of a packed word is the one packed (R222). -/
theorem packWord_opc : (Raw.ofWord (packWord opc h mod d a b)).opc = opc % 1024 := by
  show bits (packWord opc h mod d a b) 95 86 = opc % 2 ^ 10
  apply Nat.eq_of_testBit_eq
  intro i
  simp only [bits, Nat.testBit_mod_two_pow, Nat.testBit_shiftRight]
  by_cases hi : i < 10
  · have e : (packWord opc h mod d a b).getLsbD (86 + i) = (BitVec.ofNat 10 opc).getLsbD i := by
      rw [show 86 + i = 20 + (20 + (20 + (16 + (2 + (1 + (3 + (3 + (1 + i)))))))) by omega, packWord_top]
      exact (append_bit_high _ _ _).trans ((append_bit_high _ _ _).trans ((append_bit_high _ _ _).trans
        ((append_bit_high _ _ _).trans (append_bit_high _ _ i))))
    simp only [BitVec.getLsbD, BitVec.toNat_ofNat, Nat.testBit_mod_two_pow] at e
    simp only [hi, decide_true, Bool.true_and] at e ⊢
    exact e
  · simp [hi]
end

/-! ## Operand fields (Table 11-2) -/

theorem bits_ofNat (n v hi lo : Nat) : bits (BitVec.ofNat n v) hi lo = v % 2 ^ n / 2 ^ lo % 2 ^ (hi + 1 - lo) := by
  simp [bits, Nat.shiftRight_eq_div_pow]

theorem decOpd_x (mod : BitVec 16) (n : Fin 64) : decOpd mod (encOpd (.x n)) = some (.x n) := by
  have k : bits (encOpd (.x n)) 19 17 = 0 := by rw [encOpd, bits_ofNat]; omega
  have z : bits (encOpd (.x n)) 16 6 = 0 := by rw [encOpd, bits_ofNat]; omega
  unfold decOpd
  rw [k]
  simp only [z, if_true, Option.some.injEq, Opd.x.injEq]
  exact Fin.eq_of_val_eq (by simp [encOpd, BitVec.extractLsb', Nat.shiftRight_eq_div_pow]; try omega)
theorem decOpd_v (mod : BitVec 16) (n : Fin 32) : decOpd mod (encOpd (.v n)) = some (.v n) := by
  have k : bits (encOpd (.v n)) 19 17 = 1 := by rw [encOpd, bits_ofNat]; omega
  have z : bits (encOpd (.v n)) 16 5 = 0 := by rw [encOpd, bits_ofNat]; omega
  unfold decOpd
  rw [k]
  simp only [z, if_true, Option.some.injEq, Opd.v.injEq]
  exact Fin.eq_of_val_eq (by simp [encOpd, BitVec.extractLsb', Nat.shiftRight_eq_div_pow]; try omega)
theorem decOpd_p (mod : BitVec 16) (n : Fin 8) : decOpd mod (encOpd (.p n)) = some (.p n) := by
  have k : bits (encOpd (.p n)) 19 17 = 3 := by rw [encOpd, bits_ofNat]; omega
  have z : bits (encOpd (.p n)) 16 3 = 0 := by rw [encOpd, bits_ofNat]; omega
  unfold decOpd
  rw [k]
  simp only [z, if_true, Option.some.injEq, Opd.p.injEq]
  exact Fin.eq_of_val_eq (by simp [encOpd, BitVec.extractLsb', Nat.shiftRight_eq_div_pow]; try omega)
theorem decOpd_q (mod : BitVec 16) (n : Fin 16) (pk : Bool) : decOpd mod (encOpd (.q n pk)) = some (.q n pk) := by
  have hb : pk.toNat ≤ 1 := by cases pk <;> decide
  have k : bits (encOpd (.q n pk)) 19 17 = 2 := by rw [encOpd, bits_ofNat]; omega
  have z : bits (encOpd (.q n pk)) 16 5 = 0 := by rw [encOpd, bits_ofNat]; omega
  unfold decOpd
  rw [k]
  simp only [z, if_true, Option.some.injEq, Opd.q.injEq]
  refine ⟨Fin.eq_of_val_eq (by simp [encOpd, BitVec.extractLsb', Nat.shiftRight_eq_div_pow]; try omega), ?_⟩
  cases pk <;> simp [encOpd, BitVec.getLsbD, Nat.testBit, Nat.shiftRight_eq_div_pow] <;> omega
theorem decOpd_imm (mod : BitVec 16) (i : BitVec 17) : decOpd mod (encOpd (.imm i)) = some (.imm i) := by
  have hi := i.isLt
  have k : bits (encOpd (.imm i)) 19 17 = 4 := by rw [encOpd, bits_ofNat]; omega
  unfold decOpd
  rw [k]
  simp only [Option.some.injEq, Opd.imm.injEq]
  apply BitVec.eq_of_toNat_eq
  simp [encOpd, BitVec.extractLsb', Nat.shiftRight_eq_div_pow]
  try omega
theorem decOpd_sreg (mod : BitVec 16) (i : BitVec 12) : decOpd mod (encOpd (.sreg i)) = some (.sreg i) := by
  have hi := i.isLt
  have k : bits (encOpd (.sreg i)) 19 17 = 6 := by rw [encOpd, bits_ofNat]; omega
  have z : bits (encOpd (.sreg i)) 16 12 = 0 := by rw [encOpd, bits_ofNat]; omega
  unfold decOpd
  rw [k]
  simp only [z, if_true, Option.some.injEq, Opd.sreg.injEq]
  apply BitVec.eq_of_toNat_eq
  simp [encOpd, BitVec.extractLsb', Nat.shiftRight_eq_div_pow]
  try omega
/-- A long immediate takes its high half from MOD (R231). -/
theorem decOpd_long (i : BitVec 32) :
    decOpd (BitVec.ofNat 16 (i.toNat / 2 ^ 16)) (encOpd (.long i)) = some (.long i) := by
  have hi := i.isLt
  have k : bits (encOpd (.long i)) 19 17 = 7 := by rw [encOpd, bits_ofNat]; omega
  have z : bits (encOpd (.long i)) 16 16 = 0 := by rw [encOpd, bits_ofNat]; omega
  unfold decOpd
  rw [k]
  simp only [z, if_true, Option.some.injEq, Opd.long.injEq]
  apply BitVec.eq_of_toNat_eq
  rw [BitVec.toNat_append, ← Nat.shiftLeft_add_eq_or_of_lt (BitVec.isLt _)]
  simp [encOpd, BitVec.extractLsb', Nat.shiftRight_eq_div_pow, Nat.shiftLeft_eq]
  omega
theorem decOpd_slot (mod : BitVec 16) (n : Fin 16) : decOpd mod (encOpd (.slot n)) = some (.slot n) := by
  have k : bits (encOpd (.slot n)) 19 17 = 5 := by rw [encOpd, bits_ofNat]; omega
  have t : bits (encOpd (.slot n)) 16 13 = 0 := by rw [encOpd, bits_ofNat]; omega
  have z : bits (encOpd (.slot n)) 12 4 = 0 := by rw [encOpd, bits_ofNat]; omega
  unfold decOpd
  rw [k]
  simp only [decHandle, t, z]
  simp only [and_self, if_true, Option.some.injEq, Opd.slot.injEq, Nat.reduceEqDiff, false_and, if_false]
  exact Fin.eq_of_val_eq (by simp [encOpd, BitVec.extractLsb', Nat.shiftRight_eq_div_pow]; try omega)
theorem decOpd_shape (mod : BitVec 16) (n : Fin 16) : decOpd mod (encOpd (.shape n)) = some (.shape n) := by
  have k : bits (encOpd (.shape n)) 19 17 = 5 := by rw [encOpd, bits_ofNat]; omega
  have t : bits (encOpd (.shape n)) 16 13 = 1 := by rw [encOpd, bits_ofNat]; omega
  have z : bits (encOpd (.shape n)) 12 4 = 0 := by rw [encOpd, bits_ofNat]; omega
  unfold decOpd
  rw [k]
  simp only [decHandle, t, z]
  simp only [and_self, if_true, Option.some.injEq, Opd.shape.injEq, Nat.reduceEqDiff, false_and, if_false]
  exact Fin.eq_of_val_eq (by simp [encOpd, BitVec.extractLsb', Nat.shiftRight_eq_div_pow]; try omega)
theorem decOpd_bar (mod : BitVec 16) (n : Fin 32) : decOpd mod (encOpd (.bar n)) = some (.bar n) := by
  have k : bits (encOpd (.bar n)) 19 17 = 5 := by rw [encOpd, bits_ofNat]; omega
  have t : bits (encOpd (.bar n)) 16 13 = 2 := by rw [encOpd, bits_ofNat]; omega
  have z : bits (encOpd (.bar n)) 12 5 = 0 := by rw [encOpd, bits_ofNat]; omega
  unfold decOpd
  rw [k]
  simp only [decHandle, t, z]
  simp only [and_self, if_true, Option.some.injEq, Opd.bar.injEq, Nat.reduceEqDiff, false_and, if_false]
  exact Fin.eq_of_val_eq (by simp [encOpd, BitVec.extractLsb', Nat.shiftRight_eq_div_pow]; try omega)
theorem decOpd_tile (mod : BitVec 16) (n : Fin 32) : decOpd mod (encOpd (.tile n)) = some (.tile n) := by
  have k : bits (encOpd (.tile n)) 19 17 = 5 := by rw [encOpd, bits_ofNat]; omega
  have t : bits (encOpd (.tile n)) 16 13 = 3 := by rw [encOpd, bits_ofNat]; omega
  have z : bits (encOpd (.tile n)) 12 5 = 0 := by rw [encOpd, bits_ofNat]; omega
  unfold decOpd
  rw [k]
  simp only [decHandle, t, z]
  simp only [and_self, if_true, Option.some.injEq, Opd.tile.injEq, Nat.reduceEqDiff, false_and, if_false]
  exact Fin.eq_of_val_eq (by simp [encOpd, BitVec.extractLsb', Nat.shiftRight_eq_div_pow]; try omega)
theorem decOpd_level (mod : BitVec 16) (l : Level) : decOpd mod (encOpd (.level l)) = some (.level l) := by
  cases l <;> rfl

/-- Every operand but a long immediate decodes to itself, whatever MOD holds. -/
theorem decOpd_encOpd (mod : BitVec 16) (o : Opd) (h : ∀ i, o ≠ .long i) : decOpd mod (encOpd o) = some o := by
  cases o with
  | x n => exact decOpd_x mod n
  | v n => exact decOpd_v mod n
  | q n pk => exact decOpd_q mod n pk
  | p n => exact decOpd_p mod n
  | imm i => exact decOpd_imm mod i
  | slot n => exact decOpd_slot mod n
  | shape n => exact decOpd_shape mod n
  | bar n => exact decOpd_bar mod n
  | tile n => exact decOpd_tile mod n
  | level l => exact decOpd_level mod l
  | sreg i => exact decOpd_sreg mod i
  | long i => exact absurd rfl (h i)

/-! ## Codes of MOD (Tables 11-3 to 11-9) -/

theorem IntTy.ofCode_code (x : IntTy) : IntTy.ofCode x.code = x := by cases x <;> rfl
theorem Esz.ofCode_code (x : Esz) : Esz.ofCode x.code = some x := by cases x <;> rfl
theorem Cond.ofCode_code (x : Cond) : Cond.ofCode x.code = some x := by cases x <;> rfl
theorem PlogOp.ofCode_code (x : PlogOp) : PlogOp.ofCode x.code = some x := by cases x <;> rfl
theorem Rm.ofCode_code (x : Rm) : Rm.ofCode x.code = x := by cases x <;> rfl
theorem MemOrd.ofCode_code (x : MemOrd) : MemOrd.ofCode x.code = x := by cases x <;> rfl
theorem Scope.ofCode_code (x : Scope) : Scope.ofCode x.code = some x := by cases x <;> rfl
theorem Am.ofCode_code (x : Am) : Am.ofCode x.code = some x := by cases x <;> rfl
theorem Aop.ofCode_code (x : Aop) : Aop.ofCode x.code = some x := by cases x <;> rfl
theorem RedOp.ofCode_code (x : RedOp) : RedOp.ofCode x.code = some x := by cases x <;> rfl
theorem MapOp.ofCode_code (x : MapOp) : MapOp.ofCode x.code = some x := by cases x <;> rfl
theorem SrcW.ofCode_code (x : SrcW) : SrcW.ofCode x.code = some x := by cases x <;> rfl

end Sys2Proof
end

