-- ==== Sys2Proof/Laws/Map.lean ====
section
/-!
SUPPORT. Laws of the sparse tables: what a read gives after a write or an erasure, that a second write of a key
replaces the first, and that the canonical form is kept.
-/
namespace Sys2Proof.Machine

variable {α : Type}

@[simp] theorem SMap.get_nil (d : α) (j : Nat) : SMap.get d [] j = d := rfl

theorem SMap.get_cons (d : α) (k : Nat) (v : α) (r : SMap α) (j : Nat) :
    SMap.get d ((k, v) :: r) j = if j = k then v else SMap.get d r j := rfl

/-- A read after an erasure. -/
theorem SMap.get_erase (d : α) (m : SMap α) (k j : Nat) :
    (m.erase k).get d j = if j = k then d else m.get d j := by
  induction m with
  | nil => simp [SMap.erase]
  | cons p r ih =>
    obtain ⟨a, v⟩ := p
    by_cases hk : k = a
    · subst hk
      by_cases hj : j = k
      · subst hj; simp [SMap.erase, ih]
      · simp [SMap.erase, SMap.get_cons, ih, hj]
    · by_cases hj : j = a
      · subst hj
        simp [SMap.erase, SMap.get_cons, hk, Ne.symm hk]
      · simp [SMap.erase, SMap.get_cons, ih, hk, hj]

/-- A read after an insertion of a key that is not listed. -/
theorem SMap.get_insert_erase (d : α) (m : SMap α) (k j : Nat) (w : α) :
    ((m.erase k).insert k w).get d j = if j = k then w else m.get d j := by
  induction m with
  | nil => simp [SMap.erase, SMap.insert, SMap.get_cons]
  | cons p r ih =>
    obtain ⟨a, v⟩ := p
    by_cases hk : k = a
    · subst hk
      by_cases hj : j = k <;> simp_all [SMap.erase, SMap.get_cons]
    · by_cases hlt : k < a
      · by_cases hj : j = k
        · simp [SMap.erase, SMap.insert, SMap.get_cons, hk, hlt, hj]
        · by_cases hja : j = a <;>
            simp [SMap.erase, SMap.insert, SMap.get_cons, hk, hlt, hj, hja, SMap.get_erase]
      · by_cases hja : j = a
        · subst hja
          simp [SMap.erase, SMap.insert, SMap.get_cons, hk, hlt, Ne.symm hk]
        · simp [SMap.erase, SMap.insert, SMap.get_cons, hk, hlt, hja, ih]

/-- A read after a write. -/
theorem SMap.get_set (d : α) (m : SMap α) (k j : Nat) (w : α) :
    (m.set k w).get d j = if j = k then w else m.get d j := SMap.get_insert_erase d m k j w

@[simp] theorem SMap.get_set_self (d : α) (m : SMap α) (k : Nat) (w : α) : (m.set k w).get d k = w := by
  simp [SMap.get_set]

theorem SMap.get_set_ne (d : α) (m : SMap α) {k j : Nat} (w : α) (h : j ≠ k) :
    (m.set k w).get d j = m.get d j := by simp [SMap.get_set, h]

/-- A read after a write that does not list the value unlisted keys read as. -/
theorem SMap.get_setD [DecidableEq α] (d : α) (m : SMap α) (k j : Nat) (w : α) :
    (SMap.setD d m k w).get d j = if j = k then w else m.get d j := by
  unfold SMap.setD
  split
  · next h => subst h; exact SMap.get_erase w m k j
  · exact SMap.get_insert_erase d m k j w

@[simp] theorem SMap.erase_erase (m : SMap α) (k : Nat) : (m.erase k).erase k = m.erase k := by
  induction m with
  | nil => rfl
  | cons p r ih =>
    obtain ⟨a, v⟩ := p
    by_cases hk : k = a
    · subst hk; simp [SMap.erase, ih]
    · simp [SMap.erase, hk, ih]

/-- Erasing a key just inserted where it was not listed. -/
theorem SMap.erase_insert_erase (m : SMap α) (k : Nat) (w : α) :
    ((m.erase k).insert k w).erase k = m.erase k := by
  induction m with
  | nil => simp [SMap.erase, SMap.insert]
  | cons p r ih =>
    obtain ⟨a, v⟩ := p
    by_cases hk : k = a
    · subst hk; simp [SMap.erase, ih]
    · by_cases hlt : k < a
      · simp [SMap.erase, SMap.insert, hk, hlt]
      · simp [SMap.erase, SMap.insert, hk, hlt, ih]

/-- A second write of a key replaces the first. -/
@[simp] theorem SMap.set_set (m : SMap α) (k : Nat) (v w : α) : (m.set k v).set k w = m.set k w := by
  unfold SMap.set
  rw [SMap.erase_insert_erase]

/-! ## The canonical form -/

/-- Every key of a table is above a bound. -/
def SMap.above (b : Nat) (m : SMap α) : Prop := ∀ p ∈ m, b < p.1

theorem SMap.sorted_cons (k : Nat) (v : α) (r : SMap α) :
    SMap.sorted ((k, v) :: r) = true ↔ r.above k ∧ r.sorted = true := by
  induction r generalizing k v with
  | nil => simp [SMap.sorted, SMap.above]
  | cons p t ih =>
    obtain ⟨j, w⟩ := p
    have e : SMap.sorted ((k, v) :: (j, w) :: t) = (decide (k < j) && SMap.sorted ((j, w) :: t)) := rfl
    rw [e, Bool.and_eq_true, decide_eq_true_iff]
    constructor
    · rintro ⟨hkj, hs⟩
      refine ⟨?_, hs⟩
      intro q hq
      rcases List.mem_cons.mp hq with rfl | hq
      · exact hkj
      · exact Nat.lt_trans hkj (((ih j w).mp hs).1 q hq)
    · rintro ⟨ha, hs⟩
      exact ⟨ha (j, w) (List.mem_cons_self ..), hs⟩

theorem SMap.mem_erase {m : SMap α} {k : Nat} {p : Nat × α} (h : p ∈ m.erase k) : p ∈ m ∧ p.1 ≠ k := by
  induction m with
  | nil => simp [SMap.erase] at h
  | cons q r ih =>
    obtain ⟨a, v⟩ := q
    unfold SMap.erase at h
    split at h
    · next hk => exact ⟨List.mem_cons_of_mem _ (ih h).1, (ih h).2⟩
    · next hk =>
      rcases List.mem_cons.mp h with rfl | h
      · exact ⟨List.mem_cons_self .., fun e => hk e.symm⟩
      · exact ⟨List.mem_cons_of_mem _ (ih h).1, (ih h).2⟩

theorem SMap.mem_insert {m : SMap α} {k : Nat} {w : α} {p : Nat × α} (h : p ∈ m.insert k w) :
    p = (k, w) ∨ p ∈ m := by
  induction m with
  | nil => simpa [SMap.insert] using h
  | cons q r ih =>
    obtain ⟨a, v⟩ := q
    unfold SMap.insert at h
    split at h
    · rcases List.mem_cons.mp h with h | h
      · exact .inl h
      · exact .inr h
    · rcases List.mem_cons.mp h with h | h
      · exact .inr (h ▸ List.mem_cons_self ..)
      · rcases ih h with h | h
        · exact .inl h
        · exact .inr (List.mem_cons_of_mem _ h)

theorem SMap.sorted_erase {m : SMap α} (k : Nat) (h : m.sorted = true) : (m.erase k).sorted = true := by
  induction m with
  | nil => simp [SMap.erase, SMap.sorted]
  | cons q r ih =>
    obtain ⟨a, v⟩ := q
    have hs := (SMap.sorted_cons a v r).mp h
    unfold SMap.erase
    split
    · exact ih hs.2
    · exact (SMap.sorted_cons a v _).mpr ⟨fun p hp => hs.1 p (SMap.mem_erase hp).1, ih hs.2⟩

theorem SMap.sorted_insert {m : SMap α} (k : Nat) (w : α) (h : m.sorted = true) (hk : ∀ p ∈ m, p.1 ≠ k) :
    (m.insert k w).sorted = true := by
  induction m with
  | nil => simp [SMap.insert, SMap.sorted]
  | cons q r ih =>
    obtain ⟨a, v⟩ := q
    have hs := (SMap.sorted_cons a v r).mp h
    have ha : a ≠ k := hk (a, v) (List.mem_cons_self ..)
    unfold SMap.insert
    split
    · next hlt =>
      refine (SMap.sorted_cons k w _).mpr ⟨fun p hp => ?_, h⟩
      rcases List.mem_cons.mp hp with rfl | hp
      · exact hlt
      · exact Nat.lt_trans hlt (hs.1 p hp)
    · next hlt =>
      refine (SMap.sorted_cons a v _).mpr ⟨fun p hp => ?_, ih hs.2 fun p hp => hk p (List.mem_cons_of_mem _ hp)⟩
      rcases SMap.mem_insert hp with rfl | hp
      · exact Nat.lt_of_le_of_ne (Nat.le_of_not_lt hlt) ha
      · exact hs.1 p hp

/-- A write keeps the canonical form. -/
theorem SMap.wf_setD [DecidableEq α] {d : α} {m : SMap α} (k : Nat) (w : α) (h : SMap.wf d m = true) :
    SMap.wf d (SMap.setD d m k w) = true := by
  simp only [SMap.wf, Bool.and_eq_true, List.all_eq_true, decide_eq_true_iff] at h ⊢
  obtain ⟨hs, hn⟩ := h
  unfold SMap.setD
  split
  · exact ⟨SMap.sorted_erase k hs, fun p hp => hn p (SMap.mem_erase hp).1⟩
  · next hw =>
    refine ⟨SMap.sorted_insert k w (SMap.sorted_erase k hs) fun p hp => (SMap.mem_erase hp).2, fun p hp => ?_⟩
    rcases SMap.mem_insert hp with rfl | hp
    · exact hw
    · exact hn p (SMap.mem_erase hp).1

/-- A filter keeps the canonical form. -/
theorem SMap.wf_filter [DecidableEq α] {d : α} {m : SMap α} (f : Nat × α → Bool) (h : SMap.wf d m = true) :
    SMap.wf d (m.filter f) = true := by
  simp only [SMap.wf, Bool.and_eq_true, List.all_eq_true, decide_eq_true_iff] at h ⊢
  obtain ⟨hs, hn⟩ := h
  refine ⟨?_, fun p hp => hn p (List.mem_filter.mp hp).1⟩
  clear hn
  induction m with
  | nil => simpa using hs
  | cons q r ih =>
    obtain ⟨a, v⟩ := q
    have hs' := (SMap.sorted_cons a v r).mp hs
    by_cases hf : f (a, v) = true
    · rw [List.filter_cons_of_pos hf]
      exact (SMap.sorted_cons a v _).mpr ⟨fun p hp => hs'.1 p (List.mem_filter.mp hp).1, ih hs'.2⟩
    · rw [List.filter_cons_of_neg hf]
      exact ih hs'.2

end Sys2Proof.Machine
end

