-- ==== Sys2Proof/Laws/State.lean ====
section
/-!
SUPPORT. What every update of the state and of a context leaves as it was, one lemma for each field, and what a
read gives after a write.
-/
namespace Sys2Proof.Machine

/-! ## Updates of the state -/

@[simp] theorem State.setCtx_cur (s : State) (n : Nat) (c : Ctx) : (s.setCtx n c).cur = s.cur := rfl
@[simp] theorem State.setCtx_agenda (s : State) (n : Nat) (c : Ctx) : (s.setCtx n c).agenda = s.agenda := rfl
@[simp] theorem State.setCtx_free (s : State) (n : Nat) (c : Ctx) : (s.setCtx n c).free = s.free := rfl
@[simp] theorem State.setCtx_mem (s : State) (n : Nat) (c : Ctx) : (s.setCtx n c).mem = s.mem := rfl
@[simp] theorem State.setCtx_full (s : State) (n : Nat) (c : Ctx) : (s.setCtx n c).full = s.full := rfl
@[simp] theorem State.setCtx_cores (s : State) (n : Nat) (c : Ctx) : (s.setCtx n c).cores = s.cores := rfl
@[simp] theorem State.setCtx_clus (s : State) (n : Nat) (c : Ctx) : (s.setCtx n c).clus = s.clus := rfl
@[simp] theorem State.setCtx_jobs (s : State) (n : Nat) (c : Ctx) : (s.setCtx n c).jobs = s.jobs := rfl
@[simp] theorem State.setCtx_net (s : State) (n : Nat) (c : Ctx) : (s.setCtx n c).net = s.net := rfl
@[simp] theorem State.setCtx_sent (s : State) (n : Nat) (c : Ctx) : (s.setCtx n c).sent = s.sent := rfl
@[simp] theorem State.setCtx_homes (s : State) (n : Nat) (c : Ctx) : (s.setCtx n c).homes = s.homes := rfl
@[simp] theorem State.setCtx_discards (s : State) (n : Nat) (c : Ctx) : (s.setCtx n c).discards = s.discards := rfl
@[simp] theorem State.setCtx_shoots (s : State) (n : Nat) (c : Ctx) : (s.setCtx n c).shoots = s.shoots := rfl
@[simp] theorem State.setCtx_seq (s : State) (n : Nat) (c : Ctx) : (s.setCtx n c).seq = s.seq := rfl
@[simp] theorem State.setCtx_pkg (s : State) (n : Nat) (c : Ctx) : (s.setCtx n c).pkg = s.pkg := rfl

@[simp] theorem State.setCore_cur (s : State) (n : Nat) (c : CoreSt) : (s.setCore n c).cur = s.cur := rfl
@[simp] theorem State.setCore_agenda (s : State) (n : Nat) (c : CoreSt) : (s.setCore n c).agenda = s.agenda := rfl
@[simp] theorem State.setCore_free (s : State) (n : Nat) (c : CoreSt) : (s.setCore n c).free = s.free := rfl
@[simp] theorem State.setCore_mem (s : State) (n : Nat) (c : CoreSt) : (s.setCore n c).mem = s.mem := rfl
@[simp] theorem State.setCore_full (s : State) (n : Nat) (c : CoreSt) : (s.setCore n c).full = s.full := rfl
@[simp] theorem State.setCore_ctxs (s : State) (n : Nat) (c : CoreSt) : (s.setCore n c).ctxs = s.ctxs := rfl
@[simp] theorem State.setCore_clus (s : State) (n : Nat) (c : CoreSt) : (s.setCore n c).clus = s.clus := rfl
@[simp] theorem State.setCore_jobs (s : State) (n : Nat) (c : CoreSt) : (s.setCore n c).jobs = s.jobs := rfl
@[simp] theorem State.setCore_net (s : State) (n : Nat) (c : CoreSt) : (s.setCore n c).net = s.net := rfl
@[simp] theorem State.setCore_sent (s : State) (n : Nat) (c : CoreSt) : (s.setCore n c).sent = s.sent := rfl
@[simp] theorem State.setCore_homes (s : State) (n : Nat) (c : CoreSt) : (s.setCore n c).homes = s.homes := rfl
@[simp] theorem State.setCore_discards (s : State) (n : Nat) (c : CoreSt) : (s.setCore n c).discards = s.discards := rfl
@[simp] theorem State.setCore_shoots (s : State) (n : Nat) (c : CoreSt) : (s.setCore n c).shoots = s.shoots := rfl
@[simp] theorem State.setCore_seq (s : State) (n : Nat) (c : CoreSt) : (s.setCore n c).seq = s.seq := rfl
@[simp] theorem State.setCore_pkg (s : State) (n : Nat) (c : CoreSt) : (s.setCore n c).pkg = s.pkg := rfl

@[simp] theorem State.setClu_cur (s : State) (n : Nat) (c : Clu) : (s.setClu n c).cur = s.cur := rfl
@[simp] theorem State.setClu_agenda (s : State) (n : Nat) (c : Clu) : (s.setClu n c).agenda = s.agenda := rfl
@[simp] theorem State.setClu_free (s : State) (n : Nat) (c : Clu) : (s.setClu n c).free = s.free := rfl
@[simp] theorem State.setClu_mem (s : State) (n : Nat) (c : Clu) : (s.setClu n c).mem = s.mem := rfl
@[simp] theorem State.setClu_full (s : State) (n : Nat) (c : Clu) : (s.setClu n c).full = s.full := rfl
@[simp] theorem State.setClu_ctxs (s : State) (n : Nat) (c : Clu) : (s.setClu n c).ctxs = s.ctxs := rfl
@[simp] theorem State.setClu_cores (s : State) (n : Nat) (c : Clu) : (s.setClu n c).cores = s.cores := rfl
@[simp] theorem State.setClu_jobs (s : State) (n : Nat) (c : Clu) : (s.setClu n c).jobs = s.jobs := rfl
@[simp] theorem State.setClu_net (s : State) (n : Nat) (c : Clu) : (s.setClu n c).net = s.net := rfl
@[simp] theorem State.setClu_sent (s : State) (n : Nat) (c : Clu) : (s.setClu n c).sent = s.sent := rfl
@[simp] theorem State.setClu_homes (s : State) (n : Nat) (c : Clu) : (s.setClu n c).homes = s.homes := rfl
@[simp] theorem State.setClu_discards (s : State) (n : Nat) (c : Clu) : (s.setClu n c).discards = s.discards := rfl
@[simp] theorem State.setClu_shoots (s : State) (n : Nat) (c : Clu) : (s.setClu n c).shoots = s.shoots := rfl
@[simp] theorem State.setClu_seq (s : State) (n : Nat) (c : Clu) : (s.setClu n c).seq = s.seq := rfl
@[simp] theorem State.setClu_pkg (s : State) (n : Nat) (c : Clu) : (s.setClu n c).pkg = s.pkg := rfl

@[simp] theorem State.setJob_cur (s : State) (n : Nat) (j : Job) : (s.setJob n j).cur = s.cur := rfl
@[simp] theorem State.setJob_agenda (s : State) (n : Nat) (j : Job) : (s.setJob n j).agenda = s.agenda := rfl
@[simp] theorem State.setJob_free (s : State) (n : Nat) (j : Job) : (s.setJob n j).free = s.free := rfl
@[simp] theorem State.setJob_mem (s : State) (n : Nat) (j : Job) : (s.setJob n j).mem = s.mem := rfl
@[simp] theorem State.setJob_full (s : State) (n : Nat) (j : Job) : (s.setJob n j).full = s.full := rfl
@[simp] theorem State.setJob_ctxs (s : State) (n : Nat) (j : Job) : (s.setJob n j).ctxs = s.ctxs := rfl
@[simp] theorem State.setJob_cores (s : State) (n : Nat) (j : Job) : (s.setJob n j).cores = s.cores := rfl
@[simp] theorem State.setJob_clus (s : State) (n : Nat) (j : Job) : (s.setJob n j).clus = s.clus := rfl
@[simp] theorem State.setJob_net (s : State) (n : Nat) (j : Job) : (s.setJob n j).net = s.net := rfl
@[simp] theorem State.setJob_sent (s : State) (n : Nat) (j : Job) : (s.setJob n j).sent = s.sent := rfl
@[simp] theorem State.setJob_homes (s : State) (n : Nat) (j : Job) : (s.setJob n j).homes = s.homes := rfl
@[simp] theorem State.setJob_discards (s : State) (n : Nat) (j : Job) : (s.setJob n j).discards = s.discards := rfl
@[simp] theorem State.setJob_shoots (s : State) (n : Nat) (j : Job) : (s.setJob n j).shoots = s.shoots := rfl
@[simp] theorem State.setJob_seq (s : State) (n : Nat) (j : Job) : (s.setJob n j).seq = s.seq := rfl
@[simp] theorem State.setJob_pkg (s : State) (n : Nat) (j : Job) : (s.setJob n j).pkg = s.pkg := rfl

@[simp] theorem State.modMe_cur (s : State) (f : Ctx → Ctx) : (s.modMe f).cur = s.cur := rfl
@[simp] theorem State.modMe_agenda (s : State) (f : Ctx → Ctx) : (s.modMe f).agenda = s.agenda := rfl
@[simp] theorem State.modMe_free (s : State) (f : Ctx → Ctx) : (s.modMe f).free = s.free := rfl
@[simp] theorem State.modMe_mem (s : State) (f : Ctx → Ctx) : (s.modMe f).mem = s.mem := rfl
@[simp] theorem State.modMe_full (s : State) (f : Ctx → Ctx) : (s.modMe f).full = s.full := rfl
@[simp] theorem State.modMe_cores (s : State) (f : Ctx → Ctx) : (s.modMe f).cores = s.cores := rfl
@[simp] theorem State.modMe_clus (s : State) (f : Ctx → Ctx) : (s.modMe f).clus = s.clus := rfl
@[simp] theorem State.modMe_jobs (s : State) (f : Ctx → Ctx) : (s.modMe f).jobs = s.jobs := rfl
@[simp] theorem State.modMe_net (s : State) (f : Ctx → Ctx) : (s.modMe f).net = s.net := rfl
@[simp] theorem State.modMe_sent (s : State) (f : Ctx → Ctx) : (s.modMe f).sent = s.sent := rfl
@[simp] theorem State.modMe_homes (s : State) (f : Ctx → Ctx) : (s.modMe f).homes = s.homes := rfl
@[simp] theorem State.modMe_discards (s : State) (f : Ctx → Ctx) : (s.modMe f).discards = s.discards := rfl
@[simp] theorem State.modMe_shoots (s : State) (f : Ctx → Ctx) : (s.modMe f).shoots = s.shoots := rfl
@[simp] theorem State.modMe_seq (s : State) (f : Ctx → Ctx) : (s.modMe f).seq = s.seq := rfl
@[simp] theorem State.modMe_pkg (s : State) (f : Ctx → Ctx) : (s.modMe f).pkg = s.pkg := rfl

@[simp] theorem State.modCtx_cur (s : State) (n : Nat) (f : Ctx → Ctx) : (s.modCtx n f).cur = s.cur := rfl
@[simp] theorem State.modCtx_agenda (s : State) (n : Nat) (f : Ctx → Ctx) : (s.modCtx n f).agenda = s.agenda := rfl
@[simp] theorem State.modCtx_free (s : State) (n : Nat) (f : Ctx → Ctx) : (s.modCtx n f).free = s.free := rfl
@[simp] theorem State.modCtx_mem (s : State) (n : Nat) (f : Ctx → Ctx) : (s.modCtx n f).mem = s.mem := rfl
@[simp] theorem State.modCtx_full (s : State) (n : Nat) (f : Ctx → Ctx) : (s.modCtx n f).full = s.full := rfl
@[simp] theorem State.modCtx_cores (s : State) (n : Nat) (f : Ctx → Ctx) : (s.modCtx n f).cores = s.cores := rfl
@[simp] theorem State.modCtx_clus (s : State) (n : Nat) (f : Ctx → Ctx) : (s.modCtx n f).clus = s.clus := rfl
@[simp] theorem State.modCtx_jobs (s : State) (n : Nat) (f : Ctx → Ctx) : (s.modCtx n f).jobs = s.jobs := rfl
@[simp] theorem State.modCtx_net (s : State) (n : Nat) (f : Ctx → Ctx) : (s.modCtx n f).net = s.net := rfl
@[simp] theorem State.modCtx_sent (s : State) (n : Nat) (f : Ctx → Ctx) : (s.modCtx n f).sent = s.sent := rfl
@[simp] theorem State.modCtx_homes (s : State) (n : Nat) (f : Ctx → Ctx) : (s.modCtx n f).homes = s.homes := rfl
@[simp] theorem State.modCtx_discards (s : State) (n : Nat) (f : Ctx → Ctx) : (s.modCtx n f).discards = s.discards := rfl
@[simp] theorem State.modCtx_shoots (s : State) (n : Nat) (f : Ctx → Ctx) : (s.modCtx n f).shoots = s.shoots := rfl
@[simp] theorem State.modCtx_seq (s : State) (n : Nat) (f : Ctx → Ctx) : (s.modCtx n f).seq = s.seq := rfl
@[simp] theorem State.modCtx_pkg (s : State) (n : Nat) (f : Ctx → Ctx) : (s.modCtx n f).pkg = s.pkg := rfl

@[simp] theorem State.modCore_cur (s : State) (n : Nat) (f : CoreSt → CoreSt) : (s.modCore n f).cur = s.cur := rfl
@[simp] theorem State.modCore_agenda (s : State) (n : Nat) (f : CoreSt → CoreSt) : (s.modCore n f).agenda = s.agenda := rfl
@[simp] theorem State.modCore_free (s : State) (n : Nat) (f : CoreSt → CoreSt) : (s.modCore n f).free = s.free := rfl
@[simp] theorem State.modCore_mem (s : State) (n : Nat) (f : CoreSt → CoreSt) : (s.modCore n f).mem = s.mem := rfl
@[simp] theorem State.modCore_full (s : State) (n : Nat) (f : CoreSt → CoreSt) : (s.modCore n f).full = s.full := rfl
@[simp] theorem State.modCore_ctxs (s : State) (n : Nat) (f : CoreSt → CoreSt) : (s.modCore n f).ctxs = s.ctxs := rfl
@[simp] theorem State.modCore_clus (s : State) (n : Nat) (f : CoreSt → CoreSt) : (s.modCore n f).clus = s.clus := rfl
@[simp] theorem State.modCore_jobs (s : State) (n : Nat) (f : CoreSt → CoreSt) : (s.modCore n f).jobs = s.jobs := rfl
@[simp] theorem State.modCore_net (s : State) (n : Nat) (f : CoreSt → CoreSt) : (s.modCore n f).net = s.net := rfl
@[simp] theorem State.modCore_sent (s : State) (n : Nat) (f : CoreSt → CoreSt) : (s.modCore n f).sent = s.sent := rfl
@[simp] theorem State.modCore_homes (s : State) (n : Nat) (f : CoreSt → CoreSt) : (s.modCore n f).homes = s.homes := rfl
@[simp] theorem State.modCore_discards (s : State) (n : Nat) (f : CoreSt → CoreSt) : (s.modCore n f).discards = s.discards := rfl
@[simp] theorem State.modCore_shoots (s : State) (n : Nat) (f : CoreSt → CoreSt) : (s.modCore n f).shoots = s.shoots := rfl
@[simp] theorem State.modCore_seq (s : State) (n : Nat) (f : CoreSt → CoreSt) : (s.modCore n f).seq = s.seq := rfl
@[simp] theorem State.modCore_pkg (s : State) (n : Nat) (f : CoreSt → CoreSt) : (s.modCore n f).pkg = s.pkg := rfl

@[simp] theorem State.modClu_cur (s : State) (n : Nat) (f : Clu → Clu) : (s.modClu n f).cur = s.cur := rfl
@[simp] theorem State.modClu_agenda (s : State) (n : Nat) (f : Clu → Clu) : (s.modClu n f).agenda = s.agenda := rfl
@[simp] theorem State.modClu_free (s : State) (n : Nat) (f : Clu → Clu) : (s.modClu n f).free = s.free := rfl
@[simp] theorem State.modClu_mem (s : State) (n : Nat) (f : Clu → Clu) : (s.modClu n f).mem = s.mem := rfl
@[simp] theorem State.modClu_full (s : State) (n : Nat) (f : Clu → Clu) : (s.modClu n f).full = s.full := rfl
@[simp] theorem State.modClu_ctxs (s : State) (n : Nat) (f : Clu → Clu) : (s.modClu n f).ctxs = s.ctxs := rfl
@[simp] theorem State.modClu_cores (s : State) (n : Nat) (f : Clu → Clu) : (s.modClu n f).cores = s.cores := rfl
@[simp] theorem State.modClu_jobs (s : State) (n : Nat) (f : Clu → Clu) : (s.modClu n f).jobs = s.jobs := rfl
@[simp] theorem State.modClu_net (s : State) (n : Nat) (f : Clu → Clu) : (s.modClu n f).net = s.net := rfl
@[simp] theorem State.modClu_sent (s : State) (n : Nat) (f : Clu → Clu) : (s.modClu n f).sent = s.sent := rfl
@[simp] theorem State.modClu_homes (s : State) (n : Nat) (f : Clu → Clu) : (s.modClu n f).homes = s.homes := rfl
@[simp] theorem State.modClu_discards (s : State) (n : Nat) (f : Clu → Clu) : (s.modClu n f).discards = s.discards := rfl
@[simp] theorem State.modClu_shoots (s : State) (n : Nat) (f : Clu → Clu) : (s.modClu n f).shoots = s.shoots := rfl
@[simp] theorem State.modClu_seq (s : State) (n : Nat) (f : Clu → Clu) : (s.modClu n f).seq = s.seq := rfl
@[simp] theorem State.modClu_pkg (s : State) (n : Nat) (f : Clu → Clu) : (s.modClu n f).pkg = s.pkg := rfl

@[simp] theorem State.modJob_cur (s : State) (n : Nat) (f : Job → Job) : (s.modJob n f).cur = s.cur := rfl
@[simp] theorem State.modJob_agenda (s : State) (n : Nat) (f : Job → Job) : (s.modJob n f).agenda = s.agenda := rfl
@[simp] theorem State.modJob_free (s : State) (n : Nat) (f : Job → Job) : (s.modJob n f).free = s.free := rfl
@[simp] theorem State.modJob_mem (s : State) (n : Nat) (f : Job → Job) : (s.modJob n f).mem = s.mem := rfl
@[simp] theorem State.modJob_full (s : State) (n : Nat) (f : Job → Job) : (s.modJob n f).full = s.full := rfl
@[simp] theorem State.modJob_ctxs (s : State) (n : Nat) (f : Job → Job) : (s.modJob n f).ctxs = s.ctxs := rfl
@[simp] theorem State.modJob_cores (s : State) (n : Nat) (f : Job → Job) : (s.modJob n f).cores = s.cores := rfl
@[simp] theorem State.modJob_clus (s : State) (n : Nat) (f : Job → Job) : (s.modJob n f).clus = s.clus := rfl
@[simp] theorem State.modJob_net (s : State) (n : Nat) (f : Job → Job) : (s.modJob n f).net = s.net := rfl
@[simp] theorem State.modJob_sent (s : State) (n : Nat) (f : Job → Job) : (s.modJob n f).sent = s.sent := rfl
@[simp] theorem State.modJob_homes (s : State) (n : Nat) (f : Job → Job) : (s.modJob n f).homes = s.homes := rfl
@[simp] theorem State.modJob_discards (s : State) (n : Nat) (f : Job → Job) : (s.modJob n f).discards = s.discards := rfl
@[simp] theorem State.modJob_shoots (s : State) (n : Nat) (f : Job → Job) : (s.modJob n f).shoots = s.shoots := rfl
@[simp] theorem State.modJob_seq (s : State) (n : Nat) (f : Job → Job) : (s.modJob n f).seq = s.seq := rfl
@[simp] theorem State.modJob_pkg (s : State) (n : Nat) (f : Job → Job) : (s.modJob n f).pkg = s.pkg := rfl

@[simp] theorem State.setByte_cur (s : State) (k : Nat) (b : Byte) : (s.setByte k b).cur = s.cur := rfl
@[simp] theorem State.setByte_agenda (s : State) (k : Nat) (b : Byte) : (s.setByte k b).agenda = s.agenda := rfl
@[simp] theorem State.setByte_free (s : State) (k : Nat) (b : Byte) : (s.setByte k b).free = s.free := rfl
@[simp] theorem State.setByte_full (s : State) (k : Nat) (b : Byte) : (s.setByte k b).full = s.full := rfl
@[simp] theorem State.setByte_ctxs (s : State) (k : Nat) (b : Byte) : (s.setByte k b).ctxs = s.ctxs := rfl
@[simp] theorem State.setByte_cores (s : State) (k : Nat) (b : Byte) : (s.setByte k b).cores = s.cores := rfl
@[simp] theorem State.setByte_clus (s : State) (k : Nat) (b : Byte) : (s.setByte k b).clus = s.clus := rfl
@[simp] theorem State.setByte_jobs (s : State) (k : Nat) (b : Byte) : (s.setByte k b).jobs = s.jobs := rfl
@[simp] theorem State.setByte_net (s : State) (k : Nat) (b : Byte) : (s.setByte k b).net = s.net := rfl
@[simp] theorem State.setByte_sent (s : State) (k : Nat) (b : Byte) : (s.setByte k b).sent = s.sent := rfl
@[simp] theorem State.setByte_homes (s : State) (k : Nat) (b : Byte) : (s.setByte k b).homes = s.homes := rfl
@[simp] theorem State.setByte_discards (s : State) (k : Nat) (b : Byte) : (s.setByte k b).discards = s.discards := rfl
@[simp] theorem State.setByte_shoots (s : State) (k : Nat) (b : Byte) : (s.setByte k b).shoots = s.shoots := rfl
@[simp] theorem State.setByte_seq (s : State) (k : Nat) (b : Byte) : (s.setByte k b).seq = s.seq := rfl
@[simp] theorem State.setByte_pkg (s : State) (k : Nat) (b : Byte) : (s.setByte k b).pkg = s.pkg := rfl

@[simp] theorem State.setMark_cur (s : State) (k : Nat) (b : Bool) : (s.setMark k b).cur = s.cur := rfl
@[simp] theorem State.setMark_agenda (s : State) (k : Nat) (b : Bool) : (s.setMark k b).agenda = s.agenda := rfl
@[simp] theorem State.setMark_free (s : State) (k : Nat) (b : Bool) : (s.setMark k b).free = s.free := rfl
@[simp] theorem State.setMark_mem (s : State) (k : Nat) (b : Bool) : (s.setMark k b).mem = s.mem := rfl
@[simp] theorem State.setMark_ctxs (s : State) (k : Nat) (b : Bool) : (s.setMark k b).ctxs = s.ctxs := rfl
@[simp] theorem State.setMark_cores (s : State) (k : Nat) (b : Bool) : (s.setMark k b).cores = s.cores := rfl
@[simp] theorem State.setMark_clus (s : State) (k : Nat) (b : Bool) : (s.setMark k b).clus = s.clus := rfl
@[simp] theorem State.setMark_jobs (s : State) (k : Nat) (b : Bool) : (s.setMark k b).jobs = s.jobs := rfl
@[simp] theorem State.setMark_net (s : State) (k : Nat) (b : Bool) : (s.setMark k b).net = s.net := rfl
@[simp] theorem State.setMark_sent (s : State) (k : Nat) (b : Bool) : (s.setMark k b).sent = s.sent := rfl
@[simp] theorem State.setMark_homes (s : State) (k : Nat) (b : Bool) : (s.setMark k b).homes = s.homes := rfl
@[simp] theorem State.setMark_discards (s : State) (k : Nat) (b : Bool) : (s.setMark k b).discards = s.discards := rfl
@[simp] theorem State.setMark_shoots (s : State) (k : Nat) (b : Bool) : (s.setMark k b).shoots = s.shoots := rfl
@[simp] theorem State.setMark_seq (s : State) (k : Nat) (b : Bool) : (s.setMark k b).seq = s.seq := rfl
@[simp] theorem State.setMark_pkg (s : State) (k : Nat) (b : Bool) : (s.setMark k b).pkg = s.pkg := rfl

@[simp] theorem State.clearMarks_cur (s : State) (k n : Nat) : (s.clearMarks k n).cur = s.cur := rfl
@[simp] theorem State.clearMarks_agenda (s : State) (k n : Nat) : (s.clearMarks k n).agenda = s.agenda := rfl
@[simp] theorem State.clearMarks_free (s : State) (k n : Nat) : (s.clearMarks k n).free = s.free := rfl
@[simp] theorem State.clearMarks_mem (s : State) (k n : Nat) : (s.clearMarks k n).mem = s.mem := rfl
@[simp] theorem State.clearMarks_ctxs (s : State) (k n : Nat) : (s.clearMarks k n).ctxs = s.ctxs := rfl
@[simp] theorem State.clearMarks_cores (s : State) (k n : Nat) : (s.clearMarks k n).cores = s.cores := rfl
@[simp] theorem State.clearMarks_clus (s : State) (k n : Nat) : (s.clearMarks k n).clus = s.clus := rfl
@[simp] theorem State.clearMarks_jobs (s : State) (k n : Nat) : (s.clearMarks k n).jobs = s.jobs := rfl
@[simp] theorem State.clearMarks_net (s : State) (k n : Nat) : (s.clearMarks k n).net = s.net := rfl
@[simp] theorem State.clearMarks_sent (s : State) (k n : Nat) : (s.clearMarks k n).sent = s.sent := rfl
@[simp] theorem State.clearMarks_homes (s : State) (k n : Nat) : (s.clearMarks k n).homes = s.homes := rfl
@[simp] theorem State.clearMarks_discards (s : State) (k n : Nat) : (s.clearMarks k n).discards = s.discards := rfl
@[simp] theorem State.clearMarks_shoots (s : State) (k n : Nat) : (s.clearMarks k n).shoots = s.shoots := rfl
@[simp] theorem State.clearMarks_seq (s : State) (k n : Nat) : (s.clearMarks k n).seq = s.seq := rfl
@[simp] theorem State.clearMarks_pkg (s : State) (k n : Nat) : (s.clearMarks k n).pkg = s.pkg := rfl

@[simp] theorem State.zeroBytes_cur (s : State) (k n : Nat) : (s.zeroBytes k n).cur = s.cur := rfl
@[simp] theorem State.zeroBytes_agenda (s : State) (k n : Nat) : (s.zeroBytes k n).agenda = s.agenda := rfl
@[simp] theorem State.zeroBytes_free (s : State) (k n : Nat) : (s.zeroBytes k n).free = s.free := rfl
@[simp] theorem State.zeroBytes_full (s : State) (k n : Nat) : (s.zeroBytes k n).full = s.full := rfl
@[simp] theorem State.zeroBytes_ctxs (s : State) (k n : Nat) : (s.zeroBytes k n).ctxs = s.ctxs := rfl
@[simp] theorem State.zeroBytes_cores (s : State) (k n : Nat) : (s.zeroBytes k n).cores = s.cores := rfl
@[simp] theorem State.zeroBytes_clus (s : State) (k n : Nat) : (s.zeroBytes k n).clus = s.clus := rfl
@[simp] theorem State.zeroBytes_jobs (s : State) (k n : Nat) : (s.zeroBytes k n).jobs = s.jobs := rfl
@[simp] theorem State.zeroBytes_net (s : State) (k n : Nat) : (s.zeroBytes k n).net = s.net := rfl
@[simp] theorem State.zeroBytes_sent (s : State) (k n : Nat) : (s.zeroBytes k n).sent = s.sent := rfl
@[simp] theorem State.zeroBytes_homes (s : State) (k n : Nat) : (s.zeroBytes k n).homes = s.homes := rfl
@[simp] theorem State.zeroBytes_discards (s : State) (k n : Nat) : (s.zeroBytes k n).discards = s.discards := rfl
@[simp] theorem State.zeroBytes_shoots (s : State) (k n : Nat) : (s.zeroBytes k n).shoots = s.shoots := rfl
@[simp] theorem State.zeroBytes_seq (s : State) (k n : Nat) : (s.zeroBytes k n).seq = s.seq := rfl

@[simp] theorem State.bump_cur (s : State) : (s.bump).cur = s.cur := rfl
@[simp] theorem State.bump_agenda (s : State) : (s.bump).agenda = s.agenda := rfl
@[simp] theorem State.bump_mem (s : State) : (s.bump).mem = s.mem := rfl
@[simp] theorem State.bump_full (s : State) : (s.bump).full = s.full := rfl
@[simp] theorem State.bump_ctxs (s : State) : (s.bump).ctxs = s.ctxs := rfl
@[simp] theorem State.bump_cores (s : State) : (s.bump).cores = s.cores := rfl
@[simp] theorem State.bump_clus (s : State) : (s.bump).clus = s.clus := rfl
@[simp] theorem State.bump_jobs (s : State) : (s.bump).jobs = s.jobs := rfl
@[simp] theorem State.bump_net (s : State) : (s.bump).net = s.net := rfl
@[simp] theorem State.bump_sent (s : State) : (s.bump).sent = s.sent := rfl
@[simp] theorem State.bump_homes (s : State) : (s.bump).homes = s.homes := rfl
@[simp] theorem State.bump_discards (s : State) : (s.bump).discards = s.discards := rfl
@[simp] theorem State.bump_shoots (s : State) : (s.bump).shoots = s.shoots := rfl
@[simp] theorem State.bump_seq (s : State) : (s.bump).seq = s.seq := rfl
@[simp] theorem State.bump_pkg (s : State) : (s.bump).pkg = s.pkg := rfl

@[simp] theorem State.send_cur (s : State) (p : Packet) : (s.send p).cur = s.cur := rfl
@[simp] theorem State.send_agenda (s : State) (p : Packet) : (s.send p).agenda = s.agenda := rfl
@[simp] theorem State.send_free (s : State) (p : Packet) : (s.send p).free = s.free := rfl
@[simp] theorem State.send_mem (s : State) (p : Packet) : (s.send p).mem = s.mem := rfl
@[simp] theorem State.send_full (s : State) (p : Packet) : (s.send p).full = s.full := rfl
@[simp] theorem State.send_ctxs (s : State) (p : Packet) : (s.send p).ctxs = s.ctxs := rfl
@[simp] theorem State.send_cores (s : State) (p : Packet) : (s.send p).cores = s.cores := rfl
@[simp] theorem State.send_clus (s : State) (p : Packet) : (s.send p).clus = s.clus := rfl
@[simp] theorem State.send_jobs (s : State) (p : Packet) : (s.send p).jobs = s.jobs := rfl
@[simp] theorem State.send_homes (s : State) (p : Packet) : (s.send p).homes = s.homes := rfl
@[simp] theorem State.send_discards (s : State) (p : Packet) : (s.send p).discards = s.discards := rfl
@[simp] theorem State.send_shoots (s : State) (p : Packet) : (s.send p).shoots = s.shoots := rfl
@[simp] theorem State.send_seq (s : State) (p : Packet) : (s.send p).seq = s.seq := rfl
@[simp] theorem State.send_pkg (s : State) (p : Packet) : (s.send p).pkg = s.pkg := rfl

@[simp] theorem State.report_cur (s : State) (k v : Nat) : (s.report k v).cur = s.cur := rfl
@[simp] theorem State.report_agenda (s : State) (k v : Nat) : (s.report k v).agenda = s.agenda := rfl
@[simp] theorem State.report_free (s : State) (k v : Nat) : (s.report k v).free = s.free := rfl
@[simp] theorem State.report_mem (s : State) (k v : Nat) : (s.report k v).mem = s.mem := rfl
@[simp] theorem State.report_full (s : State) (k v : Nat) : (s.report k v).full = s.full := rfl
@[simp] theorem State.report_ctxs (s : State) (k v : Nat) : (s.report k v).ctxs = s.ctxs := rfl
@[simp] theorem State.report_cores (s : State) (k v : Nat) : (s.report k v).cores = s.cores := rfl
@[simp] theorem State.report_clus (s : State) (k v : Nat) : (s.report k v).clus = s.clus := rfl
@[simp] theorem State.report_jobs (s : State) (k v : Nat) : (s.report k v).jobs = s.jobs := rfl
@[simp] theorem State.report_net (s : State) (k v : Nat) : (s.report k v).net = s.net := rfl
@[simp] theorem State.report_sent (s : State) (k v : Nat) : (s.report k v).sent = s.sent := rfl
@[simp] theorem State.report_homes (s : State) (k v : Nat) : (s.report k v).homes = s.homes := rfl
@[simp] theorem State.report_discards (s : State) (k v : Nat) : (s.report k v).discards = s.discards := rfl
@[simp] theorem State.report_shoots (s : State) (k v : Nat) : (s.report k v).shoots = s.shoots := rfl
@[simp] theorem State.report_seq (s : State) (k v : Nat) : (s.report k v).seq = s.seq := rfl

@[simp] theorem State.heal_cur (s : State) (k n : Nat) : (s.heal k n).cur = s.cur := rfl
@[simp] theorem State.heal_agenda (s : State) (k n : Nat) : (s.heal k n).agenda = s.agenda := rfl
@[simp] theorem State.heal_free (s : State) (k n : Nat) : (s.heal k n).free = s.free := rfl
@[simp] theorem State.heal_mem (s : State) (k n : Nat) : (s.heal k n).mem = s.mem := rfl
@[simp] theorem State.heal_full (s : State) (k n : Nat) : (s.heal k n).full = s.full := rfl
@[simp] theorem State.heal_ctxs (s : State) (k n : Nat) : (s.heal k n).ctxs = s.ctxs := rfl
@[simp] theorem State.heal_cores (s : State) (k n : Nat) : (s.heal k n).cores = s.cores := rfl
@[simp] theorem State.heal_clus (s : State) (k n : Nat) : (s.heal k n).clus = s.clus := rfl
@[simp] theorem State.heal_jobs (s : State) (k n : Nat) : (s.heal k n).jobs = s.jobs := rfl
@[simp] theorem State.heal_net (s : State) (k n : Nat) : (s.heal k n).net = s.net := rfl
@[simp] theorem State.heal_sent (s : State) (k n : Nat) : (s.heal k n).sent = s.sent := rfl
@[simp] theorem State.heal_homes (s : State) (k n : Nat) : (s.heal k n).homes = s.homes := rfl
@[simp] theorem State.heal_discards (s : State) (k n : Nat) : (s.heal k n).discards = s.discards := rfl
@[simp] theorem State.heal_shoots (s : State) (k n : Nat) : (s.heal k n).shoots = s.shoots := rfl
@[simp] theorem State.heal_seq (s : State) (k n : Nat) : (s.heal k n).seq = s.seq := rfl

@[simp] theorem State.setBytes_cur (s : State) (k : Nat) (bs : List Byte) : (s.setBytes k bs).cur = s.cur := by
  induction bs generalizing s k with
  | nil => rfl
  | cons b r ih => exact ih (s.setByte k b) (k + 1)
@[simp] theorem State.setBytes_agenda (s : State) (k : Nat) (bs : List Byte) : (s.setBytes k bs).agenda = s.agenda := by
  induction bs generalizing s k with
  | nil => rfl
  | cons b r ih => exact ih (s.setByte k b) (k + 1)
@[simp] theorem State.setBytes_free (s : State) (k : Nat) (bs : List Byte) : (s.setBytes k bs).free = s.free := by
  induction bs generalizing s k with
  | nil => rfl
  | cons b r ih => exact ih (s.setByte k b) (k + 1)
@[simp] theorem State.setBytes_full (s : State) (k : Nat) (bs : List Byte) : (s.setBytes k bs).full = s.full := by
  induction bs generalizing s k with
  | nil => rfl
  | cons b r ih => exact ih (s.setByte k b) (k + 1)
@[simp] theorem State.setBytes_ctxs (s : State) (k : Nat) (bs : List Byte) : (s.setBytes k bs).ctxs = s.ctxs := by
  induction bs generalizing s k with
  | nil => rfl
  | cons b r ih => exact ih (s.setByte k b) (k + 1)
@[simp] theorem State.setBytes_cores (s : State) (k : Nat) (bs : List Byte) : (s.setBytes k bs).cores = s.cores := by
  induction bs generalizing s k with
  | nil => rfl
  | cons b r ih => exact ih (s.setByte k b) (k + 1)
@[simp] theorem State.setBytes_clus (s : State) (k : Nat) (bs : List Byte) : (s.setBytes k bs).clus = s.clus := by
  induction bs generalizing s k with
  | nil => rfl
  | cons b r ih => exact ih (s.setByte k b) (k + 1)
@[simp] theorem State.setBytes_jobs (s : State) (k : Nat) (bs : List Byte) : (s.setBytes k bs).jobs = s.jobs := by
  induction bs generalizing s k with
  | nil => rfl
  | cons b r ih => exact ih (s.setByte k b) (k + 1)
@[simp] theorem State.setBytes_net (s : State) (k : Nat) (bs : List Byte) : (s.setBytes k bs).net = s.net := by
  induction bs generalizing s k with
  | nil => rfl
  | cons b r ih => exact ih (s.setByte k b) (k + 1)
@[simp] theorem State.setBytes_sent (s : State) (k : Nat) (bs : List Byte) : (s.setBytes k bs).sent = s.sent := by
  induction bs generalizing s k with
  | nil => rfl
  | cons b r ih => exact ih (s.setByte k b) (k + 1)
@[simp] theorem State.setBytes_homes (s : State) (k : Nat) (bs : List Byte) : (s.setBytes k bs).homes = s.homes := by
  induction bs generalizing s k with
  | nil => rfl
  | cons b r ih => exact ih (s.setByte k b) (k + 1)
@[simp] theorem State.setBytes_discards (s : State) (k : Nat) (bs : List Byte) : (s.setBytes k bs).discards = s.discards := by
  induction bs generalizing s k with
  | nil => rfl
  | cons b r ih => exact ih (s.setByte k b) (k + 1)
@[simp] theorem State.setBytes_shoots (s : State) (k : Nat) (bs : List Byte) : (s.setBytes k bs).shoots = s.shoots := by
  induction bs generalizing s k with
  | nil => rfl
  | cons b r ih => exact ih (s.setByte k b) (k + 1)
@[simp] theorem State.setBytes_seq (s : State) (k : Nat) (bs : List Byte) : (s.setBytes k bs).seq = s.seq := by
  induction bs generalizing s k with
  | nil => rfl
  | cons b r ih => exact ih (s.setByte k b) (k + 1)
@[simp] theorem State.setBytes_pkg (s : State) (k : Nat) (bs : List Byte) : (s.setBytes k bs).pkg = s.pkg := by
  induction bs generalizing s k with
  | nil => rfl
  | cons b r ih => exact ih (s.setByte k b) (k + 1)

@[simp] theorem State.bankPut_cur (s : State) (k : Nat) (bs : List Byte) : (s.bankPut k bs).cur = s.cur := by simp [State.bankPut]
@[simp] theorem State.bankPut_agenda (s : State) (k : Nat) (bs : List Byte) : (s.bankPut k bs).agenda = s.agenda := by simp [State.bankPut]
@[simp] theorem State.bankPut_free (s : State) (k : Nat) (bs : List Byte) : (s.bankPut k bs).free = s.free := by simp [State.bankPut]
@[simp] theorem State.bankPut_full (s : State) (k : Nat) (bs : List Byte) : (s.bankPut k bs).full = s.full := by simp [State.bankPut]
@[simp] theorem State.bankPut_ctxs (s : State) (k : Nat) (bs : List Byte) : (s.bankPut k bs).ctxs = s.ctxs := by simp [State.bankPut]
@[simp] theorem State.bankPut_cores (s : State) (k : Nat) (bs : List Byte) : (s.bankPut k bs).cores = s.cores := by simp [State.bankPut]
@[simp] theorem State.bankPut_clus (s : State) (k : Nat) (bs : List Byte) : (s.bankPut k bs).clus = s.clus := by simp [State.bankPut]
@[simp] theorem State.bankPut_jobs (s : State) (k : Nat) (bs : List Byte) : (s.bankPut k bs).jobs = s.jobs := by simp [State.bankPut]
@[simp] theorem State.bankPut_net (s : State) (k : Nat) (bs : List Byte) : (s.bankPut k bs).net = s.net := by simp [State.bankPut]
@[simp] theorem State.bankPut_sent (s : State) (k : Nat) (bs : List Byte) : (s.bankPut k bs).sent = s.sent := by simp [State.bankPut]
@[simp] theorem State.bankPut_homes (s : State) (k : Nat) (bs : List Byte) : (s.bankPut k bs).homes = s.homes := by simp [State.bankPut]
@[simp] theorem State.bankPut_discards (s : State) (k : Nat) (bs : List Byte) : (s.bankPut k bs).discards = s.discards := by simp [State.bankPut]
@[simp] theorem State.bankPut_shoots (s : State) (k : Nat) (bs : List Byte) : (s.bankPut k bs).shoots = s.shoots := by simp [State.bankPut]
@[simp] theorem State.bankPut_seq (s : State) (k : Nat) (bs : List Byte) : (s.bankPut k bs).seq = s.seq := by simp [State.bankPut]
@[simp] theorem State.bankPut_mem (s : State) (k : Nat) (bs : List Byte) : (s.bankPut k bs).mem = (s.setBytes k bs).mem := rfl

/-! ## Updates of a context -/

@[simp] theorem Ctx.setQ_run (c : Ctx) (n : Nat) (q : Queue) : (c.setQ n q).run = c.run := rfl
@[simp] theorem Ctx.setQ_pc (c : Ctx) (n : Nat) (q : Queue) : (c.setQ n q).pc = c.pc := rfl
@[simp] theorem Ctx.setQ_x (c : Ctx) (n : Nat) (q : Queue) : (c.setQ n q).x = c.x := rfl
@[simp] theorem Ctx.setQ_v (c : Ctx) (n : Nat) (q : Queue) : (c.setQ n q).v = c.v := rfl
@[simp] theorem Ctx.setQ_p (c : Ctx) (n : Nat) (q : Queue) : (c.setQ n q).p = c.p := rfl
@[simp] theorem Ctx.setQ_streams (c : Ctx) (n : Nat) (q : Queue) : (c.setQ n q).streams = c.streams := rfl
@[simp] theorem Ctx.setQ_shapes (c : Ctx) (n : Nat) (q : Queue) : (c.setQ n q).shapes = c.shapes := rfl
@[simp] theorem Ctx.setQ_evq (c : Ctx) (n : Nat) (q : Queue) : (c.setQ n q).evq = c.evq := rfl
@[simp] theorem Ctx.setQ_evOvf (c : Ctx) (n : Nat) (q : Queue) : (c.setQ n q).evOvf = c.evOvf := rfl
@[simp] theorem Ctx.setQ_sb (c : Ctx) (n : Nat) (q : Queue) : (c.setQ n q).sb = c.sb := rfl
@[simp] theorem Ctx.setQ_unack (c : Ctx) (n : Nat) (q : Queue) : (c.setQ n q).unack = c.unack := rfl
@[simp] theorem Ctx.setQ_loads (c : Ctx) (n : Nat) (q : Queue) : (c.setQ n q).loads = c.loads := rfl
@[simp] theorem Ctx.setQ_nextId (c : Ctx) (n : Nat) (q : Queue) : (c.setQ n q).nextId = c.nextId := rfl
@[simp] theorem Ctx.setQ_stage (c : Ctx) (n : Nat) (q : Queue) : (c.setQ n q).stage = c.stage := rfl
@[simp] theorem Ctx.setQ_fetched (c : Ctx) (n : Nat) (q : Queue) : (c.setQ n q).fetched = c.fetched := rfl
@[simp] theorem Ctx.setQ_begun (c : Ctx) (n : Nat) (q : Queue) : (c.setQ n q).begun = c.begun := rfl
@[simp] theorem Ctx.setQ_sys (c : Ctx) (n : Nat) (q : Queue) : (c.setQ n q).sys = c.sys := rfl

@[simp] theorem Ctx.setS_run (c : Ctx) (n : Nat) (t : Stream) : (c.setS n t).run = c.run := rfl
@[simp] theorem Ctx.setS_pc (c : Ctx) (n : Nat) (t : Stream) : (c.setS n t).pc = c.pc := rfl
@[simp] theorem Ctx.setS_x (c : Ctx) (n : Nat) (t : Stream) : (c.setS n t).x = c.x := rfl
@[simp] theorem Ctx.setS_v (c : Ctx) (n : Nat) (t : Stream) : (c.setS n t).v = c.v := rfl
@[simp] theorem Ctx.setS_p (c : Ctx) (n : Nat) (t : Stream) : (c.setS n t).p = c.p := rfl
@[simp] theorem Ctx.setS_qs (c : Ctx) (n : Nat) (t : Stream) : (c.setS n t).qs = c.qs := rfl
@[simp] theorem Ctx.setS_shapes (c : Ctx) (n : Nat) (t : Stream) : (c.setS n t).shapes = c.shapes := rfl
@[simp] theorem Ctx.setS_evq (c : Ctx) (n : Nat) (t : Stream) : (c.setS n t).evq = c.evq := rfl
@[simp] theorem Ctx.setS_evOvf (c : Ctx) (n : Nat) (t : Stream) : (c.setS n t).evOvf = c.evOvf := rfl
@[simp] theorem Ctx.setS_sb (c : Ctx) (n : Nat) (t : Stream) : (c.setS n t).sb = c.sb := rfl
@[simp] theorem Ctx.setS_unack (c : Ctx) (n : Nat) (t : Stream) : (c.setS n t).unack = c.unack := rfl
@[simp] theorem Ctx.setS_loads (c : Ctx) (n : Nat) (t : Stream) : (c.setS n t).loads = c.loads := rfl
@[simp] theorem Ctx.setS_nextId (c : Ctx) (n : Nat) (t : Stream) : (c.setS n t).nextId = c.nextId := rfl
@[simp] theorem Ctx.setS_stage (c : Ctx) (n : Nat) (t : Stream) : (c.setS n t).stage = c.stage := rfl
@[simp] theorem Ctx.setS_fetched (c : Ctx) (n : Nat) (t : Stream) : (c.setS n t).fetched = c.fetched := rfl
@[simp] theorem Ctx.setS_begun (c : Ctx) (n : Nat) (t : Stream) : (c.setS n t).begun = c.begun := rfl
@[simp] theorem Ctx.setS_sys (c : Ctx) (n : Nat) (t : Stream) : (c.setS n t).sys = c.sys := rfl

@[simp] theorem Ctx.setH_run (c : Ctx) (n : Nat) (t : Shape) : (c.setH n t).run = c.run := rfl
@[simp] theorem Ctx.setH_pc (c : Ctx) (n : Nat) (t : Shape) : (c.setH n t).pc = c.pc := rfl
@[simp] theorem Ctx.setH_x (c : Ctx) (n : Nat) (t : Shape) : (c.setH n t).x = c.x := rfl
@[simp] theorem Ctx.setH_v (c : Ctx) (n : Nat) (t : Shape) : (c.setH n t).v = c.v := rfl
@[simp] theorem Ctx.setH_p (c : Ctx) (n : Nat) (t : Shape) : (c.setH n t).p = c.p := rfl
@[simp] theorem Ctx.setH_qs (c : Ctx) (n : Nat) (t : Shape) : (c.setH n t).qs = c.qs := rfl
@[simp] theorem Ctx.setH_streams (c : Ctx) (n : Nat) (t : Shape) : (c.setH n t).streams = c.streams := rfl
@[simp] theorem Ctx.setH_evq (c : Ctx) (n : Nat) (t : Shape) : (c.setH n t).evq = c.evq := rfl
@[simp] theorem Ctx.setH_evOvf (c : Ctx) (n : Nat) (t : Shape) : (c.setH n t).evOvf = c.evOvf := rfl
@[simp] theorem Ctx.setH_sb (c : Ctx) (n : Nat) (t : Shape) : (c.setH n t).sb = c.sb := rfl
@[simp] theorem Ctx.setH_unack (c : Ctx) (n : Nat) (t : Shape) : (c.setH n t).unack = c.unack := rfl
@[simp] theorem Ctx.setH_loads (c : Ctx) (n : Nat) (t : Shape) : (c.setH n t).loads = c.loads := rfl
@[simp] theorem Ctx.setH_nextId (c : Ctx) (n : Nat) (t : Shape) : (c.setH n t).nextId = c.nextId := rfl
@[simp] theorem Ctx.setH_stage (c : Ctx) (n : Nat) (t : Shape) : (c.setH n t).stage = c.stage := rfl
@[simp] theorem Ctx.setH_fetched (c : Ctx) (n : Nat) (t : Shape) : (c.setH n t).fetched = c.fetched := rfl
@[simp] theorem Ctx.setH_begun (c : Ctx) (n : Nat) (t : Shape) : (c.setH n t).begun = c.begun := rfl
@[simp] theorem Ctx.setH_sys (c : Ctx) (n : Nat) (t : Shape) : (c.setH n t).sys = c.sys := rfl

@[simp] theorem Ctx.setV_run (c : Ctx) (n : Nat) (w : Vec) : (c.setV n w).run = c.run := rfl
@[simp] theorem Ctx.setV_pc (c : Ctx) (n : Nat) (w : Vec) : (c.setV n w).pc = c.pc := rfl
@[simp] theorem Ctx.setV_x (c : Ctx) (n : Nat) (w : Vec) : (c.setV n w).x = c.x := rfl
@[simp] theorem Ctx.setV_p (c : Ctx) (n : Nat) (w : Vec) : (c.setV n w).p = c.p := rfl
@[simp] theorem Ctx.setV_qs (c : Ctx) (n : Nat) (w : Vec) : (c.setV n w).qs = c.qs := rfl
@[simp] theorem Ctx.setV_streams (c : Ctx) (n : Nat) (w : Vec) : (c.setV n w).streams = c.streams := rfl
@[simp] theorem Ctx.setV_shapes (c : Ctx) (n : Nat) (w : Vec) : (c.setV n w).shapes = c.shapes := rfl
@[simp] theorem Ctx.setV_evq (c : Ctx) (n : Nat) (w : Vec) : (c.setV n w).evq = c.evq := rfl
@[simp] theorem Ctx.setV_evOvf (c : Ctx) (n : Nat) (w : Vec) : (c.setV n w).evOvf = c.evOvf := rfl
@[simp] theorem Ctx.setV_sb (c : Ctx) (n : Nat) (w : Vec) : (c.setV n w).sb = c.sb := rfl
@[simp] theorem Ctx.setV_unack (c : Ctx) (n : Nat) (w : Vec) : (c.setV n w).unack = c.unack := rfl
@[simp] theorem Ctx.setV_loads (c : Ctx) (n : Nat) (w : Vec) : (c.setV n w).loads = c.loads := rfl
@[simp] theorem Ctx.setV_nextId (c : Ctx) (n : Nat) (w : Vec) : (c.setV n w).nextId = c.nextId := rfl
@[simp] theorem Ctx.setV_stage (c : Ctx) (n : Nat) (w : Vec) : (c.setV n w).stage = c.stage := rfl
@[simp] theorem Ctx.setV_fetched (c : Ctx) (n : Nat) (w : Vec) : (c.setV n w).fetched = c.fetched := rfl
@[simp] theorem Ctx.setV_begun (c : Ctx) (n : Nat) (w : Vec) : (c.setV n w).begun = c.begun := rfl
@[simp] theorem Ctx.setV_sys (c : Ctx) (n : Nat) (w : Vec) : (c.setV n w).sys = c.sys := rfl

@[simp] theorem Ctx.modSys_run (c : Ctx) (f : CtxSys → CtxSys) : (c.modSys f).run = c.run := rfl
@[simp] theorem Ctx.modSys_pc (c : Ctx) (f : CtxSys → CtxSys) : (c.modSys f).pc = c.pc := rfl
@[simp] theorem Ctx.modSys_x (c : Ctx) (f : CtxSys → CtxSys) : (c.modSys f).x = c.x := rfl
@[simp] theorem Ctx.modSys_v (c : Ctx) (f : CtxSys → CtxSys) : (c.modSys f).v = c.v := rfl
@[simp] theorem Ctx.modSys_p (c : Ctx) (f : CtxSys → CtxSys) : (c.modSys f).p = c.p := rfl
@[simp] theorem Ctx.modSys_qs (c : Ctx) (f : CtxSys → CtxSys) : (c.modSys f).qs = c.qs := rfl
@[simp] theorem Ctx.modSys_streams (c : Ctx) (f : CtxSys → CtxSys) : (c.modSys f).streams = c.streams := rfl
@[simp] theorem Ctx.modSys_shapes (c : Ctx) (f : CtxSys → CtxSys) : (c.modSys f).shapes = c.shapes := rfl
@[simp] theorem Ctx.modSys_evq (c : Ctx) (f : CtxSys → CtxSys) : (c.modSys f).evq = c.evq := rfl
@[simp] theorem Ctx.modSys_evOvf (c : Ctx) (f : CtxSys → CtxSys) : (c.modSys f).evOvf = c.evOvf := rfl
@[simp] theorem Ctx.modSys_sb (c : Ctx) (f : CtxSys → CtxSys) : (c.modSys f).sb = c.sb := rfl
@[simp] theorem Ctx.modSys_unack (c : Ctx) (f : CtxSys → CtxSys) : (c.modSys f).unack = c.unack := rfl
@[simp] theorem Ctx.modSys_loads (c : Ctx) (f : CtxSys → CtxSys) : (c.modSys f).loads = c.loads := rfl
@[simp] theorem Ctx.modSys_nextId (c : Ctx) (f : CtxSys → CtxSys) : (c.modSys f).nextId = c.nextId := rfl
@[simp] theorem Ctx.modSys_stage (c : Ctx) (f : CtxSys → CtxSys) : (c.modSys f).stage = c.stage := rfl
@[simp] theorem Ctx.modSys_fetched (c : Ctx) (f : CtxSys → CtxSys) : (c.modSys f).fetched = c.fetched := rfl
@[simp] theorem Ctx.modSys_begun (c : Ctx) (f : CtxSys → CtxSys) : (c.modSys f).begun = c.begun := rfl

@[simp] theorem Ctx.countBy_run (c : Ctx) (k n : Nat) : (c.countBy k n).run = c.run := rfl
@[simp] theorem Ctx.countBy_pc (c : Ctx) (k n : Nat) : (c.countBy k n).pc = c.pc := rfl
@[simp] theorem Ctx.countBy_x (c : Ctx) (k n : Nat) : (c.countBy k n).x = c.x := rfl
@[simp] theorem Ctx.countBy_v (c : Ctx) (k n : Nat) : (c.countBy k n).v = c.v := rfl
@[simp] theorem Ctx.countBy_p (c : Ctx) (k n : Nat) : (c.countBy k n).p = c.p := rfl
@[simp] theorem Ctx.countBy_qs (c : Ctx) (k n : Nat) : (c.countBy k n).qs = c.qs := rfl
@[simp] theorem Ctx.countBy_streams (c : Ctx) (k n : Nat) : (c.countBy k n).streams = c.streams := rfl
@[simp] theorem Ctx.countBy_shapes (c : Ctx) (k n : Nat) : (c.countBy k n).shapes = c.shapes := rfl
@[simp] theorem Ctx.countBy_evq (c : Ctx) (k n : Nat) : (c.countBy k n).evq = c.evq := rfl
@[simp] theorem Ctx.countBy_evOvf (c : Ctx) (k n : Nat) : (c.countBy k n).evOvf = c.evOvf := rfl
@[simp] theorem Ctx.countBy_sb (c : Ctx) (k n : Nat) : (c.countBy k n).sb = c.sb := rfl
@[simp] theorem Ctx.countBy_unack (c : Ctx) (k n : Nat) : (c.countBy k n).unack = c.unack := rfl
@[simp] theorem Ctx.countBy_loads (c : Ctx) (k n : Nat) : (c.countBy k n).loads = c.loads := rfl
@[simp] theorem Ctx.countBy_nextId (c : Ctx) (k n : Nat) : (c.countBy k n).nextId = c.nextId := rfl
@[simp] theorem Ctx.countBy_stage (c : Ctx) (k n : Nat) : (c.countBy k n).stage = c.stage := rfl
@[simp] theorem Ctx.countBy_fetched (c : Ctx) (k n : Nat) : (c.countBy k n).fetched = c.fetched := rfl
@[simp] theorem Ctx.countBy_begun (c : Ctx) (k n : Nat) : (c.countBy k n).begun = c.begun := rfl

@[simp] theorem Ctx.advance_run (c : Ctx) : (c.advance).run = c.run := rfl
@[simp] theorem Ctx.advance_x (c : Ctx) : (c.advance).x = c.x := rfl
@[simp] theorem Ctx.advance_v (c : Ctx) : (c.advance).v = c.v := rfl
@[simp] theorem Ctx.advance_p (c : Ctx) : (c.advance).p = c.p := rfl
@[simp] theorem Ctx.advance_qs (c : Ctx) : (c.advance).qs = c.qs := rfl
@[simp] theorem Ctx.advance_streams (c : Ctx) : (c.advance).streams = c.streams := rfl
@[simp] theorem Ctx.advance_shapes (c : Ctx) : (c.advance).shapes = c.shapes := rfl
@[simp] theorem Ctx.advance_evq (c : Ctx) : (c.advance).evq = c.evq := rfl
@[simp] theorem Ctx.advance_evOvf (c : Ctx) : (c.advance).evOvf = c.evOvf := rfl
@[simp] theorem Ctx.advance_sb (c : Ctx) : (c.advance).sb = c.sb := rfl
@[simp] theorem Ctx.advance_unack (c : Ctx) : (c.advance).unack = c.unack := rfl
@[simp] theorem Ctx.advance_loads (c : Ctx) : (c.advance).loads = c.loads := rfl
@[simp] theorem Ctx.advance_nextId (c : Ctx) : (c.advance).nextId = c.nextId := rfl
@[simp] theorem Ctx.advance_sys (c : Ctx) : (c.advance).sys = c.sys := rfl

@[simp] theorem Ctx.jump_run (c : Ctx) (t : Word) : (c.jump t).run = c.run := rfl
@[simp] theorem Ctx.jump_x (c : Ctx) (t : Word) : (c.jump t).x = c.x := rfl
@[simp] theorem Ctx.jump_v (c : Ctx) (t : Word) : (c.jump t).v = c.v := rfl
@[simp] theorem Ctx.jump_p (c : Ctx) (t : Word) : (c.jump t).p = c.p := rfl
@[simp] theorem Ctx.jump_qs (c : Ctx) (t : Word) : (c.jump t).qs = c.qs := rfl
@[simp] theorem Ctx.jump_streams (c : Ctx) (t : Word) : (c.jump t).streams = c.streams := rfl
@[simp] theorem Ctx.jump_shapes (c : Ctx) (t : Word) : (c.jump t).shapes = c.shapes := rfl
@[simp] theorem Ctx.jump_evq (c : Ctx) (t : Word) : (c.jump t).evq = c.evq := rfl
@[simp] theorem Ctx.jump_evOvf (c : Ctx) (t : Word) : (c.jump t).evOvf = c.evOvf := rfl
@[simp] theorem Ctx.jump_sb (c : Ctx) (t : Word) : (c.jump t).sb = c.sb := rfl
@[simp] theorem Ctx.jump_unack (c : Ctx) (t : Word) : (c.jump t).unack = c.unack := rfl
@[simp] theorem Ctx.jump_loads (c : Ctx) (t : Word) : (c.jump t).loads = c.loads := rfl
@[simp] theorem Ctx.jump_nextId (c : Ctx) (t : Word) : (c.jump t).nextId = c.nextId := rfl
@[simp] theorem Ctx.jump_sys (c : Ctx) (t : Word) : (c.jump t).sys = c.sys := rfl

@[simp] theorem Ctx.anew_run (c : Ctx) : (c.anew).run = c.run := rfl
@[simp] theorem Ctx.anew_pc (c : Ctx) : (c.anew).pc = c.pc := rfl
@[simp] theorem Ctx.anew_x (c : Ctx) : (c.anew).x = c.x := rfl
@[simp] theorem Ctx.anew_v (c : Ctx) : (c.anew).v = c.v := rfl
@[simp] theorem Ctx.anew_p (c : Ctx) : (c.anew).p = c.p := rfl
@[simp] theorem Ctx.anew_qs (c : Ctx) : (c.anew).qs = c.qs := rfl
@[simp] theorem Ctx.anew_streams (c : Ctx) : (c.anew).streams = c.streams := rfl
@[simp] theorem Ctx.anew_shapes (c : Ctx) : (c.anew).shapes = c.shapes := rfl
@[simp] theorem Ctx.anew_evq (c : Ctx) : (c.anew).evq = c.evq := rfl
@[simp] theorem Ctx.anew_evOvf (c : Ctx) : (c.anew).evOvf = c.evOvf := rfl
@[simp] theorem Ctx.anew_sb (c : Ctx) : (c.anew).sb = c.sb := rfl
@[simp] theorem Ctx.anew_unack (c : Ctx) : (c.anew).unack = c.unack := rfl
@[simp] theorem Ctx.anew_loads (c : Ctx) : (c.anew).loads = c.loads := rfl
@[simp] theorem Ctx.anew_nextId (c : Ctx) : (c.anew).nextId = c.nextId := rfl
@[simp] theorem Ctx.anew_sys (c : Ctx) : (c.anew).sys = c.sys := rfl

@[simp] theorem Ctx.skip_run (c : Ctx) : (c.skip).run = c.run := rfl
@[simp] theorem Ctx.skip_x (c : Ctx) : (c.skip).x = c.x := rfl
@[simp] theorem Ctx.skip_v (c : Ctx) : (c.skip).v = c.v := rfl
@[simp] theorem Ctx.skip_p (c : Ctx) : (c.skip).p = c.p := rfl
@[simp] theorem Ctx.skip_qs (c : Ctx) : (c.skip).qs = c.qs := rfl
@[simp] theorem Ctx.skip_streams (c : Ctx) : (c.skip).streams = c.streams := rfl
@[simp] theorem Ctx.skip_shapes (c : Ctx) : (c.skip).shapes = c.shapes := rfl
@[simp] theorem Ctx.skip_evq (c : Ctx) : (c.skip).evq = c.evq := rfl
@[simp] theorem Ctx.skip_evOvf (c : Ctx) : (c.skip).evOvf = c.evOvf := rfl
@[simp] theorem Ctx.skip_sb (c : Ctx) : (c.skip).sb = c.sb := rfl
@[simp] theorem Ctx.skip_unack (c : Ctx) : (c.skip).unack = c.unack := rfl
@[simp] theorem Ctx.skip_loads (c : Ctx) : (c.skip).loads = c.loads := rfl
@[simp] theorem Ctx.skip_nextId (c : Ctx) : (c.skip).nextId = c.nextId := rfl
@[simp] theorem Ctx.skip_stage (c : Ctx) : (c.skip).stage = c.stage := rfl
@[simp] theorem Ctx.skip_begun (c : Ctx) : (c.skip).begun = c.begun := rfl
@[simp] theorem Ctx.skip_sys (c : Ctx) : (c.skip).sys = c.sys := rfl

@[simp] theorem Ctx.setCstat_run (c : Ctx) (b : Nat) : (c.setCstat b).run = c.run := rfl
@[simp] theorem Ctx.setCstat_pc (c : Ctx) (b : Nat) : (c.setCstat b).pc = c.pc := rfl
@[simp] theorem Ctx.setCstat_x (c : Ctx) (b : Nat) : (c.setCstat b).x = c.x := rfl
@[simp] theorem Ctx.setCstat_v (c : Ctx) (b : Nat) : (c.setCstat b).v = c.v := rfl
@[simp] theorem Ctx.setCstat_p (c : Ctx) (b : Nat) : (c.setCstat b).p = c.p := rfl
@[simp] theorem Ctx.setCstat_qs (c : Ctx) (b : Nat) : (c.setCstat b).qs = c.qs := rfl
@[simp] theorem Ctx.setCstat_streams (c : Ctx) (b : Nat) : (c.setCstat b).streams = c.streams := rfl
@[simp] theorem Ctx.setCstat_shapes (c : Ctx) (b : Nat) : (c.setCstat b).shapes = c.shapes := rfl
@[simp] theorem Ctx.setCstat_evq (c : Ctx) (b : Nat) : (c.setCstat b).evq = c.evq := rfl
@[simp] theorem Ctx.setCstat_evOvf (c : Ctx) (b : Nat) : (c.setCstat b).evOvf = c.evOvf := rfl
@[simp] theorem Ctx.setCstat_sb (c : Ctx) (b : Nat) : (c.setCstat b).sb = c.sb := rfl
@[simp] theorem Ctx.setCstat_unack (c : Ctx) (b : Nat) : (c.setCstat b).unack = c.unack := rfl
@[simp] theorem Ctx.setCstat_loads (c : Ctx) (b : Nat) : (c.setCstat b).loads = c.loads := rfl
@[simp] theorem Ctx.setCstat_nextId (c : Ctx) (b : Nat) : (c.setCstat b).nextId = c.nextId := rfl
@[simp] theorem Ctx.setCstat_stage (c : Ctx) (b : Nat) : (c.setCstat b).stage = c.stage := rfl
@[simp] theorem Ctx.setCstat_fetched (c : Ctx) (b : Nat) : (c.setCstat b).fetched = c.fetched := rfl
@[simp] theorem Ctx.setCstat_begun (c : Ctx) (b : Nat) : (c.setCstat b).begun = c.begun := rfl

@[simp] theorem Ctx.orFstat_run (c : Ctx) (w : Word) : (c.orFstat w).run = c.run := rfl
@[simp] theorem Ctx.orFstat_pc (c : Ctx) (w : Word) : (c.orFstat w).pc = c.pc := rfl
@[simp] theorem Ctx.orFstat_x (c : Ctx) (w : Word) : (c.orFstat w).x = c.x := rfl
@[simp] theorem Ctx.orFstat_v (c : Ctx) (w : Word) : (c.orFstat w).v = c.v := rfl
@[simp] theorem Ctx.orFstat_p (c : Ctx) (w : Word) : (c.orFstat w).p = c.p := rfl
@[simp] theorem Ctx.orFstat_qs (c : Ctx) (w : Word) : (c.orFstat w).qs = c.qs := rfl
@[simp] theorem Ctx.orFstat_streams (c : Ctx) (w : Word) : (c.orFstat w).streams = c.streams := rfl
@[simp] theorem Ctx.orFstat_shapes (c : Ctx) (w : Word) : (c.orFstat w).shapes = c.shapes := rfl
@[simp] theorem Ctx.orFstat_evq (c : Ctx) (w : Word) : (c.orFstat w).evq = c.evq := rfl
@[simp] theorem Ctx.orFstat_evOvf (c : Ctx) (w : Word) : (c.orFstat w).evOvf = c.evOvf := rfl
@[simp] theorem Ctx.orFstat_sb (c : Ctx) (w : Word) : (c.orFstat w).sb = c.sb := rfl
@[simp] theorem Ctx.orFstat_unack (c : Ctx) (w : Word) : (c.orFstat w).unack = c.unack := rfl
@[simp] theorem Ctx.orFstat_loads (c : Ctx) (w : Word) : (c.orFstat w).loads = c.loads := rfl
@[simp] theorem Ctx.orFstat_nextId (c : Ctx) (w : Word) : (c.orFstat w).nextId = c.nextId := rfl
@[simp] theorem Ctx.orFstat_stage (c : Ctx) (w : Word) : (c.orFstat w).stage = c.stage := rfl
@[simp] theorem Ctx.orFstat_fetched (c : Ctx) (w : Word) : (c.orFstat w).fetched = c.fetched := rfl
@[simp] theorem Ctx.orFstat_begun (c : Ctx) (w : Word) : (c.orFstat w).begun = c.begun := rfl

@[simp] theorem Ctx.setX_run (c : Ctx) (n : Nat) (w : Word) : (c.setX n w).run = c.run := by
  unfold Ctx.setX; split <;> rfl
@[simp] theorem Ctx.setX_pc (c : Ctx) (n : Nat) (w : Word) : (c.setX n w).pc = c.pc := by
  unfold Ctx.setX; split <;> rfl
@[simp] theorem Ctx.setX_v (c : Ctx) (n : Nat) (w : Word) : (c.setX n w).v = c.v := by
  unfold Ctx.setX; split <;> rfl
@[simp] theorem Ctx.setX_p (c : Ctx) (n : Nat) (w : Word) : (c.setX n w).p = c.p := by
  unfold Ctx.setX; split <;> rfl
@[simp] theorem Ctx.setX_qs (c : Ctx) (n : Nat) (w : Word) : (c.setX n w).qs = c.qs := by
  unfold Ctx.setX; split <;> rfl
@[simp] theorem Ctx.setX_streams (c : Ctx) (n : Nat) (w : Word) : (c.setX n w).streams = c.streams := by
  unfold Ctx.setX; split <;> rfl
@[simp] theorem Ctx.setX_shapes (c : Ctx) (n : Nat) (w : Word) : (c.setX n w).shapes = c.shapes := by
  unfold Ctx.setX; split <;> rfl
@[simp] theorem Ctx.setX_evq (c : Ctx) (n : Nat) (w : Word) : (c.setX n w).evq = c.evq := by
  unfold Ctx.setX; split <;> rfl
@[simp] theorem Ctx.setX_evOvf (c : Ctx) (n : Nat) (w : Word) : (c.setX n w).evOvf = c.evOvf := by
  unfold Ctx.setX; split <;> rfl
@[simp] theorem Ctx.setX_sb (c : Ctx) (n : Nat) (w : Word) : (c.setX n w).sb = c.sb := by
  unfold Ctx.setX; split <;> rfl
@[simp] theorem Ctx.setX_unack (c : Ctx) (n : Nat) (w : Word) : (c.setX n w).unack = c.unack := by
  unfold Ctx.setX; split <;> rfl
@[simp] theorem Ctx.setX_loads (c : Ctx) (n : Nat) (w : Word) : (c.setX n w).loads = c.loads := by
  unfold Ctx.setX; split <;> rfl
@[simp] theorem Ctx.setX_nextId (c : Ctx) (n : Nat) (w : Word) : (c.setX n w).nextId = c.nextId := by
  unfold Ctx.setX; split <;> rfl
@[simp] theorem Ctx.setX_stage (c : Ctx) (n : Nat) (w : Word) : (c.setX n w).stage = c.stage := by
  unfold Ctx.setX; split <;> rfl
@[simp] theorem Ctx.setX_fetched (c : Ctx) (n : Nat) (w : Word) : (c.setX n w).fetched = c.fetched := by
  unfold Ctx.setX; split <;> rfl
@[simp] theorem Ctx.setX_begun (c : Ctx) (n : Nat) (w : Word) : (c.setX n w).begun = c.begun := by
  unfold Ctx.setX; split <;> rfl
@[simp] theorem Ctx.setX_sys (c : Ctx) (n : Nat) (w : Word) : (c.setX n w).sys = c.sys := by
  unfold Ctx.setX; split <;> rfl

@[simp] theorem Ctx.setP_run (c : Ctx) (n : Nat) (w : Word) : (c.setP n w).run = c.run := by
  unfold Ctx.setP; split <;> rfl
@[simp] theorem Ctx.setP_pc (c : Ctx) (n : Nat) (w : Word) : (c.setP n w).pc = c.pc := by
  unfold Ctx.setP; split <;> rfl
@[simp] theorem Ctx.setP_x (c : Ctx) (n : Nat) (w : Word) : (c.setP n w).x = c.x := by
  unfold Ctx.setP; split <;> rfl
@[simp] theorem Ctx.setP_v (c : Ctx) (n : Nat) (w : Word) : (c.setP n w).v = c.v := by
  unfold Ctx.setP; split <;> rfl
@[simp] theorem Ctx.setP_qs (c : Ctx) (n : Nat) (w : Word) : (c.setP n w).qs = c.qs := by
  unfold Ctx.setP; split <;> rfl
@[simp] theorem Ctx.setP_streams (c : Ctx) (n : Nat) (w : Word) : (c.setP n w).streams = c.streams := by
  unfold Ctx.setP; split <;> rfl
@[simp] theorem Ctx.setP_shapes (c : Ctx) (n : Nat) (w : Word) : (c.setP n w).shapes = c.shapes := by
  unfold Ctx.setP; split <;> rfl
@[simp] theorem Ctx.setP_evq (c : Ctx) (n : Nat) (w : Word) : (c.setP n w).evq = c.evq := by
  unfold Ctx.setP; split <;> rfl
@[simp] theorem Ctx.setP_evOvf (c : Ctx) (n : Nat) (w : Word) : (c.setP n w).evOvf = c.evOvf := by
  unfold Ctx.setP; split <;> rfl
@[simp] theorem Ctx.setP_sb (c : Ctx) (n : Nat) (w : Word) : (c.setP n w).sb = c.sb := by
  unfold Ctx.setP; split <;> rfl
@[simp] theorem Ctx.setP_unack (c : Ctx) (n : Nat) (w : Word) : (c.setP n w).unack = c.unack := by
  unfold Ctx.setP; split <;> rfl
@[simp] theorem Ctx.setP_loads (c : Ctx) (n : Nat) (w : Word) : (c.setP n w).loads = c.loads := by
  unfold Ctx.setP; split <;> rfl
@[simp] theorem Ctx.setP_nextId (c : Ctx) (n : Nat) (w : Word) : (c.setP n w).nextId = c.nextId := by
  unfold Ctx.setP; split <;> rfl
@[simp] theorem Ctx.setP_stage (c : Ctx) (n : Nat) (w : Word) : (c.setP n w).stage = c.stage := by
  unfold Ctx.setP; split <;> rfl
@[simp] theorem Ctx.setP_fetched (c : Ctx) (n : Nat) (w : Word) : (c.setP n w).fetched = c.fetched := by
  unfold Ctx.setP; split <;> rfl
@[simp] theorem Ctx.setP_begun (c : Ctx) (n : Nat) (w : Word) : (c.setP n w).begun = c.begun := by
  unfold Ctx.setP; split <;> rfl
@[simp] theorem Ctx.setP_sys (c : Ctx) (n : Nat) (w : Word) : (c.setP n w).sys = c.sys := by
  unfold Ctx.setP; split <;> rfl

@[simp] theorem Ctx.advance_pc (c : Ctx) : c.advance.pc = c.pc + 12 := rfl
@[simp] theorem Ctx.advance_stage (c : Ctx) : c.advance.stage = {} := rfl
@[simp] theorem Ctx.advance_fetched (c : Ctx) : c.advance.fetched = [] := rfl
@[simp] theorem Ctx.advance_begun (c : Ctx) : c.advance.begun = false := rfl
@[simp] theorem Ctx.jump_pc (c : Ctx) (t : Word) : (c.jump t).pc = t := rfl
@[simp] theorem Ctx.jump_stage (c : Ctx) (t : Word) : (c.jump t).stage = {} := rfl
@[simp] theorem Ctx.jump_fetched (c : Ctx) (t : Word) : (c.jump t).fetched = [] := rfl
@[simp] theorem Ctx.jump_begun (c : Ctx) (t : Word) : (c.jump t).begun = false := rfl
@[simp] theorem Ctx.skip_pc (c : Ctx) : c.skip.pc = c.pc + 12 := rfl
@[simp] theorem Ctx.skip_fetched (c : Ctx) : c.skip.fetched = [] := rfl

/-! ## Reads after writes -/

theorem State.ctx_setCtx (s : State) (n m : Nat) (c : Ctx) : (s.setCtx n c).ctx m = if m = n then c else s.ctx m :=
  SMap.get_set ..
@[simp] theorem State.ctx_setCtx_self (s : State) (n : Nat) (c : Ctx) : (s.setCtx n c).ctx n = c := SMap.get_set_self ..
theorem State.core_setCore (s : State) (n m : Nat) (c : CoreSt) :
    (s.setCore n c).core m = if m = n then c else s.core m := SMap.get_set ..
theorem State.clu_setClu (s : State) (n m : Nat) (c : Clu) : (s.setClu n c).clu m = if m = n then c else s.clu m :=
  SMap.get_set ..
theorem State.job_setJob (s : State) (n m : Nat) (c : Job) : (s.setJob n c).job m = if m = n then c else s.job m :=
  SMap.get_set ..
theorem State.ctx_modCtx (s : State) (n m : Nat) (f : Ctx → Ctx) :
    (s.modCtx n f).ctx m = if m = n then f (s.ctx n) else s.ctx m := SMap.get_set ..
theorem State.core_modCore (s : State) (n m : Nat) (f : CoreSt → CoreSt) :
    (s.modCore n f).core m = if m = n then f (s.core n) else s.core m := SMap.get_set ..
theorem State.clu_modClu (s : State) (n m : Nat) (f : Clu → Clu) :
    (s.modClu n f).clu m = if m = n then f (s.clu n) else s.clu m := SMap.get_set ..
theorem State.job_modJob (s : State) (n m : Nat) (f : Job → Job) :
    (s.modJob n f).job m = if m = n then f (s.job n) else s.job m := SMap.get_set ..

@[simp] theorem State.me_modMe (s : State) (f : Ctx → Ctx) : (s.modMe f).me = f s.me := SMap.get_set_self ..
@[simp] theorem State.me_setMe (s : State) (c : Ctx) : (s.setMe c).me = c := SMap.get_set_self ..
@[simp] theorem State.setCtx_setCtx (s : State) (n : Nat) (c d : Ctx) : (s.setCtx n c).setCtx n d = s.setCtx n d := by
  simp [State.setCtx]
@[simp] theorem State.modMe_modMe (s : State) (f g : Ctx → Ctx) : (s.modMe f).modMe g = s.modMe fun c => g (f c) := by
  simp [State.modMe, State.setCtx, State.ctx]
@[simp] theorem State.setMe_modMe (s : State) (c : Ctx) (g : Ctx → Ctx) : (s.setMe c).modMe g = s.setMe (g c) := by
  simp [State.modMe, State.setMe, State.setCtx, State.ctx]

theorem State.byte_setByte (s : State) (k j : Nat) (b : Byte) :
    (s.setByte k b).byte j = if j = k then b else s.byte j := SMap.get_setD ..
theorem State.mark_setMark (s : State) (k j : Nat) (b : Bool) :
    (s.setMark k b).mark j = if j / 8 * 8 = k / 8 * 8 then b else s.mark j := SMap.get_setD ..

@[simp] theorem Ctx.getX_zero (c : Ctx) : c.getX 0 = 0 := rfl
@[simp] theorem Ctx.getP_seven (c : Ctx) : c.getP 7 = allOnes := rfl
@[simp] theorem Ctx.setX_zero (c : Ctx) (w : Word) : c.setX 0 w = c := rfl
@[simp] theorem Ctx.setP_seven (c : Ctx) (w : Word) : c.setP 7 w = c := rfl
/-- A scalar register after a write of one. -/
theorem Ctx.getX_setX (c : Ctx) (n m : Nat) (w : Word) :
    (c.setX n w).getX m = if m = n ∧ n ≠ 0 then w else c.getX m := by
  unfold Ctx.setX
  split
  · next h => simp [h]
  · next h =>
    unfold Ctx.getX
    by_cases hm : m = 0
    · simp only [hm, if_true]; rw [if_neg]; rintro ⟨e, -⟩; exact h e.symm
    · simp [SMap.get_setD, h, hm]
theorem Ctx.getP_setP (c : Ctx) (n m : Nat) (w : Word) :
    (c.setP n w).getP m = if m = n ∧ n ≠ 7 then w else c.getP m := by
  unfold Ctx.setP
  split
  · next h => simp [h]
  · next h =>
    unfold Ctx.getP
    by_cases hm : m = 7
    · simp only [hm, if_true]; rw [if_neg]; rintro ⟨e, -⟩; exact h e.symm
    · simp [SMap.get_setD, h, hm]
theorem Ctx.getV_setV (c : Ctx) (n m : Nat) (w : Vec) :
    (c.setV n w).getV m = if m = n then w else c.getV m := SMap.get_setD ..
theorem Ctx.getQ_setQ (c : Ctx) (n m : Nat) (q : Queue) :
    (c.setQ n q).getQ m = if m = n then q else c.getQ m := SMap.get_set ..
theorem Ctx.getS_setS (c : Ctx) (n m : Nat) (t : Stream) :
    (c.setS n t).getS m = if m = n then t else c.getS m := SMap.get_set ..
theorem Ctx.getH_setH (c : Ctx) (n m : Nat) (t : Shape) :
    (c.setH n t).getH m = if m = n then t else c.getH m := SMap.get_set ..

/-- A byte after a write of bytes. -/
theorem State.byte_setBytes (s : State) (k j : Nat) (bs : List Byte) :
    (s.setBytes k bs).byte j = if k ≤ j ∧ j < k + bs.length then bs.getD (j - k) 0 else s.byte j := by
  induction bs generalizing s k with
  | nil => rw [if_neg (by simp only [List.length_nil]; omega)]; rfl
  | cons b r ih =>
    rw [show s.setBytes k (b :: r) = (s.setByte k b).setBytes (k + 1) r from rfl, ih, State.byte_setByte]
    by_cases h : j = k
    · subst h
      rw [if_neg (by omega), if_pos rfl, if_pos (by simp only [List.length_cons]; omega), Nat.sub_self]
      rfl
    · by_cases h2 : k + 1 ≤ j ∧ j < k + 1 + r.length
      · rw [if_pos h2, if_pos (by simp only [List.length_cons]; omega), show j - k = j - (k + 1) + 1 by omega]
        rfl
      · rw [if_neg h2, if_neg h, if_neg (by simp only [List.length_cons]; omega)]
@[simp] theorem State.byte_bankPut (s : State) (k j : Nat) (bs : List Byte) : (s.bankPut k bs).byte j = (s.setBytes k bs).byte j := rfl
@[simp] theorem State.byte_heal (s : State) (k n j : Nat) : (s.heal k n).byte j = s.byte j := rfl

/-- What a step comes to under replay: its own state, none, or the stop of a job that cannot follow its journal (R418). -/
theorem State.inTurn_cases {s t : State} {o : Host.Outcome State Fault Refusal} (h : s.inTurn o = .next t) :
    ∃ u, o = .next u ∧ ((u.pkg.turn = 0 ∧ t = u) ∨ (u.pkg.turn = 1 ∧ t = s)
      ∨ (2 ≤ u.pkg.turn ∧ t = s.jrnStop 17 (u.pkg.turn - 2))) := by
  cases o with
  | next u =>
    refine ⟨u, rfl, ?_⟩
    unfold State.inTurn at h
    injection h with h
    split at h
    · exact .inl ⟨‹_›, h.symm⟩
    · split at h
      · exact .inr (.inl ⟨‹_›, h.symm⟩)
      · exact .inr (.inr ⟨by omega, h.symm⟩)
  | fault f => cases h
  | refused f => cases h

/-! ## The form of memory -/

theorem State.setByte_wf {s : State} (k : Nat) (b : Byte) (h : Memory.wf s.mem = true) :
    Memory.wf (s.setByte k b).mem = true := SMap.wf_setD k b h
theorem State.setBytes_wf {s : State} (k : Nat) (bs : List Byte) (h : Memory.wf s.mem = true) :
    Memory.wf (s.setBytes k bs).mem = true := by
  induction bs generalizing s k with
  | nil => exact h
  | cons b r ih => exact ih (k + 1) (State.setByte_wf k b h)
theorem State.bankPut_wf {s : State} (k : Nat) (bs : List Byte) (h : Memory.wf s.mem = true) :
    Memory.wf (s.bankPut k bs).mem = true := State.setBytes_wf k bs h
theorem State.zeroBytes_wf {s : State} (k n : Nat) (h : Memory.wf s.mem = true) :
    Memory.wf (s.zeroBytes k n).mem = true := SMap.wf_filter _ h
/-- Reset's memory has the canonical form. -/
theorem State.reset_wf : Memory.wf State.reset.mem = true := rfl

end Sys2Proof.Machine
end

