-- ==== Sys2Proof/Laws/Faults.lean ====
section
/-!
SUPPORT. How an instruction's turn ends and what taking a fault does: every case of each shared operation once,
with the bytes of memory it leaves and the form of memory it keeps.
-/
namespace Sys2Proof.Machine

/-- A turn ends in the instruction's next state, in a wait, or in a fault taken. -/
theorem State.finish_cases {s t : State} {r : Op State} (h : s.finish r = .next t) :
    r = .ok t ∨ r = .error .wait ∧ t = s ∨ r = .error .illegal ∧ t = s.illegal ∨
      ∃ i, r = .error (.flt i) ∧ t = s.fault i := by
  rcases r with e | u
  · cases e <;> simp_all [State.finish]
  · simp_all [State.finish]

/-- Every turn ends in a next state. -/
theorem State.finish_next (s : State) (r : Op State) : ∃ t, s.finish r = .next t := by
  rcases r with e | u
  · cases e <;> exact ⟨_, rfl⟩
  · exact ⟨_, rfl⟩

/-- A byte outside those stored reads as before. -/
theorem State.byte_setBytes_out {s : State} {k j : Nat} {bs : List Byte} (h : j < k ∨ k + bs.length ≤ j) :
    (s.setBytes k bs).byte j = s.byte j := by
  rw [State.byte_setBytes, if_neg (by omega)]

/-! ## Records -/

@[simp] theorem State.dropLine_mem (s : State) (clu line : Nat) : (s.dropLine clu line).mem = s.mem := rfl
@[simp] theorem State.dropLine_ctxs (s : State) (clu line : Nat) : (s.dropLine clu line).ctxs = s.ctxs := rfl
@[simp] theorem State.leaveRgq_mem (s : State) (n : Nat) : (s.leaveRgq n).mem = s.mem := by
  unfold State.leaveRgq; dsimp only; split <;> rfl
@[simp] theorem State.leaveRgq_ctxs (s : State) (n : Nat) : (s.leaveRgq n).ctxs = s.ctxs := by
  unfold State.leaveRgq; dsimp only; split <;> rfl
@[simp] theorem State.beginEnd_mem (s : State) (n how : Nat) : (s.beginEnd n how).mem = s.mem := by
  simp [State.beginEnd]
@[simp] theorem State.redo_mem (s : State) (n : Nat) : (s.redo n).mem = s.mem := rfl
@[simp] theorem State.redo_ctxs (s : State) (n : Nat) : (s.redo n).ctxs = s.ctxs := rfl

/-- A record is written into the slot PUT names, or LOST counts it in a full queue, or it is dropped. -/
theorem State.post_cases (s : State) (j clu : Nat) (ws : List Nat) :
    s.post j clu ws = (s, none) ∨
    (∃ lost, s.post j clu ws = (s.setBytes lost (leBytes 8 (s.word lost + 1)), none)) ∨
    ∃ put slot, s.post j clu ws =
      (((s.setBytes slot (ws.flatMap (leBytes 8))).setBytes put (leBytes 8 (s.word put + 1))).dropLine clu (lineOf slot),
        some (s.word put)) := by
  unfold State.post
  split
  · next put take lost _ _ _ =>
    dsimp only
    split
    · exact .inr (.inl ⟨lost, rfl⟩)
    · split
      · next slot _ => exact .inr (.inr ⟨put, slot, rfl⟩)
      · exact .inl rfl
  · exact .inl rfl

theorem State.post_wf {s : State} (j clu : Nat) (ws : List Nat) (h : Memory.wf s.mem = true) :
    Memory.wf (s.post j clu ws).1.mem = true := by
  rcases s.post_cases j clu ws with e | ⟨l, e⟩ | ⟨p, k, e⟩ <;> rw [e]
  · exact h
  · exact State.setBytes_wf _ _ h
  · exact State.setBytes_wf _ _ (State.setBytes_wf _ _ h)

/-- A record changes no context. -/
@[simp] theorem State.post_ctxs (s : State) (j clu : Nat) (ws : List Nat) : (s.post j clu ws).1.ctxs = s.ctxs := by
  rcases s.post_cases j clu ws with e | ⟨l, e⟩ | ⟨p, k, e⟩ <;> rw [e] <;> simp

/-! ## Taking a fault -/

/-- Taking a fault enters the handler with the record's number, or begins the run's end, or marks the node
for another execution. -/
theorem State.raise_cases (s : State) (n : Nat) (pc ret : Word) (i : FaultInfo) :
    let c := s.ctx n
    let cfg := (s.job c.run.job).cfg
    let r := s.post c.run.job (cluOf n) (recordWords c pc (resumable c.sys.lvl i) i)
    (s.redoes n i = true ∧ s.raise n pc ret i = s.redo n) ∨
    (s.redoes n i = false ∧ ∃ seq, r.2 = some seq ∧ resumable c.sys.lvl i = true ∧ cfg.hentry ≠ 0 ∧
      s.raise n pc ret i = (r.1.leaveRgq n).modCtx n fun c => c.enterHandler cfg i ret seq) ∨
    (s.redoes n i = false ∧ (r.2 = none ∨ resumable c.sys.lvl i = false ∨ cfg.hentry = 0) ∧
      s.raise n pc ret i = r.1.beginEnd n 2) := by
  intro c cfg r
  cases hd : s.redoes n i
  · have e : s.raise n pc ret i = match r with
        | (t, some seq) =>
          if resumable c.sys.lvl i && cfg.hentry != 0 then (t.leaveRgq n).modCtx n fun c => c.enterHandler cfg i ret seq
          else t.beginEnd n 2
        | (t, none) => t.beginEnd n 2 := by
      unfold State.raise
      rw [hd]
      rfl
    obtain ⟨q, hq⟩ : ∃ q, q = r := ⟨_, rfl⟩
    rw [e, ← hq]
    rcases q with ⟨t, - | seq⟩
    · exact .inr (.inr ⟨rfl, .inl rfl, rfl⟩)
    · by_cases h1 : resumable c.sys.lvl i = true
      · by_cases h2 : cfg.hentry = 0
        · exact .inr (.inr ⟨rfl, .inr (.inr h2), by simp [h2]⟩)
        · exact .inr (.inl ⟨rfl, seq, rfl, h1, h2, by simp only [h1, Bool.true_and, bne_iff_ne, ne_eq, h2, not_false_eq_true, if_true]⟩)
      · exact .inr (.inr ⟨rfl, .inr (.inl (by simpa using h1)), by simp [h1]⟩)
  · exact .inl ⟨rfl, by simp [State.raise, hd]⟩

theorem State.raise_wf {s : State} (n : Nat) (pc ret : Word) (i : FaultInfo) (h : Memory.wf s.mem = true) :
    Memory.wf (s.raise n pc ret i).mem = true := by
  rcases s.raise_cases n pc ret i with ⟨-, e⟩ | ⟨-, q, -, -, -, e⟩ | ⟨-, -, e⟩ <;> rw [e]
  · exact h
  · rw [State.modCtx_mem, State.leaveRgq_mem]; exact State.post_wf _ _ _ h
  · rw [State.beginEnd_mem]; exact State.post_wf _ _ _ h

theorem State.fault_wf {s : State} (i : FaultInfo) (h : Memory.wf s.mem = true) :
    Memory.wf (s.fault i).mem = true := State.raise_wf _ _ _ _ h

theorem State.illegal_wf {s : State} (h : Memory.wf s.mem = true) : Memory.wf s.illegal.mem = true :=
  State.fault_wf _ h

/-- A turn keeps the form of memory if the instruction's own next state does. -/
theorem State.finish_wf {s t : State} {r : Op State} (h : Memory.wf s.mem = true)
    (hr : ∀ u, r = .ok u → Memory.wf u.mem = true) (ht : s.finish r = .next t) : Memory.wf t.mem = true := by
  rcases State.finish_cases ht with e | ⟨-, e⟩ | ⟨-, e⟩ | ⟨i, -, e⟩
  · exact hr t e
  · exact e ▸ h
  · exact e ▸ State.illegal_wf h
  · exact e ▸ State.fault_wf i h

/-- Another context is untouched by a fault. -/
theorem State.raise_ctx {s : State} {n m : Nat} (pc ret : Word) (i : FaultInfo) (h : m ≠ n) :
    (s.raise n pc ret i).ctx m = s.ctx m := by
  rcases s.raise_cases n pc ret i with ⟨-, e⟩ | ⟨-, q, -, -, -, e⟩ | ⟨-, -, e⟩ <;> rw [e]
  · simp [State.ctx]
  · simp [State.modCtx, State.setCtx, State.ctx, SMap.get_set_ne _ _ _ h]
  · simp [State.beginEnd, State.modCtx, State.setCtx, State.ctx, SMap.get_set_ne _ _ _ h]

end Sys2Proof.Machine
end

