-- ==== Sys2Proof/Laws/Kas.lean ====
section
/-!
SUPPORT. What kas and kld do, once for each shared operation: every word an instruction line gives is one the
decoder accepts, any special register standing for the one it names, and replaced bytes leave all others as they were.
-/
namespace Sys2Proof

/-- A form gives only words that decode, but for the index of a special register. -/
theorem Kas.Form.asm_decodes {f : Kas.Form} {g : Hdr} {env : Kas.Env} {pc : Kas.Val} {vs : List String}
    {as : List Kas.Arg} {w : Kas.Asmd} (h : f.asm g env pc vs as = some w) :
    ∃ e : Kas.Enc, w.word = packWord f.opc g (modOr e.b e.mod) e.d e.a e.b
      ∧ (decode (packWord f.opc g (modOr e.b e.mod) (Kas.anySreg e.d) (Kas.anySreg e.a) e.b)).isSome = true := by
  unfold Kas.Form.asm at h
  simp only [Option.bind_eq_bind, Option.bind_eq_some_iff] at h
  obtain ⟨_, -, _, -, e, -, h⟩ := h
  split at h
  · cases h
  · split at h
    · next hd => cases h; exact ⟨e, rfl, hd⟩
    · cases h

/-- An instruction line gives only words that decode, but for the index of a special register. -/
theorem Kas.asmLine_decodes {g : Option Kas.Guard} {env : Kas.Env} {pc : Kas.Val} {head : String} {rest : List Kas.Tok}
    {w : Kas.Asmd} (h : Kas.asmLine g env pc head rest = some w) :
    ∃ (f : Kas.Form) (e : Kas.Enc), w.word = packWord f.opc (Kas.hdrOf g) (modOr e.b e.mod) e.d e.a e.b
      ∧ (decode (packWord f.opc (Kas.hdrOf g) (modOr e.b e.mod) (Kas.anySreg e.d) (Kas.anySreg e.a) e.b)).isSome = true := by
  unfold Kas.asmLine at h
  simp only [Option.bind_eq_bind, Option.bind_eq_some_iff] at h
  obtain ⟨as, -, h⟩ := h
  split at h
  · obtain ⟨f, -, hf⟩ := List.exists_of_findSome?_eq_some h
    exact ⟨f, Kas.Form.asm_decodes hf⟩
  · cases h

theorem Kof.splice_length {bs new : List Byte} {off : Nat} (h : off + new.length ≤ bs.length) :
    (Kof.splice bs off new).length = bs.length := by
  simp [Kof.splice]; omega

/-- Bytes outside the replaced ones stay. -/
theorem Kof.splice_out {bs new : List Byte} {off j : Nat} (h : off + new.length ≤ bs.length)
    (hj : j < off ∨ off + new.length ≤ j) : (Kof.splice bs off new)[j]? = bs[j]? := by
  unfold Kof.splice
  have ht : (bs.take off).length = off := by simp; omega
  rcases hj with hj | hj
  · rw [List.append_assoc, List.getElem?_append_left (by omega), List.getElem?_take_of_lt hj]
  · rw [List.getElem?_append_right (by simp; omega), List.getElem?_drop]
    congr 1
    simp
    omega

/-- The replaced bytes are the new ones. -/
theorem Kof.splice_in {bs new : List Byte} {off j : Nat} (h : off + new.length ≤ bs.length) (hj : j < new.length) :
    (Kof.splice bs off new)[off + j]? = new[j]? := by
  unfold Kof.splice
  have ht : (bs.take off).length = off := by simp; omega
  rw [List.append_assoc, List.getElem?_append_right (by omega), List.getElem?_append_left (by omega)]
  congr 1
  omega

end Sys2Proof
end

