-- ==== Sys2Proof/Laws/Operands.lean ====
section
/-!
SUPPORT. What reading sources and writing a destination do: a read changes nothing of a context but its queue
registers, a write of a register changes that register, and an instruction of the shared scalar and floating
forms completes with its result.
-/
namespace Sys2Proof.Machine

/-- Two contexts that differ in their queue registers only. -/
def Ctx.OnlyQs (c k : Ctx) : Prop := k = { c with qs := k.qs }

theorem Ctx.OnlyQs.refl (c : Ctx) : c.OnlyQs c := rfl
theorem Ctx.OnlyQs.trans {c d e : Ctx} (h : c.OnlyQs d) (g : d.OnlyQs e) : c.OnlyQs e := by
  unfold Ctx.OnlyQs at *
  rw [g, h]

theorem Ctx.take_onlyQs {c k : Ctx} {n : Nat} {pk : Bool} {v : Vec} (h : c.take n pk = .ok (v, k)) : c.OnlyQs k := by
  unfold Ctx.take at h
  dsimp only at h
  split at h
  · simp only [Except.ok.injEq, Prod.mk.injEq] at h
    obtain ⟨-, rfl⟩ := h
    cases pk <;> rfl
  · split at h <;> simp at h

/-- Reading a source changes the queue registers only. -/
theorem Ctx.val_onlyQs {c k : Ctx} {o : Opd} {w : Word} (h : c.val o = .ok (w, k)) : c.OnlyQs k := by
  cases o <;> simp only [Ctx.val, Except.ok.injEq, Prod.mk.injEq] at h <;> try (obtain ⟨-, rfl⟩ := h; rfl)
  case q n pk =>
    cases ht : c.take n.val pk with
    | error e => rw [ht] at h; simp [Except.map] at h
    | ok r =>
      rw [ht] at h
      simp only [Except.map, Except.ok.injEq, Prod.mk.injEq] at h
      obtain ⟨-, rfl⟩ := h
      exact Ctx.take_onlyQs (v := r.1) ht

theorem Ctx.valV_onlyQs {c k : Ctx} {o : Opd} {w : Vec} (h : c.valV o = .ok (w, k)) : c.OnlyQs k := by
  cases o
  case v n => simp only [Ctx.valV, Except.ok.injEq, Prod.mk.injEq] at h; obtain ⟨-, rfl⟩ := h; rfl
  case q n pk => exact Ctx.take_onlyQs h
  all_goals
    simp only [Ctx.valV] at h
    revert h
    generalize hv : Ctx.val c _ = r
    cases r with
    | error e => intro h; simp [Except.map] at h
    | ok p =>
      intro h
      simp only [Except.map, Except.ok.injEq, Prod.mk.injEq] at h
      obtain ⟨-, rfl⟩ := h
      exact Ctx.val_onlyQs (w := p.1) hv

/-- The running context set to one that differs in its queues only is the commitment of those queues. -/
theorem State.setMe_onlyQs {s : State} {k : Ctx} (h : s.me.OnlyQs k) : s.setMe k = s.commitQ k := by
  unfold Ctx.OnlyQs at h
  unfold State.setMe State.commitQ State.modMe
  rw [h]; rfl

end Sys2Proof.Machine

namespace Sys2Proof.Claims

open Machine

/-- A change of the running context alone. -/
theorem onlyMe_modMe (s : State) (f : Ctx → Ctx) : OnlyMe s (s.modMe f) where
  memory := fun _ => rfl
  others := fun n h => by simp [State.modMe, State.ctx_setCtx, h]
  rest := rfl

theorem onlyMe_setMe (s : State) (c : Ctx) : OnlyMe s (s.setMe c) where
  memory := fun _ => rfl
  others := fun n h => by simp [State.setMe, State.ctx_setCtx, h]
  rest := rfl

end Sys2Proof.Claims

namespace Sys2Proof.Machine

open Claims

/-- What the write of a register does to a context. -/
def Ctx.wrReg (c : Ctx) (d : Opd) (w : Word) (v : Vec) : Ctx :=
  match d with
  | .x n => c.setX n.val w
  | .p n => c.setP n.val w
  | .v n => c.setV n.val v
  | _ => c

theorem Ctx.orFstat_fstat (c : Ctx) (w : Word) : (c.orFstat w).sys.fstat = c.sys.fstat ||| w := rfl

theorem Ctx.raiseFlags_fstat (c : Ctx) (fl : Nat) :
    (c.raiseFlags fl).sys.fstat = c.sys.fstat ||| BitVec.ofNat 64 fl := by
  unfold Ctx.raiseFlags
  split
  · next h => subst h; simp
  · rfl

/-- Nothing of a context but FSTAT changes when flags are raised. -/
theorem Ctx.raiseFlags_eq (c : Ctx) (fl : Nat) :
    c.raiseFlags fl = { c with sys := { c.sys with fstat := c.sys.fstat ||| BitVec.ofNat 64 fl } } := by
  unfold Ctx.raiseFlags
  split
  · next h => subst h; simp
  · rfl

/-- A result in a register, flags, and the next instruction: the frame of an instruction (R230, R262, R263). -/
theorem Ctx.wrReg_onlyDest {c k : Ctx} (h : c.OnlyQs k) (d : Opd) (w : Word) (v : Vec) (fl : Nat) :
    OnlyDest c k ((k.wrReg d w v).raiseFlags fl).advance d fl
      ∧ Holds ((k.wrReg d w v).raiseFlags fl).advance w v d := by
  obtain ⟨qs, hq⟩ : ∃ qs, k = { c with qs := qs } := ⟨_, h⟩
  subst hq
  have e : ∀ m : Ctx, ((m.raiseFlags fl).advance).x = m.x := fun m => by rw [Ctx.raiseFlags_eq]; rfl
  have ep : ∀ m : Ctx, ((m.raiseFlags fl).advance).p = m.p := fun m => by rw [Ctx.raiseFlags_eq]; rfl
  have ev : ∀ m : Ctx, ((m.raiseFlags fl).advance).v = m.v := fun m => by rw [Ctx.raiseFlags_eq]; rfl
  have gx : ∀ (m : Ctx) n, ((m.raiseFlags fl).advance).getX n = m.getX n := fun m n => by unfold Ctx.getX; rw [e]
  have gp : ∀ (m : Ctx) n, ((m.raiseFlags fl).advance).getP n = m.getP n := fun m n => by unfold Ctx.getP; rw [ep]
  have gv : ∀ (m : Ctx) n, ((m.raiseFlags fl).advance).getV n = m.getV n := fun m n => by unfold Ctx.getV; rw [ev]
  constructor
  · constructor
    · rw [Ctx.raiseFlags_eq]; cases d <;> simp [Ctx.wrReg]
    · intro n hn
      rw [gx]
      cases d <;> try rfl
      case x m =>
        show ((Ctx.setX _ m.val w).getX n.val) = _
        rw [Ctx.getX_setX, if_neg]
        · rfl
        · rintro ⟨e, -⟩; exact hn (by rw [Fin.ext e])
      case p m => simp [Ctx.wrReg, Ctx.getX]
    · intro n hn
      rw [gv]
      cases d <;> try rfl
      case v m =>
        show ((Ctx.setV _ m.val v).getV n.val) = _
        rw [Ctx.getV_setV, if_neg]
        · rfl
        · intro e; exact hn (by rw [Fin.ext e])
      case x m => simp [Ctx.wrReg, Ctx.getV]
      case p m => simp [Ctx.wrReg, Ctx.getV]
    · intro n hn
      rw [gp]
      cases d <;> try rfl
      case p m =>
        show ((Ctx.setP _ m.val w).getP n.val) = _
        rw [Ctx.getP_setP, if_neg]
        · rfl
        · rintro ⟨e, -⟩; exact hn (by rw [Fin.ext e])
      case x m => simp [Ctx.wrReg, Ctx.getP]
    · rw [Ctx.raiseFlags_eq]; cases d <;> simp [Ctx.wrReg]
    · rw [Ctx.raiseFlags_eq]; cases d <;> simp [Ctx.wrReg]
    · rw [Ctx.raiseFlags_eq]; cases d <;> simp [Ctx.wrReg]
    · rw [Ctx.raiseFlags_eq]
      cases d <;> first
        | rfl
        | (simp only [Ctx.wrReg, Ctx.advance, Ctx.anew, Ctx.setX, Ctx.setP]; split <;> rfl)
  · cases d <;> simp only [Holds]
    case x n => rw [gx]; show (Ctx.setX _ n.val w).getX n.val = _; rw [Ctx.getX_setX]; by_cases h0 : n.val = 0 <;> simp [h0]
    case p n => rw [gp]; show (Ctx.setP _ n.val w).getP n.val = _; rw [Ctx.getP_setP]; by_cases h0 : n.val = 7 <;> simp [h0, allOnes]
    case v n => rw [gv]; show (Ctx.setV _ n.val v).getV n.val = _; rw [Ctx.getV_setV]; simp

/-- A scalar result written with flags: the instruction completes (R229, R230, R263). -/
theorem State.wr_completes {s : State} {k : Ctx} (h : s.me.OnlyQs k) (d : Opd) (w : Word) (fl : Nat)
    (hr : Room s k d (entryOf w)) :
    ∃ u, (s.setMe k).wr d w = .ok u
      ∧ Completes s k d w (entryOf w) fl ((u.modMe fun c => c.raiseFlags fl).advance) := by
  have reg : ∀ u, u = s.setMe (k.wrReg d w (entryOf w)) →
      OnlyMe s ((u.modMe fun c => c.raiseFlags fl).advance)
        ∧ OnlyDest s.me k ((u.modMe fun c => c.raiseFlags fl).advance).me d fl
        ∧ Holds ((u.modMe fun c => c.raiseFlags fl).advance).me w (entryOf w) d := by
    rintro u rfl
    simp only [State.advance, State.setMe_modMe, State.me_setMe]
    exact ⟨onlyMe_setMe .., Ctx.wrReg_onlyDest h d w _ fl⟩
  cases d
  case q n pk =>
    obtain ⟨u, hu⟩ := hr
    refine ⟨u, ?_, u, hu, rfl⟩
    rw [State.setMe_onlyQs h]; exact hu
  all_goals exact ⟨_, rfl, reg _ (by simp [Ctx.wrReg])⟩

/-- A vector result written with flags: the instruction completes. -/
theorem State.wrV_completes {s : State} {k : Ctx} (h : s.me.OnlyQs k) (d : Opd) (v : Vec) (fl : Nat)
    (hp : ∀ n, d ≠ .p n) (hr : Room s k d v) :
    ∃ u, (s.setMe k).wrV d v = .ok u
      ∧ Completes s k d (entryWord v) v fl ((u.modMe fun c => c.raiseFlags fl).advance) := by
  have reg : ∀ u, u = s.setMe (k.wrReg d (entryWord v) v) →
      OnlyMe s ((u.modMe fun c => c.raiseFlags fl).advance)
        ∧ OnlyDest s.me k ((u.modMe fun c => c.raiseFlags fl).advance).me d fl
        ∧ Holds ((u.modMe fun c => c.raiseFlags fl).advance).me (entryWord v) v d := by
    rintro u rfl
    simp only [State.advance, State.setMe_modMe, State.me_setMe]
    exact ⟨onlyMe_setMe .., Ctx.wrReg_onlyDest h d _ v fl⟩
  cases d
  case q n pk =>
    obtain ⟨u, hu⟩ := hr
    refine ⟨u, ?_, u, hu, rfl⟩
    rw [State.setMe_onlyQs h]; exact hu
  case p n => exact absurd rfl (hp n)
  all_goals exact ⟨_, rfl, reg _ (by simp [Ctx.wrReg])⟩

theorem State.modMe_raise_zero (u : State) : (u.modMe fun c => c.raiseFlags 0).advance = u.advance := by
  simp [State.advance, Ctx.raiseFlags]

theorem State.dirs_ok {s : State} {d a b : Opd} (h : Dirs s d a b) : s.dirs d a b = .ok () := by
  obtain ⟨h1, h2, h3⟩ := h
  simp [State.dirs, Op.check, h1, h2, h3]

/-- An instruction of two scalar sources completes with its result. -/
theorem State.alu2_completes {s : State} {d a b : Opd} {f : Word → Word → Word} {x y : Word} {k : Ctx}
    (hd : Dirs s d a b) (hv : Reads2 s a b x y k) (hr : Room s k d (entryOf (f x y))) :
    ∃ t, s.finish (s.alu2 d a b f) = .next t ∧ Completes s k d (f x y) (entryOf (f x y)) 0 t := by
  obtain ⟨c, h1, h2⟩ := hv
  obtain ⟨u, hu, hc⟩ := State.wr_completes ((Ctx.val_onlyQs h1).trans (Ctx.val_onlyQs h2)) d (f x y) 0 hr
  rw [State.modMe_raise_zero] at hc
  refine ⟨u.advance, ?_, hc⟩
  simp [State.alu2, State.dirs_ok hd, h1, h2, hu, State.finish, bind, Except.bind, pure, Except.pure]

theorem State.alu1_completes {s : State} {d a : Opd} {f : Word → Word} {x : Word} {k : Ctx}
    (hd : Dirs s d a a) (hv : Reads1 s a x k) (hr : Room s k d (entryOf (f x))) :
    ∃ t, s.finish (s.alu1 d a f) = .next t ∧ Completes s k d (f x) (entryOf (f x)) 0 t := by
  obtain ⟨u, hu, hc⟩ := State.wr_completes (Ctx.val_onlyQs hv) d (f x) 0 hr
  rw [State.modMe_raise_zero] at hc
  refine ⟨u.advance, ?_, hc⟩
  unfold Reads1 at hv
  simp [State.alu1, State.dirs_ok hd, hv, hu, State.finish, bind, Except.bind, pure, Except.pure]

theorem State.alu3_completes {s : State} {d a b : Opd} {f : Word → Word → Word → Word} {x y z : Word} {k : Ctx}
    (hd : Dirs s d a b) (hv : Reads3 s d a b x y z k) (hr : Room s k d (entryOf (f x y z))) :
    ∃ t, s.finish (s.alu3 d a b f) = .next t ∧ Completes s k d (f x y z) (entryOf (f x y z)) 0 t := by
  obtain ⟨c, e, h1, h2, h3⟩ := hv
  obtain ⟨u, hu, hc⟩ := State.wr_completes
    (((Ctx.val_onlyQs h1).trans (Ctx.val_onlyQs h2)).trans (Ctx.val_onlyQs h3)) d (f x y z) 0 hr
  rw [State.modMe_raise_zero] at hc
  refine ⟨u.advance, ?_, hc⟩
  simp [State.alu3, State.dirs_ok hd, h1, h2, h3, hu, State.finish, bind, Except.bind, pure, Except.pure]

/-- A floating instruction of two sources completes with its result and its flags. -/
theorem State.fpu2_completes {s : State} {d a b : Opd} {f : Nat → Nat → Flagged} {x y : Word} {k : Ctx}
    (hd : Dirs s d a b) (hv : Reads2 s a b x y k)
    (hr : Room s k d (entryOf (BitVec.ofNat 64 (f x.toNat y.toNat).1))) :
    ∃ t, s.finish (s.fpu2 d a b f) = .next t
      ∧ Completes s k d (BitVec.ofNat 64 (f x.toNat y.toNat).1) (entryOf (BitVec.ofNat 64 (f x.toNat y.toNat).1))
          (f x.toNat y.toNat).2 t := by
  obtain ⟨c, h1, h2⟩ := hv
  obtain ⟨u, hu, hc⟩ := State.wr_completes ((Ctx.val_onlyQs h1).trans (Ctx.val_onlyQs h2)) d
    (BitVec.ofNat 64 (f x.toNat y.toNat).1) (f x.toNat y.toNat).2 hr
  refine ⟨_, ?_, hc⟩
  simp [State.fpu2, State.wrF, State.dirs_ok hd, h1, h2, hu, State.finish, bind, Except.bind, pure, Except.pure]

theorem State.fpu1_completes {s : State} {d a : Opd} {f : Nat → Flagged} {x : Word} {k : Ctx}
    (hd : Dirs s d a a) (hv : Reads1 s a x k) (hr : Room s k d (entryOf (BitVec.ofNat 64 (f x.toNat).1))) :
    ∃ t, s.finish (s.fpu1 d a f) = .next t
      ∧ Completes s k d (BitVec.ofNat 64 (f x.toNat).1) (entryOf (BitVec.ofNat 64 (f x.toNat).1)) (f x.toNat).2 t := by
  obtain ⟨u, hu, hc⟩ := State.wr_completes (Ctx.val_onlyQs hv) d (BitVec.ofNat 64 (f x.toNat).1) (f x.toNat).2 hr
  refine ⟨_, ?_, hc⟩
  unfold Reads1 at hv
  simp [State.fpu1, State.wrF, State.dirs_ok hd, hv, hu, State.finish, bind, Except.bind, pure, Except.pure]

theorem State.fpu3_completes {s : State} {d a b : Opd} {f : Nat → Nat → Nat → Flagged} {x y z : Word} {k : Ctx}
    (hd : Dirs s d a b) (hv : Reads3 s d a b x y z k)
    (hr : Room s k d (entryOf (BitVec.ofNat 64 (f x.toNat y.toNat z.toNat).1))) :
    ∃ t, s.finish (s.fpu3 d a b f) = .next t
      ∧ Completes s k d (BitVec.ofNat 64 (f x.toNat y.toNat z.toNat).1)
          (entryOf (BitVec.ofNat 64 (f x.toNat y.toNat z.toNat).1)) (f x.toNat y.toNat z.toNat).2 t := by
  obtain ⟨c, e, h1, h2, h3⟩ := hv
  obtain ⟨u, hu, hc⟩ := State.wr_completes
    (((Ctx.val_onlyQs h1).trans (Ctx.val_onlyQs h2)).trans (Ctx.val_onlyQs h3)) d
    (BitVec.ofNat 64 (f x.toNat y.toNat z.toNat).1) (f x.toNat y.toNat z.toNat).2 hr
  refine ⟨_, ?_, hc⟩
  simp [State.fpu3, State.wrF, State.dirs_ok hd, h1, h2, h3, hu, State.finish, bind, Except.bind, pure, Except.pure]

end Sys2Proof.Machine
end

