-- ==== Sys2Proof/Laws/PerInstr.lean ====
section
/-!
SUPPORT. The family Row: the word of an instruction has an assigned opcode (R240), so that the decoder finds its row.
-/
namespace Sys2Proof.Laws

/-- The opcode field of the word an instruction is encoded as has a row of the table. -/
def Row.Statement (i : Instr) : Prop := ∀ w, encode i = some w → (opRow (Raw.ofWord w).opc).isSome = true

theorem Row.of_pack {i : Instr} (opc : Nat) (h : Hdr) (mod : Nat) (d a b : Opd) (he : encode i = some (packWord opc h mod d a b))
    (hr : (opRow (opc % 1024)).isSome = true) : Row.Statement i := by
  intro w hw
  rw [he] at hw
  cases hw
  rw [packWord_opc]
  exact hr

theorem Row.iadd (o : OpI) : Row.Statement (.iadd o) := Row.of_pack 0x000 _ _ _ _ _ rfl rfl
theorem Row.isub (o : OpI) : Row.Statement (.isub o) := Row.of_pack 0x001 _ _ _ _ _ rfl rfl
theorem Row.imul (o : OpI) : Row.Statement (.imul o) := Row.of_pack 0x002 _ _ _ _ _ rfl rfl
theorem Row.imulh (o : OpI) : Row.Statement (.imulh o) := Row.of_pack 0x003 _ _ _ _ _ rfl rfl
theorem Row.imad (o : OpI) : Row.Statement (.imad o) := Row.of_pack 0x004 _ _ _ _ _ rfl rfl
theorem Row.idiv (o : OpI) : Row.Statement (.idiv o) := Row.of_pack 0x005 _ _ _ _ _ rfl rfl
theorem Row.irem (o : OpI) : Row.Statement (.irem o) := Row.of_pack 0x006 _ _ _ _ _ rfl rfl
theorem Row.ineg (o : OpI) : Row.Statement (.ineg o) := Row.of_pack 0x007 _ _ _ _ _ rfl rfl
theorem Row.iabs (o : OpI) : Row.Statement (.iabs o) := Row.of_pack 0x008 _ _ _ _ _ rfl rfl
theorem Row.imin (o : OpI) : Row.Statement (.imin o) := Row.of_pack 0x009 _ _ _ _ _ rfl rfl
theorem Row.imax (o : OpI) : Row.Statement (.imax o) := Row.of_pack 0x00A _ _ _ _ _ rfl rfl
theorem Row.icmp (c : Cond) (dp : Fin 8) (o : OpI) : Row.Statement (.icmp c dp o) := Row.of_pack 0x00B _ _ _ _ _ rfl rfl
theorem Row.isel (dp : Fin 8) (o : OpI) : Row.Statement (.isel dp o) := Row.of_pack 0x00C _ _ _ _ _ rfl rfl
theorem Row.lea (sh : Fin 16) (o : OpI) : Row.Statement (.lea sh o) := Row.of_pack 0x00D _ _ _ _ _ rfl rfl
theorem Row.clz (o : OpI) : Row.Statement (.clz o) := Row.of_pack 0x00E _ _ _ _ _ rfl rfl
theorem Row.ctz (o : OpI) : Row.Statement (.ctz o) := Row.of_pack 0x00F _ _ _ _ _ rfl rfl
theorem Row.popc (o : OpI) : Row.Statement (.popc o) := Row.of_pack 0x010 _ _ _ _ _ rfl rfl
theorem Row.brev (o : OpI) : Row.Statement (.brev o) := Row.of_pack 0x011 _ _ _ _ _ rfl rfl
theorem Row.and (o : OpI) : Row.Statement (.and o) := Row.of_pack 0x040 _ _ _ _ _ rfl rfl
theorem Row.or (o : OpI) : Row.Statement (.or o) := Row.of_pack 0x041 _ _ _ _ _ rfl rfl
theorem Row.xor (o : OpI) : Row.Statement (.xor o) := Row.of_pack 0x042 _ _ _ _ _ rfl rfl
theorem Row.andn (o : OpI) : Row.Statement (.andn o) := Row.of_pack 0x043 _ _ _ _ _ rfl rfl
theorem Row.orn (o : OpI) : Row.Statement (.orn o) := Row.of_pack 0x044 _ _ _ _ _ rfl rfl
theorem Row.shl (o : OpI) : Row.Statement (.shl o) := Row.of_pack 0x045 _ _ _ _ _ rfl rfl
theorem Row.shr (o : OpI) : Row.Statement (.shr o) := Row.of_pack 0x046 _ _ _ _ _ rfl rfl
theorem Row.sar (o : OpI) : Row.Statement (.sar o) := Row.of_pack 0x047 _ _ _ _ _ rfl rfl
theorem Row.rol (o : OpI) : Row.Statement (.rol o) := Row.of_pack 0x048 _ _ _ _ _ rfl rfl
theorem Row.bfx (o : OpI) : Row.Statement (.bfx o) := Row.of_pack 0x049 _ _ _ _ _ rfl rfl
theorem Row.bfi (o : OpI) : Row.Statement (.bfi o) := Row.of_pack 0x04A _ _ _ _ _ rfl rfl
theorem Row.sext (w : SrcW) (o : OpI) : Row.Statement (.sext w o) := Row.of_pack 0x04B _ _ _ _ _ rfl rfl
theorem Row.zext (w : SrcW) (o : OpI) : Row.Statement (.zext w o) := Row.of_pack 0x04C _ _ _ _ _ rfl rfl
theorem Row.mov (o : OpI) : Row.Statement (.mov o) := Row.of_pack 0x04D _ _ _ _ _ rfl rfl
theorem Row.movi (o : OpI) : Row.Statement (.movi o) := Row.of_pack 0x04E _ _ _ _ _ rfl rfl
theorem Row.movhi (o : OpI) : Row.Statement (.movhi o) := Row.of_pack 0x04F _ _ _ _ _ rfl rfl
theorem Row.plog (op : PlogOp) (o : OpI) : Row.Statement (.plog op o) := Row.of_pack 0x050 _ _ _ _ _ rfl rfl
theorem Row.pmov (o : OpI) : Row.Statement (.pmov o) := Row.of_pack 0x051 _ _ _ _ _ rfl rfl
theorem Row.fadd (o : OpV) : Row.Statement (.fadd o) := Row.of_pack 0x080 _ _ _ _ _ rfl rfl
theorem Row.fsub (o : OpV) : Row.Statement (.fsub o) := Row.of_pack 0x081 _ _ _ _ _ rfl rfl
theorem Row.fmul (o : OpV) : Row.Statement (.fmul o) := Row.of_pack 0x082 _ _ _ _ _ rfl rfl
theorem Row.ffma (o : OpV) : Row.Statement (.ffma o) := Row.of_pack 0x083 _ _ _ _ _ rfl rfl
theorem Row.fdiv (o : OpV) : Row.Statement (.fdiv o) := Row.of_pack 0x084 _ _ _ _ _ rfl rfl
theorem Row.fsqrt (o : OpV) : Row.Statement (.fsqrt o) := Row.of_pack 0x085 _ _ _ _ _ rfl rfl
theorem Row.fmin (o : OpV) : Row.Statement (.fmin o) := Row.of_pack 0x086 _ _ _ _ _ rfl rfl
theorem Row.fmax (o : OpV) : Row.Statement (.fmax o) := Row.of_pack 0x087 _ _ _ _ _ rfl rfl
theorem Row.fcmp (c : Cond) (o : OpV) : Row.Statement (.fcmp c o) := Row.of_pack 0x088 _ _ _ _ _ rfl rfl
theorem Row.fcvt (src : Esz) (o : OpV) : Row.Statement (.fcvt src o) := Row.of_pack 0x089 _ _ _ _ _ rfl rfl
theorem Row.fclass (o : OpV) : Row.Statement (.fclass o) := Row.of_pack 0x08A _ _ _ _ _ rfl rfl
theorem Row.nop (o : OpS) : Row.Statement (.nop o) := Row.of_pack 0x0C0 _ _ _ _ _ rfl rfl
theorem Row.br (o : OpS) : Row.Statement (.br o) := Row.of_pack 0x0C1 _ _ _ _ _ rfl rfl
theorem Row.call (o : OpS) : Row.Statement (.call o) := Row.of_pack 0x0C2 _ _ _ _ _ rfl rfl
theorem Row.calli (o : OpS) : Row.Statement (.calli o) := Row.of_pack 0x0C3 _ _ _ _ _ rfl rfl
theorem Row.ret (o : OpS) : Row.Statement (.ret o) := Row.of_pack 0x0C4 _ _ _ _ _ rfl rfl
theorem Row.jmpi (o : OpS) : Row.Statement (.jmpi o) := Row.of_pack 0x0C5 _ _ _ _ _ rfl rfl
theorem Row.loop (o : OpS) : Row.Statement (.loop o) := Row.of_pack 0x0C6 _ _ _ _ _ rfl rfl
theorem Row.fork (o : OpS) : Row.Statement (.fork o) := Row.of_pack 0x0C7 _ _ _ _ _ rfl rfl
theorem Row.spawn (o : OpS) : Row.Statement (.spawn o) := Row.of_pack 0x0C8 _ _ _ _ _ rfl rfl
theorem Row.rspawn (o : OpS) : Row.Statement (.rspawn o) := Row.of_pack 0x0C9 _ _ _ _ _ rfl rfl
theorem Row.join (o : OpS) : Row.Statement (.join o) := Row.of_pack 0x0CA _ _ _ _ _ rfl rfl
theorem Row.yield (o : OpS) : Row.Statement (.yield o) := Row.of_pack 0x0CB _ _ _ _ _ rfl rfl
theorem Row.halt (o : OpS) : Row.Statement (.halt o) := Row.of_pack 0x0CC _ _ _ _ _ rfl rfl
theorem Row.haltRetain (o : OpS) : Row.Statement (.haltRetain o) := Row.of_pack 0x0CC _ _ _ _ _ rfl rfl
theorem Row.trap (o : OpS) : Row.Statement (.trap o) := Row.of_pack 0x0CD _ _ _ _ _ rfl rfl
theorem Row.rte (o : OpS) : Row.Statement (.rte o) := Row.of_pack 0x0CE _ _ _ _ _ rfl rfl
theorem Row.ld (o : OpM) : Row.Statement (.ld o) := Row.of_pack 0x100 _ _ _ _ _ rfl rfl
theorem Row.st (o : OpM) : Row.Statement (.st o) := Row.of_pack 0x101 _ _ _ _ _ rfl rfl
theorem Row.ldl (o : OpM) : Row.Statement (.ldl o) := Row.of_pack 0x102 _ _ _ _ _ rfl rfl
theorem Row.stl (o : OpM) : Row.Statement (.stl o) := Row.of_pack 0x103 _ _ _ _ _ rfl rfl
theorem Row.prf (o : OpM) : Row.Statement (.prf o) := Row.of_pack 0x104 _ _ _ _ _ rfl rfl
theorem Row.wbk (o : OpM) : Row.Statement (.wbk o) := Row.of_pack 0x105 _ _ _ _ _ rfl rfl
theorem Row.dis (o : OpM) : Row.Statement (.dis o) := Row.of_pack 0x106 _ _ _ _ _ rfl rfl
theorem Row.inv (o : OpM) : Row.Statement (.inv o) := Row.of_pack 0x107 _ _ _ _ _ rfl rfl
theorem Row.plf (o : OpM) : Row.Statement (.plf o) := Row.of_pack 0x108 _ _ _ _ _ rfl rfl
theorem Row.rgsync (h : Hdr) : Row.Statement (.rgsync h) := Row.of_pack 0x109 _ _ _ _ _ rfl rfl
theorem Row.amo (op : Aop) (o : OpA) : Row.Statement (.amo op o) := Row.of_pack 0x140 _ _ _ _ _ rfl rfl
theorem Row.cas (o : OpA) : Row.Statement (.cas o) := Row.of_pack 0x141 _ _ _ _ _ rfl rfl
theorem Row.red (op : Aop) (o : OpA) : Row.Statement (.red op o) := Row.of_pack 0x142 _ _ _ _ _ rfl rfl
theorem Row.fput (o : OpA) : Row.Statement (.fput o) := Row.of_pack 0x143 _ _ _ _ _ rfl rfl
theorem Row.fget (o : OpA) : Row.Statement (.fget o) := Row.of_pack 0x144 _ _ _ _ _ rfl rfl
theorem Row.fpeek (pm : Fin 8) (o : OpA) : Row.Statement (.fpeek pm o) := Row.of_pack 0x145 _ _ _ _ _ rfl rfl
theorem Row.acq (o : OpS) : Row.Statement (.acq o) := Row.of_pack 0x180 _ _ _ _ _ rfl rfl
theorem Row.rel (o : OpS) : Row.Statement (.rel o) := Row.of_pack 0x181 _ _ _ _ _ rfl rfl
theorem Row.fence (o : OpS) : Row.Statement (.fence o) := Row.of_pack 0x182 _ _ _ _ _ rfl rfl
theorem Row.binit (o : OpS) : Row.Statement (.binit o) := Row.of_pack 0x183 _ _ _ _ _ rfl rfl
theorem Row.bexp (o : OpS) : Row.Statement (.bexp o) := Row.of_pack 0x184 _ _ _ _ _ rfl rfl
theorem Row.barv (o : OpS) : Row.Statement (.barv o) := Row.of_pack 0x185 _ _ _ _ _ rfl rfl
theorem Row.bwait (o : OpS) : Row.Statement (.bwait o) := Row.of_pack 0x186 _ _ _ _ _ rfl rfl
theorem Row.btest (o : OpS) : Row.Statement (.btest o) := Row.of_pack 0x187 _ _ _ _ _ rfl rfl
theorem Row.brarv (o : OpS) : Row.Statement (.brarv o) := Row.of_pack 0x188 _ _ _ _ _ rfl rfl
theorem Row.bbindCopy (o : OpS) : Row.Statement (.bbindCopy o) := Row.of_pack 0x189 _ _ _ _ _ rfl rfl
theorem Row.bbindMxrow (o : OpS) : Row.Statement (.bbindMxrow o) := Row.of_pack 0x189 _ _ _ _ _ rfl rfl
theorem Row.bbindSink (o : OpS) : Row.Statement (.bbindSink o) := Row.of_pack 0x189 _ _ _ _ _ rfl rfl
theorem Row.bbindCnt (o : OpS) : Row.Statement (.bbindCnt o) := Row.of_pack 0x189 _ _ _ _ _ rfl rfl
theorem Row.sopen (o : OpS) : Row.Statement (.sopen o) := Row.of_pack 0x1C0 _ _ _ _ _ rfl rfl
theorem Row.sclose (o : OpS) : Row.Statement (.sclose o) := Row.of_pack 0x1C1 _ _ _ _ _ rfl rfl
theorem Row.srclImm (o : OpS) : Row.Statement (.srclImm o) := Row.of_pack 0x1C2 _ _ _ _ _ rfl rfl
theorem Row.srclAt (o : OpS) : Row.Statement (.srclAt o) := Row.of_pack 0x1C2 _ _ _ _ _ rfl rfl
theorem Row.sfltAuto (o : OpS) : Row.Statement (.sfltAuto o) := Row.of_pack 0x1C3 _ _ _ _ _ rfl rfl
theorem Row.sfltNever (o : OpS) : Row.Statement (.sfltNever o) := Row.of_pack 0x1C3 _ _ _ _ _ rfl rfl
theorem Row.sfltNear (o : OpS) : Row.Statement (.sfltNear o) := Row.of_pack 0x1C3 _ _ _ _ _ rfl rfl
theorem Row.ssnk (o : OpS) : Row.Statement (.ssnk o) := Row.of_pack 0x1C4 _ _ _ _ _ rfl rfl
theorem Row.sstat (o : OpS) : Row.Statement (.sstat o) := Row.of_pack 0x1C5 _ _ _ _ _ rfl rfl
theorem Row.sevt (o : OpS) : Row.Statement (.sevt o) := Row.of_pack 0x1C6 _ _ _ _ _ rfl rfl
theorem Row.qput (o : OpS) : Row.Statement (.qput o) := Row.of_pack 0x1C7 _ _ _ _ _ rfl rfl
theorem Row.qget (o : OpS) : Row.Statement (.qget o) := Row.of_pack 0x1C8 _ _ _ _ _ rfl rfl
theorem Row.qpeek (o : OpS) : Row.Statement (.qpeek o) := Row.of_pack 0x1C9 _ _ _ _ _ rfl rfl
theorem Row.qcnt (o : OpS) : Row.Statement (.qcnt o) := Row.of_pack 0x1CA _ _ _ _ _ rfl rfl
theorem Row.qbind (o : OpS) : Row.Statement (.qbind o) := Row.of_pack 0x1CB _ _ _ _ _ rfl rfl
theorem Row.vadd (o : OpV) : Row.Statement (.vadd o) := Row.of_pack 0x200 _ _ _ _ _ rfl rfl
theorem Row.vsub (o : OpV) : Row.Statement (.vsub o) := Row.of_pack 0x201 _ _ _ _ _ rfl rfl
theorem Row.vmul (o : OpV) : Row.Statement (.vmul o) := Row.of_pack 0x202 _ _ _ _ _ rfl rfl
theorem Row.vfma (o : OpV) : Row.Statement (.vfma o) := Row.of_pack 0x203 _ _ _ _ _ rfl rfl
theorem Row.vmin (o : OpV) : Row.Statement (.vmin o) := Row.of_pack 0x204 _ _ _ _ _ rfl rfl
theorem Row.vmax (o : OpV) : Row.Statement (.vmax o) := Row.of_pack 0x205 _ _ _ _ _ rfl rfl
theorem Row.vabs (o : OpV) : Row.Statement (.vabs o) := Row.of_pack 0x206 _ _ _ _ _ rfl rfl
theorem Row.vneg (o : OpV) : Row.Statement (.vneg o) := Row.of_pack 0x207 _ _ _ _ _ rfl rfl
theorem Row.vand (o : OpV) : Row.Statement (.vand o) := Row.of_pack 0x208 _ _ _ _ _ rfl rfl
theorem Row.vor (o : OpV) : Row.Statement (.vor o) := Row.of_pack 0x209 _ _ _ _ _ rfl rfl
theorem Row.vxor (o : OpV) : Row.Statement (.vxor o) := Row.of_pack 0x20A _ _ _ _ _ rfl rfl
theorem Row.vshl (o : OpV) : Row.Statement (.vshl o) := Row.of_pack 0x20B _ _ _ _ _ rfl rfl
theorem Row.vshr (o : OpV) : Row.Statement (.vshr o) := Row.of_pack 0x20C _ _ _ _ _ rfl rfl
theorem Row.vsar (o : OpV) : Row.Statement (.vsar o) := Row.of_pack 0x20D _ _ _ _ _ rfl rfl
theorem Row.vcmp (c : Cond) (o : OpV) : Row.Statement (.vcmp c o) := Row.of_pack 0x20E _ _ _ _ _ rfl rfl
theorem Row.vsel (o : OpV) : Row.Statement (.vsel o) := Row.of_pack 0x20F _ _ _ _ _ rfl rfl
theorem Row.vcvt (src : Esz) (o : OpV) : Row.Statement (.vcvt src o) := Row.of_pack 0x210 _ _ _ _ _ rfl rfl
theorem Row.vqnt (f : BlkFmt) (o : OpV) : Row.Statement (.vqnt f o) := Row.of_pack 0x211 _ _ _ _ _ rfl rfl
theorem Row.vdqnt (f : BlkFmt) (o : OpV) : Row.Statement (.vdqnt f o) := Row.of_pack 0x212 _ _ _ _ _ rfl rfl
theorem Row.vplane (pm1 : Fin 8) (o : OpV) : Row.Statement (.vplane pm1 o) := Row.of_pack 0x213 _ _ _ _ _ rfl rfl
theorem Row.vunpl (pm1 : Fin 8) (o : OpV) : Row.Statement (.vunpl pm1 o) := Row.of_pack 0x214 _ _ _ _ _ rfl rfl
theorem Row.vexp2 (o : OpV) : Row.Statement (.vexp2 o) := Row.of_pack 0x215 _ _ _ _ _ rfl rfl
theorem Row.vlog2 (o : OpV) : Row.Statement (.vlog2 o) := Row.of_pack 0x216 _ _ _ _ _ rfl rfl
theorem Row.vrcp (o : OpV) : Row.Statement (.vrcp o) := Row.of_pack 0x217 _ _ _ _ _ rfl rfl
theorem Row.vrsq (o : OpV) : Row.Statement (.vrsq o) := Row.of_pack 0x218 _ _ _ _ _ rfl rfl
theorem Row.vsin (o : OpV) : Row.Statement (.vsin o) := Row.of_pack 0x219 _ _ _ _ _ rfl rfl
theorem Row.vcos (o : OpV) : Row.Statement (.vcos o) := Row.of_pack 0x21A _ _ _ _ _ rfl rfl
theorem Row.vtanh (o : OpV) : Row.Statement (.vtanh o) := Row.of_pack 0x21B _ _ _ _ _ rfl rfl
theorem Row.vld (o : OpM) : Row.Statement (.vld o) := Row.of_pack 0x240 _ _ _ _ _ rfl rfl
theorem Row.vst (o : OpM) : Row.Statement (.vst o) := Row.of_pack 0x241 _ _ _ _ _ rfl rfl
theorem Row.vgth (o : OpM) : Row.Statement (.vgth o) := Row.of_pack 0x242 _ _ _ _ _ rfl rfl
theorem Row.vsct (o : OpM) : Row.Statement (.vsct o) := Row.of_pack 0x243 _ _ _ _ _ rfl rfl
theorem Row.vred (op : RedOp) (o : OpV) : Row.Statement (.vred op o) := Row.of_pack 0x244 _ _ _ _ _ rfl rfl
theorem Row.vscan (op : RedOp) (o : OpV) : Row.Statement (.vscan op o) := Row.of_pack 0x245 _ _ _ _ _ rfl rfl
theorem Row.vperm (o : OpV) : Row.Statement (.vperm o) := Row.of_pack 0x246 _ _ _ _ _ rfl rfl
theorem Row.vbcast (o : OpV) : Row.Statement (.vbcast o) := Row.of_pack 0x247 _ _ _ _ _ rfl rfl
theorem Row.vext (o : OpV) : Row.Statement (.vext o) := Row.of_pack 0x248 _ _ _ _ _ rfl rfl
theorem Row.vins (o : OpV) : Row.Statement (.vins o) := Row.of_pack 0x249 _ _ _ _ _ rfl rfl
theorem Row.vcprs (o : OpV) : Row.Statement (.vcprs o) := Row.of_pack 0x24A _ _ _ _ _ rfl rfl
theorem Row.shdef (o : OpV) : Row.Statement (.shdef o) := Row.of_pack 0x280 _ _ _ _ _ rfl rfl
theorem Row.shmap (op : MapOp) (o : OpV) : Row.Statement (.shmap op o) := Row.of_pack 0x281 _ _ _ _ _ rfl rfl
theorem Row.shred (op : RedOp) (o : OpV) : Row.Statement (.shred op o) := Row.of_pack 0x282 _ _ _ _ _ rfl rfl
theorem Row.shqnt (f : BlkFmt) (o : OpV) : Row.Statement (.shqnt f o) := Row.of_pack 0x283 _ _ _ _ _ rfl rfl
theorem Row.shcpy (o : OpV) : Row.Statement (.shcpy o) := Row.of_pack 0x284 _ _ _ _ _ rfl rfl
theorem Row.shstat (o : OpV) : Row.Statement (.shstat o) := Row.of_pack 0x285 _ _ _ _ _ rfl rfl
theorem Row.wclr (o : OpV) : Row.Statement (.wclr o) := Row.of_pack 0x2C0 _ _ _ _ _ rfl rfl
theorem Row.wadd (o : OpV) : Row.Statement (.wadd o) := Row.of_pack 0x2C1 _ _ _ _ _ rfl rfl
theorem Row.wsub (o : OpV) : Row.Statement (.wsub o) := Row.of_pack 0x2C2 _ _ _ _ _ rfl rfl
theorem Row.wrnd (o : OpV) : Row.Statement (.wrnd o) := Row.of_pack 0x2C3 _ _ _ _ _ rfl rfl
theorem Row.waddv (o : OpV) : Row.Statement (.waddv o) := Row.of_pack 0x2C4 _ _ _ _ _ rfl rfl
theorem Row.wstatWin (o : OpV) : Row.Statement (.wstatWin o) := Row.of_pack 0x2C5 _ _ _ _ _ rfl rfl
theorem Row.mxcfg (o : OpX) : Row.Statement (.mxcfg o) := Row.of_pack 0x300 _ _ _ _ _ rfl rfl
theorem Row.mxalloc (o : OpX) : Row.Statement (.mxalloc o) := Row.of_pack 0x301 _ _ _ _ _ rfl rfl
theorem Row.mxfree (o : OpX) : Row.Statement (.mxfree o) := Row.of_pack 0x302 _ _ _ _ _ rfl rfl
theorem Row.mxzero (o : OpX) : Row.Statement (.mxzero o) := Row.of_pack 0x303 _ _ _ _ _ rfl rfl
theorem Row.mxmm (o : OpX) : Row.Statement (.mxmm o) := Row.of_pack 0x304 _ _ _ _ _ rfl rfl
theorem Row.mxgmm (o : OpX) : Row.Statement (.mxgmm o) := Row.of_pack 0x305 _ _ _ _ _ rfl rfl
theorem Row.mxprom (o : OpX) : Row.Statement (.mxprom o) := Row.of_pack 0x306 _ _ _ _ _ rfl rfl
theorem Row.mxcpy (ofmt : Esz) (csv map : Bool) (o : OpX) : Row.Statement (.mxcpy ofmt csv map o) := Row.of_pack 0x307 _ _ _ _ _ rfl rfl
theorem Row.mxmap (o : OpX) : Row.Statement (.mxmap o) := Row.of_pack 0x308 _ _ _ _ _ rfl rfl
theorem Row.mxlda (o : OpX) : Row.Statement (.mxlda o) := Row.of_pack 0x309 _ _ _ _ _ rfl rfl
theorem Row.mxstat (o : OpX) : Row.Statement (.mxstat o) := Row.of_pack 0x30A _ _ _ _ _ rfl rfl
theorem Row.mxfence (o : OpX) : Row.Statement (.mxfence o) := Row.of_pack 0x30B _ _ _ _ _ rfl rfl
theorem Row.cpstart (o : OpS) : Row.Statement (.cpstart o) := Row.of_pack 0x340 _ _ _ _ _ rfl rfl
theorem Row.cpstat (o : OpS) : Row.Statement (.cpstat o) := Row.of_pack 0x341 _ _ _ _ _ rfl rfl
theorem Row.cpcan (o : OpS) : Row.Statement (.cpcan o) := Row.of_pack 0x342 _ _ _ _ _ rfl rfl
theorem Row.launch (o : OpS) : Row.Statement (.launch o) := Row.of_pack 0x380 _ _ _ _ _ rfl rfl
theorem Row.tnext (o : OpS) : Row.Statement (.tnext o) := Row.of_pack 0x381 _ _ _ _ _ rfl rfl
theorem Row.split (o : OpS) : Row.Statement (.split o) := Row.of_pack 0x382 _ _ _ _ _ rfl rfl
theorem Row.wstat (o : OpS) : Row.Statement (.wstat o) := Row.of_pack 0x383 _ _ _ _ _ rfl rfl
theorem Row.cancel (o : OpS) : Row.Statement (.cancel o) := Row.of_pack 0x384 _ _ _ _ _ rfl rfl
theorem Row.cntrd (o : OpS) : Row.Statement (.cntrd o) := Row.of_pack 0x385 _ _ _ _ _ rfl rfl
theorem Row.ahnd (o : OpS) : Row.Statement (.ahnd o) := Row.of_pack 0x386 _ _ _ _ _ rfl rfl
theorem Row.grpopGopen (o : OpS) : Row.Statement (.grpopGopen o) := Row.of_pack 0x387 _ _ _ _ _ rfl rfl
theorem Row.grpopGclose (o : OpS) : Row.Statement (.grpopGclose o) := Row.of_pack 0x387 _ _ _ _ _ rfl rfl
theorem Row.grpopPopen (o : OpS) : Row.Statement (.grpopPopen o) := Row.of_pack 0x387 _ _ _ _ _ rfl rfl
theorem Row.grpopPclose (o : OpS) : Row.Statement (.grpopPclose o) := Row.of_pack 0x387 _ _ _ _ _ rfl rfl
theorem Row.csrr (o : OpS) : Row.Statement (.csrr o) := Row.of_pack 0x3C0 _ _ _ _ _ rfl rfl
theorem Row.csrw (o : OpS) : Row.Statement (.csrw o) := Row.of_pack 0x3C1 _ _ _ _ _ rfl rfl
theorem Row.tlbinvRange (o : OpS) : Row.Statement (.tlbinvRange o) := Row.of_pack 0x3C2 _ _ _ _ _ rfl rfl
theorem Row.tlbinvSubpage (o : OpS) : Row.Statement (.tlbinvSubpage o) := Row.of_pack 0x3C2 _ _ _ _ _ rfl rfl
theorem Row.tlbinvJob (o : OpS) : Row.Statement (.tlbinvJob o) := Row.of_pack 0x3C2 _ _ _ _ _ rfl rfl
theorem Row.rdtime (o : OpS) : Row.Statement (.rdtime o) := Row.of_pack 0x3C3 _ _ _ _ _ rfl rfl
theorem Row.rdrand (o : OpS) : Row.Statement (.rdrand o) := Row.of_pack 0x3C4 _ _ _ _ _ rfl rfl
theorem Row.ebreak (o : OpS) : Row.Statement (.ebreak o) := Row.of_pack 0x3C5 _ _ _ _ _ rfl rfl
theorem Row.pmrd (o : OpS) : Row.Statement (.pmrd o) := Row.of_pack 0x3C6 _ _ _ _ _ rfl rfl
theorem Row.jmark (o : OpS) : Row.Statement (.jmark o) := Row.of_pack 0x3C7 _ _ _ _ _ rfl rfl
theorem Row.drain (ctx : Nat) : Row.Statement (.drain ctx) := fun _ h => nomatch h
theorem Row.perform (ctx load piece : Nat) : Row.Statement (.perform ctx load piece) := fun _ h => nomatch h
theorem Row.deliver (k : Nat) : Row.Statement (.deliver k) := fun _ h => nomatch h
theorem Row.loopBackDeliver (core : Nat) : Row.Statement (.loopBackDeliver core) := fun _ h => nomatch h
theorem Row.writeBack (clu line : Nat) : Row.Statement (.writeBack clu line) := fun _ h => nomatch h
theorem Row.drop (clu line : Nat) : Row.Statement (.drop clu line) := fun _ h => nomatch h
theorem Row.recallMerge (line : Nat) : Row.Statement (.recallMerge line) := fun _ h => nomatch h
theorem Row.fetch (ctx slot : Nat) : Row.Statement (.fetch ctx slot) := fun _ h => nomatch h
theorem Row.streamDeliver (ctx slot : Nat) : Row.Statement (.streamDeliver ctx slot) := fun _ h => nomatch h
theorem Row.combine (ctx slot : Nat) : Row.Statement (.combine ctx slot) := fun _ h => nomatch h
theorem Row.streamWrite (ctx slot : Nat) : Row.Statement (.streamWrite ctx slot) := fun _ h => nomatch h
theorem Row.float (ctx slot : Nat) : Row.Statement (.float ctx slot) := fun _ h => nomatch h
theorem Row.hop (ctx slot : Nat) : Row.Statement (.hop ctx slot) := fun _ h => nomatch h
theorem Row.streamRecall (ctx slot cause : Nat) : Row.Statement (.streamRecall ctx slot cause) := fun _ h => nomatch h
theorem Row.streamLeaveBank (ctx slot : Nat) : Row.Statement (.streamLeaveBank ctx slot) := fun _ h => nomatch h
theorem Row.ringTileReady (ctx slot : Nat) : Row.Statement (.ringTileReady ctx slot) := fun _ h => nomatch h
theorem Row.ringSlotReturn (ctx slot : Nat) : Row.Statement (.ringSlotReturn ctx slot) := fun _ h => nomatch h
theorem Row.mxCommandStart (clu job : Nat) : Row.Statement (.mxCommandStart clu job) := fun _ h => nomatch h
theorem Row.jobElement (clu job : Nat) : Row.Statement (.jobElement clu job) := fun _ h => nomatch h
theorem Row.complete (clu job : Nat) : Row.Statement (.complete clu job) := fun _ h => nomatch h
theorem Row.deferredFaultRaise (ctx : Nat) : Row.Statement (.deferredFaultRaise ctx) := fun _ h => nomatch h
theorem Row.nodeReady (job node : Nat) : Row.Statement (.nodeReady job node) := fun _ h => nomatch h
theorem Row.leaseAcquire (job node : Nat) : Row.Statement (.leaseAcquire job node) := fun _ h => nomatch h
theorem Row.arenaBirth (job node : Nat) : Row.Statement (.arenaBirth job node) := fun _ h => nomatch h
theorem Row.walkerCreate (job node : Nat) : Row.Statement (.walkerCreate job node) := fun _ h => nomatch h
theorem Row.handout (job node wid clu : Nat) : Row.Statement (.handout job node wid clu) := fun _ h => nomatch h
theorem Row.runStart (ctx source : Nat) : Row.Statement (.runStart ctx source) := fun _ h => nomatch h
theorem Row.bankClearComplete (core bank : Nat) : Row.Statement (.bankClearComplete core bank) := fun _ h => nomatch h
theorem Row.dequeRefill (core : Nat) : Row.Statement (.dequeRefill core) := fun _ h => nomatch h
theorem Row.cancelledHalt (ctx : Nat) : Row.Statement (.cancelledHalt ctx) := fun _ h => nomatch h
theorem Row.priorityAge (job node : Nat) : Row.Statement (.priorityAge job node) := fun _ h => nomatch h
theorem Row.retainExpire (core : Nat) : Row.Statement (.retainExpire core) := fun _ h => nomatch h
theorem Row.nodeComplete (job node : Nat) : Row.Statement (.nodeComplete job node) := fun _ h => nomatch h
theorem Row.arenaDeath (job node : Nat) : Row.Statement (.arenaDeath job node) := fun _ h => nomatch h
theorem Row.discardClusterStep (id clu : Nat) : Row.Statement (.discardClusterStep id clu) := fun _ h => nomatch h
theorem Row.discardHomeStep (id home : Nat) : Row.Statement (.discardHomeStep id home) := fun _ h => nomatch h
theorem Row.discardComplete (id : Nat) : Row.Statement (.discardComplete id) := fun _ h => nomatch h
theorem Row.arenaSweep (job : Nat) : Row.Statement (.arenaSweep job) := fun _ h => nomatch h
theorem Row.shootdownAck (core : Nat) : Row.Statement (.shootdownAck core) := fun _ h => nomatch h
theorem Row.pageMove (job page frame : Nat) : Row.Statement (.pageMove job page frame) := fun _ h => nomatch h
theorem Row.formatWindowWrite (win base len scb attr : Nat) : Row.Statement (.formatWindowWrite win base len scb attr) := fun _ h => nomatch h
theorem Row.jobConfigure (job : Nat) : Row.Statement (.jobConfigure job) := fun _ h => nomatch h
theorem Row.thermalHotSet (die : Nat) : Row.Statement (.thermalHotSet die) := fun _ h => nomatch h
theorem Row.thermalHotClear (die : Nat) : Row.Statement (.thermalHotClear die) := fun _ h => nomatch h
theorem Row.preemptStop (job : Nat) : Row.Statement (.preemptStop job) := fun _ h => nomatch h
theorem Row.preemptWithdraw (job : Nat) : Row.Statement (.preemptWithdraw job) := fun _ h => nomatch h
theorem Row.preemptDrain (job : Nat) : Row.Statement (.preemptDrain job) := fun _ h => nomatch h
theorem Row.preemptSave (job : Nat) : Row.Statement (.preemptSave job) := fun _ h => nomatch h
theorem Row.restore (job : Nat) : Row.Statement (.restore job) := fun _ h => nomatch h
theorem Row.flitReceive (port : Nat) (ok : Bool) : Row.Statement (.flitReceive port ok) := fun _ h => nomatch h
theorem Row.linkBringup (node caps : Nat) : Row.Statement (.linkBringup node caps) := fun _ h => nomatch h
theorem Row.inboundRequest (node kind addr len data : Nat) : Row.Statement (.inboundRequest node kind addr len data) := fun _ h => nomatch h
theorem Row.hostLaunch (job record : Nat) : Row.Statement (.hostLaunch job record) := fun _ h => nomatch h
theorem Row.hostCancel (job : Nat) (level : Level) (id : Nat) : Row.Statement (.hostCancel job level id) := fun _ h => nomatch h
theorem Row.hostCntrd (job : Nat) (level : Level) (id : Nat) : Row.Statement (.hostCntrd job level id) := fun _ h => nomatch h
theorem Row.attest (job nonce : Nat) : Row.Statement (.attest job nonce) := fun _ h => nomatch h
theorem Row.tokenRefill (job : Nat) : Row.Statement (.tokenRefill job) := fun _ h => nomatch h
theorem Row.firmwareLoad (version : Nat) (file : Bool) : Row.Statement (.firmwareLoad version file) := fun _ h => nomatch h
theorem Row.debugToken (level tenant : Nat) (file : Bool) : Row.Statement (.debugToken level tenant file) := fun _ h => nomatch h
theorem Row.debugTokenExpire : Row.Statement (.debugTokenExpire) := fun _ h => nomatch h
theorem Row.provisioningFuse : Row.Statement (.provisioningFuse) := fun _ h => nomatch h
theorem Row.coldReset : Row.Statement (.coldReset) := fun _ h => nomatch h
theorem Row.packageOff : Row.Statement (.packageOff) := fun _ h => nomatch h
theorem Row.securityAlarm (cause : Nat) : Row.Statement (.securityAlarm cause) := fun _ h => nomatch h
theorem Row.islandGate (island : Nat) : Row.Statement (.islandGate island) := fun _ h => nomatch h
theorem Row.islandWake (island : Nat) : Row.Statement (.islandWake island) := fun _ h => nomatch h
theorem Row.clockBoost (island : Nat) : Row.Statement (.clockBoost island) := fun _ h => nomatch h
theorem Row.dieRetention (die : Nat) : Row.Statement (.dieRetention die) := fun _ h => nomatch h
theorem Row.correctedError (die : Nat) : Row.Statement (.correctedError die) := fun _ h => nomatch h
theorem Row.uncorrectableError (ctx line : Nat) : Row.Statement (.uncorrectableError ctx line) := fun _ h => nomatch h
theorem Row.debugAccess (kind level ctx addr data : Nat) : Row.Statement (.debugAccess kind level ctx addr data) := fun _ h => nomatch h
theorem Row.hbmChannelAcknowledge (home : Nat) : Row.Statement (.hbmChannelAcknowledge home) := fun _ h => nomatch h
theorem Row.dieRetentionExit (die : Nat) : Row.Statement (.dieRetentionExit die) := fun _ h => nomatch h
theorem Row.healthTestFailure : Row.Statement (.healthTestFailure) := fun _ h => nomatch h

end Sys2Proof.Laws
end

