-- ==== Sys2Proof/Tests/Slice0.lean ====
section
/-!
SUPPORT. Tests: words written out from the encoding tables, an ill-formed term for every check of WellFormed, single
steps with results taken from the spec, and for every statement with hypotheses a state and operands that meet them.
-/
namespace Sys2Proof.Tests

set_option Elab.async false

open Sys2Proof Sys2Proof.Machine Sys2Proof.Claims

/-- A header whose guard is p7, true, and whose hints are zero (R225, R226). -/
def h0 : Hdr := ⟨false, 7, 0, false, 0⟩

/-- Every word decodes to its instruction, and the instruction is written as that word. -/
def agree (l : List (BitVec 96 × Instr)) : Bool :=
  l.all fun p => decode p.1 == some p.2 && encode p.2 == some p.1

/-! ## Words -/

/-- INT words, written out from Tables 11-1 to 11-9. -/
def wordsInt : List (BitVec 96 × Instr) :=
  [(0x001C00000000050000180007, .iadd ⟨h0, .s32, .x 5, .x 1, .imm 7⟩),
   (0x005C04000000050000280008, .isub ⟨h0, .s64, .x 5, .x 2, .imm 8⟩),
   (0x009C08000000050000380009, .imul ⟨h0, .z32, .x 5, .x 3, .imm 9⟩),
   (0x00DC0C00000005000048000A, .imulh ⟨h0, .z64, .x 5, .x 4, .imm 10⟩),
   (0x011C04000000090000340002, .imad ⟨h0, .s64, .x 9, .x 3, .q 2 false⟩),
   (0x015C00000400030000300004, .idiv ⟨h0, .s32, .q 3 false, .x 3, .x 4⟩),
   (0x019C08000000064001100004, .irem ⟨h0, .z32, .x 6, .q 1 true, .x 4⟩),
   (0x01DC00000000060000300000, .ineg ⟨h0, .s32, .x 6, .x 3, .x 0⟩),
   (0x021C04000000069FFFF00000, .iabs ⟨h0, .s64, .x 6, .imm 131071, .x 0⟩),
   (0x025C0C0000003F0000300004, .imin ⟨h0, .z64, .x 63, .x 3, .x 4⟩),
   (0x029C04000000010000290000, .imax ⟨h0, .s64, .x 1, .x 2, .imm 65536⟩),
   (0x02DC00880000000001980000, .icmp .lt 1 ⟨h0, .s32, .x 0, .x 25, .imm 0⟩),
   (0x031C04180000060000300004, .isel 3 ⟨h0, .s64, .x 6, .x 3, .x 4⟩),
   (0x035C04048000060000300004, .lea 9 ⟨h0, .s64, .x 6, .x 3, .x 4⟩),
   (0x039C00000000060000300000, .clz ⟨h0, .s32, .x 6, .x 3, .x 0⟩),
   (0x03DC04000000070000300000, .ctz ⟨h0, .s64, .x 7, .x 3, .x 0⟩),
   (0x041C00000000080000300000, .popc ⟨h0, .s32, .x 8, .x 3, .x 0⟩),
   (0x045C04000000090000300000, .brev ⟨h0, .s64, .x 9, .x 3, .x 0⟩)]
theorem test_decode_int : agree wordsInt = true := by decide +kernel

/-- LOGIC words, written out from Tables 11-1 to 11-9. -/
def wordsLogic : List (BitVec 96 × Instr) :=
  [(0x101C000000000A0000380000, .and ⟨h0, .s32, .x 10, .x 3, .imm 0⟩),
   (0x105C040000000B0000380001, .or ⟨h0, .s64, .x 11, .x 3, .imm 1⟩),
   (0x109C000000000C0000380002, .xor ⟨h0, .s32, .x 12, .x 3, .imm 2⟩),
   (0x10DC040000000D0000380003, .andn ⟨h0, .s64, .x 13, .x 3, .imm 3⟩),
   (0x111C000000000E0000380004, .orn ⟨h0, .s32, .x 14, .x 3, .imm 4⟩),
   (0x115C040000000F0000380005, .shl ⟨h0, .s64, .x 15, .x 3, .imm 5⟩),
   (0x119C00000000100000380006, .shr ⟨h0, .s32, .x 16, .x 3, .imm 6⟩),
   (0x11DC04000000110000380007, .sar ⟨h0, .s64, .x 17, .x 3, .imm 7⟩),
   (0x121C00000000120000380008, .rol ⟨h0, .s32, .x 18, .x 3, .imm 8⟩),
   (0x125C08000000060000300004, .bfx ⟨h0, .z32, .x 6, .x 3, .x 4⟩),
   (0x129C00000000060000300004, .bfi ⟨h0, .s32, .x 6, .x 3, .x 4⟩),
   (0x12DC04008000060000300000, .sext .w16 ⟨h0, .s64, .x 6, .x 3, .x 0⟩),
   (0x131C04010000060000300000, .zext .w32 ⟨h0, .s64, .x 6, .x 3, .x 0⟩),
   (0x135C04000000064000F00000, .mov ⟨h0, .s64, .x 6, .q 15 false, .x 0⟩),
   (0x139C012340000500000E5678, .movi ⟨h0, .s64, .x 5, .x 0, .long 0x12345678⟩),
   (0x13DC04000000060000380005, .movhi ⟨h0, .s64, .x 6, .x 3, .imm 5⟩),
   (0x141C04C00600016000260003, .plog .andn ⟨h0, .s64, .p 1, .p 2, .p 3⟩),
   (0x145C04000600020000300000, .pmov ⟨h0, .s64, .p 2, .x 3, .x 0⟩)]
theorem test_decode_logic : agree wordsLogic = true := by decide +kernel

/-- FP words, written out from Tables 11-1 to 11-9. -/
def wordsFp : List (BitVec 96 × Instr) :=
  [(0x201C08000000050000100002, .fadd ⟨h0, .fp16, .rne, 0, false, false, false, .x 5, .x 1, .x 2⟩),
   (0x205C09400000050000100002, .fsub ⟨h0, .bf16, .rtz, 0, false, false, false, .x 5, .x 1, .x 2⟩),
   (0x209C0A800000050000100002, .fmul ⟨h0, .fp32, .rup, 0, false, false, false, .x 5, .x 1, .x 2⟩),
   (0x20DC09C00000050000100002, .ffma ⟨h0, .bf16, .rdn, 0, false, false, false, .x 5, .x 1, .x 2⟩),
   (0x211C0A000000050000100002, .fdiv ⟨h0, .fp32, .rne, 0, false, false, false, .x 5, .x 1, .x 2⟩),
   (0x215C0A000000050000100000, .fsqrt ⟨h0, .fp32, .rne, 0, false, false, false, .x 5, .x 1, .x 0⟩),
   (0x219C08000000050000100002, .fmin ⟨h0, .fp16, .rne, 0, false, false, false, .x 5, .x 1, .x 2⟩),
   (0x21DC0A000000050000140002, .fmax ⟨h0, .fp32, .rne, 0, false, false, false, .x 5, .x 1, .q 2 false⟩),
   (0x221C0A130000050000100002, .fcmp .un ⟨h0, .fp32, .rne, 2, false, false, false, .x 5, .x 1, .x 2⟩),
   (0x225C02450000050000100000, .fcvt .fp32 ⟨h0, .s32, .rtz, 0, false, false, false, .x 5, .x 1, .x 0⟩),
   (0x229C09000000050000100000, .fclass ⟨h0, .bf16, .rne, 0, false, false, false, .x 5, .x 1, .x 0⟩)]
theorem test_decode_fp : agree wordsFp = true := by decide +kernel

/-- CTRL words, written out from Tables 11-1 to 11-9. -/
def wordsCtrl : List (BitVec 96 × Instr) :=
  [(0x301C00000000000000000000, .nop ⟨h0, .core, .x 0, .x 0, .x 0⟩),
   (0x305C0000000000000009FFFC, .br ⟨h0, .core, .x 0, .x 0, .imm 131068⟩),
   (0x309C00000000000000080009, .call ⟨h0, .core, .x 0, .x 0, .imm 9⟩),
   (0x30DC00000000000000700000, .calli ⟨h0, .core, .x 0, .x 7, .x 0⟩),
   (0x311C00000000000000000000, .ret ⟨h0, .core, .x 0, .x 0, .x 0⟩),
   (0x315C00000000004000300000, .jmpi ⟨h0, .core, .x 0, .q 3 false, .x 0⟩),
   (0x319C0000000004000009FFFA, .loop ⟨h0, .core, .x 4, .x 0, .imm 131066⟩),
   (0x31DC0000060001600028000C, .fork ⟨h0, .core, .p 1, .p 2, .imm 12⟩),
   (0x321C00000600010000200003, .spawn ⟨h0, .core, .p 1, .x 2, .x 3⟩),
   (0x325C00000600010000280003, .rspawn ⟨h0, .core, .p 1, .x 2, .imm 3⟩),
   (0x329C00000000000000500000, .join ⟨h0, .core, .x 0, .x 5, .x 0⟩),
   (0x32DC00000000000000000000, .yield ⟨h0, .core, .x 0, .x 0, .x 0⟩),
   (0x331C00000000000000000000, .halt ⟨h0, .core, .x 0, .x 0, .x 0⟩),
   (0x331C00001000000000500000, .haltRetain ⟨h0, .core, .x 0, .x 5, .x 0⟩),
   (0x335C0000000000000008004D, .trap ⟨h0, .core, .x 0, .x 0, .imm 77⟩),
   (0x339C00000000000000000000, .rte ⟨h0, .core, .x 0, .x 0, .x 0⟩)]
theorem test_decode_ctrl : agree wordsCtrl = true := by decide +kernel

/-- MEM words, written out from Tables 11-1 to 11-9. -/
def wordsMem : List (BitVec 96 × Instr) :=
  [(0x401C04B20000040000280010, .ld ⟨h0, .acq, .clu, 3, .s32, .imm, .x 4, .x 2, .imm 16⟩),
   (0x405C09FB1200040000200003, .st ⟨h0, .rel, .pkg, 7, .v64, .scaled, .v 4, .x 2, .x 3⟩),
   (0x409C00360000040000280008, .ldl ⟨h0, .rlx, .core, 3, .z32, .imm, .x 4, .x 2, .imm 8⟩),
   (0x40DC00331400040000200003, .stl ⟨h0, .rlx, .core, 3, .s64, .scaled, .q 4 false, .x 2, .x 3⟩),
   (0x411C003C0000040000280000, .prf ⟨h0, .rlx, .core, 3, .l128, .imm, .x 4, .x 2, .imm 0⟩),
   (0x415C000C0000040000280080, .wbk ⟨h0, .rlx, .core, 0, .l128, .imm, .x 4, .x 2, .imm 128⟩),
   (0x419C000C0000040000280100, .dis ⟨h0, .rlx, .core, 0, .l128, .imm, .x 4, .x 2, .imm 256⟩),
   (0x41DC000C0000040000280180, .inv ⟨h0, .rlx, .core, 0, .l128, .imm, .x 4, .x 2, .imm 384⟩),
   (0x421C000C0000040000280200, .plf ⟨h0, .rlx, .core, 0, .l128, .imm, .x 4, .x 2, .imm 512⟩),
   (0x425C00000000000000000000, .rgsync h0)]
theorem test_decode_mem : agree wordsMem = true := by decide +kernel

/-- ATOM words, written out from Tables 11-1 to 11-9. -/
def wordsAtom : List (BitVec 96 × Instr) :=
  [(0x501C00B21000050000200004, .amo .add ⟨h0, .rlx, .clu, 3, .s32, .x 5, .x 2, .x 4⟩),
   (0x505C0E370000050000200004, .cas ⟨h0, .sc, .sys, 3, .z64, .x 5, .x 2, .x 4⟩),
   (0x509C002A7000000000200004, .red .fadd ⟨h0, .rlx, .core, 2, .fp32, .x 0, .x 2, .x 4⟩),
   (0x50DC09B30600010000200004, .fput ⟨h0, .rel, .pkg, 3, .s64, .p 1, .x 2, .x 4⟩),
   (0x511C05B70000050000200000, .fget ⟨h0, .acq, .pkg, 3, .z64, .x 5, .x 2, .x 0⟩),
   (0x515C00335000050000200000, .fpeek 5 ⟨h0, .rlx, .core, 3, .s64, .x 5, .x 2, .x 0⟩)]
theorem test_decode_atom : agree wordsAtom = true := by decide +kernel

/-- SYNC words, written out from Tables 11-1 to 11-9. -/
def wordsSync : List (BitVec 96 × Instr) :=
  [(0x601C01800000000000200000, .acq ⟨h0, .pkg, .x 0, .x 2, .x 0⟩),
   (0x605C01000000000000200000, .rel ⟨h0, .die, .x 0, .x 2, .x 0⟩),
   (0x609C02000000000000000000, .fence ⟨h0, .sys, .x 0, .x 0, .x 0⟩),
   (0x60DC0000060001A401F80004, .binit ⟨h0, .core, .p 1, .bar 31, .imm 4⟩),
   (0x611C0000000000A40039FFFF, .bexp ⟨h0, .core, .x 0, .bar 3, .imm 131071⟩),
   (0x615C0080000000A400300000, .barv ⟨h0, .clu, .x 0, .bar 3, .x 0⟩),
   (0x619C0080000000A400300004, .bwait ⟨h0, .clu, .x 0, .bar 3, .x 4⟩),
   (0x61DC0000000004A400300000, .btest ⟨h0, .core, .x 4, .bar 3, .x 0⟩),
   (0x621C01800000000000280003, .brarv ⟨h0, .pkg, .x 0, .x 2, .imm 3⟩),
   (0x625C0000000000A400300000, .bbindCopy ⟨h0, .core, .x 0, .bar 3, .x 0⟩),
   (0x625C0000100000A400300000, .bbindMxrow ⟨h0, .core, .x 0, .bar 3, .x 0⟩),
   (0x625C0000200000A4003A0002, .bbindSink ⟨h0, .core, .x 0, .bar 3, .slot 2⟩),
   (0x625C0000300007A4003A8002, .bbindCnt ⟨h0, .core, .x 7, .bar 3, .level .phase⟩)]
theorem test_decode_sync : agree wordsSync = true := by decide +kernel

/-- STRM words, written out from Tables 11-1 to 11-9. -/
def wordsStrm : List (BitVec 96 × Instr) :=
  [(0x701C00000A00010000200000, .sopen ⟨h0, .core, .slot 1, .x 2, .x 0⟩),
   (0x705C0000000000A000F00000, .sclose ⟨h0, .core, .x 0, .slot 15, .x 0⟩),
   (0x709C0000000000A000100000, .srclImm ⟨h0, .core, .x 0, .slot 1, .x 0⟩),
   (0x709C0000100000A000180007, .srclAt ⟨h0, .core, .x 0, .slot 1, .imm 7⟩),
   (0x70DC0000000000A000100000, .sfltAuto ⟨h0, .core, .x 0, .slot 1, .x 0⟩),
   (0x70DC0000100000A000100000, .sfltNever ⟨h0, .core, .x 0, .slot 1, .x 0⟩),
   (0x70DC0000200000A000100000, .sfltNear ⟨h0, .core, .x 0, .slot 1, .x 0⟩),
   (0x711C0000000004A000100000, .ssnk ⟨h0, .core, .x 4, .slot 1, .x 0⟩),
   (0x715C0000000004A000100000, .sstat ⟨h0, .core, .x 4, .slot 1, .x 0⟩),
   (0x719C00000200040000000000, .sevt ⟨h0, .core, .v 4, .x 0, .x 0⟩),
   (0x71DC00000400042000100000, .qput ⟨h0, .core, .q 4 false, .v 1, .x 0⟩),
   (0x721C00000000044000100000, .qget ⟨h0, .core, .x 4, .q 1 false, .x 0⟩),
   (0x725C00000200044000100000, .qpeek ⟨h0, .core, .v 4, .q 1 false, .x 0⟩),
   (0x729C00000000044000100000, .qcnt ⟨h0, .core, .x 4, .q 1 false, .x 0⟩),
   (0x72DC00000400010000200000, .qbind ⟨h0, .core, .q 1 false, .x 2, .x 0⟩)]
theorem test_decode_strm : agree wordsStrm = true := by decide +kernel

/-- VEC words, written out from Tables 11-1 to 11-9. -/
def wordsVec : List (BitVec 96 × Instr) :=
  [(0x801C01184200012000220003, .vadd ⟨h0, .s16, .rne, 3, true, false, false, .v 1, .v 2, .v 3⟩),
   (0x805C0AB81200012000220003, .vsub ⟨h0, .fp32, .rup, 7, false, false, true, .v 1, .v 2, .v 3⟩),
   (0x809C04382200012000200003, .vmul ⟨h0, .z8, .rne, 7, false, true, false, .v 1, .v 2, .x 3⟩),
   (0x80DC08380200012000220003, .vfma ⟨h0, .fp16, .rne, 7, false, false, false, .v 1, .v 2, .v 3⟩),
   (0x811C03380200012000220003, .vmin ⟨h0, .s64, .rne, 7, false, false, false, .v 1, .v 2, .v 3⟩),
   (0x815C09380200012000220003, .vmax ⟨h0, .bf16, .rne, 7, false, false, false, .v 1, .v 2, .v 3⟩),
   (0x819C00380200012000200000, .vabs ⟨h0, .s8, .rne, 7, false, false, false, .v 1, .v 2, .x 0⟩),
   (0x81DC0A380200012000200000, .vneg ⟨h0, .fp32, .rne, 7, false, false, false, .v 1, .v 2, .x 0⟩),
   (0x821C04380200012000220003, .vand ⟨h0, .z8, .rne, 7, false, false, false, .v 1, .v 2, .v 3⟩),
   (0x825C05380200012000220003, .vor ⟨h0, .z16, .rne, 7, false, false, false, .v 1, .v 2, .v 3⟩),
   (0x829C06380200012000220003, .vxor ⟨h0, .z32, .rne, 7, false, false, false, .v 1, .v 2, .v 3⟩),
   (0x82DC07380200012000220003, .vshl ⟨h0, .z64, .rne, 7, false, false, false, .v 1, .v 2, .v 3⟩),
   (0x831C04380200012000220003, .vshr ⟨h0, .z8, .rne, 7, false, false, false, .v 1, .v 2, .v 3⟩),
   (0x835C02380200012000220003, .vsar ⟨h0, .s32, .rne, 7, false, false, false, .v 1, .v 2, .v 3⟩),
   (0x839C0A138600012000220003, .vcmp .ord ⟨h0, .fp32, .rne, 2, false, false, false, .p 1, .v 2, .v 3⟩),
   (0x83DC06080200012000220003, .vsel ⟨h0, .z32, .rne, 1, false, false, false, .v 1, .v 2, .v 3⟩),
   (0x841C083D0200012000280001, .vcvt .fp32 ⟨h0, .fp16, .rne, 7, false, false, false, .v 1, .v 2, .imm 1⟩),
   (0x845C0A3E8200012000220003, .vqnt ⟨true, 5⟩ ⟨h0, .fp32, .rne, 7, false, false, false, .v 1, .v 2, .v 3⟩),
   (0x849C0A398200012000280001, .vdqnt ⟨false, 3⟩ ⟨h0, .fp32, .rne, 7, false, false, false, .v 1, .v 2, .imm 1⟩),
   (0x84DC003B8200012000200000, .vplane 7 ⟨h0, .s8, .rne, 7, false, false, false, .v 1, .v 2, .x 0⟩),
   (0x851C00390200012000200000, .vunpl 2 ⟨h0, .s8, .rne, 7, false, false, false, .v 1, .v 2, .x 0⟩),
   (0x855C08380200012000200000, .vexp2 ⟨h0, .fp16, .rne, 7, false, false, false, .v 1, .v 2, .x 0⟩),
   (0x859C09380200012000200000, .vlog2 ⟨h0, .bf16, .rne, 7, false, false, false, .v 1, .v 2, .x 0⟩),
   (0x85DC0A380200012000200000, .vrcp ⟨h0, .fp32, .rne, 7, false, false, false, .v 1, .v 2, .x 0⟩),
   (0x861C08380200012000200000, .vrsq ⟨h0, .fp16, .rne, 7, false, false, false, .v 1, .v 2, .x 0⟩),
   (0x865C09380200012000200000, .vsin ⟨h0, .bf16, .rne, 7, false, false, false, .v 1, .v 2, .x 0⟩),
   (0x869C0A380200012000200000, .vcos ⟨h0, .fp32, .rne, 7, false, false, false, .v 1, .v 2, .x 0⟩),
   (0x86DC08380200012000200000, .vtanh ⟨h0, .fp16, .rne, 7, false, false, false, .v 1, .v 2, .x 0⟩)]
theorem test_decode_vec : agree wordsVec = true := by decide +kernel

/-- VDATA words, written out from Tables 11-1 to 11-9. -/
def wordsVdata : List (BitVec 96 × Instr) :=
  [(0x901C00320200040000280040, .vld ⟨h0, .rlx, .core, 3, .s32, .imm, .v 4, .x 2, .imm 64⟩),
   (0x905C003B3200040000280040, .vst ⟨h0, .rlx, .core, 3, .v64, .priv, .v 4, .x 2, .imm 64⟩),
   (0x909C05B21200040000220003, .vgth ⟨h0, .acq, .pkg, 3, .s32, .scaled, .v 4, .x 2, .v 3⟩),
   (0x90DC00072200040000220003, .vsct ⟨h0, .rlx, .core, 0, .z64, .index, .v 4, .x 2, .v 3⟩),
   (0x911C063A8000012000200000, .vred .xor ⟨h0, .z32, .rne, 7, false, false, false, .x 1, .v 2, .x 0⟩),
   (0x915C0A388200012000200000, .vscan .max ⟨h0, .fp32, .rne, 7, false, false, false, .v 1, .v 2, .x 0⟩),
   (0x919C04380200012000220003, .vperm ⟨h0, .z8, .rne, 7, false, false, false, .v 1, .v 2, .v 3⟩),
   (0x91DC06380200012000280003, .vbcast ⟨h0, .z32, .rne, 7, false, false, false, .v 1, .v 2, .imm 3⟩),
   (0x921C07380000012000280003, .vext ⟨h0, .z64, .rne, 7, false, false, false, .x 1, .v 2, .imm 3⟩),
   (0x925C07380200010000280003, .vins ⟨h0, .z64, .rne, 7, false, false, false, .v 1, .x 2, .imm 3⟩),
   (0x929C06200200012000200000, .vcprs ⟨h0, .z32, .rne, 4, false, false, false, .v 1, .v 2, .x 0⟩)]
theorem test_decode_vdata : agree wordsVdata = true := by decide +kernel

/-- SHAPE words, written out from Tables 11-1 to 11-9. -/
def wordsShape : List (BitVec 96 × Instr) :=
  [(0xA01C00000A20010000200000, .shdef ⟨h0, .s8, .rne, 0, false, false, false, .shape 1, .x 2, .x 0⟩),
   (0xA05C0A3A8A2001A2002A2003, .shmap .fma ⟨h0, .fp32, .rne, 7, false, false, false, .shape 1, .shape 2, .shape 3⟩),
   (0xA09C02384A2001A200200000, .shred .sum ⟨h0, .s32, .rne, 7, true, false, false, .shape 1, .shape 2, .x 0⟩),
   (0xA0DC0A3E0A2001A200200000, .shqnt ⟨true, 4⟩ ⟨h0, .fp32, .rne, 7, false, false, false, .shape 1, .shape 2, .x 0⟩),
   (0xA11C07380A2001A200200000, .shcpy ⟨h0, .z64, .rne, 7, false, false, false, .shape 1, .shape 2, .x 0⟩),
   (0xA15C0000000004A200100000, .shstat ⟨h0, .s8, .rne, 0, false, false, false, .x 4, .shape 1, .x 0⟩)]
theorem test_decode_shape : agree wordsShape = true := by decide +kernel

/-- WIN words, written out from Tables 11-1 to 11-9. -/
def wordsWin : List (BitVec 96 × Instr) :=
  [(0xB01C00000000010000000000, .wclr ⟨h0, .s8, .rne, 0, false, false, false, .x 1, .x 0, .x 0⟩),
   (0xB05C0A000000010000200003, .wadd ⟨h0, .fp32, .rne, 0, false, false, false, .x 1, .x 2, .x 3⟩),
   (0xB09C0A000000010000280003, .wsub ⟨h0, .fp32, .rne, 0, false, false, false, .x 1, .x 2, .imm 3⟩),
   (0xB0DC00400000010000200000, .wrnd ⟨h0, .s8, .rtz, 0, false, false, false, .x 1, .x 2, .x 0⟩),
   (0xB11C0A080000012000220003, .waddv ⟨h0, .fp32, .rne, 1, false, false, false, .x 1, .v 2, .v 3⟩),
   (0xB15C00000000010000200000, .wstatWin ⟨h0, .s8, .rne, 0, false, false, false, .x 1, .x 2, .x 0⟩)]
theorem test_decode_win : agree wordsWin = true := by decide +kernel

/-- MX words, written out from Tables 11-1 to 11-9. -/
def wordsMx : List (BitVec 96 × Instr) :=
  [(0xC01C00000000000000200000, .mxcfg ⟨h0, .x 0, .x 2, .x 0⟩),
   (0xC05C0000060001A601F00000, .mxalloc ⟨h0, .p 1, .tile 31, .x 0⟩),
   (0xC09C0000000000A600200000, .mxfree ⟨h0, .x 0, .tile 2, .x 0⟩),
   (0xC0DC00000A60020000000000, .mxzero ⟨h0, .tile 2, .x 0, .x 0⟩),
   (0xC11C00000A60030000400005, .mxmm ⟨h0, .tile 3, .x 4, .x 5⟩),
   (0xC15C00000000030000400005, .mxgmm ⟨h0, .x 3, .x 4, .x 5⟩),
   (0xC19C00000A60020000000000, .mxprom ⟨h0, .tile 2, .x 0, .x 0⟩),
   (0xC1DC0009300006A600300007, .mxcpy .bf16 true true ⟨h0, .x 6, .tile 3, .x 7⟩),
   (0xC21C00000000000000200000, .mxmap ⟨h0, .x 0, .x 2, .x 0⟩),
   (0xC25C00000A60020000380100, .mxlda ⟨h0, .tile 2, .x 3, .imm 256⟩),
   (0xC29C0000000004A600200000, .mxstat ⟨h0, .x 4, .tile 2, .x 0⟩),
   (0xC2DC00000000000000000000, .mxfence ⟨h0, .x 0, .x 0, .x 0⟩)]
theorem test_decode_mx : agree wordsMx = true := by decide +kernel

/-- TASK words, written out from Tables 11-1 to 11-9. -/
def wordsTask : List (BitVec 96 × Instr) :=
  [(0xD01C00000000040000200000, .cpstart ⟨h0, .core, .x 4, .x 2, .x 0⟩),
   (0xD05C00000000040000200000, .cpstat ⟨h0, .core, .x 4, .x 2, .x 0⟩),
   (0xD09C00000000000000200000, .cpcan ⟨h0, .core, .x 0, .x 2, .x 0⟩),
   (0xE01C00000600010000900005, .launch ⟨h0, .core, .p 1, .x 9, .x 5⟩),
   (0xE05C00000600010000000000, .tnext ⟨h0, .core, .p 1, .x 0, .x 0⟩),
   (0xE09C00000600010000280000, .split ⟨h0, .core, .p 1, .x 2, .imm 0⟩),
   (0xE0DC00000200010000200003, .wstat ⟨h0, .core, .v 1, .x 2, .x 3⟩),
   (0xE11C0000000000A800000005, .cancel ⟨h0, .core, .x 0, .level .node, .x 5⟩),
   (0xE15C0000000004A800300005, .cntrd ⟨h0, .core, .x 4, .level .job, .x 5⟩),
   (0xE19C00000000048000300000, .ahnd ⟨h0, .core, .x 4, .imm 3, .x 0⟩),
   (0xE1DC00000000050000900000, .grpopGopen ⟨h0, .core, .x 5, .x 9, .x 0⟩),
   (0xE1DC00001000000000900000, .grpopGclose ⟨h0, .core, .x 0, .x 9, .x 0⟩),
   (0xE1DC00002000050000000000, .grpopPopen ⟨h0, .core, .x 5, .x 0, .x 0⟩),
   (0xE1DC00003000000000900000, .grpopPclose ⟨h0, .core, .x 0, .x 9, .x 0⟩)]
theorem test_decode_task : agree wordsTask = true := by decide +kernel

/-- SYS words, written out from Tables 11-1 to 11-9. -/
def wordsSys : List (BitVec 96 × Instr) :=
  [(0xF01C0000000005C000100000, .csrr ⟨h0, .core, .x 5, .sreg 1, .x 0⟩),
   (0xF05C00000C00200000500000, .csrw ⟨h0, .core, .sreg 32, .x 5, .x 0⟩),
   (0xF09C00000000000000200003, .tlbinvRange ⟨h0, .core, .x 0, .x 2, .x 3⟩),
   (0xF09C00001000000000200000, .tlbinvSubpage ⟨h0, .core, .x 0, .x 2, .x 0⟩),
   (0xF09C00002000000000000000, .tlbinvJob ⟨h0, .core, .x 0, .x 0, .x 0⟩),
   (0xF0DC00000000050000000000, .rdtime ⟨h0, .core, .x 5, .x 0, .x 0⟩),
   (0xF11C00000000050000000000, .rdrand ⟨h0, .core, .x 5, .x 0, .x 0⟩),
   (0xF15C00000000000000000000, .ebreak ⟨h0, .core, .x 0, .x 0, .x 0⟩),
   (0xF19C00000000058000F00000, .pmrd ⟨h0, .core, .x 5, .imm 15, .x 0⟩),
   (0xF1DC012340000000000E5678, .jmark ⟨h0, .core, .x 0, .x 0, .long 0x12345678⟩)]
theorem test_decode_sys : agree wordsSys = true := by decide +kernel


/-! ## Ill-formed terms: one for every check (R227 to R240, R320) -/

/-- None of these is an instruction. -/
def refused (l : List Instr) : Bool := l.all fun i => !i.wf

def i0 : OpI := ⟨h0, .s64, .x 5, .x 1, .x 2⟩
def f0 : OpV := ⟨h0, .fp32, .rne, 0, false, false, false, .x 5, .x 1, .x 2⟩
def v0 : OpV := ⟨h0, .z32, .rne, 7, false, false, false, .v 1, .v 2, .v 3⟩
def vf : OpV := ⟨h0, .fp32, .rne, 7, false, false, false, .v 1, .v 2, .v 3⟩
def m0 : OpM := ⟨h0, .rlx, .core, 0, .s32, .imm, .x 4, .x 2, .imm 16⟩
def l0 : OpM := ⟨h0, .rlx, .core, 0, .l128, .imm, .x 4, .x 2, .imm 16⟩
def a0 : OpA := ⟨h0, .rlx, .core, 0, .s64, .x 5, .x 2, .x 4⟩
def s0 : OpS := ⟨h0, .core, .x 0, .x 0, .x 0⟩

/-- Operand kinds, types and unused fields of INT and LOGIC: a destination that peeks, a predicate source, a long
immediate outside S64, a type the row does not admit, a used field that must be zero, a floating condition. -/
def badInt : List Instr :=
  [.iadd { i0 with d := .q 1 true }, .iadd { i0 with a := .p 1 }, .iadd { i0 with b := .v 1 },
   .iadd { i0 with ty := .s32, b := .long 1 }, .imulh { i0 with b := .long 1 }, .imad { i0 with d := .q 1 false },
   .ineg { i0 with b := .x 0, ty := .z64 }, .ineg i0, .icmp .un 1 i0, .lea 1 { i0 with ty := .s32 },
   .clz { i0 with b := .imm 0 }, .and { i0 with ty := .z32 }, .bfi { i0 with ty := .z64 },
   .sext .w8 { i0 with b := .x 0, ty := .s32 }, .mov i0, .movi { i0 with b := .imm 1 }, .movi { i0 with a := .x 0 },
   .movhi { i0 with a := .imm 1, b := .imm 1 }, .plog .and i0, .plog .not ⟨h0, .s64, .p 1, .p 2, .p 3⟩,
   .plog .or ⟨h0, .s64, .p 1, .p 2, .x 3⟩, .pmov { i0 with b := .x 0 }, .pmov ⟨h0, .s32, .p 1, .x 3, .x 0⟩]
theorem test_wf_int : refused badInt = true := by decide +kernel

/-- FP: a lane predicate or flag on a scalar instruction, an integer type, a rounding mode where nothing is rounded,
a conversion of a type to itself, FDIV away from FP32. -/
def badFp : List Instr :=
  [.fadd { f0 with et := .s32 }, .fadd { f0 with lp := 1 }, .fadd { f0 with sat := true }, .fadd { f0 with bc := true },
   .fadd { f0 with z := true }, .fadd { f0 with d := .v 1 }, .fadd { f0 with b := .long 1 },
   .ffma { f0 with d := .q 1 false }, .fdiv { f0 with et := .fp16 }, .fsqrt f0, .fmin { f0 with rm := .rup },
   .fcmp .eq { f0 with rm := .rdn }, .fcmp .eq { f0 with sat := true }, .fcvt .fp32 { f0 with b := .x 0 },
   .fcvt .s32 { f0 with b := .x 0, et := .s64 }, .fclass { f0 with b := .x 0, rm := .rtz }]
theorem test_wf_fp : refused badFp = true := by decide +kernel

/-- CTRL and MEM: a scope on a control instruction, unused fields, a TRAP code above 65535, data of the wrong kind,
a mode whose fields do not suit, a line operation with ORD, SCOPE, EVP or another size. -/
def badMem : List Instr :=
  [.nop { s0 with d := .x 1 }, .nop { s0 with scope := .die }, .br { s0 with b := .x 1 }, .calli { s0 with a := .imm 1 },
   .loop { s0 with d := .p 1, b := .imm 1 }, .fork { s0 with d := .p 1, a := .x 1, b := .imm 1 },
   .spawn { s0 with d := .x 1, a := .x 2 }, .rspawn { s0 with d := .p 1, a := .x 63 }, .join { s0 with a := .q 1 false },
   .trap { s0 with b := .imm 65536 }, .ld { m0 with d := .v 4 }, .ld { m0 with esz := .v64 }, .ld { m0 with d := .imm 4 },
   .ld { m0 with esz := .l128 }, .ld { m0 with am := .scaled }, .ld { m0 with am := .pcrel }, .ld { m0 with a := .imm 1 },
   .ld { m0 with d := .q 1 true }, .st { m0 with d := .p 1 }, .st { m0 with esz := .v64, d := .imm 1 },
   .ldl { m0 with am := .priv }, .stl { m0 with am := .index, b := .x 3 }, .prf { l0 with esz := .s64 },
   .prf { l0 with ord := .acq }, .prf { l0 with scope := .sys }, .prf { l0 with d := .v 1 }, .prf { l0 with am := .priv },
   .wbk { l0 with evp := 3 }, .dis { l0 with evp := 1 }, .inv { l0 with evp := 1 }, .plf { l0 with evp := 7 }]
theorem test_wf_mem : refused badMem = true := by decide +kernel

/-- ATOM, SYNC and STRM: an 8-byte operation of another width, FADD away from FP32, a RED that swaps, acquires or
returns a value, operands of the wrong kind. -/
def badAtom : List Instr :=
  [.amo .add { a0 with esz := .s16 }, .amo .fadd a0, .amo .add { a0 with d := .q 1 true }, .amo .add { a0 with a := .imm 1 },
   .cas { a0 with d := .q 1 false }, .cas { a0 with esz := .fp32 }, .red .add a0, .red .swap { a0 with d := .x 0 },
   .red .add { a0 with d := .x 0, ord := .acq }, .red .fadd { a0 with d := .x 0 }, .fput a0,
   .fput { a0 with d := .p 1, esz := .s32 }, .fget a0, .fpeek 0 { a0 with b := .x 0, esz := .z32 },
   .acq { s0 with a := .imm 1 }, .rel { s0 with a := .x 2, b := .imm 1 }, .fence { s0 with a := .x 1 },
   .binit { s0 with d := .p 1, a := .x 1 }, .binit { s0 with a := .bar 1 }, .bexp { s0 with a := .bar 1, b := .q 1 false },
   .barv { s0 with a := .slot 1 }, .bwait { s0 with a := .bar 1, b := .q 1 false }, .btest { s0 with d := .p 1, a := .bar 1 },
   .brarv { s0 with a := .bar 1 }, .bbindCopy { s0 with a := .bar 1, b := .x 1 }, .bbindMxrow { s0 with scope := .clu, a := .bar 1 },
   .bbindSink { s0 with a := .bar 1, b := .x 1 }, .bbindCnt { s0 with a := .bar 1 }, .sopen { s0 with a := .x 2 },
   .sclose { s0 with a := .x 1 }, .srclAt { s0 with a := .slot 1, b := .q 1 false }, .ssnk { s0 with d := .v 1, a := .slot 1 },
   .sevt { s0 with d := .x 1 }, .qput { s0 with d := .q 1 true, a := .x 1 }, .qget { s0 with d := .x 1, a := .x 1 },
   .qpeek { s0 with a := .q 1 true }, .qcnt { s0 with d := .v 1, a := .q 1 false }, .qbind { s0 with d := .q 1 false, a := .imm 1 }]
theorem test_wf_atom : refused badAtom = true := by decide +kernel

/-- VEC and VDATA: a flag the row does not admit, a rounding mode on integers, types, a scalar second source without
BC, layouts of the block formats, and the register kinds of moves. -/
def badVec : List Instr :=
  [.vadd { vf with sat := true }, .vadd { v0 with rm := .rup }, .vadd { v0 with et := .v64 }, .vadd { v0 with b := .x 3 },
   .vadd { v0 with d := .x 1 }, .vadd { v0 with a := .x 1 }, .vmin { vf with rm := .rtz }, .vfma { vf with d := .q 1 false },
   .vfma v0, .vabs { v0 with b := .x 0 }, .vabs { vf with b := .x 0, bc := true }, .vneg vf,
   .vand vf, .vsar v0, .vcmp .un { v0 with d := .p 1 }, .vcmp .eq v0, .vcmp .eq { v0 with d := .p 1, sat := true },
   .vsel { v0 with z := true }, .vsel vf, .vcvt .fp32 { vf with b := .imm 0 }, .vcvt .s32 { v0 with b := .x 0, rm := .rup },
   .vcvt .fp32 { v0 with b := .x 1 }, .vqnt ⟨true, 3⟩ { vf with lp := 1 }, .vqnt ⟨true, 3⟩ v0, .vdqnt ⟨true, 3⟩ vf,
   .vplane 1 { v0 with b := .x 0 }, .vunpl 1 { v0 with et := .s8, lp := 1, b := .x 0 }, .vexp2 { v0 with b := .x 0 },
   .vtanh { vf with b := .x 0, rm := .rup }, .vld { m0 with d := .x 1 }, .vld { m0 with d := .v 1, esz := .l128 },
   .vst { m0 with d := .imm 1 }, .vgth { m0 with d := .v 1, esz := .s8, am := .scaled, b := .v 2 },
   .vgth { m0 with d := .v 1, b := .v 2 }, .vsct { m0 with d := .v 1, am := .index, b := .x 2 },
   .vred .and { vf with d := .x 1, b := .x 0 }, .vred .max { v0 with d := .x 1, b := .x 0, sat := true },
   .vred .max { vf with d := .x 1, b := .x 0, rm := .rup }, .vscan .xor { v0 with b := .x 0 },
   .vscan .sum { v0 with b := .x 0, sat := true }, .vperm vf, .vbcast { v0 with b := .x 0 },
   .vbcast { v0 with a := .x 1, b := .imm 1 }, .vext { v0 with b := .imm 1 }, .vext { v0 with d := .x 1, b := .imm 1, lp := 1 },
   .vins { v0 with b := .imm 1 }, .vcprs { v0 with b := .x 0, z := true }]
theorem test_wf_vec : refused badVec = true := by decide +kernel

def sh0 : OpV := ⟨h0, .fp32, .rne, 7, false, false, false, .shape 1, .shape 2, .shape 3⟩
def x0 : OpX := ⟨h0, .x 0, .x 0, .x 0⟩

/-- SHAPE, WIN, MX, TASK and SYS: lane predicates, flags and types, handles of the wrong kind, an unassigned special
register, a counter number above 15. -/
def badRest : List Instr :=
  [.shdef { sh0 with a := .x 1, b := .x 0 }, .shmap .add { sh0 with lp := 0 }, .shmap .abs sh0,
   .shmap .fma { sh0 with et := .s32 }, .shmap .add { sh0 with sat := true }, .shmap .dqnt { sh0 with et := .fp16, b := .x 0 },
   .shmap .add { sh0 with bc := true }, .shred .and { sh0 with et := .z32, b := .x 0 }, .shred .sum sh0,
   .shqnt ⟨true, 3⟩ { sh0 with et := .s32, b := .x 0 }, .shcpy { sh0 with b := .x 0 },
   .shstat { sh0 with d := .x 1, b := .x 0 }, .wclr { f0 with a := .x 0, b := .x 0 }, .wadd { f0 with et := .fp16 },
   .wadd { f0 with rm := .rup }, .wsub { f0 with d := .q 1 false }, .wrnd { f0 with b := .x 0 },
   .waddv { vf with d := .x 1, z := true }, .waddv { vf with d := .x 1, a := .x 1 }, .wstatWin { f0 with b := .x 0 },
   .mxcfg { x0 with d := .x 1 }, .mxalloc { x0 with d := .p 1, a := .x 1 }, .mxfree { x0 with a := .bar 1 },
   .mxzero x0, .mxmm { x0 with d := .tile 1, a := .imm 1 }, .mxgmm { x0 with d := .tile 1 },
   .mxcpy .s32 false false { x0 with a := .tile 1 }, .mxlda { x0 with d := .tile 1, b := .q 1 false },
   .mxstat x0, .mxfence { x0 with a := .x 1 }, .cpstart { s0 with d := .v 1 }, .cpcan { s0 with d := .x 1 },
   .launch s0, .tnext { s0 with d := .p 1, a := .x 1 }, .cancel s0, .cntrd { s0 with d := .p 1, a := .level .job },
   .csrr { s0 with d := .x 5, a := .sreg 3 }, .csrw { s0 with d := .sreg 0x3E, a := .x 5 },
   .csrw { s0 with d := .sreg 0x20, a := .q 1 false }, .tlbinvRange { s0 with a := .imm 1 }, .tlbinvJob { s0 with a := .x 1 },
   .rdtime { s0 with d := .v 1 }, .ebreak { s0 with b := .imm 1 }, .pmrd { s0 with d := .x 5, a := .imm 16 },
   .jmark { s0 with a := .x 1, b := .imm 1 }]
theorem test_wf_rest : refused badRest = true := by decide +kernel

/-! ## What meets the hypotheses of the statements -/

/-- A job runs this word as the first of its image. -/
def placed (w : Nat) : State := State.reset.withFetchWord 96 w
/-- The state an outcome gives. -/
def after : Host.Outcome State Fault Refusal → State
  | .next t => t
  | _ => {}
def goesOn : Host.Outcome State Fault Refusal → Bool
  | .next _ => true
  | _ => false

def okIs {α ε : Type} [DecidableEq α] (e : Except ε α) (a : α) : Bool :=
  match e with
  | .ok b => decide (b = a)
  | .error _ => false
theorem ok_of {α ε : Type} [DecidableEq α] {e : Except ε α} {a : α} (h : okIs e a = true) : e = .ok a := by
  cases e <;> simp_all [okIs]
theorem err_of {α ε : Type} [DecidableEq ε] {e : Except ε α} {a : ε}
    (h : (match e with | .error b => decide (b = a) | .ok _ => false) = true) : e = .error a := by
  cases e <;> simp_all

theorem ex_of {α ε : Type} {e : Except ε α} (h : (match e with | .ok _ => true | .error _ => false) = true) :
    ∃ a, e = .ok a := by
  cases e <;> simp_all

/-- A fetch gives this word, and the state after it meets a test. -/
def gotIs (r : Fetched (BitVec 96)) (w : BitVec 96) (p : State → Bool) : Bool :=
  match r with
  | .got v u => decide (v = w) && p u
  | _ => false
theorem got_of {r : Fetched (BitVec 96)} {w : BitVec 96} {p : State → Bool} (h : gotIs r w p = true) :
    ∃ u, r = .got w u ∧ p u = true := by
  cases r <;> simp_all [gotIs]
theorem bad_of {r : Fetched (BitVec 96)} {i : FaultInfo}
    (h : (match r with | .bad j => decide (j = i) | _ => false) = true) : r = .bad i := by
  cases r <;> simp_all
theorem wait_of {r : Fetched (BitVec 96)} (h : (match r with | .wait _ => true | _ => false) = true) :
    ∃ u, r = .wait u := by
  cases r <;> simp_all

def sNop : State := placed 0x301C00000000000000000000
def sSkip : State := placed 0x303C00000000000000000000
def sBad : State := placed 0x01DC08000000060000300000
def sLost : State := (placed 0).modMe fun c => { c with pc := 2 }
/-- The line of the program is held elsewhere for update only: the fetch waits for it (R80, R95). -/
def sRecall : State := { placed 0 with homes := { (placed 0).homes with lines := [(lineOf (placedPage), { holders := [(9, 0)] })] } }
def sQueued : State := { placed 0 with agenda := [.event (.nop s0), .issue 0] }

/-- A NOP, the same with a false guard, a word that decodes to nothing, a PC that is not aligned, and an agenda. -/
theorem witness_StepRunsTheDecodedInstruction :
    (sNop.powered = true ∧ sNop.agenda = [] ∧ sNop.mayIssue sNop.cur = true
      ∧ decode 0x301C00000000000000000000 = some (.nop s0)
      ∧ ∃ u, sNop.fetchAll sNop.cur 4 = .got 0x301C00000000000000000000 u
        ∧ (u.me.guardOk (Raw.ofWord 0x301C00000000000000000000).gn (Raw.ofWord 0x301C00000000000000000000).gp
          && !hazard u.me (.nop s0)) = true)
    ∧ (sSkip.powered = true ∧ sSkip.agenda = [] ∧ sSkip.mayIssue sSkip.cur = true
      ∧ ∃ u, sSkip.fetchAll sSkip.cur 4 = .got 0x303C00000000000000000000 u
        ∧ (!u.me.guardOk (Raw.ofWord 0x303C00000000000000000000).gn (Raw.ofWord 0x303C00000000000000000000).gp) = true)
    ∧ (sBad.powered = true ∧ sBad.agenda = [] ∧ sBad.mayIssue sBad.cur = true
      ∧ decode 0x01DC08000000060000300000 = none
      ∧ ∃ u, sBad.fetchAll sBad.cur 4 = .got 0x01DC08000000060000300000 u
        ∧ u.me.guardOk (Raw.ofWord 0x01DC08000000060000300000).gn (Raw.ofWord 0x01DC08000000060000300000).gp = true)
    ∧ (sLost.powered = true ∧ sLost.agenda = [] ∧ sLost.mayIssue sLost.cur = true
      ∧ sLost.fetchAll sLost.cur 4 = .bad (flt clsAlign 2))
    ∧ (sRecall.powered = true ∧ sRecall.agenda = [] ∧ sRecall.mayIssue sRecall.cur = true
      ∧ ∃ u, sRecall.fetchAll sRecall.cur 4 = .wait u)
    ∧ (sQueued.powered = true ∧ sQueued.agenda = .event (.nop s0) :: [.issue 0])
    ∧ ({ sQueued with agenda := [.issue 0] } : State).agenda = .issue 0 :: [] := by
  repeat' apply And.intro
  all_goals first
    | decide +kernel | exact got_of (by decide +kernel) | exact bad_of (by decide +kernel)
    | exact wait_of (by decide +kernel)

/-- A round trip has an instruction and its word. -/
theorem witness_DecodeAndEncodeAgree :
    (Instr.nop s0).wf = true ∧ encode (.nop s0) = some 0x301C00000000000000000000
    ∧ decode 0x301C00000000000000000000 = some (.nop s0) := by decide +kernel

/-- The state after reset steps, and so does one whose program runs; both memories have the form. -/
theorem witness_StepKeepsMemoryForm :
    Memory.wf State.reset.mem = true ∧ Memory.wf sNop.mem = true
    ∧ goesOn (step State.reset) = true ∧ goesOn (step sNop) = true := by decide +kernel

/-- R230: the registers other than the two constants, at the ends of their numbers. -/
theorem witness_FixedRegisters : (1 : Nat) ≠ 0 ∧ (63 : Nat) ≠ 0 ∧ (6 : Nat) ≠ 7 ∧ (0 : Nat) ≠ 7 := by decide

/-- A running context whose registers hold these values. -/
def regs (xs : List (Nat × Word)) : State := State.modMe {} fun c => xs.foldl (fun c p => c.setX p.1 p.2) c

def s12 : State := regs [(1, 0x80000000FFFFFFFF), (2, 7), (5, 3), (3, 0)]
def i1 : OpI := { i0 with b := .x 0 }

/-- Register operands, and a queue destination with room and a source that dequeues. -/
theorem witness_IntegerArithmetic :
    Dirs s12 i0.d i0.a i0.b ∧ Reads2 s12 i0.a i0.b 0x80000000FFFFFFFF 7 s12.me
    ∧ Dirs s12 i1.d i1.a i1.a ∧ Reads1 s12 i1.a 0x80000000FFFFFFFF s12.me ∧ IntTy.s64.signed = true
    ∧ Reads3 s12 i0.d i0.a i0.b 0x80000000FFFFFFFF 7 3 s12.me
    ∧ (∀ i, i < IntTy.s32.width → (0x7F : Word).getLsbD i =
        if fieldPos 0x400 ≤ i ∧ i < fieldPos 0x400 + fieldLen .s32 0x400 then (0xFFFFFFFF : Word).getLsbD (i - fieldPos 0x400)
        else (0x70 : Word).getLsbD i)
    ∧ decode 0x01DC00000000060000300000 = some (.ineg ⟨h0, .s32, .x 6, .x 3, .x 0⟩)
    ∧ decode 0x021C04000000069FFFF00000 = some (.iabs ⟨h0, .s64, .x 6, .imm 131071, .x 0⟩) :=
  ⟨⟨rfl, rfl, rfl⟩, ⟨_, rfl, rfl⟩, ⟨rfl, rfl, rfl⟩, rfl, rfl, ⟨_, _, rfl, rfl, rfl⟩, by decide +kernel, by decide +kernel,
    by decide +kernel⟩

/-- Queue 1 holds one entry, 11; queues 2 and 3 are free, queue 2 with seven entries. -/
def sq : State := State.modMe (regs [(2, 6)]) fun c =>
  (c.setQ 1 { ents := [{ data := 11, slot := 0 }] }).setQ 2 { ents := List.replicate 7 { data := 0, slot := 0 } }

/-- Queue operands: a dequeued source, and destinations with room for one entry. -/
theorem witness_queueOperands :
    Dirs sq (.q 2 false) (.q 1 false) (.x 2) ∧ Reads2 sq (.q 1 false) (.x 2) 11 6 (sq.me.setQ 1 {})
    ∧ Room sq (sq.me.setQ 1 {}) (.q 2 false) (entryOf 17) ∧ Room sq sq.me (.q 3 false) (entryOf 17) :=
  ⟨⟨rfl, rfl, rfl⟩, ⟨sq.me.setQ 1 {}, ok_of (by decide +kernel), rfl⟩, ex_of (by decide +kernel),
    ex_of (by decide +kernel)⟩

def i32 : OpI := { i0 with ty := .s32 }
def sMin : State := regs [(1, 0x80000000), (2, 0xFFFFFFFF)]
def sDiv : State := regs [(1, 0xFFFFFFF9), (2, 2)]
def sZero : State := regs [(1, 9)]

/-- R267: division by zero, the overflow, and −7 divided by 2. -/
theorem witness_Division :
    (Dirs sZero i32.d i32.a i32.b ∧ Reads2 sZero i32.a i32.b 9 0 sZero.me ∧ narrow i32.ty 0 = 0)
    ∧ (Dirs sMin i32.d i32.a i32.b ∧ Reads2 sMin i32.a i32.b 0x80000000 0xFFFFFFFF sMin.me ∧ i32.ty.signed = true
      ∧ narrow i32.ty 0x80000000 = signed i32.ty (1 <<< (i32.ty.width - 1))
      ∧ narrow i32.ty 0xFFFFFFFF = BitVec.allOnes 64)
    ∧ (Dirs sDiv i32.d i32.a i32.b ∧ Reads2 sDiv i32.a i32.b 0xFFFFFFF9 2 sDiv.me ∧ i32.ty.src 2 ≠ 0
      ∧ i32.ty.src 0xFFFFFFF9 = -3 * i32.ty.src 2 + -1 ∧ (-1 : Int).natAbs < (i32.ty.src 2).natAbs
      ∧ ((-1 : Int) = 0 ∨ (0 < (-1 : Int) ↔ 0 < i32.ty.src 0xFFFFFFF9))) :=
  ⟨⟨⟨rfl, rfl, rfl⟩, ⟨_, rfl, rfl⟩, by decide⟩, ⟨⟨rfl, rfl, rfl⟩, ⟨_, rfl, rfl⟩, rfl, by decide, by decide⟩,
    ⟨⟨rfl, rfl, rfl⟩, ⟨_, rfl, rfl⟩, by decide, by decide, by decide, by decide⟩⟩

/-- R268, R269: a comparison that holds and one that does not, at the type's width; counts at 0, inside, and at the
whole width; a reversal. -/
theorem witness_CompareSelectAndCount :
    (Dirs s12 i0.d i0.a i0.b ∧ Reads2 s12 i0.a i0.b 0x80000000FFFFFFFF 7 s12.me
      ∧ (true = true ↔ below .s64 7 0x80000000FFFFFFFF = false) ∧ (false = true ↔ narrow .s32 7 = narrow .s32 8)
      ∧ (∃ u, (s12.commitQ s12.me).wr (.x 5) 1 = .ok u) ∧ (∃ u, (s12.commitQ s12.me).wr (.x 5) 0 = .ok u))
    ∧ Dirs s12 i1.d i1.a i1.a ∧ Reads1 s12 i1.a 0x80000000FFFFFFFF s12.me
    ∧ ((0 : Nat) < 64 ∧ (0x80000000FFFFFFFF : Word).getLsbD (64 - 1 - 0) = true)
    ∧ (∀ i, i < 31 → (1 : Word).getLsbD (32 - 1 - i) = false) ∧ (1 : Word).getLsbD (32 - 1 - 31) = true
    ∧ (∀ i, i < 32 → (0x100000000 : Word).getLsbD (32 - 1 - i) = false)
    ∧ (∀ i, i < 63 → (0x8000000000000000 : Word).getLsbD i = false)
    ∧ (∀ i, i < 32 → (0xFFFFFFFF00000001 : Word).getLsbD i = (0x80000000 : Word).getLsbD (32 - 1 - i)) :=
  ⟨⟨⟨rfl, rfl, rfl⟩, ⟨_, rfl, rfl⟩, by decide, by decide, ⟨_, rfl⟩, ⟨_, rfl⟩⟩, ⟨rfl, rfl, rfl⟩, rfl, by decide, by decide,
    by decide, by decide, by decide, by decide⟩

/-- R270 to R273: a field inside the source, one that runs past its top, one that begins above it; MOVHI and MOVI with
short and long immediates. -/
theorem witness_BitwiseShiftsAndFields :
    (Dirs s12 i0.d i0.a i0.b ∧ Reads2 s12 i0.a i0.b 0x80000000FFFFFFFF 7 s12.me)
    ∧ (Dirs s12 i1.d i1.a i1.a ∧ Reads1 s12 i1.a 0x80000000FFFFFFFF s12.me)
    ∧ (fieldPos 0x404 = 4 ∧ fieldLen .s32 0x404 = 4 ∧ fieldLen .s32 0x7F1E = 2 ∧ fieldLen .s32 0x420 = 0)
    ∧ (∀ i, i < 64 → (0xFFFFFFFFFFFFFFF8 : Word).getLsbD i =
        if fieldLen .s32 0x404 = 0 then false else if i < fieldLen .s32 0x404 then (0x80 : Word).getLsbD (fieldPos 0x404 + i)
        else IntTy.s32.signed && (0x80 : Word).getLsbD (fieldPos 0x404 + fieldLen .s32 0x404 - 1))
    ∧ (Dirs s12 (.x 5) (.imm 1) (.imm 1) ∧ Reads1 s12 (.imm 131071) (BitVec.allOnes 64) s12.me)
    ∧ (∃ i, Opd.imm 131071 = .imm i) ∧ (∃ i, Opd.long 0x80000000 = .long i) :=
  ⟨⟨⟨rfl, rfl, rfl⟩, ⟨_, rfl, rfl⟩⟩, ⟨⟨rfl, rfl, rfl⟩, rfl⟩, by decide, by decide +kernel, ⟨⟨rfl, rfl, rfl⟩, rfl⟩,
    ⟨_, rfl⟩, ⟨_, rfl⟩⟩

/-- Any two source words, and a third in the destination. -/
def sf (x y z : Word) : State := regs [(1, x), (2, y), (5, z)]

theorem reads_sf (x y z : Word) :
    Dirs (sf x y z) f0.d f0.a f0.b ∧ Reads2 (sf x y z) f0.a f0.b x y (sf x y z).me
    ∧ Dirs (sf x y z) f0.d f0.a f0.a ∧ Reads1 (sf x y z) f0.a x (sf x y z).me
    ∧ Reads3 (sf x y z) f0.d f0.a f0.b x y z (sf x y z).me := by
  have h1 : (sf x y z).me.getX 1 = x := by simp [sf, regs, Ctx.getX_setX]
  have h2 : (sf x y z).me.getX 2 = y := by simp [sf, regs, Ctx.getX_setX]
  have h5 : (sf x y z).me.getX 5 = z := by simp [sf, regs, Ctx.getX_setX]
  have a : (sf x y z).me.val (.x 1) = .ok (x, (sf x y z).me) := by simp [Ctx.val, h1]
  have b : (sf x y z).me.val (.x 2) = .ok (y, (sf x y z).me) := by simp [Ctx.val, h2]
  have d : (sf x y z).me.val (.x 5) = .ok (z, (sf x y z).me) := by
    show Except.ok ((sf x y z).me.getX 5, _) = _
    rw [h5]
  exact ⟨⟨rfl, rfl, rfl⟩, ⟨_, a, b⟩, ⟨rfl, rfl, rfl⟩, a, ⟨_, _, a, b, d⟩⟩

/-- R205: the values that the clauses about NaN, infinities, zeros and finite numbers name, at the ends of the format;
the quotient 1 / 3. Any of them may be the sources, by reads_sf. -/
theorem witness_FloatArithmetic :
    OpV.fmt f0 = fp32 ∧ fp32.val 0x7FC00000 = .nan ∧ fp32.val 0x7F800000 = .inf false ∧ fp32.val 0xFF800000 = .inf true
    ∧ fp32.val 0 = .fin false 0 (-149) ∧ fp32.val 0x80000000 = .fin true 0 (-149)
    ∧ fp32.val 0x80000001 = .fin true 1 (-149) ∧ fp32.val 0x7F7FFFFF = .fin false (2 ^ 24 - 1) 104
    ∧ fp32.val 0x3F800000 = .fin false (2 ^ 23) (-23) ∧ fp32.val 0x40400000 = .fin false (3 * 2 ^ 22) (-22)
    ∧ 2 ^ 23 * 2 ^ 64 = (2 ^ 23 * 2 ^ 64 / (3 * 2 ^ 22)) * (3 * 2 ^ 22) + 2 ^ 23 * 2 ^ 64 % (3 * 2 ^ 22)
    ∧ 2 ^ 23 * 2 ^ 64 % (3 * 2 ^ 22) < 3 * 2 ^ 22
    ∧ valueAt (.fin false (2 ^ 23) (-23)) (min (-23) (-23)) + valueAt (.fin true (2 ^ 23) (-23)) (min (-23) (-23)) = 0 := by
  decide +kernel

/-- R274 to R278: a fused product and sum that is not zero, the root of 2, values in order and zeros of both signs, and
a comparison of every sort. -/
theorem witness_FloatRootsChoicesAndCompares :
    (let l := min ((-23) + (-23)) (-149 : Int)
     valueAt (.fin (false != false) (2 ^ 23 * 2 ^ 23) (-23 + -23)) l + valueAt (.fin false 0 (-149)) l ≠ 0)
    ∧ fp32.val 0x40000000 = .fin false (2 ^ 23) (-22)
    ∧ (let c := 2 ^ 23 * 2 ^ ((-22 : Int) % 2).toNat * 2 ^ 64
       12439554047901 * 12439554047901 ≤ c ∧ c < 12439554047902 * 12439554047902)
    ∧ Below (.fin true (2 ^ 23) (-23)) (.fin false (2 ^ 23) (-23)) ∧ Below (.inf true) (.inf false)
    ∧ (fp32.val 0x80000000).isZero = true ∧ (fp32.val 0).isZero = true ∧ (fp32.val 0x80000000).neg? = true
    ∧ (¬ Below (.fin true 0 (-149)) (.fin false 0 (-149)) ∧ ¬ Below (.fin false 0 (-149)) (.fin true 0 (-149)))
    ∧ (∃ u, (((sf 0 0 0).commitQ (sf 0 0 0).me).modMe fun c => c.raiseFlags fNV).wr (.x 5) 0 = .ok u)
    ∧ (∃ u, (((sf 0 0 0).commitQ (sf 0 0 0).me).modMe fun c => c.raiseFlags 0).wr (.x 5) 1 = .ok u) :=
  ⟨by decide, by decide, by decide, by simp only [Below]; decide, by simp only [Below], by decide, by decide, by decide,
    by simp only [Below]; decide, ⟨_, rfl⟩, ⟨_, rfl⟩⟩

/-- R277: an integer, a float of another format, and a float below, above and inside the range of an integer type. -/
theorem witness_FloatConvert :
    Esz.fp32.fmt? = some fp32 ∧ Esz.s32.fmt? = none ∧ Esz.fp16.fmt? = some fp16 ∧ Esz.s8.width ≤ 64
    ∧ roundInt .rtz true 259 (-1) = (-129, true) ∧ (-129 : Int) < Esz.s8.lo
    ∧ roundInt .rup false 255 (-1) = (128, true) ∧ Esz.s8.hi < 128
    ∧ roundInt .rne false 254 (-1) = (127, false) ∧ ¬ (127 : Int) < Esz.s8.lo ∧ ¬ Esz.s8.hi < 127 := by decide +kernel

/-- R205: a value of each format, and a numerator that is not zero. -/
theorem witness_RoundingIsFaithful :
    fp32.val 0x7F7FFFFF = .fin false (2 ^ 24 - 1) 104 ∧ fp16.val 0x8001 = .fin true 1 (-24)
    ∧ bf16.val 0x3F80 = .fin false (2 ^ 7) (-7) ∧ (1 : Nat) ≠ 0 := by decide +kernel

def sBr : State := State.modMe (regs [(4, 2), (6, 1), (7, 0x1000), (61, 0x2000)]) fun c => { c with pc := 0x4000 }
/-- R280: aligned targets; a LOOP that goes round and one that ends; a misaligned PC, register and return address. -/
theorem witness_ControlTransfer :
    ((sBr.me.pc + Opd.immVal (.imm 131071) * 4).toNat % 4 = 0 ∧ sBr.me.getX 4 ≠ 1 ∧ sBr.me.getX 6 = 1
      ∧ Dirs sBr (.x 0) (.x 7) (.x 7) ∧ Reads1 sBr (.x 7) 0x1000 sBr.me ∧ (0x1000 : Word).toNat % 4 = 0
      ∧ (sBr.me.getX 61).toNat % 4 = 0 ∧ sBr.me.sys.inlStack.head? ≠ some (sBr.me.getX 61))
    ∧ (let t := sBr.modMe fun c => { c.setX 61 3 with pc := 0x4002 }
       (t.me.pc + Opd.immVal (.imm 1) * 4).toNat % 4 ≠ 0 ∧ t.me.getX 4 ≠ 1 ∧ (t.me.getX 61).toNat % 4 ≠ 0)
    ∧ (0x1001 : Word).toNat % 4 ≠ 0 :=
  ⟨⟨by decide, by decide, by decide, ⟨rfl, rfl, rfl⟩, rfl, by decide, by decide, by decide⟩, by decide, by decide⟩

/-! A run of a job with a handler, a fault queue, a writable page of heap and two banks. -/

def fpAll : BitVec 128 := BitVec.ofNat 128 (placedVA + 2 ^ 21 * 2 ^ 64 + 2 * 2 ^ 112)
/-- The heap address, and the place, of an offset into the page; and those of an offset into the first bank. -/
def vaH (o : Nat) : Nat := placedVA + o
def paH (o : Nat) : Nat := placedPage + o
def vaO (o : Nat) : Nat := 0xC8 * 2 ^ 48 + o
def kO (o : Nat) : Nat := bankKey 0 0 o
def sJ : State :=
  let s := (placeWord {} 0).modCtx 0 fun c => { c with run := { c.run with banks := [0, 1] } }
  s.modJob 0 fun j => { j with
    cfg := { j.cfg with hentry := BitVec.ofNat 64 (vaH 0x100), fqb := BitVec.ofNat 64 (vaH 0x10000), fqn := 2 }
    nodes := [{ placedNode with fpt := [fpAll], counter := 2 }] }
def sJ' (f : Ctx → Ctx) : State := sJ.modCtx 0 f
/-- The queue with this many records taken in and out. -/
def sFq (put take : Nat) : State := (sJ.setBytes (paH 0x10000) (leBytes 8 put)).setBytes (paH 0x10008) (leBytes 8 take)
def sNoH : State := sJ.modJob 0 fun j => { j with cfg := { j.cfg with hentry := 0 } }
def iAl : FaultInfo := flt clsAlign 2

/-- R384 to R389: a fault that enters the handler; one that is not resumable, one without a handler, one whose queue is
full; a queue with its last slot free and a full one, at the wrap of PUT. -/
theorem witness_TakingAFault :
    Enters sJ (BitVec.ofNat 64 placedVA) iAl 0 ∧ Enters (sFq 2 1) 0 iAl 2
    ∧ (sJ.redoes sJ.cur (flt clsLease 0) = false ∧ resumable sJ.me.sys.lvl { iAl with org := 1 } = false)
    ∧ (sNoH.redoes sNoH.cur iAl = false ∧ (sNoH.job sNoH.me.run.job).cfg.hentry = 0)
    ∧ ((sFq 2 0).redoes (sFq 2 0).cur iAl = false
      ∧ ((sFq 2 0).post (sFq 2 0).me.run.job (cluOf (sFq 2 0).cur)
          (recordWords (sFq 2 0).me 0 (resumable (sFq 2 0).me.sys.lvl iAl) iAl)).2 = none)
    ∧ 0 < ((sFq 1 (2 ^ 64 - 1)).job 0).cfg.fqn ∧ [1, 2, 3, 2 ^ 64].length = 4
    ∧ (sFq 1 (2 ^ 64 - 1)).queueWord 0 0 = some (paH 0x10000) ∧ (sFq 1 (2 ^ 64 - 1)).queueWord 0 8 = some (paH 0x10008)
    ∧ (sFq 1 (2 ^ 64 - 1)).queueWord 0 16 = some (paH 0x10010)
    ∧ (sFq 1 (2 ^ 64 - 1)).queueWord 0 (64 + (sFq 1 (2 ^ 64 - 1)).word (paH 0x10000) % 2 * 32) = some (paH 0x10060)
    ∧ paH 0x10000 + 8 ≤ paH 0x10060
    ∧ ((sFq 1 (2 ^ 64 - 1)).word (paH 0x10000) + 2 ^ 64 - (sFq 1 (2 ^ 64 - 1)).word (paH 0x10008)) % 2 ^ 64 = 2
    ∧ ((sFq 0 (2 ^ 64 - 1)).word (paH 0x10000) + 2 ^ 64 - (sFq 0 (2 ^ 64 - 1)).word (paH 0x10008)) % 2 ^ 64 ≠ 2 := by
  repeat' apply And.intro
  all_goals decide +kernel

def oTrap : OpS := { s0 with b := .imm 77 }
def sDbg : State := { sJ' (fun c => c.modSys fun y => { y with dbgOn := true }) with pkg := { sJ.pkg with dbg := 2 } }
def sHand (epc : Word) : State := sJ' fun c => c.modSys fun y => { y with lvl := .handler, epc := epc }

/-- R286, R379, R382, R385, R387: traps that enter, a debugger behind EBREAK, RTE at each level. -/
theorem witness_TrapsAndReturn :
    Enters sJ sJ.me.pc { code := clsTrap, idx := (Opd.immVal oTrap.b).toNat } 0
    ∧ ¬ (sJ.pkg.dbg = 2 ∧ sJ.me.sys.dbgOn = true) ∧ Enters sJ sJ.me.pc { code := clsTrap, idx := 0x10001 } 0
    ∧ (sDbg.pkg.dbg = 2 ∧ sDbg.me.sys.dbgOn = true) ∧ sJ.me.sys.lvl = .run
    ∧ ((sHand 0x1002).me.sys.lvl = .handler ∧ (sHand 0x1002).me.sys.epc.toNat % 4 ≠ 0)
    ∧ ((sHand 0x1000).me.sys.lvl = .handler ∧ (sHand 0x1000).me.sys.epc.toNat % 4 = 0
      ∧ (((sHand 0x1000).clu (cluOf (sHand 0x1000).cur)).jobs.all fun j =>
          j.ctx != (sHand 0x1000).cur || j.lvl != .handler || j.isCopy) = true) := by
  repeat' apply And.intro
  all_goals decide +kernel

def rec16 : Task := { code := 0x1000, fp := 1, jrec := 2, arg := 3, graph := 1, node := 1 }
def sSp : State := sJ' fun c => (c.setX 2 0x5000).setX 3 9
def sFull : State := sSp.modCore 0 fun c => { c with deque := List.replicate 16 rec16 }
def sCan : State := sSp.modJob 0 fun j => j.modNode 1 1 fun x => { x with cancelled := true }
def sInl : State := sJ' fun c => (c.setX 61 0x2000).modSys fun y => { y with inlStack := [0x2000], inlDepth := 1 }
/-- The same with a child whose first instruction is not aligned; at the deepest level, with a ring and without one. -/
def sSkew : State := sFull.modCtx 0 fun c => c.setX 2 0x5002
def sDeep (q : Nat) : State :=
  (sFull.modCtx 0 fun c => c.modSys fun y => { y with inlDepth := 8 }).modJob 0 fun j => j.modGraph 1 fun g => { g with spillq := q }
def oSp : OpS := ⟨h0, .core, .p 1, .x 2, .x 3⟩
def oFork : OpS := ⟨h0, .core, .p 1, .p 2, .imm 12⟩

/-- R281 to R283: room for a record, a cancelled node, a full deque, a FORK with its predicate clear and set, a return
from an inlined child, a mailbox answer, a core of the partition and a coordinate that is none. -/
theorem witness_TaskCreation :
    (Fresh sSp ∧ sSp.me.quiet = true ∧ sSp.me.srcOk oSp.b = true ∧ sSp.me.val oSp.b = .ok (9, sSp.me)
      ∧ sSp.me.val oSp.a = .ok (0x5000, sSp.me) ∧ sSp.cancelledRun sSp.cur = false
      ∧ (sSp.core (coreOf sSp.cur)).deque.length < 16)
    ∧ (Fresh sCan ∧ sCan.me.quiet = true ∧ sCan.cancelledRun sCan.cur = true)
    ∧ ((sSp.me.getP 2).getLsbD 0 = false ∧ (sSp.me.getP 7).getLsbD 0 = true)
    ∧ (Fresh sFull ∧ sFull.me.quiet = true ∧ sFull.cancelledRun sFull.cur = false
      ∧ 16 ≤ (sFull.core (coreOf sFull.cur)).deque.length
      ∧ sFull.me.sys.inlDepth < (sFull.job sFull.me.run.job).cfg.inlmax ∧ (0x5000 : Word).toNat % 4 = 0
      ∧ sSkew.me.val oSp.a = .ok (0x5002, sSkew.me) ∧ (0x5002 : Word).toNat % 4 ≠ 0)
    ∧ (Fresh (sDeep 8) ∧ Quiet (sDeep 8) ∧ 16 ≤ ((sDeep 8).core (coreOf (sDeep 8).cur)).deque.length
      ∧ ((sDeep 8).job (sDeep 8).me.run.job).cfg.inlmax ≤ (sDeep 8).me.sys.inlDepth
      ∧ ((sDeep 8).job (sDeep 8).me.run.job).cfg.mode = 0
      ∧ ((sDeep 8).job (sDeep 8).me.run.job).graph? (sDeep 8).me.run.graph = some { id := 1, phase := 1, counter := 1, spillq := 8 }
      ∧ ((sDeep 7).job (sDeep 7).me.run.job).graph? (sDeep 7).me.run.graph = some { id := 1, phase := 1, counter := 1, spillq := 7 })
    ∧ (sInl.me.sys.inlStack.head? = some (sInl.me.getX 61) ∧ (sInl.me.getX 61).toNat % 4 = 0)
    ∧ (sJ' fun c => { c with stage := { ph := 2, rep := some [1] } }).me.stage.rep = some [1]
    ∧ (Quiet sSp ∧ sSp.coordCore (sSp.me.getX 10).toNat = some 0 ∧ sSp.mayInject sSp.cur = true
      ∧ sSp.coordCore (sSp.me.getX 2).toNat = none) := by
  repeat' apply And.intro
  all_goals first | decide +kernel | (unfold Fresh; decide +kernel) | exact ok_of (by decide +kernel)

def oJoin : OpS := { s0 with a := .x 5 }
/-- A join record in the first bank with this count. -/
def sJn (n : Nat) : State := (sJ' fun c => c.setX 5 (BitVec.ofNat 64 (vaO 0x10))).setBytes (kO 0x10) (leBytes 8 n ++ leBytes 8 0x7000)
/-- The answer of a JOIN at another place. -/
def sRep (n pc : Nat) : State := sJ' fun c => { c with stage := { ph := 2, rep := some (leBytes 8 n ++ leBytes 8 pc) } }
/-- A run of the kind that holds a plain task. -/
def sTask : State := sJ' fun c => { c.setX 5 (5 * 2 ^ 32 + 6) with run := { c.run with kind := .task, tile := none } }

/-- R167, R161: the last arrival, an earlier one at the greatest count, and a task with nothing outstanding. -/
theorem witness_JoinAndHalt :
    (Quiet (sJn 1) ∧ (sJn 1).check (sJn 1).cur .atomic ((sJn 1).me.getX 5).toNat 16 = .ok (.own 0 0 0x10)
      ∧ (sJn 1).me.sys.inlStack = [] ∧ ((sJn 1).job (sJn 1).me.run.job).cfg.mode = 0
      ∧ (sJn 1).word (bankKey 0 0 0x10 + 8) % 4 = 0 ∧ (sJn 1).word (bankKey 0 0 0x10) = 1)
    ∧ (Quiet (sJn (2 ^ 63 - 1))
      ∧ (sJn (2 ^ 63 - 1)).check (sJn (2 ^ 63 - 1)).cur .atomic ((sJn (2 ^ 63 - 1)).me.getX 5).toNat 16 = .ok (.own 0 0 0x10)
      ∧ 1 < (sJn (2 ^ 63 - 1)).word (bankKey 0 0 0x10) ∧ (sJn (2 ^ 63 - 1)).word (bankKey 0 0 0x10) < 2 ^ 63
      ∧ (sJn 0).word (bankKey 0 0 0x10) = 0 ∧ 2 ^ 63 ≤ (sJn (2 ^ 63)).word (bankKey 0 0 0x10)
      ∧ (sRep 1 0x7000).me.stage.rep = some (leBytes 8 1 ++ leBytes 8 0x7000)
      ∧ toSigned 64 (leNat ((leBytes 8 1 ++ leBytes 8 0x7000).take 8)) = 1
      ∧ (BitVec.ofNat 64 (leNat ((leBytes 8 1 ++ leBytes 8 0x7000).drop 8))).toNat % 4 = 0
      ∧ toSigned 64 (leNat ((leBytes 8 (2 ^ 63) ++ leBytes 8 0x7002).take 8)) ≤ 0
      ∧ (BitVec.ofNat 64 (leNat ((leBytes 8 (2 ^ 63) ++ leBytes 8 0x7002).drop 8))).toNat % 4 ≠ 0
      ∧ (sRep 1 0x7000).me.sys.inlStack = [])
    ∧ (Quiet sTask ∧ sTask.me.sys.inlStack = [] ∧ sTask.me.sys.inlDepth = 0 ∧ sTask.me.streams = []
      ∧ sTask.me.run.kind = .task ∧ sTask.me.run.hand = none ∧ sTask.me.sys.deferred = none
      ∧ (∀ g ∈ (sTask.job sTask.me.run.job).graphs, g.parent ≠ some (sTask.me.run.graph, sTask.me.run.node))
      ∧ ((sTask.clu (cluOf sTask.cur)).jobs.all fun j => j.ctx != sTask.cur) = true ∧ sTask.heldSyncs sTask.cur = []
      ∧ ((sTask.core (coreOf sTask.cur)).bars.all fun b => !(b.2.own && b.2.ctx == sTask.cur % 4)) = true) := by
  repeat' apply And.intro
  all_goals first | decide +kernel | exact ok_of (by decide +kernel)

def sLd : State := sJ' fun c =>
  ((c.setX 2 (BitVec.ofNat 64 (vaO 0x20))).setX 3 (BitVec.ofNat 64 (vaH 0x1000))).setX 4 0x1122334455667788
def oLd : OpM := { m0 with esz := .s64, b := .imm 8 }
def oLdH : OpM := { oLd with a := .x 3, evp := 3 }
def oAcq : OpM := { oLdH with ord := .acq, scope := .clu }
/-- A gang of four tiles and four banks each; ranks 0 and 1 run in contexts 0 and 4, ranks 2 and 3 have halted. -/
def rcdGang : BitVec 1024 := BitVec.ofNat 1024 (2 ^ 66 + 4 * 2 ^ 76 + 4 * 2 ^ 128 + 2 ^ 256)
def sRk (w : Nat) : State :=
  let s := sLd.modCtx 0 fun c => { c.setX 2 (BitVec.ofNat 64 w) with run := { c.run with kind := .gang, tile := none } }
  let s := s.setCtx 4 { run := { kind := .gang, job := 0, graph := 1, node := 1, rank := 1, banks := [2] } }
  s.modJob 0 fun j => { j with nodes := [{ placedNode with rcd := rcdGang, fpt := [fpAll] }] }
def sLive : State := sRk (2 ^ 32 + 0x20)
def sGone : State := sRk (3 * 2 ^ 32 + 0x20)
def sNone : State := sRk (4 * 2 ^ 32)

/-- The running core's own window. -/
def sLp2 : State := sLd.modCtx 0 fun c => c.setX 2 (BitVec.ofNat 64 (windowVA 0 0 0x20))

/-- R289 to R291: unordered loads of the bank, of the heap and of a rank; an acquiring load. -/
theorem witness_LoadsIssue :
    (Fresh sLd ∧ sLd.check sLd.cur .load (sLd.me.ea oLd oLd.esz.size) oLd.esz.size = .ok (.own 0 0 0x28)
      ∧ oLd.ord.hasRel = false ∧ oLd.ord.hasAcq = false ∧ oLd.d.isQ = false)
    ∧ sLd.check sLd.cur .load (sLd.me.ea oLdH oLdH.esz.size) oLdH.esz.size = .ok (.hbm (paH 0x1008))
    ∧ (Quiet sLd ∧ oAcq.ord.hasAcq = true ∧ sLd.destRoom sLd.cur oAcq.d oAcq.esz = .ok ()
      ∧ sLd.check sLd.cur .load (sLd.me.ea oAcq oAcq.esz.size) oAcq.esz.size = .ok (.hbm (paH 0x1008)))
    ∧ ((Loc.own 0 0 0x28).route (coreOf sLd.cur) ≠ .lp ∧ sLp2.check sLp2.cur .load (sLp2.me.ea oLd oLd.esz.size) oLd.esz.size
        = .ok (.window 0 0 0x28) ∧ (Loc.window 0 0 0x28).route (coreOf sLp2.cur) = .lp ∧ Fresh sLp2)
    ∧ (Fresh sLive ∧ Quiet sLive
      ∧ sLive.rankLoc oLd = .ok (some (windowVA 1 2 0x28, .window 1 2 0x28))) := by
  repeat' apply And.intro
  all_goals first | decide +kernel | (unfold Fresh; decide +kernel) | exact ok_of (by decide +kernel)

def oMis : OpM := { oLd with b := .imm 9 }
def sAns : State := sJ' fun c => { c with stage := { ph := 2, rep := some [1, 2, 3, 4, 5, 6, 7, 0x80] } }

/-- R19, R290, R291: addresses that fail their checks; answers that stand; a rank that has halted. -/
theorem witness_BlockedLoadsAndFailures :
    (Fresh sLd ∧ sLd.destRoom sLd.cur oMis.d oMis.esz = .ok ()
      ∧ sLd.check sLd.cur .load (sLd.me.ea oMis oMis.esz.size) oMis.esz.size = .error (flt clsAlign (vaO 0x29))
      ∧ Fresh sNone ∧ sNone.destRoom sNone.cur oLd.d oLd.esz = .ok () ∧ sNone.rankLoc oLd = .error (flt clsLease 0)
      ∧ sLd.me.srcOk oMis.d = true ∧ sLd.me.storeData oMis.d oMis.esz = .ok (leBytes 8 0x1122334455667788, sLd.me)
      ∧ sLd.check sLd.cur .store (sLd.me.ea oMis oMis.esz.size) oMis.esz.size = .error (flt clsAlign (vaO 0x29)))
    ∧ ((sAns.job sAns.me.run.job).cfg.mode = 0 ∧ sAns.me.stage.rep = some [1, 2, 3, 4, 5, 6, 7, 0x80]
      ∧ (∃ u, sAns.put sAns.cur 3 (entryOf (loadWord oLd.esz [1, 2, 3, 4, 5, 6, 7, 0x80])) = .ok u)
      ∧ oLd.ord.hasAcq = false ∧ oLd.esz.width ≤ 64)
    ∧ ((sGone.job sGone.me.run.job).cfg.mode = 0 ∧ Quiet sGone ∧ sGone.rankLoc oLd = .ok none) := by
  repeat' apply And.intro
  all_goals first
    | decide +kernel | (unfold Fresh; decide +kernel) | exact ok_of (by decide +kernel) | exact err_of (by decide +kernel)
    | exact ex_of (by decide +kernel)

/-- R71, R289 to R291: a store by way of SB, one by way of NET, and one to a rank that has halted. -/
theorem witness_StoresIssue :
    (Fresh sLd ∧ oLd.ord.hasRel = false ∧ oLd.ord.hasAcq = false ∧ sLd.me.streams = [] ∧ sLd.me.srcOk oLd.d = true
      ∧ sLd.me.storeData oLd.d oLd.esz = .ok (leBytes 8 0x1122334455667788, sLd.me)
      ∧ sLd.check sLd.cur .store (sLd.me.ea oLd oLd.esz.size) oLd.esz.size = .ok (.own 0 0 0x28)
      ∧ (Loc.own 0 0 0x28).route (coreOf sLd.cur) = .sb
      ∧ sLd.check sLd.cur .store (sLd.me.ea oLdH oLdH.esz.size) oLdH.esz.size = .ok (.hbm (paH 0x1008))
      ∧ (Loc.hbm (paH 0x1008)).route (coreOf sLd.cur) = .sb)
    ∧ (Fresh sLive ∧ sLive.me.streams = [] ∧ sLive.me.storeData oLd.d oLd.esz = .ok (leBytes 8 0x1122334455667788, sLive.me)
      ∧ sLive.rankLoc oLd = .ok (some (windowVA 1 2 0x28, .window 1 2 0x28))
      ∧ (Loc.window 1 2 0x28).route (coreOf sLive.cur) = .net ∧ sLive.mayInject sLive.cur = true)
    ∧ (Fresh sLp2 ∧ sLp2.me.streams = [] ∧ sLp2.me.storeData oLd.d oLd.esz = .ok (leBytes 8 0x1122334455667788, sLp2.me)
      ∧ sLp2.check sLp2.cur .store (sLp2.me.ea oLd oLd.esz.size) oLd.esz.size = .ok (.window 0 0 0x28))
    ∧ (Fresh sGone ∧ sGone.me.storeData oLd.d oLd.esz = .ok (leBytes 8 0x1122334455667788, sGone.me)
      ∧ sGone.rankLoc oLd = .ok none) := by
  repeat' apply And.intro
  all_goals first | decide +kernel | (unfold Fresh; decide +kernel) | exact ok_of (by decide +kernel)

/-- Stores and loads of a context, at a bank and at class 000. -/
def eOwn : SbEntry := { va := vaO 0x7FF8, loc := .own 0 0 0x7FF8, bytes := leBytes 8 77, ord := .rlx, scope := .core, evp := 3, shrw := true }
def eHbm : SbEntry := { va := vaH 0x1078, loc := .hbm (paH 0x1078), bytes := leBytes 8 77, ord := .rlx, scope := .core, evp := 3, shrw := true }
def sSb (e : SbEntry) : State := sJ' fun c => { c with sb := [e] }
def lOf (va : Nat) (l : Loc) : OpenLoad := { id := 0, dst := .x 9 .s64, evp := 3, wide := false, pieces := [{ va := va, loc := l, size := 8 }] }
def sOl (va : Nat) (l : Loc) : State := sJ' fun c => { c with loads := [lOf va l], nextId := 1 }
def lineAll : CvLine := { data := 5, valid := BitVec.allOnes 128, dirty := 0 }
def sLn (l : CvLine) (s : State) : State := s.modClu 0 fun c => { c with lines := [(paH 0x1000, l)] }

/-- A load of the bytes of a store that stands in SB behind it. -/
def eLate : SbEntry := { eOwn with tag := 1 }
def sOlder : State := (sSb eLate).modCtx 0 fun c => { c with loads := [lOf (vaO 0x7FF8) (.own 0 0 0x7FF8)] }

/-- R76, R77: the oldest store of each sort, the last bytes of a bank and of a line; a load of each sort. -/
theorem witness_StoresArePerformed :
    (((sSb eOwn).ctx 0).sb = eOwn :: [] ∧ ((sSb eOwn).ctx 0).streams = [] ∧ eOwn.loc = .own 0 0 0x7FF8
      ∧ (sSb eOwn).inPort 0 0 (bankKey 0 0 0x7FF8) 8 = false
      ∧ (sOlder.ctx 0).sb = eLate :: [] ∧ (sOlder.ctx 0).streams = [] ∧ sOlder.inPort 0 1 (bankKey 0 0 0x7FF8) 8 = false
      ∧ (sOlder.ctx 0).loads = [lOf (vaO 0x7FF8) (.own 0 0 0x7FF8)] ∧ 0 < eLate.tag
      ∧ covers (bankKey 0 0 0x7FF8) 8 (bankKey 0 0 0x7FF8) 8 = true)
    ∧ ((((sSb eHbm).clu (cluOf 0)).lines.filter fun p => p.1 != lineOf (paH 0x1078) && l1Mates p.1 (lineOf (paH 0x1078))).length < 8
      ∧ ((sSb eHbm).ctx 0).sb = eHbm :: [] ∧ ((sSb eHbm).ctx 0).streams = [] ∧ eHbm.loc = .hbm (paH 0x1078) ∧ eHbm.red = none
      ∧ eHbm.ord = .rlx ∧ eHbm.evp ≠ 0 ∧ ((sSb eHbm).clu (cluOf 0)).rb = []
      ∧ (((sSb eHbm).clu (cluOf 0)).wbOut.all fun p => p.2 != lineOf (paH 0x1078) + 1) = true
      ∧ ((sSb eHbm).clu (cluOf 0)).dl.length < 4096 ∧ paH 0x1078 % 128 + eHbm.bytes.length ≤ 128)
    ∧ (((sOl (vaO 0x28) (.own 0 0 0x28)).ctx 0).loads = [lOf (vaO 0x28) (.own 0 0 0x28)]
      ∧ ((sOl (vaH 0x1008) (.hbm (paH 0x1008))).ctx 0).loads = [lOf (vaH 0x1008) (.hbm (paH 0x1008))]
      ∧ (sOl (vaH 0x1008) (.hbm (paH 0x1008))).mayInject 0 = true
      ∧ ((sOl (vaH 0x1008) (.hbm (paH 0x1008))).clu (cluOf 0)).rb = []
      ∧ ((sOl (vaH 0x1008) (.hbm (paH 0x1008))).nearBytes 0
          0 { va := vaH 0x1008, loc := .hbm (paH 0x1008), size := 8 } false).all (·.isSome) = false
      ∧ ((sLn lineAll (sOl (vaH 0x1008) (.hbm (paH 0x1008)))).nearBytes 0
          0 { va := vaH 0x1008, loc := .hbm (paH 0x1008), size := 8 } false).all (·.isSome) = true) := by
  repeat' apply And.intro
  all_goals first | decide +kernel | exact ok_of (by decide +kernel)

def wr8 : Packet := { cls := .req, who := .store 0, pl := .write (.hbm (2 ^ 39 - 8)) (leBytes 8 5) }
def rd8 : Packet := { cls := .req, who := .load 0 0 0, pl := .read (.hbm (paH 0x1000)) 128 true }
def ak : Packet := { cls := .rsp, who := .store 0, pl := .ack false }
def lpW : Packet := { cls := .req, who := .store 0, pl := .write (.window 0 0 0x7FF8) (leBytes 8 5) }
def sNet (ps : List Packet) : State := { sLd with net := ps }
def sLp : State := sLd.modCore 0 fun c => { c with lp := [lpW] }

/-- R28, R72, R75: a write of the last word of class 000, a read of a line, an acknowledgement, a loop-back write. -/
theorem witness_PacketsAreDelivered :
    ((sNet [wr8]).net[0]? = some wr8 ∧ (sNet [wr8]).mayDeliver 0 = true ∧ wr8.cls = .req ∧ wr8.who = .store 0
      ∧ wr8.pl = .write (.hbm (2 ^ 39 - 8)) (leBytes 8 5) ∧ wr8.epo = none ∧ 2 ^ 39 - 8 < 2 ^ 39)
    ∧ ((sNet [ak, rd8]).net[1]? = some rd8 ∧ (sNet [ak, rd8]).mayDeliver 1 = true ∧ rd8.cls = .req
      ∧ rd8.pl = .read (.hbm (paH 0x1000)) 128 true ∧ (sNet [ak, rd8]).homeFree (lineOf (paH 0x1000)) = true)
    ∧ ((sNet [ak]).net[0]? = some ak ∧ (sNet [ak]).mayDeliver 0 = true ∧ ak.cls = .rsp ∧ ak.who = .store 0 ∧ ak.pl = .ack false)
    ∧ ((sLp.core 0).lp = lpW :: [] ∧ lpW.cls = .req ∧ lpW.pl = .write (.window 0 0 0x7FF8) (leBytes 8 5) ∧ lpW.epo = none
      ∧ sLp.bankAt 0 0 = .held) := by
  repeat' apply And.intro
  all_goals decide +kernel

/-- The one job of a package records nothing. -/
theorem modes {s : State} (h : s.jobs = [(0, s.job 0)]) (hm : (s.job 0).cfg.mode = 0) (c : Nat) : (s.job c).cfg.mode = 0 := by
  by_cases h0 : c = 0
  · rw [h0]; exact hm
  · unfold State.job
    rw [h, SMap.get_cons, if_neg h0]
    rfl

def lineDirty : CvLine := { lineAll with dirty := 1 }
def rbw : RbWord := ⟨120, .add, .s64, 7⟩
def sRec : State :=
  { sLd with homes := { sLd.homes with lines := [(paH 0x1000, { holders := [(0, 0)], recalls := some [], back := [(0, [rbw])] })] } }
def sLine (n : Nat) (l : CvLine) : State := sLn l (sJ' fun c => (c.setX 3 (BitVec.ofNat 64 (vaH 0x1000))).setX 4 (BitVec.ofNat 64 n))
def oLine : OpM := { l0 with a := .x 3, b := .imm 0 }
def sAt (ph b : Nat) (l : CvLine) : State :=
  (sLine 128 l).modCtx 0 fun c => { c with stage := { ph := ph, a := 1, b := b, keys := [paH 0x1000] } }
def sDis : State := { sAt 5 0 lineAll with discards := [(0, { job := 0, ranges := [], clus := [], homed := true, done := true })] }

/-- R80, R94 to R96, R292 to R294: a dirty line and a clean one; a recall whose last line has come back; a range that is
not whole lines, and one line; a line that is dirty, then clean once its write-backs have come. -/
theorem witness_LinesComeHome :
    ((sLine 128 lineDirty).cv 0 (paH 0x1000) = some lineDirty ∧ lineDirty.isDirty = true
      ∧ (sLine 128 lineAll).cv 0 (paH 0x1000) = some lineAll ∧ lineAll.isDirty = false)
    ∧ (paH 0x1000 % 128 = 0 ∧ paH 0x1000 < 2 ^ 39 ∧ rbw.off + rbw.esz.size ≤ 128 ∧ rbw.esz.size ≤ 8
      ∧ (sRec.home (paH 0x1000)).recalls = some [] ∧ (sRec.home (paH 0x1000)).back = [(0, [rbw])]
      ∧ (sRec.home (paH 0x1000)).waiting = [] ∧ sRec.pkg.inbox = [] ∧ ∀ c, (sRec.job c).cfg.mode = 0)
    ∧ lineRangeOk ((sLine 8 lineAll).me.lineRange oLine) = false
    ∧ (lineRangeOk ((sLine 128 lineAll).me.lineRange oLine) = true ∧ ((sLine 128 lineAll).me.lineRange oLine).2 = 128
      ∧ ((sLine 128 lineAll).me.lineRange oLine).1 = vaH 0x1000
      ∧ (sLine 128 lineAll).check 0 .prf (vaH 0x1000) 128 = .ok (.hbm (paH 0x1000)) ∧ Fresh (sLine 128 lineAll) ∧ vaH 0x1000 < 2 ^ 64
      ∧ (sLine 128 lineAll).mayInject 0 = true
      ∧ (sLine 128 lineAll).check 0 .prf (vaH 0x200000) 128 = .error (flt clsLease (vaH 0x200000)))
    ∧ ((sLine 128 lineDirty).me.stage = {} ∧ (sLine 128 lineDirty).me.sb = [] ∧ ((sLine 128 lineDirty).clu 0).rb = []
      ∧ ((sLine 128 lineDirty).clu 0).wbOut = [] ∧ (sLine 128 lineDirty).me.unack = 0
      ∧ (sLine 128 lineDirty).lineCheck .wbk (vaH 0x1000) = .ok (.hbm (paH 0x1000))
      ∧ (sLine 128 lineDirty).lineCheck .inv (vaH 0x1000) = .ok (.hbm (paH 0x1000)))
    ∧ ((sAt 2 0 lineAll).me.stage.a = 1 ∧ ((sAt 2 0 lineAll).clu 0).awaits (sAt 2 0 lineAll).me.stage.ids = false
      ∧ paH 0x1000 ∈ (sAt 2 0 lineAll).me.stage.keys
      ∧ (sAt 2 0 lineAll).cv 0 (paH 0x1000) = some lineAll)
    ∧ ((sAt 4 0 lineAll).me.stage.ph = 4 ∧ sDis.me.stage.ph = 5 ∧ (sDis.discards.get? sDis.me.stage.b).isSome = true
      ∧ (sAt 5 1 lineAll).me.stage.ph = 5 ∧ (sAt 5 1 lineAll).me.stage.out = 0
      ∧ ((sAt 5 1 lineAll).me.stage.keys.filter keyIsHome).length ≤ (sAt 5 1 lineAll).me.stage.b
      ∧ paH 0x1000 ∈ (sAt 5 1 lineAll).me.stage.keys ∧ keyIsHome (paH 0x1000) = true
      ∧ ((sAt 5 1 lineAll).clu 0).owner = some (sAt 5 1 lineAll).me.run.job) := by
  repeat' apply And.intro
  all_goals first
    | decide +kernel | exact modes (by decide +kernel) (by decide +kernel) | (unfold Fresh; decide +kernel)
    | exact ok_of (by decide +kernel) | exact err_of (by decide +kernel)

/-- A region table of empty entries, and one whose first entry is not one. -/
def sRg (c : List Byte) : State :=
  (sJ.modJob 0 fun j => { j with rgq := [0] }).modMe fun d => { d with stage := { ph := 2, cap := c } }
def zeros : List Byte := List.replicate 16384 0
def badTable : List Byte := List.replicate 16384 0xFF

theorem sRg_cap (c : List Byte) : (sRg c).me.stage.cap = c := by simp [sRg]
theorem sRg_clus (c : List Byte) : (sRg c).clus = (sJ.modJob 0 fun j => { j with rgq := [0] }).clus := by
  simp only [sRg, State.modMe_clus]
theorem sRg_rgq (c : List Byte) : ((sRg c).job 0).rgq = [0] := by
  have h : (sRg c).jobs = (sJ.modJob 0 fun j => { j with rgq := [0] }).jobs := by
    simp only [sRg, State.modMe_jobs]
  unfold State.job
  rw [h]
  rfl
theorem entWord_replicate (b : Byte) (i off n : Nat) (h : 64 * i + off + n ≤ 16384) :
    entWord (List.replicate 16384 b) i off n = leNat (List.replicate n b) := by
  unfold entWord
  rw [List.drop_replicate, List.take_replicate]
  congr 2
  omega
theorem usedRange_zeros (i : Nat) (h : i < 256) : usedRange zeros i = none := by
  unfold usedRange zeros
  rw [entWord_replicate 0 i 16 8 (by omega)]
  rfl
theorem usedRange_bad : ∃ r, usedRange badTable 0 = some r := by
  unfold usedRange badTable
  rw [entWord_replicate 0xFF 0 16 8 (by omega)]
  exact ⟨_, rfl⟩
theorem regEntry_bad (j : Job) : regEntry j badTable 0 = none := by
  unfold regEntry badTable
  rw [entWord_replicate 0xFF 0 16 8 (by omega)]
  rfl

theorem regImage_none (j : Job) (bs : List Byte) (h : ∀ i, i < 256 → usedRange bs i = none) :
    regImage j bs = .ok [] := by
  have e : ((List.range 256).filterMap fun i => (usedRange bs i).map fun r => (i, r)) = [] :=
    List.filterMap_eq_nil_iff.mpr fun i hi => by rw [h i (List.mem_range.mp hi)]; rfl
  unfold regImage
  rw [e]
  rfl

/-- R46: a captured table that is an image, and one that is none. -/
theorem witness_regionTables :
    ((sRg zeros).job 0).rgq = [0] ∧ 16384 ≤ (sRg zeros).me.stage.cap.length ∧ 16384 ≤ (sRg badTable).me.stage.cap.length
    ∧ regImage (sJ.myJob) zeros = .ok [] ∧ regImage (sJ.myJob) badTable = .error 0
    ∧ (∀ e ∈ (sRg zeros).clus, e.2.lines = [] ∧ e.2.rb = [] ∧ e.2.wbOut = []) := by
  refine ⟨sRg_rgq zeros, ?_, ?_, ?_, ?_, ?_⟩
  · exact Nat.le_of_eq (by rw [sRg_cap, zeros, List.length_replicate])
  · exact Nat.le_of_eq (by rw [sRg_cap, badTable, List.length_replicate])
  · exact regImage_none sJ.myJob zeros usedRange_zeros
  · obtain ⟨r, hr⟩ := usedRange_bad
    unfold regImage
    simp only [List.range_succ_eq_map (n := 255), List.filterMap_cons, hr, Option.map_some, List.find?_cons, regEntry_bad,
      Option.isNone_none, Bool.true_or]
  · rw [sRg_clus]
    decide +kernel

def oAt : OpA := { a0 with d := .x 5, a := .x 2, b := .x 4 }
/-- An atomic on a bank word with this value and mark. -/
def sAm (off v : Nat) (m : Bool) : State :=
  let s := (sLd.modCtx 0 fun c => c.setX 2 (BitVec.ofNat 64 (vaO off))).setBytes (kO off) (leBytes 8 v)
  if m then s.setMark (kO off) true else s

/-- R89, R97, R298: the last word of a bank, empty and full. -/
theorem witness_AtomicsInTheOwnBank :
    (Quiet (sAm 0x7FF8 9 true) ∧ (sAm 0x7FF8 9 true).me.srcOk oAt.b = true ∧ (sAm 0x7FF8 9 true).me.dstOk oAt.d = true
      ∧ (sAm 0x7FF8 9 true).me.val oAt.b = .ok (0x1122334455667788, (sAm 0x7FF8 9 true).me)
      ∧ ((sAm 0x7FF8 9 true).job (sAm 0x7FF8 9 true).me.run.job).cfg.mode = 0 ∧ oAt.esz ∈ [Esz.s32, .s64, .z32, .z64]
      ∧ (sAm 0x7FF8 9 true).check 0 .atomic ((sAm 0x7FF8 9 true).me.aAddr oAt) 8 = .ok (.own 0 0 0x7FF8)
      ∧ bankKey 0 0 0x7FF8 % 8 = 0 ∧ (sAm 0x7FF8 9 true).homes.fwait.get [] (bankKey 0 0 0x7FF8) = []
      ∧ (sAm 0x7FF8 9 true).mark (bankKey 0 0 0x7FF8) = true)
    ∧ (Quiet (sAm 0 9 false) ∧ (sAm 0 9 false).mark (bankKey 0 0 0) = false) := by
  repeat' apply And.intro
  all_goals first | decide +kernel | exact ok_of (by decide +kernel)

def sAh : State := sLd.modCtx 0 fun c => c.setX 2 (BitVec.ofNat 64 (vaH 0x1040))
def oRed : OpA := { oAt with d := .x 0 }
def oRed3 : OpA := { oRed with evp := 3 }
def atP (op : AtomOp) : Packet := { cls := .req, who := .instr 0, pl := .atomic (.hbm (2 ^ 39 - 8)) op .s64 5 0 none }
def sAp (op : AtomOp) (w : List Nat) : State :=
  { sAh with net := [atP op], homes := { sAh.homes with fwait := if w.isEmpty then [] else [(2 ^ 39 - 8, w)] } }

/-- R90, R98, R296 to R298: an atomic on a heap word nothing of which is in view; an answer that stands; requests at the
last word of class 000, with nobody and with a context waiting. -/
theorem witness_AtomicsAtTheirHome :
    (Quiet sAh ∧ sAh.me.srcOk oAt.b = true ∧ sAh.me.dstOk oAt.d = true
      ∧ sAh.me.val oAt.b = .ok (0x1122334455667788, sAh.me) ∧ sAh.cv (cluOf sAh.cur) (lineOf (paH 0x1040)) = none
      ∧ (sAh.clu (cluOf sAh.cur)).rb = [] ∧ sAh.mayInject sAh.cur = true
      ∧ sAh.check sAh.cur .atomic (sAh.me.aAddr oAt) (AtomOp.cas.size oAt.esz) = .ok (.hbm (paH 0x1040))
      ∧ sAh.atPlace sAh.cur (sAh.me.aAddr oAt) .fget (.hbm (paH 0x1040)) = .ok (.home (.hbm (paH 0x1040)))
      ∧ (sAh.setMe sAh.me).destRoom sAh.cur oAt.d oAt.esz = .ok ()
      ∧ sAh.redJoins oRed (.hbm (paH 0x1040)) (sAh.me.aAddr oRed) = false)
    ∧ sAns.me.stage.rep = some [1, 2, 3, 4, 5, 6, 7, 0x80]
    ∧ ((sAp (.op .max) []).net[0]? = some (atP (.op .max)) ∧ (sAp (.op .max) []).mayDeliver 0 = true ∧ (atP (.op .max)).cls = .req ∧ (atP (.op .max)).who = .instr 0
      ∧ (atP (.op .max)).epo = none ∧ 2 ^ 39 - 8 < 2 ^ 39 ∧ (sAp (.op .max) []).homeFree (lineOf (2 ^ 39 - 8)) = true
      ∧ ((sAp (.op .max) []).job ((sAp (.op .max) []).ctx 0).run.job).cfg.mode = 0 ∧ Esz.s64.width ≤ 64
      ∧ (sAp .fget []).mark (2 ^ 39 - 8) = false ∧ (sAp .fput [4, 8]).mark (2 ^ 39 - 8) = false
      ∧ (sAp .fput [4, 8]).homes.fwait.get [] (2 ^ 39 - 8) = 4 :: [8]
      ∧ (atP .fput).pl = .atomic (.hbm (2 ^ 39 - 8)) .fput .s64 5 0 none) := by
  repeat' apply And.intro
  all_goals first | decide +kernel | exact ok_of (by decide +kernel)

def eRed : SbEntry := { eHbm with red := some (.add, .s64, 9) }
/-- R93, R94: a RED that joins SB, and one that drains. -/
theorem witness_ReductionsGather :
    (sAh.me.srcOk oRed3.b = true ∧ sAh.me.val oRed3.b = .ok (0x1122334455667788, sAh.me)
      ∧ sAh.check sAh.cur .atomic (sAh.me.aAddr oRed3) oRed3.esz.size = .ok (.hbm (paH 0x1040))
      ∧ sAh.redJoins oRed3 (.hbm (paH 0x1040)) (sAh.me.aAddr oRed3) = true)
    ∧ (((sSb eRed).ctx 0).sb = eRed :: [] ∧ eRed.loc = .hbm (paH 0x1078) ∧ eRed.red = some (.add, .s64, 9)
      ∧ ((sSb eRed).clu (cluOf 0)).rb = [] ∧ (sSb eRed).mayInject 0 = true) := by
  repeat' apply And.intro
  all_goals first | decide +kernel | exact ok_of (by decide +kernel)

def oAcqS : OpS := ⟨h0, .pkg, .x 0, .x 2, .x 0⟩
def sBusy : State := sJ' fun c => { c with unack := 1 }
def sHold (h : Option Nat) (f : List Nat) (pa : Nat) (s : State) : State :=
  { s with homes := { s.homes with syncs := [(pa, { va := vaH 0x1040, holder := h, fifo := f })] } }
def acqP : Packet := { cls := .req, who := .instr 4, pl := .acquire (2 ^ 39 - 8) (vaH 0x1040) }
def relP : Packet := { cls := .req, who := .instr 4, pl := .release (2 ^ 39 - 8) (vaH 0x1040) }
def sObj (p : Packet) (h : Option Nat) (f : List Nat) : State :=
  sHold h f (2 ^ 39 - 8) { (placed 0).setCtx 4 { run := placedRun } with net := [p] }

/-- R83 to R86, R300, R301: an object held by nobody and by the running context; a free and a held object at its home;
a release with a context waiting and with none. -/
theorem witness_FencesAndObjects :
    (Quiet sAh ∧ sAh.syncCheck (sAh.me.sAddr oAcqS) = .ok (paH 0x1040) ∧ sAh.mayInject sAh.cur = true
      ∧ (sAh.sync (paH 0x1040)).holder ≠ some sAh.cur
      ∧ ((sHold (some 0) [] (paH 0x1040) sAh).sync (paH 0x1040)).holder = some sAh.cur
      ∧ Quiet (sHold (some 0) [] (paH 0x1040) sAh) ∧ sAh.linkAsked sAh.cur = false)
    ∧ (sBusy.me.stage = {} ∧ sBusy.me.quiet = false) ∧ sAns.me.stage.rep = some [1, 2, 3, 4, 5, 6, 7, 0x80]
    ∧ ((sObj acqP none []).net[0]? = some acqP ∧ (sObj acqP none []).mayDeliver 0 = true ∧ acqP.cls = .req ∧ acqP.who = .instr 4 ∧ 2 ^ 39 - 8 < 2 ^ 39
      ∧ (∀ c, ((sObj acqP none []).job c).cfg.mode = 0) ∧ acqP.pl = .acquire (2 ^ 39 - 8) (vaH 0x1040)
      ∧ ((sObj acqP none []).sync (2 ^ 39 - 8)).holder = none ∧ ((sObj acqP none []).sync (2 ^ 39 - 8)).fifo = []
      ∧ ((sObj acqP (some 0) []).sync (2 ^ 39 - 8)).holder ≠ none)
    ∧ ((sObj relP (some 4) [0, 8]).net[0]? = some relP ∧ (sObj relP (some 4) [0, 8]).mayDeliver 0 = true ∧ relP.pl = .release (2 ^ 39 - 8) (vaH 0x1040)
      ∧ ((sObj relP (some 4) [0, 8]).sync (2 ^ 39 - 8)).fifo = 0 :: [8]
      ∧ ((sObj relP (some 4) []).sync (2 ^ 39 - 8)).fifo = []) := by
  repeat' apply And.intro
  all_goals first
    | decide +kernel | exact modes (by decide +kernel) (by decide +kernel) | exact ok_of (by decide +kernel)

/-- Barrier 31 of the core. -/
def sBar (b : Bar) : State := sAh.modCore 0 fun c => c.setBar 31 b
def bMine : Bar := { own := true, exp := 1, cnt := 0, ctx := 0 }
def oBar : OpS := ⟨h0, .core, .p 1, .bar 31, .imm 0⟩

/-- R171 to R175, R302 to R305: a barrier of the context's own, one of another context, a free one; a phase waited for and
one that has passed; a full list of bindings; a barrier of this core and of another. -/
theorem witness_Barriers :
    (bMine.own = true ∧ bMine.ctx = (sBar bMine).cur % 4 ∧ ((sBar bMine).core 0).bar 31 = bMine)
    ∧ (((sBar { bMine with ctx := 3 }).core 0).bar 31).own = true
    ∧ (((sBar { bMine with ctx := 3 }).core 0).bar 31).ctx ≠ (sBar { bMine with ctx := 3 }).cur % 4
    ∧ ¬ ((((sBar {}).core 0).bar 31).own = true ∧ (((sBar {}).core 0).bar 31).ctx = (sBar {}).cur % 4)
    ∧ (Quiet (sBar bMine) ∧ Fresh (sBar bMine) ∧ (((sBar bMine).core 0).bar 31).ph ≠ ((sBar bMine).me.xi (.imm 1)).getLsbD 0
      ∧ (((sBar bMine).core 0).bar 31).ph = ((sBar bMine).me.xi oBar.b).getLsbD 0 ∧ (sBar bMine).me.dstOk (.x 5) = true)
    ∧ (Fresh (sBar {}) ∧ (((sBar {}).core 0).bar 31).own = false)
    ∧ (bMine.binds.length < 4 ∧ Bind.copy ∉ bMine.binds ∧ Bind.mxrow ∉ bMine.binds ∧ Bind.sink 15 ∉ bMine.binds
      ∧ Bind.cnt .job 0 ∉ bMine.binds)
    ∧ (let b := { bMine with binds := [.mxrow, .sink 0, .sink 1, .sink 2] }
       b.own = true ∧ b.ctx = (sBar b).cur % 4 ∧ 4 ≤ b.binds.length ∧ Bind.copy ∉ b.binds)
    ∧ ((sBar bMine).coordCore ((sBar bMine).me.sAddr ⟨h0, .core, .x 0, .x 10, .imm 31⟩) = some (coreOf (sBar bMine).cur)
      ∧ ((sBar bMine).me.xi (.imm 31)).toNat ≤ 31
      ∧ (sBar bMine).coordCore (packCoord 4) = some 1
      ∧ (1 : Nat) ≠ coreOf (sBar bMine).cur ∧ (sBar bMine).mayInject (sBar bMine).cur = true) := by
  repeat' apply And.intro
  all_goals first | decide +kernel | (unfold Fresh; decide +kernel) | exact ok_of (by decide +kernel)

/-- A stream descriptor (Table 06-1): base, the word at 8, counts, strides, operand, the word at 56. -/
def dscOf (base w8 : Nat) (cnt str : List Nat) (opnd w56 : Nat) : BitVec 512 :=
  BitVec.ofNat 512 (base + w8 * 2 ^ 64 + leNat (cnt.flatMap (leBytes 4)) * 2 ^ 128 + leNat (str.flatMap (leBytes 4)) * 2 ^ 256
    + opnd * 2 ^ 384 + w56 * 2 ^ 448)
/-- Streams of 16 Z32 elements on queue 1: from the bank, from the heap, to the heap; a sum of two Z64 elements; ring
streams of one tile with slots freed on queue 2. -/
def dLd : BitVec 512 := dscOf (vaO 0x100) (6 + 2 ^ 24) [16] [4] 0 0
def dHb : BitVec 512 := dscOf (vaH 0x1000) (6 + 2 ^ 24) [16] [4] 0 0
def dSt : BitVec 512 := dscOf (vaH 0x1000) (6 + 16 + 2 ^ 24) [16] [4] 0 0
def dRd : BitVec 512 := dscOf (vaH 0x1000) (7 + 32 + 256 + 2 ^ 24) [2] [8] 0 0
def dRl : BitVec 512 := dscOf (vaH 0x1000) (6 + 48 + 2 ^ 24 + 2 ^ 29) [16, 1] [4, 0] 0 (0x100 + 2 ^ 32)
def dRs : BitVec 512 := dscOf (vaH 0x1000) (6 + 64 + 2 ^ 24 + 2 ^ 29) [16, 1] [4, 0] 0 (0x100 + 2 ^ 32)
def sSt (t : Stream) : State := sJ' fun c => c.setS 15 t
def sOpen (cap : BitVec 512) : State := (sSt {}).modCtx 0 fun c =>
  { c.setX 2 (BitVec.ofNat 64 (vaO 0x40)) with stage := { ph := 2, cap := leBytes 64 cap.toNat } }
def sOdd : State := sJ' fun c => c.setX 2 (BitVec.ofNat 64 (vaO 0x41))
def tLd : Stream := { st := 1, desc := dHb }
/-- The same with no token left. -/
def sDry (t : Stream) : State := (sSt t).modJob 0 fun j => { j with cfg := { j.cfg with rlim := 1 }, tokens := 0 }
def sQ (q : Queue) : State := sJ' fun c => c.setQ 15 q
def ent (n : Nat) : QEnt := { data := BitVec.ofNat 512 n, slot := 0 }
/-- Queue 15 of rank 0 of a gang, x2 naming rank 3 and queue 15 there, or no rank. -/
def sCh (q : Queue) (w : Nat) : State := (sRk w).modCtx 0 fun c => c.setQ 15 q

/-- R107 to R109, R121 to R123, R306 to R309: a descriptor that opens, one that does not, a misaligned one; slots closed,
open near and far, ended, with a sink; events. R310 to R314: queues free, full, empty, bound and unbound. -/
theorem witness_StreamsAndQueues :
    ((sOdd.me.getX 2).toNat % 64 ≠ 0 ∧ ((sOpen dLd).me.getX 2).toNat % 64 = 0 ∧ 64 ≤ (sOpen dLd).me.stage.cap.length
      ∧ (sOpen dLd).me.openOk 15 (BitVec.ofNat 512 (leNat (sOpen dLd).me.stage.cap)) = true
      ∧ dN (BitVec.ofNat 512 (leNat (sOpen dLd).me.stage.cap)) ≠ 0
      ∧ (sOpen dRl).me.openOk 15 (BitVec.ofNat 512 (leNat (sOpen dRl).me.stage.cap)) = false)
    ∧ (((sSt {}).me.getS 15).st = 0 ∧ ((sSt tLd).me.getS 15).st = 1 ∧ ((sSt tLd).me.getS 15).feeds = none
      ∧ ((sSt tLd).me.getS 15).fault = none ∧ ((sSt tLd).me.getS 15).place = 0 ∧ ((sSt tLd).me.getS 15).draining = false
      ∧ ((sSt { tLd with st := 2 }).me.getS 15).st = 2
      ∧ ((sSt { tLd with place := 49152 }).me.getS 15).place ≠ 0
      ∧ ((sSt { tLd with place := 49152 }).me.getS 15).pos ≤ ((sSt tLd).me.xi (.imm 15)).toNat
      ∧ ((sSt tLd).me.xi (.imm 15)).toNat < dN dHb
      ∧ (sSt { tLd with place := 49152 }).mayInject (sSt { tLd with place := 49152 }).cur = true
      ∧ (sDry { tLd with place := 49152 }).mayInject (sDry { tLd with place := 49152 }).cur = false
      ∧ dN dHb ≤ ((sSt tLd).me.xi (.imm 16)).toNat)
    ∧ (((sSt { st := 2, desc := dRd, sink := some 7 }).me.getS 15).st ≠ 0 ∧ dKind dRd = kReduce
      ∧ ((sSt { st := 2, desc := dRd, sink := some 7 }).me.getS 15).sink = some 7)
    ∧ (sJ.me.evq = [] ∧ (sJ' fun c => { c with evq := [5, 6], evOvf := true }).me.evq = 5 :: [6])
    ∧ (((sQ {}).me.getQ 15).bind = .free ∧ ((sQ {}).me.getQ 15).ents.length + ((sQ {}).me.getQ 15).coming < 8
      ∧ 8 ≤ ((sQ { ents := [ent 1, ent 2, ent 3, ent 4, ent 5, ent 6, ent 7], coming := 1 }).me.getQ 15).ents.length
          + ((sQ { ents := [ent 1, ent 2, ent 3, ent 4, ent 5, ent 6, ent 7], coming := 1 }).me.getQ 15).coming
      ∧ ((sQ { ents := [ent 1, ent 2] }).me.getQ 15).ents = ent 1 :: [ent 2] ∧ ((sQ {}).me.getQ 15).ents = [])
    ∧ (let w := 2 ^ 16 + 3 * 256 + 15
       w / 2 ^ 16 = 1 ∧ w / 16 % 16 = 0 ∧ (sCh {} w).me.getX 2 = BitVec.ofNat 64 w ∧ ((sCh {} w).me.getQ 15).bind = .free
         ∧ ((sCh {} w).me.getQ 15).ents = [] ∧ ((sCh {} w).nodeOf (sCh {} w).cur).map (·.gang) = some true
         ∧ ((sCh {} w).nodeOf (sCh {} w).cur).map (·.tiles) = some 4 ∧ w / 256 % 256 < 4)
    ∧ (((sCh { bind := .chan 3 15 } 0).me.getQ 15).bind = .chan 3 15 ∧ ((sCh { bind := .chan 3 15 } 0).me.getQ 15).sent = 0
      ∧ ((sCh { bind := .chan 3 15, sent := 1 } 0).me.getQ 15).sent ≠ 0 ∧ (0 : Nat) / 2 ^ 16 = 0
      ∧ (2 ^ 17 : Nat) / 2 ^ 17 ≠ 0) := by
  repeat' apply And.intro
  all_goals first | decide +kernel | exact ok_of (by decide +kernel)

def fbs (n : Nat) : List FbElt := (List.range n).map fun i => ⟨i, vaH 0x1000 + 4 * i, leBytes 4 (i + 1)⟩
def sDel : State := (sSt { tLd with pos := 16, fb := fbs 16 }).modCtx 0 fun c => c.setQ 1 { bind := .load 15 }
def tRd (n : Nat) : Stream := { st := 1, desc := dRd, pos := 2, done := n, acc := 5, fb := [⟨n, vaH 0x1000 + 8 * n, leBytes 8 7⟩] }
def tWr : Stream := { st := 1, desc := dSt, ent := fbs 1 }
def tHop : Stream := { tLd with hop := some 7 }
def hopP : Packet := { cls := .req, who := .stream 0 15, pl := .hop 0 15 7 0 49152 (tLd.image 0 15) }
def sHop : State := { sSt tHop with net := [hopP] }
def tRl : Stream := { st := 1, desc := dRl, pos := 16, ring := some { slot := 0, tile := 0, at_ := 16 } }
def tRs : Stream := { st := 1, desc := dRs, pos := 16, ring := some { slot := 1, tile := 0, at_ := 16 } }

/-- R111 to R125: the first element from a bank, a full entry, elements that are not the last and the last of a sum, a
write, moves to a bank and between banks, ways back, a full tile and a written one. -/
theorem witness_StreamSteps :
    ((sSt { st := 1, desc := dLd }).streamsGo 0 = true ∧ dKind dLd = kLoad ∧ ((sSt tLd).ctx 0).sb = [] ∧ 0 < dN dLd
      ∧ 0 * dPpe dLd < 16 * dEpe dLd ∧ dPlane dLd = false
      ∧ (sSt { st := 1, desc := dLd }).bump.check 0 .load (dAddr dLd 0) (dSize dLd) (.clu none) = .ok (.own 0 0 0x100)
      ∧ (sSt tLd).bankAt 0 0 = .held)
    ∧ (sDel.streamsGo 0 = true ∧ ((sDel.ctx 0).getQ (dQr dHb)).bind = .load 15 ∧ dEpe dHb ≤ (fbs 16).length
      ∧ ((sDel.ctx 0).getQ (dQr dHb)).ents.length + dPpe dHb ≤ 8)
    ∧ ((sSt (tRd 0)).streamsGo 0 = true ∧ dKind dRd = kReduce ∧ (tRd 0).done + 1 ≠ dN dRd ∧ (tRd 1).done + 1 = dN dRd)
    ∧ ((sSt tWr).streamsGo 0 = true ∧ dKind dSt = kStore ∧ tWr.flt ≠ 2
      ∧ (sSt tWr).check 0 .store (dAddr dSt 0) (dEsz dSt).size (.clu tWr.tr) = .ok (.hbm (paH 0x1000))
      ∧ tWr.ent = ⟨0, vaH 0x1000, leBytes 4 1⟩ :: [] ∧ ¬ (tWr.place ≠ 0 ∧ tWr.stop = some tWr.pos)
      ∧ ((sSt tWr).clu (cluOf 0)).rb = [] ∧ ((sSt tWr).clu (cluOf 0)).wbOut = [] ∧ (sSt tWr).mayInject 0 = true)
    ∧ ((sSt tLd).moveTo 0 15 = some 49152 ∧ tLd.fb = [] ∧ tLd.hop = none ∧ (sSt tLd).mayInject 0 = true ∧ (sSt { tLd with place := 49153 }).moveTo 0 15 = some 49152)
    ∧ (sHop.net[0]? = some hopP ∧ sHop.mayDeliver 0 = true ∧ ((sHop.ctx 0).getS 15).hop = some 7)
    ∧ (({ tLd with place := 49153, stop := some 0 } : Stream).stop = some 0 ∧ ¬ (tLd.stop = some tLd.pos ∧ tLd.fb = []))
    ∧ (dKind dHb = kLoad ∧ ({ tLd with place := 49153, pos := 16 } : Stream).pos = dN dHb)
    ∧ (dKind dRl = kRingLoad ∧ dPlane dRl = false ∧ 16 = dTile dRl ∧ dQr dRl ≠ dQf dRl
      ∧ (((sSt tRl).ctx 0).getQ (dQr dRl)).ents.length < 8)
    ∧ (dKind dRs = kRingStore ∧ 16 = dTile dRs ∧ (((sSt tRs).ctx 0).getQ (dQf dRs)).ents.length < 8) := by
  repeat' apply And.intro
  all_goals first | decide +kernel | exact ok_of (by decide +kernel)

def sV : State := State.modMe {} fun c => (c.setV 2 0x0000000700000006).setP 1 5
def oV1 : OpV := { v0 with lp := 1 }
def oF1 : OpV := { vf with lp := 1, z := true }

/-- R319, R322, R326: lanes of an integer and of a float type, some of them inactive, kept and zeroed; an argument of
every sort for the special functions. -/
theorem witness_VectorLanes :
    (Dirs sV oV1.d oV1.a oV1.b ∧ ReadsV2 sV oV1.a oV1.b 0x0000000700000006 0 sV.me ∧ ReadsV1 sV oV1.a 0x0000000700000006 sV.me
      ∧ oV1.et.width ≤ 64 ∧ (∃ n, oV1.d = .v n) ∧ oV1.et.fmt? = none ∧ oF1.et.fmt? = some fp32)
    ∧ Lanes sV oV1 6 (fun i => fitted .z32 false (Esz.z32.toInt (vecLane 0x0000000700000006 4 i) + Esz.z32.toInt (vecLane 0 4 i)))
    ∧ Lanes sV oF1 6 (fun i => (fp32.add .rne (vecLane 0x0000000700000006 4 i) (vecLane 0 4 i)).1)
    ∧ (fp32.val 0x7FC00000 = .nan ∧ fp16.val 0x7C00 = .inf false ∧ bf16.val 0xFF80 = .inf true ∧ fp32.val 0x80000000 = .fin true 0 (-149)
      ∧ fp16.val 0x8001 = .fin true 1 (-24) ∧ (1 : Nat) ≠ 0) := by
  refine ⟨⟨⟨rfl, rfl, rfl⟩, ⟨sV.me, ok_of (by decide +kernel), ok_of (by decide +kernel)⟩, ok_of (by decide +kernel), by decide,
    ⟨_, rfl⟩, rfl, rfl⟩, ?_, ?_, by decide +kernel⟩
  · unfold Lanes; decide +kernel
  · unfold Lanes; decide +kernel

def oCmp : OpV := { vf with d := .p 1, lp := 1 }
def oCvt : OpV := { vf with et := .fp16, b := .imm 1 }
/-- R323 to R325: a predicate bit by bit; the upper half of a conversion; the planes of a block, and its values. -/
theorem witness_VectorComparesAndBlocks :
    (Dirs sV (.x 0) oCmp.a oCmp.b ∧ ReadsV2 sV oCmp.a oCmp.b 0x0000000700000006 0 sV.me
      ∧ (∀ i, i < 64 → (4 : Word).getLsbD i = if i < lanesN .fp32 then
          (if sV.me.active 1 i then (laneCmp .fp32 .eq (vecLane 0x0000000700000006 4 i) (vecLane 0 4 i)).1
           else !oCmp.z && (sV.me.getP 1).getLsbD i) else false))
    ∧ (Dirs sV oCvt.d oCvt.a oCvt.a ∧ ReadsV1 sV oCvt.a 0x0000000700000006 sV.me ∧ oCvt.d.isV = true
      ∧ (Opd.immVal oCvt.b).toNat < max Esz.fp32.size oCvt.et.size / min Esz.fp32.size oCvt.et.size
      ∧ (∀ j, j < lanesN oCvt.et → vecLane 0 2 j = if 16 ≤ j ∧ j < 16 + 16 then
          (if sV.me.active 7 (j - 16) then (convert .fp32 .fp16 .rne (vecLane 0x0000000700000006 4 (0 + (j - 16)))).1
           else if oCvt.z then 0 else vecLane (sV.me.oldV oCvt.d) 2 j) else vecLane (sV.me.oldV oCvt.d) 2 j))
    ∧ (oF1.et = .fp32 ∧ (Opd.immVal (.imm 1)).toNat < 2
      ∧ Lanes sV { oF1 with b := .imm 1 } 0 (fun i => dequant .rne (eltVal true 3
          (storedElt 3 0 (16 * 1 + i))) (vecLane 0 1 32)))
    ∧ (∀ e j, e < 32 → j < 2 → (0x0000000200000001 : Vec).getLsbD (32 * j + e) = (0x9 : Vec).getLsbD (e * 2 + j))
    ∧ (∀ i, 32 * 2 ≤ i → i < 512 → (0x0000000200000001 : Vec).getLsbD i = (0x9 : Vec).getLsbD i) := by
  have hb : ∀ e, e < 32 → ∀ j, j < 2 →
      (0x0000000200000001 : Vec).getLsbD (32 * j + e) = (0x9 : Vec).getLsbD (e * 2 + j) := by decide +kernel
  have hr : ∀ i, i < 512 → 32 * 2 ≤ i → (0x0000000200000001 : Vec).getLsbD i = (0x9 : Vec).getLsbD i := by decide +kernel
  refine ⟨⟨⟨rfl, rfl, rfl⟩, ⟨sV.me, ok_of (by decide +kernel), ok_of (by decide +kernel)⟩, by decide +kernel⟩,
    ⟨⟨rfl, rfl, rfl⟩, ok_of (by decide +kernel), rfl, by decide, by decide +kernel⟩,
    ⟨rfl, by decide, ?_⟩, fun e j he hj => hb e he j hj, fun i hl hi => hr i hi hl⟩
  unfold Lanes
  decide +kernel

/-- R329, R330: the active lanes of a vector; a permutation that reverses; an insertion above the lanes, which wraps. -/
theorem witness_VectorReductionsAndMoves :
    (oV1.et.width ≤ 64 ∧ Dirs sV (.x 5) oV1.a oV1.a ∧ ReadsV1 sV oV1.a 0x0000000700000006 sV.me
      ∧ activeLanes sV oV1 0x0000000700000006 16 = [6, 0] ∧ (∃ d : Fin 64, Opd.x 5 = .x d))
    ∧ Lanes sV oV1 (6 + 6 * 2 ^ 64) (fun i => (reduced .sum .z32 .rne false (activeLanes sV oV1 0x0000000700000006 (i + 1))).1)
    ∧ Lanes sV { oV1 with lp := 7 } 0 (fun i => vecLane 0x0000000700000006 4 (vecLane (BitVec.ofNat 512 (2 * (2 ^ 512 / (2 ^ 32 - 1)))) 4 i % 16))
    ∧ Lanes sV { oV1 with b := .imm 1 } (7 + 7 * 2 ^ 64) (fun _ => vecLane 0x0000000700000006 4 1)
    ∧ (∀ i, i < 16 → vecLane (6 : Vec) 4 i = (activeLanes sV oV1 0x0000000700000006 16).getD i 0)
    ∧ (∀ i, i < 16 → vecLane (9 : Vec) 4 i = if i = (sV.me.xi (.imm 16)).toNat % 16 then (sV.me.xi (.imm 9)).toNat % 2 ^ 32
        else vecLane (sV.me.getV 1) 4 i) := by
  refine ⟨⟨by decide, ⟨rfl, rfl, rfl⟩, ok_of (by decide +kernel), by decide +kernel, ⟨_, rfl⟩⟩, ?_, ?_, ?_, by decide +kernel, by decide +kernel⟩
  · unfold Lanes; decide +kernel
  · unfold Lanes; decide +kernel
  · unfold Lanes; decide +kernel

def isOwn {ε : Type} : Except ε Loc → Bool
  | .ok (.own _ _ _) => true
  | _ => false
theorem own_of {ε : Type} {e : Except ε Loc} (h : isOwn e = true) : ∃ c b off, e = .ok (.own c b off) := by
  match e with
  | .ok (.own c b off) => exact ⟨c, b, off, rfl⟩

def oVm : OpM := { m0 with esz := .z32, d := .v 4, b := .imm 0 }
def oGth : OpM := { oVm with am := .scaled, b := .v 3 }
def sVm : State := sJ' fun c =>
  ((c.setX 2 (BitVec.ofNat 64 (vaO 0x7FC0))).setV 3 (BitVec.ofNat 512 ((2 ^ 512 - 2 ^ 64) / (2 ^ 32 - 1) * 2 ^ 31 + 15))).setV 4 7
/-- R327, R328: a vector at the end of a bank; a gather whose lanes but the first two have the most negative index. -/
theorem witness_VectorMemory :
    (oVm.ord.hasRel = false ∧ oVm.ord.hasAcq = false ∧ Fresh sVm ∧ sVm.me.streams = [] ∧ sVm.me.srcOk oVm.d = true
      ∧ (∃ ps, sVm.placesOf sVm.cur .load (vecShape .z32).2 (spread (sVm.me.ea oVm 4) (vecShape .z32).1 (vecShape .z32).2) = .ok ps))
    ∧ ((sVm.me.laneAddrs oGth (sVm.me.getV 3)).map (·.1) = [0, 1]
      ∧ (∃ ps, sVm.placesOf sVm.cur .load 4 ((sVm.me.laneAddrs oGth (sVm.me.getV 3)).map (·.2)) = .ok ps))
    ∧ (∀ i, i < 16 → ∃ c b off, sVm.check sVm.cur .store (sVm.me.ea oVm 4 + 4 * i) 4 = .ok (.own c b off))
    ∧ sVm.me.valV (.v 4) = .ok (7, sVm.me) := by
  have h : ∀ i, i < 16 → isOwn (sVm.check sVm.cur .store (sVm.me.ea oVm 4 + 4 * i) 4) = true := by decide +kernel
  exact ⟨⟨rfl, rfl, rfl, rfl, rfl, ex_of (by decide +kernel)⟩, ⟨by decide +kernel, ex_of (by decide +kernel)⟩,
    fun i hi => own_of (h i hi), ok_of (by decide +kernel)⟩

/-- Shape records (Table 17-4) of 20 FP32 elements in the bank, of one, and of a quantised block of three planes. -/
def shOf (base w8 : Nat) (cnt str : List Nat) (opnd : Nat) : BitVec 512 := dscOf base w8 cnt str opnd 0
def dA : BitVec 512 := shOf (vaO 0x100) 10 [20] [4] 0
def dB : BitVec 512 := shOf (vaO 0x200) 10 [20] [4] 0
def dD : BitVec 512 := shOf (vaO 0x1000) 10 [20] [8] 0
def dOne : BitVec 512 := shOf (vaO 0x1000) 10 [1] [4] 0
def dX : BitVec 512 := shOf (vaO 0x100) 10 [32] [4] 0
def dQ : BitVec 512 := shOf (vaO 0x1000) (64 + 128 + 2 * 256 + 2048) [32] [0] (vaO 0x2000)
/-- Handles 1, 2 and 3 name A, B and D; the stage is as given. -/
def sSh (a b d : BitVec 512) (st : Stage) : State := sJ' fun c =>
  { ((c.setH 1 { st := 1, snap := a }).setH 2 { st := 1, snap := b }).setH 3 { st := 1, snap := d } with stage := st }
def oMap : OpV := { sh0 with d := .shape 3, a := .shape 1, b := .shape 2 }
def oCpy : OpV := { oMap with et := .z32, b := .x 0 }
def oRd : OpV := { oMap with b := .x 0 }
def sShd (cap : BitVec 512) : State := sOpen cap
def sFar : State := (sSh (shOf (vaO 0x180000) 10 [20] [4] 0) dB dD { ph := 1, a := 1 })
def sPart : State := (sSh dA dB dD {}).modCtx 0 fun c => c.setH 3 { st := 2, snap := dD, prog := 1, pc := c.pc }

/-- R333 to R337: a record that is one, one that is none; an addition, a copy, a sum and a quantisation, at their start,
in a unit whose load fails, with the values of a unit, and behind the last. -/
theorem witness_Shapes :
    (((sShd dA).me.getX 2).toNat % 64 = 0 ∧ 64 ≤ (sShd dA).me.stage.cap.length
      ∧ shapeOk (BitVec.ofNat 512 (leNat (sShd dA).me.stage.cap)) = true
      ∧ shapeOk (BitVec.ofNat 512 (leNat (sShd (dA ||| 32 <<< 64 <<< 16)).me.stage.cap)) = false
      ∧ (sOdd.me.getX 2).toNat % 64 ≠ 0)
    ∧ Whole (sSh dA dB dD {}) oMap (.shmap .add oMap) 2 ∧ (sSh dA dB dD {}).me.stage.ph = 0
    ∧ Whole (sSh dA dB dD {}) oCpy (.shcpy oCpy) 2
    ∧ Whole (sSh dA dB dOne {}) oRd (.shred .sum oRd) 1
    ∧ Whole (sSh dX dB dQ {}) oRd (.shqnt ⟨true, 2⟩ oRd) 1
    ∧ Whole (sSh dQ dB dX {}) oRd (.shmap .dqnt oRd) 1
    ∧ Whole sPart oMap (.shmap .add oMap) 2
    ∧ ((sSh dA dB dD { ph := 1, a := 2 }).me.stage.ph = 1 ∧ 2 ≤ (sSh dA dB dD { ph := 1, a := 2 }).me.stage.a)
    ∧ (Whole sFar oCpy (.shcpy oCpy) 2 ∧ sFar.me.stage.ph = 1 ∧ sFar.me.stage.a < 2 ∧ sFar.me.loads = []
      ∧ sFar.check sFar.cur .load (shAddr (sFar.me.getH 1).snap (1 * (64 / oCpy.et.size))) 4
          = .error (flt clsLease (vaO 0x180040))) := by
  refine ⟨by decide +kernel, ?_, by decide +kernel, ?_, ?_, ?_, ?_, ?_, by decide +kernel, ?_⟩
  · exact Or.inr (Or.inl ⟨.add, rfl, by decide, by decide +kernel, by decide +kernel, by decide +kernel, by decide +kernel,
      by decide +kernel, fun _ _ => ⟨by decide +kernel, by decide +kernel, by decide +kernel⟩⟩)
  · exact Or.inl ⟨rfl, by decide +kernel, by decide +kernel, by decide +kernel, by decide +kernel, by decide +kernel,
      by decide +kernel, by decide +kernel, by decide +kernel⟩
  · exact Or.inr (Or.inr (Or.inr (Or.inl ⟨.sum, rfl, by decide +kernel, by decide +kernel, by decide +kernel,
      by decide +kernel, by decide +kernel, by decide +kernel⟩)))
  · exact Or.inr (Or.inr (Or.inr (Or.inr ⟨⟨true, 2⟩, rfl, by decide +kernel, by decide +kernel, by decide +kernel,
      by decide +kernel, by decide +kernel, by decide +kernel, by decide +kernel⟩)))
  · exact Or.inr (Or.inr (Or.inl ⟨rfl, by decide +kernel, by decide +kernel, by decide +kernel, by decide +kernel,
      by decide +kernel, by decide +kernel⟩))
  · exact Or.inr (Or.inl ⟨.add, rfl, by decide, by decide +kernel, by decide +kernel, by decide +kernel, by decide +kernel,
      by decide +kernel, fun _ _ => ⟨by decide +kernel, by decide +kernel, by decide +kernel⟩⟩)
  · exact ⟨Or.inl ⟨rfl, by decide +kernel, by decide +kernel, by decide +kernel, by decide +kernel, by decide +kernel,
      by decide +kernel, by decide +kernel, by decide +kernel⟩, by decide +kernel, by decide +kernel, by decide +kernel,
      err_of (by decide +kernel)⟩

/-- The unit behind the loads: its values, and the places its stores take. -/
def sUnit (a b d : BitVec 512) (u : Nat) (vs : List (List Nat)) : State := sSh a b d { ph := 2, a := u, cap := packVals vs }
def nearB (s : State) (va len : Nat) : Bool := isOwn (s.check s.cur .store (va % 2 ^ 64) len)
/-- Unit 1 loads what its loads have given so far; D's unit 0 crosses the end of the banks. -/
def sPh1 (cap : List Byte) : State := sSh dA dB dD { ph := 1, a := 1, cap := cap }
def dEdge : BitVec 512 := shOf (vaO 0xFFF8) 10 [20] [8] 0
def sEdge : State := sSh dA dB dEdge { ph := 2, a := 0, cap := packVals [List.replicate 16 5, List.replicate 16 7] }
def four : List Nat := [1, 2, 0x3F800000, 0xFF800000]
theorem witness_shapeUnits :
    ((sUnit dA dB dD 1 [four, four]).me.stage.ph = 2 ∧ (sUnit dA dB dD 1 [four, four]).me.stage.b = 0
      ∧ (sUnit dA dB dD 1 [four, four]).me.stage.a < 2 ∧ (sUnit dA dB dD 1 [four, four]).me.streams = []
      ∧ unpackVals 2 (sUnit dA dB dD 1 [four, four]).me.stage.cap = [four, four]
      ∧ four.length = ((List.range (min 16 (shN dD - 1 * 16))).map (1 * 16 + ·)).length
      ∧ ((List.range 4).all fun k => nearB (sUnit dA dB dD 1 [four, four]) (shAddr dD (16 + k)) 4) = true)
    ∧ unpackVals 1 (sUnit dA dB dD 1 [four]).me.stage.cap = [four]
    ∧ ((∀ x ∈ four, x < 2 ^ Esz.fp32.width) ∧ nearB (sUnit dA dB dOne 0 [four]) (shAddr dOne 0) 4 = true)
    ∧ (unpackVals 1 (sUnit dX dB dQ 0 [List.replicate 32 0x3F800000]).me.stage.cap = [List.replicate 32 0x3F800000]
      ∧ ((List.range 3).all fun k => nearB (sUnit dX dB dQ 0 []) (shBlock dQ 0 + 4 * k) 4) = true
      ∧ nearB (sUnit dX dB dQ 0 []) (shScale dQ 0) 1 = true) := by decide +kernel

/-- Hypotheses of the clauses about one unit: loads that are made, that fail and that have all given; stores that may be
made, and the second of which fails. -/
theorem witness_shapeTurns :
    (mapTyped (.shmap .add oMap) oMap.et ∧ oMap.d = .shape 3 ∧ mapTyped (.shred .sum oRd) oRd.et)
    ∧ ((sPh1 []).me.loads = [] ∧ (sPh1 []).me.sb = [] ∧ (unitLoads (sPh1 []) oMap (.shmap .add oMap) 1).flatten[0]? = some (16, vaO 0x140, 4)
      ∧ (sPh1 []).check 0 .load (vaO 0x140) 4 = .ok (.own 0 0 0x140) ∧ (sPh1 []).bankAt 0 0 = .held)
    ∧ ((unitLoads sFar oCpy (.shcpy oCpy) 1).flatten[0]? = some (16, vaO 0x180040, 4)
      ∧ sFar.check 0 .load (vaO 0x180040) 4 = .error (flt clsLease (vaO 0x180040)))
    ∧ ([four, four].map (·.length) = (unitLoads (sPh1 []) oMap (.shmap .add oMap) 1).map (·.length)
      ∧ (sPh1 ([four, four].flatten.flatMap (leBytes 8))).me.stage.cap = [four, four].flatten.flatMap (leBytes 8)
      ∧ ∀ l ∈ [four, four], ∀ w ∈ l, w < 2 ^ 32)
    ∧ (Whole sEdge oMap (.shmap .add oMap) 2
      ∧ (let ps := unitStores sEdge oMap (.shmap .add oMap) 0 (unpackVals 2 sEdge.me.stage.cap)
         ps.take 2 = [(0, vaO 0xFFF8, leBytes 4 12), (1, vaO 0x10000, leBytes 4 12)]
           ∧ sEdge.check 0 .store (vaO 0xFFF8) 4 = .ok (.own 0 1 0x7FF8)
           ∧ sEdge.check 0 .store (vaO 0x10000) 4 = .error (flt clsLease (vaO 0x10000)))) := by
  refine ⟨⟨fun h => absurd h (by decide), rfl, fun _ => by decide, by decide⟩,
    ⟨by decide +kernel, by decide +kernel, by decide +kernel, ok_of (by decide +kernel), by decide +kernel⟩,
    ⟨by decide +kernel, err_of (by decide +kernel)⟩, by decide +kernel, ?_, by decide +kernel, ok_of (by decide +kernel),
    err_of (by decide +kernel)⟩
  exact Or.inr (Or.inl ⟨.add, rfl, by decide, by decide +kernel, by decide +kernel, by decide +kernel, by decide +kernel,
      by decide +kernel, fun _ _ => ⟨by decide +kernel, by decide +kernel, by decide +kernel⟩⟩)

/-- A window at the end of a bank with this accumulator and status, and two numbers. -/
def sWin (v : Int) (st x y : Nat) : State :=
  let s := sJ.setBytes (kO 0x7FB0) (leBytes 72 (v % (2 ^ 576 : Nat)).toNat ++ leBytes 8 st)
  s.modCtx 0 fun c => (((c.setX 1 (BitVec.ofNat 64 (vaO 0x7FB0))).setX 2 (BitVec.ofNat 64 x)).setX 3 (BitVec.ofNat 64 y)).setP 2 6
def oWin : OpV := ⟨h0, .fp32, .rne, 0, false, false, false, .x 1, .x 2, .x 3⟩
def oWv : OpV := ⟨h0, .fp32, .rne, 2, false, false, false, .x 1, .v 2, .v 3⟩
/-- The same with the first j words read. -/
def sRead (j : Nat) : State :=
  let s := sWin 5 3 0x40000000 0x40400000
  s.modCtx 0 fun c => { c with stage := { cap := (areaOf s (vaO 0x7FB0) (bankKey 0 0 0x7FB0)).take (8 * j) } }
theorem witness_WindowAccumulator :
    (Still (sWin (-(2 ^ 575)) 7 0x7F800000 0) ∧ AreaAt (sWin (-(2 ^ 575)) 7 0x7F800000 0) (vaO 0x7FB0) (bankKey 0 0 0x7FB0)
      ∧ Area (areaOf (sWin (-(2 ^ 575)) 7 0x7F800000 0) (vaO 0x7FB0) (bankKey 0 0 0x7FB0)) (-(2 ^ 575)) 7
      ∧ -((2 ^ 575 : Nat) : Int) ≤ -(2 ^ 575) ∧ -(2 ^ 575) < ((2 ^ 575 : Nat) : Int) ∧ 7 < 2 ^ 64)
    ∧ Area (areaOf (sWin (2 ^ 575 - 1) (2 ^ 64 - 1) 0 0) (vaO 0x7FB0) (bankKey 0 0 0x7FB0)) (2 ^ 575 - 1) (2 ^ 64 - 1)
    ∧ (fp32.val 0x7F800000 = .inf false ∧ fp32.val 0 = .fin false 0 (-149))
    ∧ ((sWin 0 0 0 0).me.active 2 1 = true ∧ (sWin 0 0 0 0).me.active 2 0 = false ∧ ∀ j, j < 16 → 3 ≤ j → (sWin 0 0 0 0).me.active 2 j = false)
    ∧ ((15 : Nat) % 2 = 1 ∧ (12 : Nat) / 4 % 2 = 1 ∧ (12 : Nat) / 8 % 2 = 1)
    ∧ (∃ t, (sWin 0 0 0 0).wr (.x 5) (BitVec.ofNat 64 fp32.nan) = .ok t)
    ∧ ∀ j, j < 10 → Still (sRead j) ∧ (sRead j).me.stage.cap = (areaOf (sRead j) (vaO 0x7FB0) (bankKey 0 0 0x7FB0)).take (8 * j) := by
  have h : ∀ i, i < 10 →
      okIs ((sWin (-(2 ^ 575)) 7 0x7F800000 0).check 0 .store (vaO 0x7FB0 + 8 * i) 8) (.own 0 0 (0x7FB0 + 8 * i)) = true
      ∧ okIs ((sWin (-(2 ^ 575)) 7 0x7F800000 0).check 0 .load (vaO 0x7FB0 + 8 * i) 8) (.own 0 0 (0x7FB0 + 8 * i)) = true := by
    decide +kernel
  refine ⟨⟨⟨rfl, rfl, rfl⟩, ⟨by decide +kernel, by decide +kernel, 0, 0, 0x7FB0, rfl, by decide +kernel,
      fun i hi => ⟨ok_of (h i hi).1, ok_of (h i hi).2⟩⟩, ?_, by decide +kernel, by decide +kernel, by decide +kernel⟩, ?_,
    by decide +kernel, by decide +kernel, by decide +kernel, ex_of (by decide +kernel), fun j hj => ⟨⟨rfl, rfl, rfl⟩, ?_⟩⟩
  rotate_left 2
  · revert hj; revert j; decide +kernel
  · unfold Area; decide +kernel
  · unfold Area; decide +kernel

def tMine : Tile := { own := some (0, .run) }
def tOther : Tile := { own := some (5, .run) }
def sTl (ts : SMap Tile) (js : List EJob) : State := sJ.modClu 0 fun c => { c with tiles := ts, jobs := js, jobSeq := js.length }
def jOf (k : EKind) : EJob := { id := 0, ctx := 0, lvl := .run, pc := 0, kind := k }
def sX2 (w : Nat) (s : State) : State := s.modCtx 0 fun c => c.setX 2 (BitVec.ofNat 64 w)
def sMap (es : List Nat) : State := (sX2 (vaO 0x80) sJ).modCtx 0 fun c => { c with stage := { cap := es.flatMap (leBytes 2) } }
def entOk (s : State) (e : Nat) : Bool := e == 0xFFFF || (decide (e / 8 % 64 < 48) && s.myJob.cfg.holds (cluOfCore (mapCore e)))
def okMap : List Nat := 0 :: 7 :: List.replicate 62 0xFFFF
def noMap : List Nat := 0 :: 48 * 8 :: List.replicate 62 0xFFFF
def strangeMap : List Nat := 0 :: 47 * 8 :: List.replicate 62 0xFFFF
/-- Operand records: 32 columns, rows as given, precision 4, at bank offsets. -/
def opRec (rows pb sb : Nat) : BitVec 256 :=
  BitVec.ofNat 256 (vaO pb + vaO sb * 2 ^ 64 + 32 * 2 ^ 128 + rows * 2 ^ 160 + 3 * 2 ^ 192)
/-- Lists that multiply row 0 of A into row 0 of tile 31 and skip the rest. -/
def lists : BitVec 2048 := BitVec.ofNat 2048 (leNat ((0 :: List.replicate 63 0xFFFF ++ 31 * 256 :: List.replicate 63 0xFFFF).flatMap (leBytes 2)))
def sMm (cap : List Byte) (q : List Nat) : State :=
  (((sTl [(31, tMine)] []).modCore 0 fun c => { c with mxq := q }).modCtx 0 fun c =>
    { (((c.setX 3 (BitVec.ofNat 64 (vaO 0x400))).setX 4 (BitVec.ofNat 64 (vaO 0x440))).setX 5 (BitVec.ofNat 64 (vaO 0x480))) with
      stage := { cap := cap } })
def recs : List Byte := leBytes 32 (opRec 64 0x1000 0x800).toNat ++ leBytes 32 (opRec 64 0x3000 0x900).toNat
def recsG : List Byte :=
  leBytes 32 (opRec 1 0x1000 0x800).toNat ++ leBytes 32 (opRec 64 0x3000 0x900).toNat ++ leBytes 256 lists.toNat
def oMm : OpX := ⟨h0, .tile 31, .x 3, .x 4⟩
def oGmm : OpX := ⟨h0, .x 5, .x 3, .x 4⟩

/-- R343 to R346: tiles free, mine and another's; a job that names a tile; configurations and maps that are and are not;
records and lists of MXMM and MXGMM; a queue with room and a full one. -/
theorem witness_MatrixCommands :
    (((sTl [] []).clu 0).tiles.get? 31 = none ∧ ((sTl [(31, tMine)] []).clu 0).tiles.get? 31 ≠ none
      ∧ (((sTl [(31, tMine)] []).clu 0).tile 31).own = some (0, (sTl [(31, tMine)] []).me.sys.lvl)
      ∧ (((sTl [(31, tMine)] []).clu 0).tile 31).freeing = false
      ∧ ¬ ((((sTl [(31, tOther)] []).clu 0).tile 31).own = some (0, (sTl [(31, tOther)] []).me.sys.lvl)
          ∧ (((sTl [(31, tOther)] []).clu 0).tile 31).freeing = false))
    ∧ ((jOf (.mxzero 31)).namesTile 31 = true ∧ (jOf (.mxzero 31)).isCopy = false
      ∧ jOf (.mxzero 31) ∈ ((sTl [(31, tMine)] [jOf (.mxzero 31)]).clu 0).jobs)
    ∧ ((0x00808 : Nat) / 2 ^ 24 = 0 ∧ 0x00808 / 2 ^ 12 % 16 = 0 ∧ 0x00808 / 16 % 16 = 0 ∧ 0x00808 % 16 ≤ 8 ∧ 0x00808 / 256 % 16 ≤ 8
      ∧ ¬ (9 % 16 ≤ 8))
    ∧ (((sMap okMap).me.getX 2).toNat % 128 = 0 ∧ 128 ≤ (sMap okMap).me.stage.cap.length
      ∧ ((List.range 64).all fun i => entOk (sMap okMap) (leNat (((sMap okMap).me.stage.cap.drop (2 * i)).take 2))) = true
      ∧ leNat (((sMap noMap).me.stage.cap.drop (2 * 1)).take 2) ≠ 0xFFFF
      ∧ 48 ≤ leNat (((sMap noMap).me.stage.cap.drop (2 * 1)).take 2) / 8 % 64
      ∧ entOk (sMap noMap) (leNat (((sMap noMap).me.stage.cap.drop (2 * 0)).take 2)) = true
      ∧ leNat (((sMap strangeMap).me.stage.cap.drop (2 * 1)).take 2) / 8 % 64 = 47
      ∧ (sMap strangeMap).myJob.cfg.holds (cluOfCore (mapCore (47 * 8))) = false)
    ∧ (let s := sMm recs []
       let r := BitVec.ofNat 256 (leNat (s.me.stage.cap.take 32))
       let q := BitVec.ofNat 256 (leNat ((s.me.stage.cap.drop 32).take 32))
       s.ownsTile s.cur 31 = true ∧ 64 ≤ s.me.stage.cap.length ∧ s.me.xOpd oMm.a % 32 = 0 ∧ s.me.xOpd oMm.b % 32 = 0
         ∧ opK r = opK q ∧ recordOk s.cur (mxA s.me.mxBank.cfg r) 64 64 = true ∧ recordOk s.cur (mxB s.me.mxBank.cfg q) 64 64 = true
         ∧ (s.core (coreOf s.cur)).mxq.length < 8 ∧ 8 ≤ ((sMm recs [1, 2, 3, 4, 5, 6, 7, 8]).core 0).mxq.length)
    ∧ (let s := sMm recsG []
       let r := BitVec.ofNat 256 (leNat (s.me.stage.cap.take 32))
       let l := BitVec.ofNat 2048 (leNat (s.me.stage.cap.drop 64))
       s.me.xOpd oGmm.d % 128 = 0 ∧ 320 ≤ s.me.stage.cap.length ∧ recordOk s.cur (mxA s.me.mxBank.cfg r) 1 4096 = true
         ∧ (∀ j, j < 64 → (listAt l j = 0xFFFF ∨ listAt l j < opRows r)
              ∧ (listAt l (64 + j) = 0xFFFF ∨ (listAt l (64 + j) < 2 ^ 13 ∧ listAt l (64 + j) / 64 % 4 = 0)))
         ∧ gmmTiles l = [31])
    ∧ ((256 : Nat) % 64 = 0 ∧ nearVA 0 (vaO 0x1000) = true ∧ vaO 0x1000 % 64 = 0)
    ∧ ((64 * 2 * 2 ^ 32 : Nat) / 2 ^ 48 = 0 ∧ 64 * 2 * 2 ^ 32 / 2 ^ 20 % 2 ^ 12 = 0 ∧ 64 * 2 * 2 ^ 32 / 2 ^ 32 % 64 = 0
      ∧ outRow .fp16 ≤ 64 * 2 * 2 ^ 32 / 2 ^ 32 ∧ vaO 0x1000 / 2 ^ 48 = 0xC8
      ∧ (0xC0 * 2 ^ 48 + 0x1000 : Nat) / 2 ^ 48 = 0xC0 ∧ (0xC0 * 2 ^ 48 + 0x1000 : Nat) / 2 ^ 40 % 64 < 48
      ∧ sJ.myJob.cfg.holds ((0xC0 * 2 ^ 48 + 0x1000 : Nat) / 2 ^ 46 % 4 * 48 + (0xC0 * 2 ^ 48 + 0x1000 : Nat) / 2 ^ 40 % 64) = true) := by
  refine ⟨by decide +kernel, by decide +kernel, by decide +kernel, by decide +kernel, by decide +kernel, by decide +kernel,
    by decide +kernel, by decide +kernel⟩

def sJob (j : EJob) : State := (sTl [(31, { tMine with data := [(4095, 0x7F7FFFFF)] })] [j]).modCore 0 fun c => { c with mxq := [0] }
def go (k : EKind) : EJob := { jOf k with started := true }
def card (fill : Bool) (c0 c1 : Nat) : BitVec 512 :=
  dscOf (if fill then 0 else vaO 0x100) 0 [] [] 0 0 ||| BitVec.ofNat 512 (vaO 0x7FF0 * 2 ^ 64 + c0 * 2 ^ 128 + c1 * 2 ^ 160
    + (if fill then 2 ^ 16 + 5 * 2 ^ 24 else 0) * 2 ^ 256)
def jCp : EJob := go (.copy (card false 16 1) 0)
def jBad : EJob := { go (.mxzero 31) with fault := some { code := clsMxown, org := 1 } }
def sDef (org : Nat) : State := sJ' fun c => c.modSys fun y => { y with deferred := some ⟨{ code := clsMxown, org := org }, 0, .run⟩ }
def mmLast : EJob := { go (.mxmm 31 (opRec 64 0x1000 0x800) (opRec 64 0x3000 0x900)) with
  pos := 127, bank := { cfg := 0xFC0000 + 2 ^ 17 } }

/-- A run that waits in HALT. -/
def sEnd (j : EJob) : State := (sJob j).modCtx 0 fun c => c.modSys fun y => { y with ending := 4 }
def sEndClu (j : EJob) : Clu := (sEnd j).clu 0
def readOf : EltRead → Option (List Byte)
  | .got bs _ _ => some bs
  | _ => none
/-- R102, R340, R348 to R360: jobs that have not started and run, with a row to load and to write, an operand block
left, bytes to copy; jobs that have ended, well and badly; a fault left for the boundary; a product in range, and a
scale that is not a number. -/
theorem witness_EngineSteps :
    (((sJob (jOf (.mxfree 31))).clu 0).job? 0 = some (jOf (.mxfree 31))
      ∧ ((sJob (jOf (.mxfree 31))).job ((sJob (jOf (.mxfree 31))).ctx 0).run.job).pre = .none
      ∧ ((sJob (jOf (.mxfree 31))).core (coreOf 0)).mxq = 0 :: [] ∧ (jOf (.mxfree 31)).started = false
      ∧ (jOf (.mxfree 31)).edges = [])
    ∧ ((go (.mxzero 31)).started = true ∧ (go (.mxzero 31)).ended = false ∧ (go (.mxzero 31)).fault = none
      ∧ (go (.mxzero 31)).cancelled = false ∧ (go (.mxzero 31)).edges = [])
    ∧ readOf ((sJob (go (.mxlda 31 (vaO 0x1000) 256))).readPieces 0 ((vaO 0x1000 + 0 * 256) % 2 ^ 64) 4) = some (List.replicate 256 0)
    ∧ (vaO 0x7F80 % 32768 + 64 * Esz.fp16.size ≤ 32768 ∧ 1 ≤ Esz.fp16.size ∧ (sJob (go (.mxzero 31))).bankAt 0 0 = .held
      ∧ (sJob (go (.mxzero 31))).check 0 .store (vaO 0x7F80) 1 (.clu none) = .ok (.own 0 0 0x7F80))
    ∧ (cfgUnitB mmLast.bank.cfg = true ∧ 1 ≤ opK (opRec 64 0x1000 0x800) / 32 ∧ mmLast.pos + 1 = 128 * (opK (opRec 64 0x1000 0x800) / 32)
      ∧ (readOf ((sJob mmLast).blkRead 0 ((mxB mmLast.bank.cfg (opRec 64 0x3000 0x900)).block 0 63) {}
            (mxB mmLast.bank.cfg (opRec 64 0x3000 0x900)).d)).isSome = true)
    ∧ (cardFill (card false 16 1) = false ∧ cardC0 (card false 16 1) * cardC1 (card false 16 1) ≠ 0
      ∧ (sJob jCp).touchCheck 0 .load (cardS (card false 16 1) 0 0) 16 = .ok ()
      ∧ (sJob jCp).touchCheck 0 .store (cardD (card false 16 1) 0 0) 16 = .ok ()
      ∧ (sJob jCp).check 0 .load (cardS (card false 16 1) 0 0) (jCp.step (card false 16 1)) (.clu none) = .ok (.own 0 0 0x100)
      ∧ (sJob jCp).check 0 .store (cardD (card false 16 1) 0 0) (jCp.step (card false 16 1)) (.clu none) = .ok (.own 0 0 0x7FF0))
    ∧ ({ go (.mxzero 31) with ended := true }.outs = [] ∧ cardBen (card false 16 1) = false
      ∧ jBad.isCopy = false ∧ jBad.fault = some { code := clsMxown, org := 1 } ∧ ((sJob jBad).ctx 0).sys.ending = 0
      ∧ ((sJob jBad).ctx 0).sys.deferred = none)
    ∧ (((sDef 1).ctx 0).sys.deferred = some ⟨{ code := clsMxown, org := 1 }, 0, .run⟩ ∧ ((sDef 1).ctx 0).sys.ending = 0
      ∧ ((sDef 1).ctx 0).stage = {} ∧ (1 : Nat) ≠ 0 ∧ ((sDef 1).ctx 0).sys.lvl = .run
      ∧ (sDef 1).redoes 0 { code := clsMxown, org := 1 } = false ∧ (sDef 1).banksReady 0 = true)
    ∧ ({ jCp with cancelled := true }.cancelled = true ∧ { jCp with cancelled := true }.outs = []
      ∧ { jCp with cancelled := true }.fault = none ∧ (sEndClu jBad).job? 0 = some jBad
      ∧ ((sEnd jBad).ctx 0).sys.ending = 4 ∧ ((sEnd jBad).ctx 0).sys.deferred = none)
    ∧ ((254 : Nat) < 255 ∧ 128 ≤ 254 + 110 ∧ 254 + 110 ≤ 364 ∧ (-(2 ^ 18 - 1) : Int).natAbs < 2 ^ 18) := by
  refine ⟨by decide +kernel, by decide +kernel, by decide +kernel, ⟨by decide +kernel, by decide +kernel, by decide +kernel,
    ok_of (by decide +kernel)⟩, by decide +kernel, ⟨by decide +kernel, by decide +kernel, ok_of (by decide +kernel),
    ok_of (by decide +kernel), ok_of (by decide +kernel), ok_of (by decide +kernel)⟩, by decide +kernel, by decide +kernel,
    by decide +kernel, by decide +kernel⟩

def sCps (x : SMap CpSlot) (js : List EJob) (w : Nat) : State :=
  (sTl [] js).modCtx 0 fun c => (c.setX 2 (BitVec.ofNat 64 w)).modSys fun y => { y with cps := x, cpSeq := 2 ^ 13 - 1 }
def sCard (d : BitVec 512) (x : SMap CpSlot) : State :=
  (sCps x [] (vaO 0x80)).modCtx 0 fun c => { c with stage := { ph := 2, cap := leBytes 64 d.toNat } }
def oCp : OpS := { s0 with d := .x 5, a := .x 2 }
def busy8 : SMap CpSlot := (List.range 8).map fun k => (k, { seq := k, st := 1 })

/-- R358, R359: a card that is one with its lowest free slot the last, one that is none, all slots taken; tags of jobs
queued, done and forgotten. -/
theorem witness_CopyJobs :
    (sOdd.me.stage.cap.length < 64 ∧ (sOdd.me.sAddr oCp) % 64 ≠ 0
      ∧ sOdd.checkAt 0 .capture (sOdd.me.sAddr oCp) 64 64 = .error (flt clsAlign (sOdd.me.sAddr oCp)))
    ∧ ((sCard (card false 16 1) (busy8.take 7)).me.sAddr oCp % 64 = 0 ∧ 64 ≤ (sCard (card false 16 1) (busy8.take 7)).me.stage.cap.length
      ∧ cardOk (BitVec.ofNat 512 (leNat (sCard (card false 16 1) (busy8.take 7)).me.stage.cap)) = true
      ∧ ((sCard (card false 16 1) (busy8.take 7)).me.sys.cps.get {} 7).st ≠ 1
      ∧ ((sCard (card false 16 1) (busy8.take 7)).me.sys.cps.get {} 7).st ≠ 2
      ∧ (∀ l, l < 7 → ((sCard (card false 16 1) (busy8.take 7)).me.sys.cps.get {} l).st = 1)
      ∧ cardOk (BitVec.ofNat 512 (leNat (sCard (2 ^ 400) []).me.stage.cap)) = false
      ∧ (∀ k, k < 8 → ((sCard (card false 16 1) busy8).me.sys.cps.get {} k).st = 1))
    ∧ (((sCps [(7, { seq := 9, st := 3, rdone := 4 })] [] (9 * 8 + 7)).me.sys.cps.get {} ((9 * 8 + 7) % 8)).seq = (9 * 8 + 7) / 8
      ∧ 3 ≤ ((sCps [(7, { seq := 9, st := 3, rdone := 4 })] [] (9 * 8 + 7)).me.sys.cps.get {} ((9 * 8 + 7) % 8)).st
      ∧ ((sCps [(7, { seq := 9, st := 3, rdone := 4 })] [] (8 * 8 + 7)).me.sys.cps.get {} ((8 * 8 + 7) % 8)).seq ≠ (8 * 8 + 7) / 8)
    ∧ (((sCps [(0, { seq := 9, st := 2, id := 0 })] [jCp] (9 * 8)).me.sys.cps.get {} (9 * 8 % 8)).st = 2
      ∧ ((sCps [(0, { seq := 9, st := 2, id := 0 })] [jCp] (9 * 8)).clu 0).job? 0 = some jCp) := by
  refine ⟨⟨by decide +kernel, by decide +kernel, err_of (by decide +kernel)⟩, by decide +kernel, by decide +kernel, by decide +kernel⟩

/-- A record of ten tiles in one dimension, in hand-outs of one, of two banks, with these further fields. -/
def rcdL (more : Nat) : BitVec 1024 := BitVec.ofNat 1024 (2 ^ 96 + 2 * 2 ^ 76 + 10 * 2 ^ 128 + 2 ^ 256 + more)
def gTop : Graph := { id := 2, phase := 1, counter := 3, nextId := 2 ^ 32 - 1 }
def gKid : Graph := { gTop with parent := some (1, 1) }
def oLn : OpS := { s0 with d := .p 1, a := .x 2, b := .x 3 }
/-- A capture of this record and one entry, in a job with graph 2 as given. -/
def sLn2 (r : BitVec 1024) (e : BitVec 128) (g : Graph) : State :=
  (sX2 (vaO 0x80) sJ).modCtx 0 (fun c => { c with stage := { ph := 1, cap := leBytes 128 r.toNat ++ leBytes 16 e.toNat } })
    |>.modJob 0 fun j => { j with graphs := j.graphs ++ [g] }
def fpOne : Nat := 2 ^ 576
def sMarked : State := sJ.modJob 0 fun j => { j with nodes := j.nodes.map fun x => { x with cancelled := true } }
def enters (s : State) (g : Graph) (parent : Nat) : Bool :=
  let r := BitVec.ofNat 1024 (leNat (s.me.stage.cap.take 128))
  let x : Node := { graph := 2, id := 0, rcd := r, fpt := fpEntries (s.me.stage.cap.drop 128) (rcdFpn r) }
  !s.cancelledRun s.cur && s.me.stage.ph == 1 && !(s.clu (cluOf s.cur)).awaits s.me.stage.ids && (s.me.getX 2).toNat % 8 == 0
    && decide (128 + 16 * rcdFpn r ≤ s.me.stage.cap.length) && launchCode s.myJob.cfg r == 0 && rcdFpt r % 16 == 0
    && decide (rcdFpn r ≤ 256) && x.fpt.all fpEntryOk && rcdFld r 80 63 0 == 0 && gangOk x
    && rcdFld r 96 63 32 == 2 && rcdFld r 96 31 0 == parent && s.myJob.graph? 2 == some g && !g.closed && !g.done && s.me.run.node == 1

def sLnOdd : State := sX2 (vaO 0x81) (sLn2 (rcdL 0) fpAll gTop)
/-- R187 to R190: a cancelled run; a record, an entry and a gang that are not ones; nodes at the top and of a parent, with
the last id of a graph; a graph that is closed and a parent that is none. -/
theorem witness_Launching :
    sMarked.cancelledRun sMarked.cur = true
    ∧ (enters (sLn2 (rcdL (fpOne + 2 * 2 ^ 800)) fpAll gTop) gTop 0 = true ∧ gTop.parent = none ∧ gTop.nextId < 2 ^ 32)
    ∧ (enters (sLn2 (rcdL (fpOne + 2 ^ 768 + 2 * 2 ^ 800)) fpAll gKid) gKid 1 = true ∧ gKid.parent = some (1, 1))
    ∧ enters (sLn2 (rcdL (fpOne + 5 * 2 ^ 768 + 2 * 2 ^ 800)) fpAll gKid) gKid 5 = true
    ∧ (launchCode sJ.myJob.cfg (rcdL 2) = 0x11 ∧ launchCode sJ.myJob.cfg (rcdL (2 ^ 585)) ≠ 0)
    ∧ fpEntryOk 0 = false ∧ gangOk { graph := 2, id := 0, rcd := rcdL (2 ^ 66) } = false
    ∧ (sLn2 (rcdL 0) fpAll { gTop with closed := true }).myJob.graph? 2 = some { gTop with closed := true }
    ∧ (sLnOdd.cancelledRun sLnOdd.cur = false ∧ sLnOdd.me.stage.ph = 1
      ∧ (sLnOdd.clu (cluOf sLnOdd.cur)).awaits sLnOdd.me.stage.ids = false ∧ (sLnOdd.me.getX 2).toNat % 8 = 1) := by
  decide +kernel

/-- A node of two dimensions, 8 by 8 in this order, hand-outs of 4, splits from 2, placed in clusters 0 and 1. -/
def nodeT (order more : Nat) : Node :=
  { placedNode with rcd := BitVec.ofNat 1024 (4 * 2 ^ 96 + 2 ^ 74 + 2 ^ 71 * order + 2 * 2 ^ 88 + 64 * 2 ^ 128 + 64 * 2 ^ 160
      + 8 * 2 ^ 256 + 8 * 2 ^ 272 + 3 * 2 ^ 320 + more), fpt := [fpAll], counter := 66 }
def wT (next hi : Nat) : Walker := { graph := 1, node := 1, lo := 0, next := next, hi := hi, out := 0, wid := 0 }
def sTi (x : Node) (h : Option Hand) (tile : Option (Nat × Nat)) (ws : List Walker) : State :=
  (sJ' fun c => { (c.setX 2 (2 ^ 32 + 1)) with run := { c.run with hand := h, tile := tile } }).modJob 0 (fun j => { j with nodes := [x] })
    |>.modClu 0 fun c => { c with walkers := ws }
def oTn : OpS := { s0 with d := .p 1 }
def oSpl : OpS := { s0 with d := .p 1, a := .x 2, b := .imm 0 }
def sHd (s : State) : State := s.modCtx 0 fun c => c.modSys fun y => { y with lvl := .handler }
def sKd (k : RunKind) (s : State) : State := s.modCtx 0 fun c => { c with run := { c.run with kind := k } }

/-- A SPLIT that names no walker: before and after its choice. -/
def sBest (ids : List Nat) : State :=
  (sX2 0 (sTi (nodeT 0 0) none none [wT 48 64])).modCtx 0 fun c => { c with stage := { ids := ids } }
/-- R191 to R196: a tile in orders 0, 1 and 2; a run with the last index of a hand-out left, at a walker, with nothing
left, in a handler and with a store outstanding; walkers that are long enough to split and too short. -/
theorem witness_TilesAndSpurs :
    ((nodeT 0 0).order = 0 ∧ (nodeT 1 0).order = 1 ∧ (nodeT 2 0).order = 2 ∧ 63 < (nodeT 0 0).tiles ∧ 63 < (nodeT 1 0).tiles
      ∧ 63 < (nodeT 2 0).count ∧ powUp ((nodeT 2 0).nd 0) = powUp ((nodeT 2 0).nd 1) ∧ 1 < Nat.log2 (powUp ((nodeT 2 0).nd 0)))
    ∧ (let s := sTi (nodeT 0 0) (some ⟨7, 8, 0⟩) (some (6, 0)) [wT 8 64]
       s.me.sys.lvl = .run ∧ s.me.run.kind = .tile ∧ s.me.sb = [] ∧ s.me.unack = 0 ∧ s.nodeOf s.cur = some (nodeT 0 0)
         ∧ (nodeT 0 0).cancelled = false ∧ s.me.run.hand = some ⟨7, 8, 0⟩ ∧ (nodeT 0 0).valid 7 = true)
    ∧ (let s := sTi (nodeT 0 0) none none [wT 60 64]
       s.nodeOf s.cur = some (nodeT 0 0) ∧ s.walkersOf s.me.run.job s.me.run.graph s.me.run.node = [(0, wT 60 64)]
         ∧ (wT 60 64).wid = 0 ∧ (wT 60 64).next < (wT 60 64).hi ∧ 1 ≤ (nodeT 0 0).grain ∧ s.myJob.cfg.mode = 0)
    ∧ (sTi (nodeT 0 0) none none []).walkersOf 0 1 1 = []
    ∧ ((sHd sJ).me.sys.lvl = .handler ∧ (sKd .task sJ).me.run.kind ≠ .tile ∧ (sSb eOwn).me.sb ≠ [])
    ∧ (let s := sTi (nodeT 0 0) none none [wT 48 64]
       s.me.xOpd oSpl.a = 2 ^ 32 + 1 ∧ s.myJob.node? 1 1 = some (nodeT 0 0)
         ∧ s.walker? s.me.run.job 1 1 (s.me.xi oSpl.b).toNat = some (0, wT 48 64) ∧ (nodeT 0 0).places (cluOf s.cur) = true
         ∧ (nodeT 0 0).smin ≠ 0 ∧ (nodeT 0 0).gang = false ∧ 2 * (nodeT 0 0).grain * (nodeT 0 0).smin ≤ 64 - 48
         ∧ (s.clu (cluOf s.cur)).walkers.length < 16)
    ∧ 64 - 49 < 2 * (nodeT 0 0).grain * (nodeT 0 0).smin
    ∧ ((sX2 0 sJ).me.xOpd oSpl.a = 0 ∧ (sX2 0 sJ).me.stage.ids = [] ∧ (sX2 0 sJ).bestSplit 0 0 = none)
    ∧ ((sBest []).me.xOpd oSpl.a = 0 ∧ (sBest []).me.stage.ids = []
      ∧ (sBest []).bestSplit (sBest []).me.run.job (cluOf (sBest []).cur) = some (nodeT 0 0, 0, wT 48 64))
    ∧ ((sBest [1, 1, 0]).me.xOpd oSpl.a = 0 ∧ (sBest [1, 1, 0]).me.stage.ids = [1, 1, 0]
      ∧ (sBest [1, 1, 0]).walker? 0 1 1 0 = some (0, wT 48 64))
    ∧ 16 ≤ ((sTi (nodeT 0 0) none none (List.replicate 16 (wT 48 64))).clu 0).walkers.length := by
  decide +kernel

def oWs : OpS := { s0 with d := .v 4, a := .x 2, b := .imm 0 }
def oAh (i : BitVec 17) : OpS := { s0 with d := .x 5, a := .imm i }
def oLv (l : Level) : OpS := { s0 with d := .x 5, a := .level l, b := .x 2 }
def sAr : State := sJ.modJob 0 fun j => { (j.setSlot 9 { st := .live, gen := 255 }) with
  nodes := j.nodes.map fun x => { x with arenas := [(3, 9)] }, cancelled := true }
/-- R152, R153, R369 to R373: a walker's record; an arena named and one that is not; counters of every level; marks. -/
theorem witness_CountersAndCancellation :
    (let s := sTi (nodeT 1 0) none none [{ wT 48 64 with out := 3, wid := 0, spur := true }]
     s.myJob.node? (s.me.xOpd oWs.a / 2 ^ 32) (s.me.xOpd oWs.a % 2 ^ 32) = some (nodeT 1 0)
       ∧ s.walker? s.me.run.job 1 1 (s.me.xi oWs.b).toNat = some (0, { wT 48 64 with out := 3, wid := 0, spur := true })
       ∧ sJ.myJob.node? (sJ.me.xOpd oWs.a / 2 ^ 32) (sJ.me.xOpd oWs.a % 2 ^ 32) = none)
    ∧ (sAr.me.dstOk (oAh 3).d = true ∧ (sAr.me.xi (oAh 3).a).toNat = 3 ∧ 3 < (sAr.me.xi (oAh 4).a).toNat
      ∧ (sAr.nodeOf sAr.cur).map (·.arenas.get? 3) = some (some 9) ∧ (sAr.nodeOf sAr.cur).map (·.arenas.get? 2) = some none)
    ∧ (((sX2 1 sAr).me.xOpd (oLv .phase).b = 1 ∧ ((sX2 1 sAr).myJob.phase? 1).map (·.done) = some false)
      ∧ ((sX2 1 sAr).myJob.graph? ((sX2 1 sAr).me.xOpd (oLv .graph).b)).map (·.done) = some false
      ∧ ((sX2 (2 ^ 32 + 1) sJ).me.xOpd (.x 2) = 1 * 2 ^ 32 + 1 ∧ ((sX2 (2 ^ 32 + 1) sJ).myJob.node? 1 1).map (·.st) = some .live)
      ∧ (sJ.myJob.graphs.map fun h => (h.id, h.phase)) = [(1, 1)]
      ∧ (sX2 (2 ^ 32 + 1) sJ).me.xOpd (.x 2) / 2 ^ 32 ≠ 0) := by
  decide +kernel

def dG : BitVec 256 := BitVec.ofNat 256 (2 ^ 96)
def sGo (d : BitVec 256) : State := (sX2 (vaO 0x80) sJ).modCtx 0 fun c => { c with stage := { ph := 1, cap := leBytes 32 d.toNat } }
def oGo : OpS := { s0 with d := .x 5, a := .x 2 }
def sId : State := sX2 1 sJ
/-- R374, R375: a graph with a creator, one at the top, one whose card fails; a graph and a phase to close. -/
theorem witness_GraphsAndPhases :
    (sOdd.me.stage.cap.length < 32
      ∧ sOdd.checkAt sOdd.cur .capture (sOdd.me.xOpd oGo.a) 32 32 = .error (flt clsAlign (sOdd.me.xOpd oGo.a)))
    ∧ ((sGo dG).me.xOpd oGo.a % 32 = 0 ∧ 32 ≤ (sGo dG).me.stage.cap.length ∧ BitVec.ofNat 256 (leNat (sGo dG).me.stage.cap) = dG
      ∧ ((sGo dG).nodeOf (sGo dG).cur).map (·.cancelled) = some false ∧ (sGo dG).myJob.gopenCheck ((sGo dG).nodeOf (sGo dG).cur) dG = (0, 1)
      ∧ (sGo 0).myJob.gopenCheck ((sGo 0).nodeOf (sGo 0).cur) 0 = (0, 1) ∧ dG.extractLsb' 64 32 = 0 ∧ (sGo dG).myJob.cfg.resq = 0
      ∧ ((sGo 1).myJob.gopenCheck ((sGo 1).nodeOf (sGo 1).cur) 1).1 = 4)
    ∧ (sMarked.nodeOf sMarked.cur).map (·.cancelled) = some true
    ∧ ((sId.myJob.graph? (sId.me.xOpd oGo.a)).map (·.done) = some false
      ∧ (sId.myJob.phase? (sId.me.xOpd oGo.a)).map (·.done) = some false) := by
  refine ⟨⟨by decide +kernel, err_of (by decide +kernel)⟩, by decide +kernel, by decide +kernel, by decide +kernel⟩

def oCr (i : BitVec 12) : OpS := { s0 with d := .x 5, a := .sreg i }
def oCw (i : BitVec 12) : OpS := { s0 with d := .sreg i, a := .x 2 }
def sFw (s : State) : State := s.modCtx 0 fun c => c.modSys fun y => { y with lvl := .firm }
/-- R376, R382: a destination; the three levels; numbers of every sort. -/
theorem witness_SystemRegisters :
    (sJ.me.dstOk (oCr 0x03D).d = true ∧ sJ.me.sys.lvl = .run ∧ (sHd sJ).me.sys.lvl = .handler
      ∧ (sFw sJ).me.sys.lvl = .firm)
    ∧ ((0x03D : BitVec 12) ≠ 0x004 ∧ (0x03D : BitVec 12).toNat = 0x03D ∧ (0xFFF : BitVec 12) ≠ 0x010) := by
  decide +kernel

def sJr (mode : Nat) (js : List JEv) : State := sJ.modJob 0 fun j => { j with cfg := { j.cfg with mode := mode }, journal := js }
def jrMine : JEv := ⟨jMarker, packCoord 0, 0xFFFFFFFF, []⟩
def jrOther : JEv := ⟨jMarker, packCoord 5, 0xFFFFFFFF, []⟩
def jrAll : List JEv := [jrOther, jrMine, jrMine]
def oJm : OpS := { s0 with b := .long 0xFFFFFFFF }
/-- R378, R380, R381, R417, R418: counters at 7, 8, 15 and 16; a marker in every mode. -/
theorem witness_TimeCountersAndMarkers :
    (sJ.myJob.cfg.mode = 0 ∧ (sJ.me.xi (.imm 7)).toNat = 7 ∧ (sJ.me.xi (.imm 8)).toNat = 8 ∧ (sJ.me.xi (.imm 15)).toNat = 15
      ∧ (sJ.me.xi (.imm 16)).toNat = 16)
    ∧ ((sJr 1 []).myJob.cfg.mode = 1 ∧ (sJr 2 jrAll).myJob.cfg.mode = 2
      ∧ (sJr 2 jrAll).myJob.journal = [jrOther] ++ jrMine :: [jrMine] ∧ jrMine = ⟨jMarker, packCoord (sJr 2 []).cur, (0xFFFFFFFF : BitVec 32).toNat, []⟩
      ∧ (jrMine.kind = jMarker ∧ jrMine.who = packCoord (sJr 2 []).cur) ∧ (∀ g ∈ [jrOther], ¬ (g.kind = jMarker ∧ g.who = packCoord 0))
      ∧ (∀ g ∈ (sJr 2 [jrOther]).myJob.journal, ¬ (g.kind = jMarker ∧ g.who = packCoord 0))
      ∧ ({ jrMine with val := 3 } : JEv) ≠ jrMine ∧ (0xFFFFFFFF : BitVec 32) = (BitVec.allOnes 17).signExtend 32) := by
  decide +kernel

def oTi : OpS := { s0 with a := .x 2, b := .x 3 }
def hJ : Shoot := { id := 0, job := 0, form := .range placedVA (placedVA + 1), cores := [0] }
def tlbA : Tlb := ⟨0, none, 21, placedVA / 2 ^ 21, placedPage / 2 ^ 21⟩
def sSd (inv : List Nat) : State :=
  { (sJ.modCore 0 fun k => { k with tlb := [tlbA, { tlbA with page := placedVA / 2 ^ 21 - 1 }], inv := inv }) with shoots := [hJ] }
def sTv (a : Nat) (st : Stage) : State := (sHd (sX2 a sJ)).modCtx 0 fun c => { c with stage := st }
/-- R48, R49, R377: both levels; ranges that end at and lie beyond 2^55; a coordinate; a directed invalidation that waits
and has been answered; a core that has received one and one that has not. -/
theorem witness_Shootdowns :
    (sJ.me.sys.lvl = .run ∧ (sTv 0 {}).me.sys.lvl = .handler ∧ Quiet (sTv 0 {})
      ∧ (sTv (2 ^ 55 - 1) {}).me.xOpd oTi.a + 1 ≤ 2 ^ 55 ∧ 2 ^ 55 < (sTv (2 ^ 55) {}).me.xOpd oTi.a + 1
      ∧ (sTv 31 {}).coordCore ((sTv 31 {}).me.xOpd oTi.a) = some 7)
    ∧ ((sTv 0 { ph := 5 }).me.stage.ph = 5 ∧ (∀ h ∈ (sTv 0 { ph := 5 }).shoots, h.id ≠ 0)
      ∧ ∃ h ∈ ({ sTv 0 { ph := 5 } with shoots := [hJ] } : State).shoots, h.id = 0)
    ∧ ((sSd []).shoots = [hJ] ∧ ((sSd []).clu (cluOfCore 0)).owner = some hJ.job ∧ 0 ∈ hJ.cores ∧ hJ.id ∉ ((sSd []).core 0).inv
      ∧ hJ.id ∈ ((sSd [0]).core 0).inv ∧ ((sSd [0]).core 0).cnt1 = 0 ∧ ((sSd [0]).core 0).epoch = false ∧ ∀ c ∈ hJ.cores, c = 0) := by
  refine ⟨?_, ⟨by decide +kernel, by decide +kernel, hJ, by decide +kernel⟩, by decide +kernel⟩
  repeat' apply And.intro
  all_goals decide +kernel

/-- A job with this node alone, its page backed, a pool of two frames, and this in its first cluster. -/
def poolA : List Nat := [0x80000000, 0x80200000]
def sNo (x : Node) (f : Clu → Clu) : State :=
  (sJ.modJob 0 fun j => { j with
    nodes := [x], free := poolA
    cfg := { j.cfg with backed := [(placedVA, 2 ^ 21)], pool := poolA, arpool := 2, armb := 2 ^ 33 } }).modClu 0 f
def wJ : Nat := 2 ^ 32 + 1
def nodeN1 (st : NodeSt) (more : Nat) : Node := { placedNode with rcd := rcdL (2 ^ 320 + more), fpt := [fpAll], st := st, counter := 11 }
def nodeA (st : NodeSt) (i n : Nat) : Node := nodeN1 st (n * 2 ^ (640 + 16 * i))
def fpOut : BitVec 128 := BitVec.ofNat 128 (placedVA + 2 ^ 21 + 2 ^ 21 * 2 ^ 64 + 2 * 2 ^ 112)
def pJ : Nat := placedVA / 2 ^ 21
/-- A lease of two pages, one of which is not resident, beside a pinned page, in this quota. -/
def fpWide : BitVec 128 := BitVec.ofNat 128 (placedVA - 2 ^ 21 + 2 * 2 ^ 21 * 2 ^ 64 + 2 * 2 ^ 112)
def sWide (resq : Nat) : State := (sNo { nodeN1 .ready 0 with fpt := [fpWide] } id).modJob 0 fun j =>
  { j with cfg := { j.cfg with backed := [(placedVA - 2 ^ 21, 2 * 2 ^ 21)], resq := resq }, pins := [(5, 1)] }
def sSlots (m : SMap Slot) : State := (sNo (nodeA .leased 3 2) id).modJob 0 fun j => { j with slots := m }
def slotsQ : SMap Slot := (List.range 4096).map fun k => (k, { st := .quarantined })
theorem get_of_filled {α : Type} (d v : α) (k : Nat) : ∀ l : List Nat, k ∈ l → SMap.get d (l.map fun i => (i, v)) k = v
  | [], h => absurd h (by simp)
  | a :: r, h => by
    by_cases e : k = a
    · simp [SMap.get, e]
    · have := get_of_filled d v k r (by simpa [e] using h)
      simpa [SMap.get, SMap.get?, e] using this
theorem slots_of_sSlots (m : SMap Slot) : ((sSlots m).job 0).slots = m := rfl
theorem witness_slotsTaken : ∀ k, k < 4096 → (((sSlots slotsQ).job 0).slot k).st ≠ .free := by
  intro k hk
  have h : ((sSlots slotsQ).job 0).slot k = { st := .quarantined } := by
    rw [Job.slot, slots_of_sSlots]
    exact get_of_filled _ _ k _ (List.mem_range.mpr hk)
  rw [h]; decide
/-- Hand-outs of one node in the run queues of two clusters. -/
def sAge : State :=
  (sNo (nodeN1 .live 0) fun c => { c with owner := some 0, runq := [{ graph := 1, node := 1, next := 1, hi := 2, wid := 0, since := 7, aged := 3 }] }).modClu 1
    fun c => { c with owner := some 0, runq := [{ graph := 1, node := 1, next := 2, hi := 3, wid := 0, since := 4 }] }
/-- R179 to R193: a node in every state before it is live; one with a predecessor; a lease that holds, waits, and never
holds; an arena that fits, one that waits and one that never fits; no tiles; a walker with one hand-out left. -/
theorem witness_NodesBecomeLive :
    ((sNo (nodeN1 .waiting 0) id).nodeAt 0 wJ = some (nodeN1 .waiting 0) ∧ ((sNo (nodeN1 .waiting 0) id).job 0).pre = .none
      ∧ (nodeN1 .waiting 0).preds = [] ∧ (nodeN1 .waiting 0).early = false ∧ (nodeN1 .waiting (2 ^ 67)).early = true)
    ∧ ((match ((sNo (nodeN1 .ready 0) id).job 0).leasePages (nodeN1 .ready 0) (nodeN1 .ready 0).fpt.zipIdx [] with
        | .ok ps => ps == [pJ] | .error _ => false) = true
      ∧ (sNo (nodeN1 .ready 0) id).resident 0 pJ = true ∧ ((sNo (nodeN1 .ready 0) id).job 0).cfg.resq = 0
      ∧ ((sNo (nodeN1 .ready 0) id).job 0).moves.get? pJ = none
      ∧ ((sNo (nodeN1 .ready 0) id).setBytes (placedL3 + 8 * (placedVA / 2 ^ 21 % 2 ^ 11)) (leBytes 8 0)).resident 0 pJ = false
      ∧ ((sNo (nodeN1 .ready 0) id).job 0).quotaFits [pJ] [] = true
      ∧ (match ((sNo (nodeN1 .ready 0) id).job 0).leasePages (nodeN1 .ready 0) [(fpOut, 0)] [] with
        | .ok _ => false | .error _ => true) = true
      ∧ (match ((sWide 2).job 0).leasePages { nodeN1 .ready 0 with fpt := [fpWide] } [(fpWide, 0)] [] with
        | .ok ps => ps.length == 2 && ((sWide 2).job 0).quotaFits ps (((sWide 2).job 0).heldBeside { nodeN1 .ready 0 with fpt := [fpWide] }) == false
            && ((sWide 3).job 0).quotaFits ps (((sWide 3).job 0).heldBeside { nodeN1 .ready 0 with fpt := [fpWide] }) == true
            && (ps.map ((sWide 3).resident 0)) == [false, true]
        | .error _ => false) = true)
    ∧ ((nodeN1 .leased 0).arenaSizes = [] ∧ (nodeA .leased 3 2).arenaSizes = [(3, 2)] ∧ (nodeA .leased 0 3).arenaSizes = [(0, 3)]
      ∧ ((sNo (nodeA .leased 3 2) id).job 0).free.length = 2
      ∧ ((((sNo (nodeA .leased 3 2) id).modJob 0 fun j => { j with free := [] })).job 0).free.length < 2
      ∧ ((sNo (nodeA .leased 3 2) id).job 0).cfg.arpool < 3 ∧ (((sNo (nodeA .leased 3 2) id).job 0).slot 4095).st = .free
      ∧ (nodeA .leased 3 2).arenas.get? 3 = none
      ∧ ((sNo (nodeA .leased 3 2) id).job 0).nodes.all (fun y => !((sNo (nodeA .leased 3 2) id).job 0).comesBefore y (nodeA .leased 3 2)) = true)
    ∧ ((nodeN1 .born 0).tiles ≠ 0 ∧ (nodeN1 .born 0).places 0 = true ∧ ((sNo (nodeN1 .born 0) id).clu 0).walkers.length < 16
      ∧ ({ placedNode with st := .born, rcd := 2 ^ 96 } : Node).tiles = 0)
    ∧ ((nodeN1 .live 0).redo = false ∧ (nodeN1 .live 0).gang = false ∧ ((sNo (nodeN1 .live 0) id).clu 0).owner = some 0
      ∧ ((sNo (nodeN1 .live 0) id).clu 0).runq = []
      ∧ (sNo (nodeN1 .live 0) fun c => { c with walkers := [wT 9 10] }).walker? 0 1 1 0 = some (0, wT 9 10)
      ∧ (nodeN1 .live 0).order ≠ 2 ∧ (wT 9 10).next < (wT 9 10).hi ∧ 1 ≤ (nodeN1 .live 0).grain)
    ∧ ((sNo (nodeN1 .live 0) id).oldestQueued 0 1 1 = none
      ∧ (sAge.oldestQueued 0 1 1).map (·.since) = some 4 ∧ (sAge.clu 1).owner = some 0) := by
  decide +kernel

/-- A task of the node, and its job with this core and cluster beside the run of context 0. -/
def tkJ : Task := { code := 0x77, fp := 5, jrec := 6, arg := 7, graph := 1, node := 1 }
def sRs (f : CoreSt → CoreSt) (q : List Handout) : State :=
  (sNo (nodeN1 .live 0) fun c => { c with runq := q }).modCore 0 f
def hoJ : Handout := { graph := 1, node := 1, next := 9, hi := 10, wid := 0 }
/-- R157 to R162, R181: a core with a free context and two banks to give; an entry in its mailbox, its deque, and the
run queue, with the last index of a space. -/
theorem witness_RunsStart :
    (((sRs id []).clu (cluOf 1)).owner = some 0 ∧ ((sRs id []).job 0).pre = .none ∧ ((sRs id []).job 0).savedWalkers = []
      ∧ ((sRs id []).job 0).savedHands = [] ∧ ((sRs id []).job 0).savedTasks = [] ∧ ((sRs id []).ctx 1).run.kind = .free
      ∧ (sRs id []).fits (coreOf 1) (nodeN1 .live 0) = some ⟨[], [2, 3], []⟩)
    ∧ (((sRs (fun k => { k with mail := [tkJ] }) []).core 0).mail = tkJ :: []
      ∧ (sRs id []).placeable 0 tkJ.graph tkJ.node = some (nodeN1 .live 0))
    ∧ (((sRs (fun k => { k with deque := [{ tkJ with arg := 1 }, tkJ] }) []).core 0).deque.getLast? = some tkJ
      ∧ ((sRs (fun k => { k with deque := [{ tkJ with arg := 1 }, tkJ] }) []).core 0).mail = [])
    ∧ (((sRs id [hoJ]).clu (cluOf 1)).runq = [hoJ] ∧ hoJ.rem = none ∧ hoJ.next < hoJ.hi ∧ (nodeN1 .live 0).order ≠ 2
      ∧ (sRs id [hoJ]).placeable 0 hoJ.graph hoJ.node = some (nodeN1 .live 0) ∧ (nodeN1 .live 0).places (cluOf 1) = true) := by
  decide +kernel

def sCl : State := (sJ.setBytes (bankKey 0 11 0x7FF8) (leBytes 8 77)).modCore 0 fun k => { k with clearing := [4, 11] }
def sSpl : State := sJ.modJob 0 fun j => { j with graphs := [{ id := 1, phase := 1, counter := 1, spill := [tkJ, { tkJ with arg := 8 }] }] }
/-- The node of context 0 with this record, cancelled or not, and without its run. -/
def sNd (x : Node) : State := sJ.modJob 0 fun j => { j with nodes := [x] }
def sIdle (x : Node) : State := (sNd x).setCtx 0 {}
def nodeE : Node := { placedNode with rcd := rcdL (2 ^ 320), counter := 1 }
def nodeAr : Node := { nodeE with arenas := [(3, 9)] }
/-- R51, R153, R162, R166, R180: a bank under its clear path; two spilled records; runs of cancelled nodes; nodes whose
counter is 1 with nothing left, without arenas and with one. -/
theorem witness_RunsAndNodesEnd :
    (11 ∈ (sCl.core 0).clearing ∧ sCl.byte (bankKey 0 11 0x7FF8) = 77)
    ∧ ((sSpl.job (sSpl.ownerOf 0)).pre = .none ∧ (sSpl.core 0).deque = [] ∧ (sSpl.job 0).graphs.map (·.spill) = [[tkJ, { tkJ with arg := 8 }]]
      ∧ tkJ.core = 0 ∧ (sSpl.job 0).cfg.mode = 0)
    ∧ ((sNd { nodeE with cancelled := true }).nodeOf 0 = some { nodeE with cancelled := true } ∧ nodeE.drain = false ∧ nodeE.redo = false
      ∧ ((sNd nodeE).ctx 0).run.kind ≠ .free ∧ ((sNd nodeE).ctx 0).sys.ending = 0 ∧ ((sNd nodeE).ctx 0).stage.taken = false
      ∧ (sNd nodeE).homes.fwait = [] ∧ (sNd nodeE).homes.syncs = []
      ∧ ({ nodeE with rcd := rcdL (2 ^ 320 + 2 ^ 68) } : Node).drain = true)
    ∧ ((sIdle nodeE).nodeAt 0 wJ = some nodeE ∧ nodeE.st = .live ∧ nodeE.counter = 1 ∧ (sIdle nodeE).nodeBusy 0 1 1 = false
      ∧ (sIdle nodeE).walkersOf 0 1 1 = [] ∧ (∀ h ∈ ((sIdle nodeE).job 0).graphs, h.parent ≠ some (1, 1))
      ∧ nodeE.arenas = [] ∧ (((sIdle nodeE).job 0).graph? 1).isSome = true)
    ∧ ((sIdle nodeAr).nodeAt 0 wJ = some nodeAr ∧ nodeAr.arenas ≠ []) := by
  decide +kernel

/-- A dying node whose arena 3 stands in slot 9 at this generation, with its discard. -/
def sDy (gen : Nat) (disc : Option Nat) : State :=
  ((sIdle { nodeAr with st := .dying, disc := disc }).modJob 0 fun j =>
    { j.setSlot 9 { st := .dying, gen := gen, size := 1, graph := 1, node := 1, frames := [0x80000000] } with free := [0x80200000] })
def dcJ : Discard := { job := 0, ranges := [(0x80000000, 2 ^ 21)], clus := [0] }
def sDc (d : Discard) (s : State) : State := { s with discards := [(3, d)], seq := 4 }
def sbAr : SbEntry := { eHbm with va := 0xA * 2 ^ 52 + 9 * 2 ^ 40 + 255 * 2 ^ 32 + 8 }
def sQu : State := sJ.modJob 0 fun j => j.setSlot 9 { st := .quarantined, gen := 0 }
/-- R142 to R146: arenas at the last generation and before it, a store of their names on its way, a discard under way and
done; a quarantined slot before and behind its sweep; a discard at its cluster, at its homes, and ended. -/
theorem witness_ArenasDie :
    (((sDy 255 none).nodeAt 0 wJ).map (fun x => (x.st, x.arenas, x.disc)) = some (.dying, [(3, 9)], none)
      ∧ (sDy 255 none).arenaBusy 0 nodeAr = false
      ∧ ((sDy 255 none).setCtx 4 { run := placedRun, sb := [sbAr] }).arenaBusy 0 nodeAr = true)
    ∧ ((sDc { dcJ with done := true } (sDy 255 (some 3))).discards.get? 3 = some { dcJ with done := true }
      ∧ ((sDy 255 (some 3)).job 0).slot 9 = { st := .dying, gen := 255, size := 1, graph := 1, node := 1, frames := [0x80000000] })
    ∧ ((sQu.job 0).sweep = none ∧ (∃ p ∈ (sQu.job 0).slots, p.2.st = .quarantined)
      ∧ (((sQu.modJob 0 fun j => { j with sweep := some 3 }).job 0).sweep = some 3 ∧ sQu.shoots = []))
    ∧ ((sDc dcJ sJ).discards.get? 3 = some dcJ ∧ 0 ∈ dcJ.clus ∧ dcJ.waits.get? 0 = none ∧ ((sDc dcJ sJ).clu 0).wbOut = []
      ∧ 63 ∈ (List.range 64) ∧ (sDc dcJ sJ).homes.chan = [] ∧ (sDc dcJ sJ).homes.pend = []
      ∧ ({ dcJ with homed := true, clus := [] } : Discard).homes = [])
    ∧ { (sDc dcJ sJ).homes with pend := [0x80000000] }.pend = 0x80000000 :: [] := by
  refine ⟨by decide +kernel, by decide +kernel, ⟨by decide +kernel, ⟨(9, { st := .quarantined, gen := 0 }), by decide +kernel⟩,
    by decide +kernel⟩, by decide +kernel, by decide +kernel⟩

def atL : Nat := placedL3 + 8 * (placedVA / 2 ^ 21 % 2 ^ 11)
def frT : Nat := 2 ^ 39 - 2 ^ 21
/-- The job with its fixed pages elsewhere. -/
def sPg : State := sJ.modJob 0 fun j => { j with cfg := { j.cfg with fqb := 0, code := (0, 0) } }
def sMv (m : Option Move) : State := sJ.modJob 0 fun j => { j with moves := m.toList.map fun x => (pJ, x) }
def mvJ : Move := { old := placedPage, frame := frT, shoot := 3 }
def cfgN : JobCfg := { placedCfg with pool := poolA, arpool := 2, pmask := 2 ^ 191, stk := 16, save := some (2 ^ 37) }
def sCf (c : JobCfg) : State := { sJ with pkg := { sJ.pkg with requests := [(1, c)] } }
/-- R39, R41, R60, R65: a page that may move to the last frame, one that is pinned, one not resident; a move that waits
and one that may end; a window at the end of the class and one that runs beyond it; a configuration and one that is none. -/
theorem witness_FirmwareSteps :
    (sPg.leafAt 0 pJ = some atL ∧ (sPg.job 0).moves.get? pJ = none ∧ (sPg.job 0).pins.get 0 pJ = 0
      ∧ (sPg.job 0).cfg.fixedPages.contains (pageOfKey pJ) = false ∧ sPg.frameOk 0 pJ frT = true ∧ sPg.word atL % 2 = 1
      ∧ sPg.clusOf 0 = [0]
      ∧ (let s := sPg.setBytes atL (leBytes 8 0); s.leafAt 0 pJ = some atL ∧ s.word atL % 2 = 0)
      ∧ ((sJ.modJob 0 fun j => { j with pins := [(pJ, 1)] }).job 0).pins.get 0 pJ ≠ 0 ∧ sPg.frameOk 0 pJ (frT + 128) = false)
    ∧ ((sMv (some mvJ)).leafAt 0 pJ = some atL ∧ ((sMv (some mvJ)).job 0).moves.get? pJ = some mvJ
      ∧ (sMv (some mvJ)).classify 0 mvJ.old = some (.hbm placedPage) ∧ (sMv (some mvJ)).classify 0 mvJ.frame = some (.hbm frT)
      ∧ (sMv (some mvJ)).shoots = [] ∧ (sMv (some mvJ)).net = [] ∧ ((sMv (some mvJ)).clu 0).lines = [] ∧ ((sMv (some mvJ)).clu 0).rb = []
      ∧ Memory.wf (sMv (some mvJ)).mem = true ∧ atL + 8 ≤ (Loc.hbm frT).key
      ∧ ({ sMv (some mvJ) with shoots := [{ hJ with id := 3 }] } : State).shoots.any (·.id == mvJ.shoot) = true)
    ∧ (¬ (16 ≤ 15 ∨ 32 ≤ 31 ∨ (2 ^ 39 - 128) % 128 ≠ 0 ∨ 128 % 128 ≠ 0 ∨ 128 = 0 ∨ 2 ^ 39 < 2 ^ 39 - 128 + 128
          ∨ 2 ^ 39 ≤ 2 ^ 39 - 4 ∨ 2 ^ 39 < 2 ^ 39 - 4 + 128 / 128 * (128 / (4 * (31 / 2 % 8 + 1)))
          ∨ (31 % 2 = 1 ∧ ∃ p ∈ sJ.pkg.windows, p.1 ≠ 15 ∧ winEn p.2 = true ∧ 2 ^ 39 - 128 < winBase p.2 + winLen p.2
              ∧ winBase p.2 < 2 ^ 39 - 128 + 128)) ∧ 2 ^ 39 < 2 ^ 39 - 128 + 256
      ∧ ¬ (∃ p ∈ sJ.jobs, ∃ f ∈ p.2.cfg.pool, 2 ^ 39 - 128 < f + 2 ^ 21 ∧ f < 2 ^ 39)
      ∧ ∃ p ∈ (sNo (nodeN1 .live 0) id).jobs, ∃ f ∈ p.2.cfg.pool, 0x803FFF80 < f + 2 ^ 21 ∧ f < 0x803FFF80 + 128)
    ∧ (sJ.pkg.requests.get? 1 = none ∧ (sCf cfgN).pkg.requests.get? 1 = some cfgN ∧ ((sCf cfgN).job 1).nodes = []
      ∧ (sCf cfgN).configOk 1 cfgN = true ∧ (sCf cfgN).configOk 1 { cfgN with arpool := 3 } = false
      ∧ (sCf cfgN).configOk 1 { cfgN with pmask := 1 } = false) := by
  decide +kernel

def sPr (p : Pre) (s : State) : State := s.modJob 0 fun j => { j with pre := p }
/-- The context at rest, saved with a bank of one byte, in a job whose cluster nobody holds. -/
def svJ : Saved :=
  { no := 0, coord := 9, ctx := { run := { placedRun with banks := [7] }, pc := 0x900 }, banks := [[(32767, 9)]], marks := [[8]] }
def sRe : State :=
  ((sPr .saved (sIdle (nodeN1 .live 0))).modJob 0 fun j => { j with saved := [svJ] }).modClu 0 fun c => { c with owner := none }
/-- R198 to R201: a job in every phase of its pre-emption. -/
theorem witness_Preemption :
    ((sJ.job 0).pre = .none ∧ sJ.clusOf 0 = [0] ∧ sJ.ctxsOf 0 = [0])
    ∧ (((sPr .stopped sJ).ctxsOf 0).any (fun n => ((sPr .stopped sJ).ctx n).stage.divides) = false
      ∧ ((sPr .stopped sJ).ctx 0).stage.shp = none
      ∧ ((sPr .stopped (sJ' fun c => { c with stage := { ph := 5 } })).ctxsOf 0).any
          (fun n => ((sPr .stopped (sJ' fun c => { c with stage := { ph := 5 } })).ctx n).stage.divides) = true)
    ∧ (((sPr .withdrawn sJ).clu 0).jobs = [] ∧ (∀ i, i < 8 → ((sPr .withdrawn sJ).core (0 * 8 + i)).lp = []) ∧ (sPr .withdrawn sJ).net = []
      ∧ (∀ n ∈ (sPr .withdrawn sJ).ctxsOf 0, ((sPr .withdrawn sJ).ctx n).sb = [] ∧ ((sPr .withdrawn sJ).ctx n).unack = 0
          ∧ ((sPr .withdrawn sJ).ctx n).loads = [] ∧ ((sPr .withdrawn sJ).ctx n).stage = {} ∧ ((sPr .withdrawn sJ).ctx n).streams = [])
      ∧ ((sPr .withdrawn sBusy).ctx 0).unack ≠ 0)
    ∧ (((sPr .drained sJ).clu 0).wbOut = [] ∧ ((sPr .drained sJ).clu 0).rb = [] ∧ ((sPr .drained sJ).clu 0).runq = []
      ∧ ((sPr .drained sJ).clu 0).lines = [] ∧ ((sPr .drained sJ).ctx 0).run.banks[1]? = some 1
      ∧ 1 ∉ ((sPr .drained sJ).core (coreOf 0)).clearing)
    ∧ ((sRe.job 0).pre = .saved ∧ (sRe.job 0).cfg.mode = 0 ∧ sRe.pkg.requests.get? 0 = none ∧ sRe.pkg.retained = []
      ∧ (∀ q, q < 192 → (sRe.job 0).cfg.holds q = true → (sRe.clu q).owner = none) ∧ (sRe.job 0).saved = [svJ]
      ∧ (sRe.job 0).savedWalkers = [] ∧ (sRe.job 0).savedHands = [] ∧ (sRe.job 0).savedTasks = [] ∧ sRe.homes.syncs = []
      ∧ svJ.ctx.run.kind ≠ .gang ∧ (sRe.job 0).node? 1 1 = some (nodeN1 .live 0) ∧ (nodeN1 .live 0).places 0 = true
      ∧ (sRe.job 0).cfg.holds 0 = true ∧ (∀ i, i < 4 → (sRe.ctx (0 * 4 + i)).run.kind = .free) ∧ (sRe.core 0).clearing = []
      ∧ svJ.ctx.run.banks.length ≤ 12 ∧ svJ.banks.length = svJ.ctx.run.banks.length ∧ svJ.marks.length = svJ.banks.length
      ∧ ∀ im ∈ svJ.banks, Memory.wf im = true ∧ ∀ p ∈ im, p.1 < 32768) := by
  refine ⟨by decide +kernel, by decide +kernel, ?_, by decide +kernel, ?_⟩
  all_goals repeat' apply And.intro
  all_goals first | decide +kernel | exact fun n hn => by revert n hn; decide +kernel

def ptJ (r : Nat) : Port := { node := 5, retries := r }
def sPt (r : Nat) : State := { sJ with pkg := { sJ.pkg with ports := [(17, ptJ r), (3, { node := 5 })] } }
def apJ (acc : Nat) : Aperture := { pabase := 2 ^ 39 - 256, inbase := 2 ^ 63, len := 256, node := 4, en := true, acc := acc }
def sAp2 (acc : Nat) : State := sJ.modJob 0 fun j => { j with cfg := { j.cfg with aps := [apJ acc], rlim := BitVec.ofNat 64 (10 + 12 * 2 ^ 32) } }
/-- R400 to R407: a port at its sixteenth retry, beside another of its node; the last port and node; an aperture whose
last bytes are asked for, and a byte beyond it. -/
theorem witness_LinksAndInbound :
    ((sPt 16).pkg.ports.get? 17 = some (ptJ 16) ∧ (ptJ 16).up = true ∧ (ptJ 15).retries < 16
      ∧ (∃ q ∈ (sPt 16).pkg.ports, q.1 ≠ 17 ∧ q.2.node = 5 ∧ q.2.up = true)
      ∧ (∀ q ∈ ({ sPt 16 with pkg := { sJ.pkg with ports := [(17, ptJ 16)] } } : State).pkg.ports, q.1 ≠ 17 → q.2.node = 5 → q.2.up = false))
    ∧ ((sPt 0).pkg.ports.get? 3 = some { node := 5 } ∧ ({ node := 5 } : Port).node ≠ 7
      ∧ (∀ r ∈ ({ sPt 0 with pkg := { sJ.pkg with ports := [(3, { node := 5 })] } } : State).pkg.ports, r.1 ≠ 3 → r.2.node = 5 → r.2.up = false))
    ∧ (∀ q ∈ (sPt 0).pkg.ports, q.2.node = 6 → q.2.up = false)
    ∧ (255 < 256 ∧ (17 * 4 + 3) / 4 % 32 < 18)
    ∧ ((sAp2 3).jobs.map (·.1) = [0] ∧ ((sAp2 3).job 0).cfg.aps = [apJ 3] ∧ (apJ 3).inbase ≤ 2 ^ 63 + 248
      ∧ 2 ^ 63 + 248 + 8 ≤ (apJ 3).inbase + (apJ 3).len ∧ ¬ (2 ^ 63 + 248 + 9 ≤ (apJ 3).inbase + (apJ 3).len)
      ∧ ((apJ 3).pabase + (2 ^ 63 + 248 - (apJ 3).inbase)) + 8 ≤ 2 ^ 39 ∧ ((apJ 3).pabase + 248) % 8 = 0
      ∧ ∀ l ∈ linesOf (2 ^ 39 - 8) 8, (sAp2 3).homeFree l = true) := by
  refine ⟨⟨by decide +kernel, by decide, by decide, ⟨(3, { node := 5 }), by decide +kernel⟩, by decide +kernel⟩, by decide +kernel, by decide +kernel, by decide, by decide +kernel⟩

/-- A job whose heap holds a launch record for graph 2, which is as given. -/
def sHl (r : BitVec 1024) (g : Graph) : State := (sLn2 0 0 g).setBytes (paH 0x2000) (leBytes 128 r.toNat)
/-- A configured job, with the commands of its host node, link node 0, and one reply on its way. -/
def sHc (q : List HostCmd) (net : List Packet) (s : State) : State :=
  let s := s.modJob 0 fun j => { j with configured := true }
  { s with net := net, pkg := { s.pkg with cmds := SMap.setD [] s.pkg.cmds 0 q } }
def pkHost (bs : List Byte) : Packet := { cls := .rsp, who := .host 0, pl := .value bs false }
def cmL (cap : List Byte) : HostCmd := { job := 0, op := .launch (vaH 0x2000), cap := cap, wait := true }
/-- Whether a reply can be delivered to the launch under way, that has its bytes but the last word's. -/
def hostGets (r : BitVec 1024) (g : Graph) : Bool :=
  let bs := leBytes 128 r.toNat
  let s := sHc [cmL (bs.take 120)] [pkHost (bs.drop 120)] (sHl r g)
  s.net[0]? == some (pkHost (bs.drop 120)) && s.mayDeliver 0 && s.pkg.cmds.get [] 0 == [cmL (bs.take 120)]
    && (bs.take 120 ++ bs.drop 120).length == 128 && (s.job 0).configured && cmdNode 0 == (s.job 0).cfg.host && (s.job 0).cfg.mode == 0
def hlOk (r : BitVec 1024) (g : Graph) : Bool :=
  let j := (sHc [] [] (sHl r g)).job 0
  hostGets r g && BitVec.ofNat 1024 (leNat (leBytes 128 r.toNat)) == r && launchCode j.cfg r == 0 && rcdFpn r == 0 && rcdFpt r % 16 == 0
    && rcdFld r 96 31 0 == 0 && rcdFld r 96 63 32 == 2 && (List.range 4).all (fun i => decide (rcdFld r 80 (16 * i + 15) (16 * i) ≤ 2048))
    && gangOk { graph := 2, id := 0, rcd := r, fpt := [] } && j.graph? 2 == some g
/-- A record with a footprint table of 256 entries, or a table at no multiple of 16. -/
def rcdT (n a : Nat) : BitVec 1024 := rcdL (2 * 2 ^ 800 + n * 2 ^ 576 + a * 2 ^ 512)
/-- R366 to R372, R401, R404, R409: commands of the host node and of another, and to a job never configured; a command that
waits behind another; a record's first word, its eighth and its last, that the host may and may not launch; one the agent cannot
read; a live node; both states of the seed. -/
theorem witness_HostCommands :
    (hlOk (rcdL (2 * 2 ^ 800)) gTop = true ∧ hlOk (rcdL (2 * 2 ^ 800)) { gTop with closed := true } = true
      ∧ gTop.closed = false ∧ gTop.done = false ∧ gTop.parent = none ∧ gTop.nextId < 2 ^ 32
      ∧ ((((sHl (rcdL (2 * 2 ^ 800)) gTop).job 0).nodes.filter fun z => z.graph == 2 && z.st != .done).length < 256)
      ∧ hostGets (rcdL 2) gTop = true ∧ launchCode (sJ.job 0).cfg (rcdL 2) ≠ 0)
    ∧ ((sJ.job 0).configured = false ∧ ((sHc [] [] sJ).job (cmdJob 0)).configured = true ∧ cmdNode 0 = ((sHc [] [] sJ).job 0).cfg.host
      ∧ cmdJob (2 ^ 32 * 255) = 0 ∧ cmdNode (2 ^ 32 * 255) ≠ ((sHc [] [] sJ).job 0).cfg.host ∧ ((sHc [] [] sJ).job 0).cfg.mode = 0
      ∧ (sHc [cmL []] [] sJ).pkg.cmds.get [] 0 = [cmL []] ∧ (cmL []).wait = true ∧ (sHc [] [] sJ).pkg.cmds.get [] 0 = [])
    ∧ (vaH 0x2000 % 8 = 0 ∧ (sHc [] [] sJ).agentPlace 0 (vaH 0x2000) = some (.hbm (paH 0x2000)) ∧ (sHc [] [] sJ).agentPlace 0 (2 ^ 50) = none
      ∧ (vaH 0x2000 + 4) % 8 ≠ 0)
    ∧ (let s := sHc [cmL (leBytes 56 7)] [pkHost (leBytes 8 9)] sJ
      s.net[0]? = some (pkHost (leBytes 8 9)) ∧ s.mayDeliver 0 = true ∧ s.pkg.cmds.get [] 0 = [cmL (leBytes 56 7)]
      ∧ (leBytes 56 7 ++ leBytes 8 9).length = 64 ∧ (vaH 0x2000 + 64) % 8 = 0 ∧ (s.agentPlace 0 (vaH 0x2000 + 64)).isSome = true)
    ∧ (hostGets (rcdT 1 8) gTop = true ∧ launchCode (sJ.job 0).cfg (rcdT 1 8) = 0 ∧ rcdFpt (rcdT 1 8) % 16 ≠ 0
      ∧ hostGets (rcdT 256 (vaH 0x3000)) gTop = true ∧ launchCode (sJ.job 0).cfg (rcdT 256 (vaH 0x3000)) = 0
      ∧ rcdFpn (rcdT 256 (vaH 0x3000)) = 256 ∧ rcdFpt (rcdT 256 (vaH 0x3000)) = vaH 0x3000 ∧ vaH 0x3000 % 16 = 0
      ∧ (sJ.agentPlace 0 (vaH 0x3000)).isSome = true)
    ∧ ((((sHc [] [] sJ).job 0).node? 1 1).map (·.st) = some .live ∧ (((sHc [] [] sJ).job 0).graph? 1).map (·.done) = some false)
    ∧ (sJ.pkg.seedLock = false ∧ ({ sJ with pkg := { sJ.pkg with seedLock := true } } : State).pkg.seedLock = true) := by
  decide +kernel

def sSc (c : SecSt) (d : Nat) (t : Option Nat) : State := { sJ with pkg := { sJ.pkg with sec := c, dbg := d, tenant := t, fwMin := 3 } }
/-- R408 to R413: every security state; versions; debug of the token's tenant, and of another; an island that sleeps. -/
theorem witness_SecurityAndDebug :
    ((sSc .unprovisioned 0 none).pkg.fwMin ≤ 3 ∧ 2 < (sSc .locked 0 none).pkg.fwMin ∧ (sSc .locked 0 none).pkg.sec = .locked)
    ∧ ((sSc .debug 2 (some 0)).pkg.sec = .debug ∧ (sSc .debug 2 (some 0)).pkg.dbg = 2 ∧ ((sSc .debug 2 (some 0)).ctx 0).run.kind ≠ .free
      ∧ (sSc .debug 2 (some 0)).pkg.retained = [] ∧ (sSc .debug 2 (some 0)).pkg.tenant = some ((sSc .debug 2 (some 0)).ctx 0).run.job
      ∧ (sSc .debug 2 (some 1)).pkg.tenant ≠ some ((sSc .debug 2 (some 1)).ctx 0).run.job ∧ (sSc .debug 1 none).pkg.dbg = 1)
    ∧ (({ sJ with pkg := { sJ.pkg with gated := [coreIsland (coreOf 0)] } } : State).pkg.gated.contains (coreIsland (coreOf 0)) = true
      ∧ ({ sJ with pkg := { sJ.pkg with off := true } } : State).pkg.off = true ∧ (∀ r, sJ.agenda ≠ .event .coldReset :: r)
      ∧ ({ sJ with agenda := [.event .coldReset] } : State).agenda = .event .coldReset :: []) := by
  refine ⟨by decide +kernel, by decide +kernel, by decide +kernel, by decide +kernel, fun r => by simp [sJ, State.modCtx, State.modJob, placeWord, State.setCtx, State.setJob], rfl⟩

/-- A second island runs the node of the first, and waits at a barrier. -/
def sBoost : State := sJ.setCtx 16 { run := placedRun, stage := { bar := some 5, b := 2 } }
/-- R176, R411 to R415: the last die and its islands; the busy island of the run; a die whose clusters nobody holds; a run
of a node that is restartable and of one that is not. -/
theorem witness_PowerAndErrors :
    ((∀ k ∈ [1532, 1533, 1534, 1535], (∀ i, i < 4 → (sJ.ctx (k * 4 + i)).run.kind = .free) ∧ (sJ.core k).kept = [] ∧ (sJ.core k).clearing = [])
      ∧ ((∀ k, k < 16 → (sBoost.ctx ((0 * 8 + 1 * 4) * 4 + k)).run.kind = .free ∨ ((sBoost.ctx ((0 * 8 + 1 * 4) * 4 + k)).stage.bar ≠ none ∧ 2 ≤ (sBoost.ctx ((0 * 8 + 1 * 4) * 4 + k)).stage.b))
        ∧ (0, 1, 1) ∈ sBoost.islandNodes 1 ∧ (0, 1, 1) ∈ sBoost.islandNodes 0 ∧ sBoost.pkg.boosted.contains 0 = false)
      ∧ sJ.pkg.gated.contains (3 * 128 + 95) = false ∧ (sJ.ctx 0).run.kind ≠ .free ∧ sJ.pkg.boosted.contains 0 = false
      ∧ (sJ.clu 191).jobs = [] ∧ (sJ.clu 191).tiles = [])
    ∧ ((∀ p ∈ sJ.clus, p.1 / 48 = 3 → p.2.owner = none) ∧ sJ.pkg.retained.contains 3 = false
      ∧ ∃ p ∈ sJ.clus, p.1 / 48 = 0 ∧ ∃ j, p.2.owner = some j ∧ (sJ.job j).pre ≠ .saved)
    ∧ ((sJ.ctx 6143).run.kind = .free ∧ (sJ.ctx 0).sys.ending = 0 ∧ nodeE.redo = false ∧ nodeE.restartable = true
      ∧ (sNd nodeE).nodeOf 0 = some nodeE ∧ ({ nodeE with marked := true } : Node).restartable = false) := by
  refine ⟨⟨fun k hk => ?_, by decide +kernel⟩, ⟨by decide +kernel, by decide +kernel, (0, sJ.clu 0), by decide +kernel, by decide, 0, by decide +kernel⟩,
    by decide +kernel⟩
  refine ⟨?_, ?_, ?_⟩
  · revert k hk; decide +kernel
  · revert k hk; decide +kernel
  · revert k hk; decide +kernel

/-! ## kas and kld -/

/-- R247: a value of each size; places of one section and of two. -/
theorem witness_KasImmediates :
    ((-65536 : Word).toInt = -65536 ∧ (65535 : Word).toInt = 65535 ∧ (65536 : Word).toInt = 65536
      ∧ ((65536 : Word).truncate 32).signExtend 64 = (65536 : Word) ∧ ((0x100000000 : Word).truncate 32).signExtend 64 ≠ (0x100000000 : Word))
    ∧ (∃ c : Kas.At, c.pc = .rel (.sec 1) none 16 0 ∧ c.long = true ∧ ((64 : Word) + 0 - (16 + 0)).toInt % 4 = 0
      ∧ ((66 : Word) + 0 - (16 + 0)).toInt % 4 ≠ 0 ∧ ((0x40010 : Word) + 0 - (16 + 0)).toInt / 4 = 65536) := by
  refine ⟨by decide, ⟨⟨[], .rel (.sec 1) none 16 0, true⟩, rfl, rfl, by decide, by decide, by decide⟩⟩

/-- An object of one text section, two rodata words and three relocations; its image. -/
def kofTiny : Kof.Obj :=
  { secs := [{}, { kind := 1, size := 12, kern := 0xFFFFFFFF, bytes := bytesOfWord 0x401C00334000030000080000 },
             { kind := 2, alog2 := 3, size := 16, kern := 0xFFFFFFFF, bytes := List.replicate 16 0 }],
    syms := [{}, { sect := 1 }, { sect := 2 }],
    rels := [⟨0, 1, 6, 2, 0⟩, ⟨0, 2, 1, 1, 0⟩, ⟨8, 2, 2, 2, -4⟩] }
def kofBase : Nat := 0x80000000 - 2 ^ 21
/-- R259 to R261: every kind at the edge of its check; a patch that fits and one that does not; an object that links. -/
theorem witness_RelocationsAndLinking :
    (Kof.relValue 6 0x3FFFC 0 0 = some 65535 ∧ Kof.relValue 6 0x40000 0 0 = none ∧ Kof.relValue 6 2 0 0 = none
      ∧ Kof.relValue 7 0x40000 0 0 = some 65536 ∧ Kof.relValue 5 65536 0 0 = none ∧ Kof.relValue 2 0xFFFFFFFF 0 0 = some 0xFFFFFFFF
      ∧ Kof.relValue 2 0x100000000 0 0 = none ∧ Kof.relValue 3 0x80000000 0 0 = none ∧ Kof.relValue 4 0xC800000000 0 0 = some 0xC8)
    ∧ (Kof.patch [0, 0, 0, 0] 0 2 7 = some [7, 0, 0, 0] ∧ Kof.patch [0, 0, 0, 0] 1 2 7 = none)
    ∧ ((Kof.link kofBase [{ obj := kofTiny }]).map fun m => (m.secs.map (·.addr), m.rels.length))
      = some ([0, kofBase, kofBase + 128], 0) := by decide +kernel

/-- Example 12-2: the load of Example 12-1 resolves to B = 0x8_0020. -/
theorem test_kld_example_12_2 :
    (Kof.relValue 6 0x4000000080 0 0x4000000000).map (Kof.patchWord 6 · 0x401C00334000030000080000)
      = some 0x401C00334000030000080020 := by decide +kernel
/-- R256 to R259: the file of an object reads back. -/
theorem test_kof_file : Kof.Obj.read kofTiny.file = some kofTiny := by decide +kernel
/-- R261: an extern name that nothing defines refuses the link. -/
theorem test_kld_undefined :
    Kof.link kofBase [{ obj := { kofTiny with syms := kofTiny.syms ++ [{ bind := 2 }] } }] = none := by decide +kernel

def kasLine (h : String) (ops : String) : Option (BitVec 96) :=
  ((Kas.tokens ops.toList).bind fun ts => Kas.asmLine none [] (.rel (.sec 1) none 0 0) h ts).map (·.word)
/-- Examples 11-1, 17-1 and 18-1, and the last row of chapter 20: lines and their words. -/
theorem test_kas_words :
    kasLine "ld.s32.acq.clu.e3" "x4, [x2, 16]" = some 0x401C04B20000040000280010
    ∧ kasLine "vadd.s16.sat.lp3" "v1, v2, v3" = some 0x801C01184200012000220003
    ∧ kasLine "mxcpy.bf16.csv.map" "x6, t3, x7" = some 0xC1DC0009300006A600300007
    ∧ kasLine "jmark" "0x1234_5678" = some 0xF1DC012340000000000E5678 := by decide +kernel
/-- R239, R246, R295: no default of OFMT, a value no field accepts, a register kind B does not admit. -/
theorem test_kas_errors :
    kasLine "mxcpy" "x6, t3, x7" = none ∧ kasLine "nop.rtz" "" = none ∧ kasLine "red.fadd.fp32" "[x2], v1" = none
    ∧ kasLine "iadd.s32" "x5, x1, 0x12_3456" = none := by decide +kernel
/-- R245: binding and association; division truncates; a division by zero is an error. -/
theorem test_kas_expressions :
    (["2 + 3 * 4 << 1 & 0xFF | 1", "-7 / 2", "10 - 4 - 3", "1 / 0"].map fun t =>
      ((Kas.tokens t.toList).bind Kas.expr).bind fun x => x.1.eval [] (.abs 0))
    = [some (.abs 29), some (.abs (-3)), some (.abs 3), none] := by decide +kernel
/-- R251: 60 bytes reach a multiple of 16 by three padding instructions, a multiple of 4 by none. -/
theorem test_kas_padding : Kas.padCount 60 16 = 3 ∧ Kas.padCount 60 4 = 0 := by decide
/-- R212, R253: the planes of the block of Example 10-1. -/
theorem test_kas_planes :
    (Kas.planes 4 ([1, -2, 7, 1] ++ List.replicate 28 0)) = [0xD, 0, 0, 0, 6, 0, 0, 0, 6, 0, 0, 0, 2, 0, 0, 0] := by
  decide +kernel

/-! ## Further clauses -/

/-- R274 to R276: a product that its addend cancels, infinite products and addends, a NaN addend; equal operands, zeros of one sign among them. -/
theorem witness_sumsAndEquals :
    (let l := min ((-23) + (-23)) (-23 : Int)
     valueAt (.fin (false != false) (2 ^ 23 * 2 ^ 23) (-23 + -23)) l + valueAt (.fin true (2 ^ 23) (-23)) l = 0)
    ∧ fp32.val 0x3F800000 = .fin false (2 ^ 23) (-23) ∧ fp32.val 0xBF800000 = .fin true (2 ^ 23) (-23)
    ∧ fp32.val 0x7F800000 = .inf false ∧ fp32.val 0xFF800000 = .inf true ∧ fp32.val 0x7FC00000 = .nan
    ∧ ((2 : Nat) ^ 23 ≠ 0)
    ∧ (fp32.val 0x80000000).neg? = (fp32.val 0x80000000).neg?
    ∧ (¬ Below (.fin true (2 ^ 23) (-23)) (.fin true (2 ^ 23) (-23))) ∧ ¬ Below (.inf false) (.inf false) :=
  ⟨by decide, by decide, by decide, by decide, by decide, by decide, by decide, rfl, by simp only [Below]; decide, by simp only [Below]; decide⟩

def jHand : EJob := { go (.mxzero 31) with lvl := .handler }
def sHandIn (js : List EJob) : State := sHd ((sInl.modClu 0 fun c => { c with jobs := js }))
/-- R161, R364, R382, R387: the three levels; a handler inside an inlined child, with a matrix command of its own and without; the
answer of a JOIN there. -/
theorem witness_levels :
    (sJ.me.sys.lvl = .run ∧ sJ.me.sys.lvl ≠ .firm ∧ (sHd sJ).me.sys.lvl = .handler ∧ (sFw sJ).me.sys.lvl = .firm)
    ∧ ((sHandIn []).me.sys.lvl = .handler ∧ (sHandIn []).me.sys.inlStack = 0x2000 :: [] ∧ (sHandIn []).handlerBusy 0 = false
      ∧ (sHandIn [jHand]).me.sys.inlStack = 0x2000 :: [] ∧ (sHandIn [jHand]).handlerBusy 0 = true) := by
  decide +kernel

/-- A context that has captured a table of empty entries, which changes the range of the job's one region. -/
def rgOne : RegEnt := { base := vaH 0x1000, len := 0x1000, st := .shrw, sync := 0, cset := 1 }
def lineOne : CvLine := { lineDirty with vas := [vaH 0x1000] }
def redOne : RbLine := { line := paH 0x1000, words := [rbw], life := 4, vas := [vaH 0x1000] }
def sR0 (ls : SMap CvLine) (rb : List RbLine) : State :=
  let s := (sJ.modJob 0 fun j => { j with rgq := [0], regions := [rgOne] }).modClu 0 fun c => { c with lines := ls, rb := rb }
  { s with homes := { s.homes with lines := [(paH 0x1000, { holders := [(0, 4)] })] } }
def sRx (ls : SMap CvLine) (rb : List RbLine) (keys : List Nat) : State :=
  (sR0 ls rb).modMe fun d => { d with stage := { ph := 2, cap := zeros, keys := keys } }
theorem sRx_stage (ls : SMap CvLine) (rb : List RbLine) (keys : List Nat) : (sRx ls rb keys).me.stage = { ph := 2, cap := zeros, keys := keys } := by
  simp [sRx]
/-- R46: a job whose changed range has no copy left, one that has a dirty line of it, and one that has an update-only line of it. -/
theorem witness_regionChanges :
    (∀ ls rb keys, ((sRx ls rb keys).me.stage.cap.length = 16384 ∧ (sRx ls rb keys).me.stage.keys = keys))
    ∧ (∀ j, regImage j zeros = .ok [])
    ∧ (∀ ls rb keys, (sRx ls rb keys).clusOf 0 = (sR0 ls rb).clusOf 0 ∧ (sRx ls rb keys).clu 0 = (sR0 ls rb).clu 0
      ∧ (sRx ls rb keys).job 0 = (sR0 ls rb).job 0 ∧ ∀ k, (sRx ls rb keys).home k = (sR0 ls rb).home k)
    ∧ ((sR0 [(paH 0x1000, lineOne)] []).clusOf 0 = [0] ∧ ((sR0 [(paH 0x1000, lineOne)] []).job 0).rgq = [0]
      ∧ lineOne.changes ((sR0 [(paH 0x1000, lineOne)] []).job 0).regions [] = true ∧ lineOne.isDirty = true
      ∧ ((sR0 [(paH 0x1000, lineOne)] []).clu 0).rb = [])
    ∧ (((sR0 [] [redOne]).clu 0).rb = [redOne] ∧ namesChange redOne.vas ((sR0 [] [redOne]).job 0).regions [] = true
      ∧ ((sR0 [] [redOne]).home redOne.line).holders = [(0, redOne.life)] ∧ ((sR0 [] [redOne]).home redOne.line).recalls = none)
    ∧ ((sR0 [(paH 0x1000, { lineOne with dirty := 0 })] []).clusOf 0 = [0] ∧ ({ lineOne with dirty := 0 } : CvLine).isDirty = false
      ∧ ((sR0 [(paH 0x1000, { lineOne with dirty := 0 })] []).clu 0).wbOut = []) := by
  refine ⟨fun ls rb keys => ?_, fun j => regImage_none j zeros usedRange_zeros, fun ls rb keys => ?_, by decide +kernel, by decide +kernel, by decide +kernel⟩
  · rw [sRx_stage]
    exact ⟨List.length_replicate, rfl⟩
  · simp only [State.clusOf, State.clu, State.job, State.home, sRx, State.modMe_clus, State.modMe_jobs, State.modMe_homes, implies_true, and_self]

/-- R37, R48, R111: elements of a stream whose carried translation serves; an invalidation in a job without clusters. -/
def tTr : Stream := { tLd with place := 49153, tr := some tlbA }
def sFl : State := { (sSt tTr).modCtx 32 fun c => c.setS 3 { st := 1, tr := some tlbA } with shoots := [hJ] }
def sBare : State := (sTv 0 {}).modClu 0 fun c => { c with owner := none }
theorem witness_carriedTranslations :
    ((sFl.ctx 0).getS 15).tr = some tlbA ∧ hJ.form.hits hJ.job tlbA = true ∧ coreOf 0 = 0 ∧ coreOf 32 ≠ 0
    ∧ ((sFl.ctx 32).getS 3).tr = some tlbA ∧ (sFl.clu (cluOfCore 0)).owner = some hJ.job ∧ hJ.id ∉ (sFl.core 0).inv
    ∧ (sBare.clusOf sBare.me.run.job = [] ∧ sBare.me.sys.lvl ≠ .run ∧ Quiet sBare)
    ∧ ((sTv 0 {}).clusOf (sTv 0 {}).me.run.job ≠ [] ∧ (sTv 0 {}).me.sys.lvl ≠ .run ∧ Quiet (sTv 0 {})) := by
  repeat' apply And.intro
  all_goals first | decide +kernel | exact ok_of (by decide +kernel)

/-- R414: a command that reads a poisoned tile; one that reads a sound one, with no part of an element under way. -/
def sMarkT (j : EJob) : State := { sJob j with pkg := { sJ.pkg with poison := [tileLine 0 31] } }
def jPm : EJob := go (.mxprom 31)
theorem witness_poisonedTiles :
    ((sMarkT jPm).clu 0).job? jPm.id = some jPm ∧ (sMarkT jPm).tileBad 0 31 = true ∧ 31 ∈ jPm.tilesRead
    ∧ (jPm.started = true ∧ jPm.ended = false ∧ jPm.fault = none ∧ jPm.cancelled = false ∧ jPm.edges = [] ∧ (sMarkT jPm).jobGoes jPm = true)
    ∧ ((sMarkT jPm).job ((sMarkT jPm).ctx 0).run.job).pre = .none
    ∧ jPm.part = [] ∧ (∀ x ∈ jPm.tilesRead, (sJob jPm).tileBad 0 x = false)
    ∧ (∀ x ∈ mmLast.tilesRead, (sJob mmLast).tileBad 0 x = false) ∧ mmLast.part = []
    ∧ ((sJ.ctx 6143).run.kind = .free ∧ (191 : Nat) < 192 ∧ (31 : Nat) < 32 ∧ 2 ^ 62 - 1 < 2 ^ 62) := by
  decide +kernel

/-- A graph card with a spill ring of 128 records in the job's page, and in a page that is not resident. -/
def dRing (o : Nat) : BitVec 256 := BitVec.ofNat 256 (vaH o + 128 * 2 ^ 64)
def sRing (o q : Nat) : State := (sGo (dRing o)).modJob 0 fun j =>
  { j with cfg := { j.cfg with backed := [(placedVA, 2 * 2 ^ 21)], resq := q } }
/-- R150, R374: a ring whose page is resident, within the quota and beyond it; a ring whose page is not. -/
theorem witness_spillRings :
    (let s := sRing 0x20000 1
     32 ≤ s.me.stage.cap.length ∧ BitVec.ofNat 256 (leNat s.me.stage.cap) = dRing 0x20000 ∧ s.myJob.gopenCheck (s.nodeOf s.cur) (dRing 0x20000) = (0, 1)
       ∧ s.myJob.cfg.pagesOf (vaH 0x20000) (32 * 128) = [pJ] ∧ s.resident 0 pJ = true ∧ s.myJob.moves.get? pJ = none
       ∧ s.myJob.quotaFits [pJ] (s.myJob.pins.map (·.1)) = true ∧ s.me.sys.lvl ≠ .firm)
    ∧ (let s := (sRing 0x20000 1).modJob 0 fun j => { j with pins := [(5, 1)] }
       s.myJob.gopenCheck (s.nodeOf s.cur) (dRing 0x20000) = (0, 1) ∧ s.resident 0 pJ = true
       ∧ s.myJob.quotaFits [pJ] (s.myJob.pins.map (·.1)) = false)
    ∧ (let s := sRing (2 ^ 21) 0
       s.myJob.gopenCheck (s.nodeOf s.cur) (dRing (2 ^ 21)) = (0, 1) ∧ s.myJob.cfg.pagesOf (vaH (2 ^ 21)) (32 * 128) = [pJ + 1]
       ∧ s.resident 0 (pJ + 1) = false) := by
  decide +kernel

/-- R381, R417: a journal with room for one marker, and one whose room is one byte short, or that waits for it already. -/
def sJm (l at_ : Nat) (late : List JEv) : State := sJ.modJob 0 fun j =>
  { j with cfg := { j.cfg with mode := 1, jrnb := 2 ^ 34, jrnl := BitVec.ofNat 64 l }, jrnAt := at_, jrnLate := late }
theorem witness_journalRoom :
    ((sJm 72 48 []).myJob.cfg.mode = 1 ∧ (sJm 72 48 []).myJob.jrnLate = [] ∧ (sJm 72 48 []).myJob.jrnAt + 24 ≤ (sJm 72 48 []).myJob.cfg.jrnl.toNat)
    ∧ ((sJm 71 48 []).myJob.cfg.mode = 1 ∧ (sJm 71 48 []).myJob.cfg.jrnl.toNat < (sJm 71 48 []).myJob.jrnAt + 24)
    ∧ ((sJm 72 0 [jrMine]).myJob.cfg.mode = 1 ∧ (sJm 72 0 [jrMine]).myJob.jrnLate ≠ []) := by
  decide +kernel

/-- R179, R195: a node whose mask, clusters 0 and 1, the partition meets in cluster 1 only, and not at all. -/
def nodeM : Node := nodeN1 .born (2 ^ 321)
def sMask (o : Option Nat) : State :=
  (sNo nodeM fun c => { c with owner := none }).modClu 1 fun c => { c with owner := o }
theorem witness_masks :
    ((sMask (some 0)).nodeAt 0 wJ = some nodeM ∧ nodeM.st = .born ∧ nodeM.cancelled = false ∧ nodeM.tiles ≠ 0
      ∧ nodeM.places 1 = true ∧ ((sMask (some 0)).clu 1).owner = some 0 ∧ (∀ k, k < 1 → ((sMask (some 0)).clu k).owner ≠ some 0)
      ∧ ((sMask (some 0)).clu 1).walkers.length < 16 ∧ ((sMask (some 0)).job 0).pre = .none)
    ∧ (∀ c, c < 192 → nodeM.places c = true → ((sMask none).clu c).owner ≠ some 0) := by
  decide +kernel

/-- R144: the home of a frame's line with bytes in its channel, beside another's, and none of the frame's writes on its way. -/
def kCh : Nat := 0x80000000 + 0x1F8
def sChan (d : Discard) : State :=
  let s := sDc { d with homed := true, clus := [], homes := [homeOf kCh] } sJ
  { s with homes := { s.homes with chan := [(kCh, 9), (0x7FFFFFFF, 5)], pend := [0x7FFFFF80] } }
theorem witness_channels :
    (∃ d, (sChan dcJ).discards.get? 3 = some d ∧ homeOf kCh ∈ d.homes ∧ inRanges d.ranges kCh = true ∧ inRanges d.ranges 0x7FFFFFFF = false
      ∧ ∀ l ∈ (sChan dcJ).homes.pend, ¬ (inRanges d.ranges l = true ∧ homeOf l = homeOf kCh))
    ∧ homeOf kCh < 64 ∧ (kCh, 9) ∈ (sChan dcJ).homes.chan ∧ ∀ w, (kCh, w) ∈ (sChan dcJ).homes.chan → w = (9 : Byte) := by
  refine ⟨⟨_, rfl, by decide +kernel, by decide +kernel, by decide +kernel, by decide +kernel⟩, by decide +kernel, by decide +kernel, fun w h => ?_⟩
  have h2 : (kCh, w) = (kCh, (9 : Byte)) ∨ (kCh, w) = (0x7FFFFFFF, (5 : Byte)) := by simpa [sChan] using h
  rcases h2 with h2 | h2
  · exact (Prod.mk.injEq _ _ _ _ ▸ h2).2
  · exact absurd (Prod.mk.injEq _ _ _ _ ▸ h2).1 (by decide)

/-- R41, R60: no move under way and one; a move whose frame may still be installed and one whose frame a pool has taken. -/
theorem witness_movesAndFrames :
    ((sCf cfgN).job 1).moves = [] ∧ ((sMv (some mvJ)).job 0).moves ≠ []
    ∧ (sMv (some mvJ)).frameOk 0 pJ mvJ.frame = true
    ∧ (sMv (some { mvJ with frame := 1 })).frameOk 0 pJ 1 = false
    ∧ (∀ q ∈ (sMv (some mvJ)).jobs, q.2.stalled = []) ∧ (∀ h ∈ (sMv (some mvJ)).homes.lines, h.2.recalls = none ∧ h.2.back = [])
    ∧ ((sPr .withdrawn sJ).job 0).stalled = [] ∧ ((sPr .drained sJ).job 0).savedHands = []
    ∧ (∀ p ∈ ((sPr .drained sJ).clu 0).lines, p.2.isDirty = false) := by
  decide +kernel

def pkR : Packet := { cls := .req, who := .load 0 1 0, pl := .read (.host 5 128) 8 false }
/-- R402, R403, R407, R417: a free line and one a cluster holds under RED; record mode; a request that waits at injection, with a token to
come and without. -/
def sApH : State := { sAp2 3 with homes := { sJ.homes with lines := [(2 ^ 39 - 128, { holders := [(0, 0)] })] } }
def sApR : State := (sAp2 3).modJob 0 fun j => { j with cfg := { j.cfg with mode := 1 } }
def sSta (rate burst : Nat) : State := sJ.modJob 0 fun j =>
  { j with cfg := { j.cfg with rlim := BitVec.ofNat 64 (rate + burst * 2 ^ 32) }, tokens := 0, stalled := [pkR] }
theorem witness_inboundForms :
    ((sAp2 3).pkg.inbox = [] ∧ ((sAp2 3).job 0).cfg.mode = 0 ∧ (∃ l ∈ linesOf (2 ^ 39 - 8) 8, sApH.homeFree l = false) ∧ sApH.pkg.inbox = []
      ∧ (sApH.job 0).cfg.aps = [apJ 3])
    ∧ (sApR.jobs.map (·.1) = [0] ∧ (sApR.job 0).cfg.mode = 1 ∧ (sApR.job 0).cfg.aps = [apJ 3] ∧ sApR.pkg.inbox = [])
    ∧ (sJ.job 0).stalled = []
    ∧ (((sSta 1 1).job 0).stalled = [pkR] ∧ fld ((sSta 1 1).job 0).cfg.rlim.toNat 31 0 ≠ 0
      ∧ 0 < min (((sSta 1 1).job 0).tokens + fld ((sSta 1 1).job 0).cfg.rlim.toNat 31 0) (fld ((sSta 1 1).job 0).cfg.rlim.toNat 47 32)
      ∧ min (((sSta 1 0).job 0).tokens + fld ((sSta 1 0).job 0).cfg.rlim.toNat 31 0) (fld ((sSta 1 0).job 0).cfg.rlim.toNat 47 32) = 0) := by
  refine ⟨⟨by decide +kernel, by decide +kernel, ⟨2 ^ 39 - 128, by decide +kernel⟩, by decide +kernel⟩, by decide +kernel, by decide +kernel, by decide +kernel⟩

/-- R410, R411: an Unprovisioned part at levels below 2 and at 2; a token without a tenant before a management context and another;
a cluster of the token's tenant and one of another job's, in an island that is gated. -/
def sIs (t : Option Nat) : State := { sSc .debug 2 t with pkg := { (sSc .debug 2 t).pkg with gated := [coreIsland (coreOf 0)] } }
theorem witness_debugForms :
    ((sSc .unprovisioned 1 none).pkg.sec = .unprovisioned ∧ (sSc .unprovisioned 1 none).pkg.dbg < 2
      ∧ (sSc .unprovisioned 2 none).pkg.dbg = 2 ∧ (sSc .unprovisioned 2 none).pkg.retained = [])
    ∧ ((sSc .debug 2 none).pkg.tenant = none ∧ ((sSc .debug 2 none).ctx 0).sys.lvl ≠ .firm ∧ ((sFw (sSc .debug 2 none)).ctx 0).sys.lvl = .firm
      ∧ (sFw (sSc .debug 2 none)).pkg.tenant = none ∧ (sFw (sSc .debug 2 none)).pkg.sec = .debug ∧ (sFw (sSc .debug 2 none)).pkg.dbg = 2)
    ∧ ((sIs (some 0)).pkg.tenant = some 0 ∧ ((sIs (some 0)).clu (cluOf 0)).owner = some 0 ∧ (sIs (some 1)).pkg.tenant = some 1
      ∧ ((sIs (some 1)).clu (cluOf 0)).owner = some 0 ∧ ((sIs (some 0)).ctx 0).sys.lvl ≠ .firm ∧ (sIs (some 0)).pkg.retained = []
      ∧ (sIs (some 0)).pkg.gated.contains (coreIsland (coreOf 0)) = true) := by
  decide +kernel

/-- R418: a step in turn, one whose turn has not come, and one after which job 0 cannot follow its journal. -/
def sTurn (n : Nat) : State := { sJ with pkg := { sJ.pkg with turn := n } }
theorem witness_turns : (sTurn 0).pkg.turn = 0 ∧ (sTurn 1).pkg.turn = 1 ∧ (sTurn 2).pkg.turn = 0 + 2 := by decide +kernel

/-! ## Single steps: results from the worked examples and tables of the spec -/

/-- x1 and x2 hold these values and x5 holds 3; the value x5 holds after an instruction. -/
def two (a b : Word) : State := regs [(1, a), (2, b), (5, 3)]
def gives (i : Instr) (a b : Word) : Word := (after (exec i (two a b))).me.getX 5
def ti (t : IntTy) : OpI := { i0 with ty := t }
def t1 (t : IntTy) : OpI := { i0 with ty := t, b := .x 0 }
def tb (t : IntTy) (b : BitVec 17) : OpI := { i0 with ty := t, b := .imm b }

-- R266 and its example: sums wrap, and RES extends by the type
theorem test_iadd_wraps : gives (.iadd (ti .s32)) 0x7FFFFFFF 1 = 0xFFFFFFFF80000000 ∧ gives (.iadd (ti .z32)) 0xFFFFFFFF 1 = 0 := by
  decide +kernel
theorem test_isub_borrows : gives (.isub (ti .z32)) 0 1 = 0xFFFFFFFF ∧ gives (.isub (ti .s64)) 0 1 = BitVec.allOnes 64 := by
  decide +kernel
theorem test_imul_low_half : gives (.imul (ti .s32)) 0x10000 0x18000 = 0xFFFFFFFF80000000 := by decide +kernel
theorem test_imulh_example :
    gives (.imulh (ti .z32)) 0xFFFFFFFF 2 = 1 ∧ gives (.imulh (ti .s32)) 0xFFFFFFFF 2 = BitVec.allOnes 64 := by decide +kernel
theorem test_imad_adds_destination : gives (.imad (ti .s64)) 5 7 = 38 := by decide +kernel
theorem test_ineg_of_least : gives (.ineg (t1 .s32)) 0x80000000 0 = 0xFFFFFFFF80000000 := by decide +kernel
theorem test_iabs_of_minus_five : gives (.iabs (t1 .s64)) (-5) 0 = 5 := by decide +kernel
theorem test_imin_is_by_type : gives (.imin (ti .s64)) (-1) 1 = -1 ∧ gives (.imin (ti .z64)) (-1) 1 = 1 := by decide +kernel
theorem test_imax_is_by_type : gives (.imax (ti .s64)) (-1) 1 = 1 ∧ gives (.imax (ti .z64)) (-1) 1 = -1 := by decide +kernel
-- the table of R267
theorem test_idiv_table :
    gives (.idiv (ti .s32)) 7 (-2) = -3 ∧ gives (.idiv (ti .s32)) (-7) 2 = -3 ∧ gives (.idiv (ti .s32)) 5 0 = BitVec.allOnes 64
    ∧ gives (.idiv (ti .z32)) 5 0 = 0xFFFFFFFF ∧ gives (.idiv (ti .s64)) (1 <<< 63) (-1) = 1 <<< 63 := by decide +kernel
theorem test_irem_table :
    gives (.irem (ti .s32)) 7 (-2) = 1 ∧ gives (.irem (ti .s32)) (-7) 2 = -1 ∧ gives (.irem (ti .s32)) 5 0 = 5
    ∧ gives (.irem (ti .z32)) 5 0 = 5 ∧ gives (.irem (ti .s64)) (1 <<< 63) (-1) = 0 := by decide +kernel
-- Example 13-1
theorem test_icmp_example :
    (let t := after (exec (.icmp .lt 2 (ti .s32)) (two 0xFFFFFFFF 3)); t.me.getX 5 = 1 ∧ t.me.getP 2 = BitVec.allOnes 64)
    ∧ (let t := after (exec (.icmp .lt 2 (ti .z32)) (two 0xFFFFFFFF 3)); t.me.getX 5 = 0 ∧ t.me.getP 2 = 0) := by decide +kernel
theorem test_isel_reads_bit_0 : gives (.isel 7 (ti .s64)) 8 9 = 8 ∧ gives (.isel 1 (ti .s64)) 8 9 = 9 := by decide +kernel
theorem test_lea_shifts_b : gives (.lea 9 (ti .s64)) 1 2 = 0x401 := by decide +kernel
theorem test_clz_of_one_and_none : gives (.clz (t1 .s32)) 1 0 = 31 ∧ gives (.clz (t1 .s32)) (1 <<< 40) 0 = 32 := by decide +kernel
theorem test_ctz_of_top : gives (.ctz (t1 .s64)) (1 <<< 63) 0 = 63 := by decide +kernel
theorem test_popc_counts_w_bits : gives (.popc (t1 .s32)) (-1) 0 = 32 := by decide +kernel
theorem test_brev_example : gives (.brev (t1 .s32)) 1 0 = 0xFFFFFFFF80000000 := by decide +kernel

-- R270, and the example of R271
theorem test_logic :
    gives (.and (ti .s64)) 0xF0 0x3C = 0x30 ∧ gives (.or (ti .s64)) 0xF0 0x3C = 0xFC ∧ gives (.xor (ti .s64)) 0xF0 0x3C = 0xCC
    ∧ gives (.andn (ti .s64)) 0xF0 0x3C = 0xC0 ∧ gives (.orn (ti .s32)) 0 0x7FFFFFFF = 0xFFFFFFFF80000000 := by decide +kernel
theorem test_shl_takes_low_bits : gives (.shl (ti .s32)) 1 33 = 2 ∧ gives (.shl (ti .s32)) 1 31 = 0xFFFFFFFF80000000 := by decide +kernel
theorem test_shr_extends_by_type : gives (.shr (ti .s32)) 0x80000000 32 = 0xFFFFFFFF80000000 ∧ gives (.shr (ti .s32)) 0x80000000 31 = 1 := by
  decide +kernel
theorem test_sar_copies_top : gives (.sar (ti .s32)) 0x80000000 31 = BitVec.allOnes 64 := by decide +kernel
theorem test_rol_wraps : gives (.rol (ti .s32)) 0x80000001 1 = 3 := by decide +kernel
theorem test_bfx_example : gives (.bfx (tb .s32 0x0304)) 0x70 0 = BitVec.allOnes 64 ∧ gives (.bfx (tb .z32 0x0304)) 0x70 0 = 7 := by decide +kernel
theorem test_bfi_keeps_the_rest : gives (.bfi (tb .s64 0x0404)) 0xFF 0 = 0xF3 := by decide +kernel
theorem test_sext_byte : gives (.sext .w8 (t1 .s64)) 0x180 0 = 0xFFFFFFFFFFFFFF80 := by decide +kernel
theorem test_zext_word : gives (.zext .w32 (t1 .s64)) (-1) 0 = 0xFFFFFFFF := by decide +kernel
-- Example 11-2, and the long form of MOVHI (R272)
theorem test_movi_example : gives (.movi { i0 with a := .x 0, b := .long 0x12345678 }) 0 0 = 0x12345678 := by decide +kernel
theorem test_movhi_keeps_low_half : gives (.movhi { i0 with b := .long 0x00C80000 }) 0x100 0 = 0x00C8000000000100 := by decide +kernel
theorem test_plog_not : (after (exec (.plog .not { i0 with d := .p 1, a := .p 7, b := .x 0 }) (two 0 0))).me.getP 1 = 0 := by decide +kernel
theorem test_pmov_to_predicate : (after (exec (.pmov { i0 with d := .p 2, a := .x 1, b := .x 0 }) (two 6 0))).me.getP 2 = 6 := by decide +kernel

/-- The value and the flags a floating instruction leaves. -/
def fgives (i : Instr) (a b : Word) : Word × Word := let t := after (exec i (two a b)); (t.me.getX 5, t.me.sys.fstat)
-- R274: 2^100 + 1 rounds to 2^100 (Example 17-3); the invalid and the division by zero
theorem test_fadd_rounds : fgives (.fadd f0) 0x71800000 0x3F800000 = (0x71800000, 1) := by decide +kernel
theorem test_fsub_of_infinities : fgives (.fsub f0) 0x7F800000 0x7F800000 = (0x7FC00000, 16) := by decide +kernel
theorem test_fmul_of_zero_and_infinity : fgives (.fmul f0) 0 0xFF800000 = (0x7FC00000, 16) := by decide +kernel
theorem test_ffma_rounds_once : fgives (.ffma f0) 0x3F800000 0x40000000 = (0x40000000, 1) := by decide +kernel
theorem test_fdiv_by_zero : fgives (.fdiv f0) 0xC0000000 0 = (0xFF800000, 8) := by decide +kernel
theorem test_fsqrt_of_minus_zero : fgives (.fsqrt { f0 with b := .x 0 }) 0x80000000 0 = (0x80000000, 0) := by decide +kernel
theorem test_fmin_orders_zeros : fgives (.fmin f0) 0 0x80000000 = (0x80000000, 0) := by decide +kernel
theorem test_fmax_of_nan : fgives (.fmax f0) 0x7F800001 0 = (0x7FC00000, 0) := by decide +kernel
-- the example of R276
theorem test_fcmp_example :
    (let t := after (exec (.fcmp .lt { f0 with lp := 1 }) (two 0x7FC00000 0))
     t.me.getX 5 = 0 ∧ t.me.getP 1 = 0 ∧ t.me.sys.fstat = 16) := by decide +kernel
-- the table of R277
def cvt (et : Esz) (rm : Rm) : Instr := .fcvt .fp32 { f0 with et := et, rm := rm, b := .x 0 }
theorem test_fcvt_to_integer :
    fgives (cvt .s32 .rne) 0x40200000 0 = (2, 1) ∧ fgives (cvt .s32 .rdn) 0xC0200000 0 = (0xFFFFFFFFFFFFFFFD, 1)
    ∧ fgives (cvt .s32 .rne) 0x4F32D05E 0 = (0x7FFFFFFF, 16) ∧ fgives (cvt .z16 .rtz) 0x7FC00000 0 = (0, 16) := by decide +kernel
theorem test_fcvt_to_fp16 :
    fgives (cvt .fp16 .rne) 0x477FF000 0 = (0x7C00, 5) ∧ fgives (cvt .fp16 .rtz) 0x477FF000 0 = (0x7BFF, 1) := by decide +kernel
theorem test_fclass_masks :
    (fgives (.fclass { f0 with b := .x 0 }) 0xFF800000 0).1 = 1 ∧ (fgives (.fclass { f0 with b := .x 0 }) 1 0).1 = 32 := by decide +kernel

-- Example 13-2: the loop is taken while the count is not zero
def atPc (s : State) (i : Instr) : Word × Word := let t := after (exec i s); (t.me.pc - s.me.pc, t.me.getX 4)
theorem test_loop_example :
    atPc (regs [(4, 4)]) (.loop { s0 with d := .x 4, b := .imm 0x1FFFD }) = (-12, 3)
    ∧ atPc (regs [(4, 1)]) (.loop { s0 with d := .x 4, b := .imm 0x1FFFD }) = (12, 0) := by decide +kernel
theorem test_call_links : (let t := after (exec (.call { s0 with b := .imm 3 }) sJ); t.me.pc = sJ.me.pc + 12 ∧ t.me.getX 61 = sJ.me.pc + 12) := by
  decide +kernel

-- Example 17-1, Example 10-1 as R325 runs it
def sSat : State := State.modMe {} fun c =>
  (((c.setV 1 (BitVec.ofNat 512 (9 * ((2 ^ 512 - 1) / (2 ^ 16 - 1))))).setV 2 (BitVec.ofNat 512 (30000 + 35536 * 2 ^ 16 + 5 * 2 ^ 32))).setV 3
    (BitVec.ofNat 512 (10000 + 55536 * 2 ^ 16 + 7 * 2 ^ 32))).setP 3 3
def vlanes (i : Instr) : List Nat := (List.range 4).map (vecLane ((after (exec i sSat)).me.getV 1) 2)
theorem test_vadd_saturates :
    vlanes (.vadd { v0 with et := .s16, lp := 3, sat := true }) = [32767, 2 ^ 16 - 32768, 9, 9]
    ∧ vlanes (.vadd { v0 with et := .s16, lp := 3, sat := true, z := true }) = [32767, 2 ^ 16 - 32768, 0, 0] := by decide +kernel
theorem test_vadd_wraps : (vlanes (.vadd { v0 with et := .s16, lp := 3 })).head? = some (2 ^ 16 - 25536) := by decide +kernel
def sQn : State := State.modMe {} fun c => c.setV 2 0x3FA0000040FCCCCDC02000003F400000
def blk : Vec := (after (exec (.vqnt ⟨false, 3⟩ { vf with d := .v 8 }) sQn)).me.getV 8
theorem test_vqnt_example : blk.toNat = 0x17E1 + 0x7F * 2 ^ 256 := by decide +kernel
theorem test_vplane_example :
    ((after (exec (.vplane 3 { v0 with et := .s8, d := .v 9, a := .v 8, b := .x 0 }) (State.modMe {} fun c => c.setV 8 (BitVec.ofNat 512 (0x17E1 + 0x7F * 2 ^ 256))))).me.getV 9).toNat
      = 0xD + 6 * 2 ^ 32 + 6 * 2 ^ 64 + 2 * 2 ^ 96 + 0x7F * 2 ^ 256 := by decide +kernel

-- Example 17-3: the area after each of its sums, and the rounded value
/-- An instruction in its turns. -/
def turns : Nat → Instr → State → State
  | 0, _, s => s
  | k + 1, i, s =>
    let t := after (exec i s)
    if t.me.pc = s.me.pc then turns k i t else t
def win (i : Instr) (v : Int) : Int :=
  let t := turns 12 i ((sWin v 0 0x71800000 0x3F800000).modCtx 0 fun c => c.setX 4 0x3F800000)
  (leNat ((areaOf t (vaO 0x7FB0) (kO 0x7FB0)).take 72) : Nat)
theorem test_wadd_example : win (.wadd oWin) 0 = 2 ^ 400 ∧ win (.wadd { oWin with a := .x 4 }) (2 ^ 400) = 2 ^ 400 + 2 ^ 300 := by decide +kernel
theorem test_wsub_example : win (.wsub oWin) (2 ^ 400 + 2 ^ 300) = 2 ^ 300 := by decide +kernel
theorem test_wrnd_example :
    (let t := turns 12 (.wrnd { oWin with d := .x 6, a := .x 1, b := .x 0 }) (sWin (2 ^ 300) 0 0 0); t.me.getX 6 = 0x3F800000 ∧ t.me.sys.fstat = 0) := by
  decide +kernel

-- Example 10-2: a sum in FP26 that ties to even
theorem test_add26_example : (add26 (scale26 262144 0).1 (scale26 1 0).1).1 = (scale26 262144 0).1 := by decide +kernel

-- The examples of R22 and R131, and Example 09-1: its four orders
theorem test_home_example : homeOf 0x2534C80 = 16 + 4 := by decide
theorem test_handle_example :
    ({ ({} : Job) with slots := [(0x12, { st := .live, gen := 5 })] } : Job).handle { placedNode with arenas := [(0, 0x12)] } 0
      = 0x00A0120500000000 := by decide +kernel
def nodeX (order : Nat) : Node :=
  { placedNode with rcd := BitVec.ofNat 1024 (2 ^ 96 + 2 ^ 74 + order * 2 ^ 71 + (if order = 3 then 2 * 2 ^ 80 else 0) + 190 * 2 ^ 128 + 300 * 2 ^ 160
      + 64 * 2 ^ 256 + 64 * 2 ^ 272) }
def coords2 (x : Node) (is : List Nat) : List (Nat × Nat) := is.map fun i => ((x.coords i).1, (x.coords i).2.1)
theorem test_orders_example :
    coords2 (nodeX 0) [0, 3, 8, 14] = [(0, 0), (0, 1), (2, 2), (2, 4)] ∧ coords2 (nodeX 1) [0, 3, 8, 14] = [(0, 0), (0, 3), (1, 3), (2, 4)]
    ∧ coords2 (nodeX 3) [0, 1, 2, 3, 4, 5, 6, 7, 8, 9, 10, 11, 12, 13, 14]
        = [(0, 0), (0, 1), (1, 1), (1, 0), (2, 0), (2, 1), (0, 2), (0, 3), (1, 3), (1, 2), (2, 2), (2, 3), (0, 4), (1, 4), (2, 4)] := by decide +kernel
theorem test_morton_example :
    (nodeX 2).count = 32 ∧ (List.range 32).filter (nodeX 2).valid = [0, 1, 2, 3, 4, 6, 8, 9, 10, 11, 12, 14, 16, 17, 20]
    ∧ coords2 (nodeX 2) [6, 10, 14, 17, 20] = [(2, 1), (0, 3), (2, 3), (1, 4), (2, 4)] := by decide +kernel

-- Example 21-1: the record, its address and the registers of a region fault
def sEx : State :=
  (((sJ.modJob 0 fun j => { j with cfg := { j.cfg with fqn := 256 } }).setBytes (paH 0x10000) (leBytes 8 42))).modCtx 0 fun c =>
    { c with pc := 0x4000000120 }
theorem test_region_fault_example :
    (let t := sEx.fault (flt 5 0x082000612340)
     t.me.sys.epc = 0x4000000120 ∧ t.me.sys.estat = 0x0000002A00000105 ∧ t.me.getX 63 = BitVec.ofNat 64 (vaH 0x10580)
     ∧ t.word (paH 0x10580) = 0x4500004000000120 ∧ t.word (paH 0x10588) = 0x082000612340 ∧ t.word (paH 0x10590) = 0
     ∧ t.word (paH 0x10598) = 0x100000001 ∧ t.word (paH 0x10000) = 43) := by decide +kernel

-- Words of Examples 11-1, 13-1, 14-1, 17-1, 17-3 and 18-1, and of the tables beside them
def examples : List (BitVec 96 × Instr) :=
  [(0x401C04B20000040000280010, .ld { m0 with ord := .acq, scope := .clu, evp := 3, esz := .s32, d := .x 4, a := .x 2, b := .imm 16 }),
   (0x02DC00900000050000100002, .icmp .lt 2 ⟨h0, .s32, .x 5, .x 1, .x 2⟩),
   (0x501C00B21000050000200004, .amo .add { a0 with scope := .clu, evp := 3, esz := .s32, d := .x 5, a := .x 2, b := .x 4 }),
   (0x801C01184200012000220003, .vadd ⟨h0, .s16, .rne, 3, true, false, false, .v 1, .v 2, .v 3⟩),
   (0xB05C0A000000020000400005, .wadd ⟨h0, .fp32, .rne, 0, false, false, false, .x 2, .x 4, .x 5⟩),
   (0xC11C00000A60030000400005, .mxmm ⟨h0, .tile 3, .x 4, .x 5⟩),
   (0xC1DC0009300006A600300007, .mxcpy .bf16 true true ⟨h0, .x 6, .tile 3, .x 7⟩),
   (0x609C01000000000000000000, .fence { s0 with scope := .die }),
   (0x701C00000A00000000900000, .sopen { s0 with d := .slot 0, a := .x 9 }),
   (0x319C0000000004000009FFFD, .loop { s0 with d := .x 4, b := .imm 0x1FFFD }),
   (0xE01C00000600010000900005, .launch { s0 with d := .p 1, a := .x 9, b := .x 5 }),
   (0xE11C0000000000A800000005, .cancel { s0 with a := .level .node, b := .x 5 }),
   (0xF01C0000000005C000100000, .csrr { s0 with d := .x 5, a := .sreg 1 }),
   (0xF09C00002000000000000000, .tlbinvJob s0),
   (0xF1DC012340000000000E5678, .jmark { s0 with b := .long 0x12345678 })]
theorem test_decode_examples : agree examples = true := by decide +kernel

end Sys2Proof.Tests
end

section
/-!
SUPPORT. The immediates of kas (R247): a number held in fewer signed bits, the kind of an absolute value, and the units
of a PC-relative target.
-/
namespace Sys2Proof

/-! ## Numbers in fewer signed bits -/

/-- A number within n signed bits keeps its value when it is cut to n bits. -/
theorem toInt_truncate_of_bounds {n : Nat} {v : Word} (hn : n + 1 ≤ 64) (hlo : -(2 ^ n : Int) ≤ v.toInt)
    (hhi : v.toInt < (2 ^ n : Int)) : (v.truncate (n + 1)).toInt = v.toInt := by
  have hcut : v.truncate (n + 1) = v.signExtend (n + 1) := (BitVec.signExtend_eq_setWidth_of_le v hn).symm
  rw [hcut, BitVec.toInt_signExtend_eq_toInt_bmod_of_le v hn]
  apply Int.bmod_eq_of_le_mul_two <;> rw [Nat.pow_succ] <;> push_cast <;> omega

/-- A number within n signed bits is the extension of its low n bits. -/
theorem signExtend_truncate_of_bounds {n : Nat} {v : Word} (hn : n + 1 ≤ 64) (hlo : -(2 ^ n : Int) ≤ v.toInt)
    (hhi : v.toInt < (2 ^ n : Int)) : (v.truncate (n + 1)).signExtend 64 = v := by
  apply BitVec.eq_of_toInt_eq
  rw [BitVec.toInt_signExtend_of_le hn, toInt_truncate_of_bounds hn hlo hhi]

/-- A distance in 4-byte units is a 64-bit number. -/
theorem toInt_ofInt_toInt_div_four (v : Word) : (BitVec.ofInt 64 (v.toInt / 4)).toInt = v.toInt / 4 := by
  have hlo := v.le_toInt
  have hhi := v.toInt_lt
  exact BitVec.toInt_ofInt_eq_self (by decide) (by omega) (by omega)

namespace Kas

/-! ## The kind of an absolute value -/

theorem fits17_iff (v : Word) : fits17 v = true ↔ -65536 ≤ v.toInt ∧ v.toInt ≤ 65535 := by
  simp [fits17]

theorem fits32_iff (v : Word) : fits32 v = true ↔ (v.truncate 32).signExtend 64 = v := by
  simp [fits32]

theorem fits32_of_bounds {v : Word} (hlo : -(2 ^ 31 : Int) ≤ v.toInt) (hhi : v.toInt < (2 ^ 31 : Int)) : fits32 v = true :=
  (fits32_iff v).mpr (signExtend_truncate_of_bounds (n := 31) (by decide) hlo hhi)

/-- What fits kind 100 is the number its field holds. -/
theorem toInt_truncate_of_fits17 {v : Word} (h : fits17 v = true) : (v.truncate 17).toInt = v.toInt := by
  obtain ⟨hlo, hhi⟩ := (fits17_iff v).mp h
  exact toInt_truncate_of_bounds (n := 16) (by decide) (by omega) (by omega)

theorem signExtend_truncate_of_fits17 {v : Word} (h : fits17 v = true) : (v.truncate 17).signExtend 64 = v := by
  obtain ⟨hlo, hhi⟩ := (fits17_iff v).mp h
  exact signExtend_truncate_of_bounds (n := 16) (by decide) (by omega) (by omega)

theorem immOf_of_fits17 {v : Word} (long : Bool) (h : fits17 v = true) : immOf long v = some (.imm (v.truncate 17)) := by
  simp [immOf, imm17, h]

theorem immOf_of_fits32 {v : Word} (hs : fits17 v = false) (h : fits32 v = true) :
    immOf true v = some (.long (v.truncate 32)) := by
  simp [immOf, hs, h]

theorem immOf_eq_none {long : Bool} {v : Word} (hs : fits17 v = false) (h : long = false ∨ fits32 v = false) :
    immOf long v = none := by
  rcases h with h | h <;> simp [immOf, hs, h]

section
variable (e : Enc) (long : Bool) (v : Word)

theorem Enc.immB_abs : e.immB long (.abs v) = (immOf long v).map fun o => { e with b := o } := rfl

theorem Enc.immHigh_abs_of_fits17 (h : fits17 v = true) : e.immHigh (.abs v) = some { e with b := .imm (v.truncate 17) } := by
  simp [immHigh, imm17, h]

theorem Enc.immHigh_abs_of_not_fits17 (h : fits17 v = false) :
    e.immHigh (.abs v) = some { e with b := .long (BitVec.ofNat 32 (v.toNat / 2 ^ 32)) } := by
  have hhigh : v.extractLsb' 32 32 = BitVec.ofNat 32 (v.toNat / 2 ^ 32) := by
    apply BitVec.eq_of_toNat_eq
    simp [Nat.shiftRight_eq_div_pow]
  simp [immHigh, h, hhigh]
end

/-! ## PC-relative targets -/

section
variable {e : Enc} {c : At} {i j : Nat} {n m : Option String} {p w q x : Word}

/-- A target of another section leaves a relocation. -/
theorem Enc.immTarget_of_ne (hpc : c.pc = .rel (.sec j) m q x) (h : i ≠ j) :
    e.immTarget c (.rel (.sec i) n p w) = some
      (if c.long then { e with b := .long 0, rel := some (.pc32, .rel (.sec i) n p w) }
       else { e with b := .imm 0, rel := some (.pc17, .rel (.sec i) n p w) }) := by
  cases hl : c.long <;> simp [immTarget, hpc, h, hl]

/-- A target of the same section at a distance that is no multiple of a unit is an error. -/
theorem Enc.immTarget_same_of_uneven (hpc : c.pc = .rel (.sec i) m q x) (hk : (p + w - (q + x)).toInt % 4 ≠ 0) :
    e.immTarget c (.rel (.sec i) n p w) = none := by
  simp only [immTarget, hpc, ne_eq, hk, not_false_eq_true, if_true]

/-- A target of the same section is encoded as the absolute value that counts its distance in units. -/
theorem Enc.immTarget_same_units (hpc : c.pc = .rel (.sec i) m q x) (hk : (p + w - (q + x)).toInt % 4 = 0) :
    ∃ u : Word, u.toInt * 4 = (p + w - (q + x)).toInt
      ∧ e.immTarget c (.rel (.sec i) n p w) = (immOf c.long u).map fun o => { e with b := o } := by
  refine ⟨BitVec.ofInt 64 ((p + w - (q + x)).toInt / 4), ?_, by simp only [immTarget, hpc, ne_eq, hk, not_true_eq_false, if_true, if_false]⟩
  rw [toInt_ofInt_toInt_div_four]
  omega
end

/-- Settles O59: an absolute value by whether it fits 17 signed bits, a target by the units of its distance. -/
theorem kasImmediates : Obligations.KasImmediates := by
  intro e c long v b n p w small wide
  have hsmall : fits17 v = true ↔ small := fits17_iff v
  have hwide : fits32 v = true ↔ wide := fits32_iff v
  have hbig : ¬ small → fits17 v = false := fun h => Bool.eq_false_iff.mpr (mt hsmall.mp h)
  refine ⟨fun h => ?_, fun h hl hw => ?_, fun h hw => ?_, fun h => ?_, fun h => e.immHigh_abs_of_not_fits17 v (hbig h),
    rfl, rfl, rfl, fun i j m q x hpc => ⟨Enc.immTarget_of_ne hpc, ?_, ?_, ?_⟩⟩
  · have hf := hsmall.mpr h
    exact ⟨_, by rw [Enc.immB_abs, immOf_of_fits17 long hf]; rfl, signExtend_truncate_of_fits17 hf⟩
  · subst hl
    exact ⟨_, by rw [Enc.immB_abs, immOf_of_fits32 (hbig h) (hwide.mpr hw)]; rfl, hw⟩
  · have hw' : long = false ∨ fits32 v = false := hw.imp_right fun h => Bool.eq_false_iff.mpr (mt hwide.mp h)
    rw [Enc.immB_abs, immOf_eq_none (hbig h) hw', Option.map_none]
  · have hf := hsmall.mpr h
    exact ⟨_, e.immHigh_abs_of_fits17 v hf, signExtend_truncate_of_fits17 hf⟩
  · rintro rfl hk
    exact Enc.immTarget_same_of_uneven hpc hk
  · rintro rfl hk hlo hhi
    obtain ⟨u, hu, henc⟩ := Enc.immTarget_same_units (e := e) (n := n) hpc hk
    have hf : fits17 u = true := (fits17_iff u).mpr (by omega)
    exact ⟨_, by rw [henc, immOf_of_fits17 c.long hf]; rfl, by rw [toInt_truncate_of_fits17 hf, hu]⟩
  · rintro rfl hk hl hs hlo hhi
    obtain ⟨u, hu, henc⟩ := Enc.immTarget_same_units (e := e) (n := n) hpc hk
    have hlo' : -(2 ^ 31 : Int) ≤ u.toInt := by omega
    have hhi' : u.toInt < (2 ^ 31 : Int) := by omega
    have hf : fits17 u = false := Bool.eq_false_iff.mpr fun h => hs (by rw [fits17_iff] at h; omega)
    exact ⟨_, by rw [henc, hl, immOf_of_fits32 hf (fits32_of_bounds hlo' hhi')]; rfl,
      by rw [toInt_truncate_of_bounds (n := 31) (by decide) hlo' hhi', hu]⟩

end Kas
end Sys2Proof
end

section
/-!
SUPPORT. The object format (R256 to R261): the fields of little-endian files, the value and the field of each relocation
kind, and what a linked image meets.
-/
namespace Sys2Proof

/-! ## Little-endian bytes -/

namespace Machine

@[simp] theorem length_leBytes (n v : Nat) : (leBytes n v).length = n := by
  induction n generalizing v with
  | zero => rfl
  | succ n ih => simp [leBytes, ih]

theorem leNat_leBytes (n v : Nat) : leNat (leBytes n v) = v % 256 ^ n := by
  induction n generalizing v with
  | zero => simp [leBytes, leNat, Nat.mod_one]
  | succ n ih =>
    have hfirst : v % 256 ^ (n + 1) = v % 256 + 256 * (v / 256 % 256 ^ n) := by rw [Nat.pow_succ', Nat.mod_mul]
    rw [leBytes, leNat, ih, hfirst, BitVec.toNat_ofNat, Nat.mod_mod]

/-- The bytes of a value, each by its place. -/
theorem leBytes_eq_map (n v : Nat) : leBytes n v = (List.range n).map fun k => BitVec.ofNat 8 (v / 256 ^ k) := by
  induction n generalizing v with
  | zero => rfl
  | succ n ih =>
    have hrest : ∀ k, v / 256 / 256 ^ k = v / 256 ^ (k + 1) := fun k => by rw [Nat.div_div_eq_div_mul, ← Nat.pow_succ']
    have hfirst : BitVec.ofNat 8 (v % 256) = BitVec.ofNat 8 v := by
      apply BitVec.eq_of_toNat_eq
      simp
    simp [leBytes, ih, List.range_succ_eq_map, hrest, hfirst]

end Machine

open Machine

/-- The bytes of an instruction word are its little-endian bytes (R222). -/
theorem bytesOfWord_eq_leBytes (w : BitVec 96) : bytesOfWord w = leBytes 12 w.toNat := by
  rw [leBytes_eq_map, bytesOfWord]
  refine List.map_congr_left fun k _ => BitVec.eq_of_toNat_eq ?_
  have hplace : 2 ^ (8 * k) = 256 ^ k := Nat.pow_mul 2 8 k
  rw [BitVec.extractLsb'_toNat, BitVec.toNat_ofNat, Nat.shiftRight_eq_div_pow, hplace]

theorem wordOfBytes_eq_leNat (bs : List Byte) : wordOfBytes bs = BitVec.ofNat 96 (leNat (bs.take 12)) := by
  have hfold : ∀ l : List Byte, l.foldr (fun b n => b.toNat + 256 * n) 0 = leNat l := fun l => by
    induction l with
    | nil => rfl
    | cons b l ih => rw [List.foldr_cons, ih, leNat]
  rw [wordOfBytes, hfold]

/-- Twelve bytes that are those of a word are read as the word. -/
theorem wordOfBytes_of_take {bs : List Byte} {w : BitVec 96} (h : bs.take 12 = bytesOfWord w) : wordOfBytes bs = w := by
  rw [wordOfBytes_eq_leNat, h, bytesOfWord_eq_leBytes, leNat_leBytes]
  apply BitVec.eq_of_toNat_eq
  exact (Nat.mod_mod _ _).trans (Nat.mod_eq_of_lt w.isLt)

namespace Kof

/-! ## Fields of a file -/

/-- The field at the start of a file that begins with a value's bytes. -/
theorem field_zero_leBytes (n v : Nat) (r : List Byte) : field (leBytes n v ++ r) 0 n = v % 256 ^ n := by
  rw [field, List.drop_zero, List.take_left' (length_leBytes n v), leNat_leBytes]

/-- A field beyond the bytes a file begins with is a field of the rest. -/
theorem field_skip_leBytes {m off : Nat} (v n : Nat) (r : List Byte) (h : m ≤ off) :
    field (leBytes m v ++ r) off n = field r (off - m) n := by
  rw [field, field, List.drop_append, List.drop_eq_nil_of_le (by rwa [length_leBytes]), List.nil_append, length_leBytes]

theorem Rel.entry_eq_append (r : Rel) : r.entry = leBytes 4 r.off ++ (leBytes 2 r.sect ++ (leBytes 1 r.kind ++ (leBytes 1 0
    ++ (leBytes 4 r.sym ++ (leBytes 4 0 ++ (leBytes 8 r.add.toNat ++ [])))))) := by
  simp [entry]

/-- The fields of an entry of the relocation table, each modulo its size. -/
theorem Rel.field_entry (r : Rel) :
    field r.entry 0 4 = r.off % 256 ^ 4 ∧ field r.entry 4 2 = r.sect % 256 ^ 2 ∧ field r.entry 6 1 = r.kind % 256 ^ 1
      ∧ field r.entry 7 1 = 0 ∧ field r.entry 8 4 = r.sym % 256 ^ 4 ∧ field r.entry 12 4 = 0
      ∧ field r.entry 16 8 = r.add.toNat % 256 ^ 8 := by
  rw [entry_eq_append]
  simp only [field_skip_leBytes, field_zero_leBytes, Nat.reduceLeDiff, Nat.reduceSub, Nat.zero_mod, and_self]

/-- R259: an entry of the relocation table reads back. -/
theorem readRel_entry {r : Rel} (hoff : r.off < 2 ^ 32) (hsect : r.sect < 2 ^ 16) (hlo : 1 ≤ r.kind) (hhi : r.kind ≤ 7)
    (hsym : r.sym < 2 ^ 32) : readRel r.entry 0 = some r := by
  obtain ⟨hfoff, hfsect, hfkind, hpad, hfsym, hpad', hfadd⟩ := r.field_entry
  rw [Nat.mod_eq_of_lt (by omega)] at hfoff hfsect hfkind hfsym
  have hadd : field r.entry 16 8 = r.add.toNat := hfadd.trans (Nat.mod_eq_of_lt r.add.isLt)
  have hkind : ¬ (r.kind = 0 ∨ 7 < r.kind) := by omega
  simp [readRel, hfoff, hfsect, hfkind, hpad, hfsym, hpad', hadd, hkind]

theorem readRel_eq_none_of_kind {f : List Byte} {o : Nat} (h : field f (o + 6) 1 = 0 ∨ 8 ≤ field f (o + 6) 1) :
    readRel f o = none := by
  rw [readRel]
  exact if_pos (by omega)

/-! ## Values of relocations (R259) -/

theorem inRange_iff (lo hi : Int) (v : Word) : inRange lo hi v = true ↔ lo ≤ v.toInt ∧ v.toInt ≤ hi := by
  simp [inRange]

/-- A distance of whole units, within n + 1 signed bits when counted in them. -/
theorem pcUnits_eq (n : Nat) (v : Word) :
    pcUnits (n + 1) v = if v.toInt % 4 = 0 ∧ -(2 ^ n : Int) ≤ v.toInt / 4 ∧ v.toInt / 4 < (2 ^ n : Int)
      then some (BitVec.ofInt 64 (v.toInt / 4)) else none := by
  have hdiv : (v.sshiftRight 2).toInt = v.toInt / 4 := by
    rw [BitVec.toInt_sshiftRight, Int.shiftRight_eq_div_pow]; rfl
  have hunits : v.sshiftRight 2 = BitVec.ofInt 64 (v.toInt / 4) := by rw [← hdiv, BitVec.ofInt_toInt]
  have hmod : v.toNat % 4 = 0 ↔ v.toInt % 4 = 0 := by
    rw [BitVec.toInt_eq_toNat_cond]
    split <;> omega
  have hrange : inRange (-(2 ^ (n + 1 - 1) : Nat)) ((2 ^ (n + 1 - 1) : Nat) - 1) (v.sshiftRight 2) = true
      ↔ -(2 ^ n : Int) ≤ v.toInt / 4 ∧ v.toInt / 4 < (2 ^ n : Int) := by
    rw [inRange_iff, hdiv, Nat.add_sub_cancel]
    push_cast
    omega
  simp only [pcUnits, hmod, hrange]
  rw [hunits]

theorem pcUnits_eq_some {n : Nat} {v : Word} (hk : v.toInt % 4 = 0) (hlo : -(2 ^ n : Int) ≤ v.toInt / 4)
    (hhi : v.toInt / 4 < (2 ^ n : Int)) : pcUnits (n + 1) v = some (BitVec.ofInt 64 (v.toInt / 4)) := by
  rw [pcUnits_eq, if_pos ⟨hk, hlo, hhi⟩]

theorem pcUnits_eq_none {n : Nat} {v : Word}
    (h : v.toInt % 4 ≠ 0 ∨ v.toInt / 4 < -(2 ^ n : Int) ∨ (2 ^ n : Int) ≤ v.toInt / 4) : pcUnits (n + 1) v = none := by
  rw [pcUnits_eq, if_neg (by omega)]

section
variable (s a p : Word)

/-- R259: ABS32 holds what 32 bits hold as a signed or as an unsigned number. -/
theorem relValue_abs32 : relValue 2 s a p =
    if -(2 ^ 31 : Int) ≤ (s + a).toInt ∧ (s + a).toInt ≤ (2 ^ 32 : Int) - 1 then some (s + a) else none :=
  ite_congr (propext (inRange_iff _ _ _)) (fun _ => rfl) fun _ => rfl

/-- R259: HI32 holds the high half of the value. -/
theorem relValue_hi32 : relValue 4 s a p = some (BitVec.ofNat 64 ((s + a).toNat / 2 ^ 32)) := by
  have hhalf : (s + a) >>> 32 = BitVec.ofNat 64 ((s + a).toNat / 2 ^ 32) := by
    apply BitVec.eq_of_toNat_eq
    have hlt := (s + a).isLt
    rw [BitVec.toNat_ushiftRight, BitVec.toNat_ofNat, Nat.shiftRight_eq_div_pow, Nat.mod_eq_of_lt (by omega)]
  rw [← hhalf]
  rfl

/-- R259: IMM17 holds a number within 17 signed bits. -/
theorem relValue_imm17 : relValue 5 s a p =
    if -65536 ≤ (s + a).toInt ∧ (s + a).toInt ≤ 65535 then some (s + a) else none :=
  ite_congr (propext (inRange_iff _ _ _)) (fun _ => rfl) fun _ => rfl

/-- R259: PC17 and PC32 hold the distance in units, within 17 and 32 signed bits. -/
theorem relValue_pc {k n : Nat} (h : k = 6 ∧ n = 16 ∨ k = 7 ∧ n = 31) : relValue k s a p = pcUnits (n + 1) (s + a - p) := by
  rcases h with ⟨rfl, rfl⟩ | ⟨rfl, rfl⟩ <;> rfl
end

/-- R259: a kind that the table does not list has no value. -/
theorem relValue_eq_none_of_kind {k : Nat} (h : k = 0 ∨ 8 ≤ k) (s a p : Word) : relValue k s a p = none := by
  rcases h with rfl | h
  · rfl
  · obtain ⟨n, rfl⟩ := Nat.exists_eq_add_of_le' h
    rfl

/-! ## Fields of an instruction word (R259) -/

/-- A replaced field holds its value's bits, and all other bits stay. -/
theorem getLsbD_setField (w : BitVec 96) (lo n v : Nat) {i : Nat} (hi : i < 96) :
    (setField w lo n v).getLsbD i = if lo ≤ i ∧ i < lo + n then v.testBit (i - lo) else w.getLsbD i := by
  have hmask : ((2 ^ n - 1) * 2 ^ lo).testBit i = decide (lo ≤ i ∧ i < lo + n) := by
    rw [Nat.testBit_mul_two_pow, Nat.testBit_two_pow_sub_one, ← Bool.decide_and]
    congr 1
    simp; omega
  have hval : (v % 2 ^ n * 2 ^ lo).testBit i = (decide (lo ≤ i ∧ i < lo + n) && v.testBit (i - lo)) := by
    rw [Nat.testBit_mul_two_pow, Nat.testBit_mod_two_pow, ← Bool.and_assoc, ← Bool.decide_and]
    congr 2
    simp; omega
  simp only [setField, BitVec.getLsbD_or, BitVec.getLsbD_and, BitVec.getLsbD_not, BitVec.getLsbD_ofNat, hmask, hval, hi]
  by_cases h : lo ≤ i ∧ i < lo + n <;> simp [h]

/-- A short immediate: the low 17 bits of B. -/
theorem getLsbD_patchWord_short {k : Nat} (hk : k = 5 ∨ k = 6) (v : Word) (w : BitVec 96) {i : Nat} (hi : i < 96) :
    (patchWord k v w).getLsbD i = if i < 17 then v.getLsbD i else w.getLsbD i := by
  have hshort : k = relImm17 ∨ k = relPc17 := hk
  rw [patchWord, if_pos hshort, getLsbD_setField _ _ _ _ hi]
  simp [BitVec.testBit_toNat]

/-- A long immediate: MOD and the low 16 bits of B. -/
theorem getLsbD_patchWord_long {k : Nat} (hk : k = 3 ∨ k = 4 ∨ k = 7) (v : Word) (w : BitVec 96) {i : Nat} (hi : i < 96) :
    (patchWord k v w).getLsbD i =
      if i < 16 then v.getLsbD i else if 60 ≤ i ∧ i < 76 then v.getLsbD (i - 44) else w.getLsbD i := by
  have hlong : ¬ (k = relImm17 ∨ k = relPc17) := by simp only [relImm17, relPc17]; omega
  rw [patchWord, if_neg hlong, getLsbD_setField _ _ _ _ hi, getLsbD_setField _ _ _ _ hi]
  by_cases hlow : i < 16
  · have : ¬ 60 ≤ i := by omega
    simp [hlow, this, BitVec.testBit_toNat]
  · by_cases hmod : 60 ≤ i ∧ i < 76
    · have hplace : 16 + (i - 60) = i - 44 := by omega
      have hbit : (v.toNat / 2 ^ 16).testBit (i - 60) = v.getLsbD (i - 44) := by
        rw [Nat.testBit_div_two_pow, Nat.add_comm, hplace, BitVec.testBit_toNat]
      rw [if_pos hmod, hbit, if_neg hlow, if_pos hmod]
    · simp [hlow, hmod]

/-! ## Patched bytes (R259) -/

theorem take_drop_splice {bs new : List Byte} {off : Nat} (h : off ≤ bs.length) :
    ((splice bs off new).drop off).take new.length = new := by
  have hpre : (bs.take off).length = off := List.length_take_of_le h
  rw [splice, List.append_assoc, List.drop_left' hpre, List.take_left]

theorem field_splice_leBytes {bs : List Byte} {off : Nat} (n v : Nat) (h : off ≤ bs.length) :
    field (splice bs off (leBytes n v)) off n = v % 256 ^ n := by
  have htake := take_drop_splice (new := leBytes n v) h
  rw [length_leBytes] at htake
  rw [field, htake, leNat_leBytes]

/-- How many bytes a relocation of a kind patches. -/
def patchSize (kind : Nat) : Nat := if kind = 1 then 8 else if kind = 2 then 4 else 12

/-- The bytes a relocation puts in place of them. -/
def patchBytes (bs : List Byte) (off kind : Nat) (v : Word) : List Byte :=
  if kind = 1 then leBytes 8 v.toNat else if kind = 2 then leBytes 4 v.toNat
  else bytesOfWord (patchWord kind v (wordOfBytes (bs.drop off)))

theorem length_patchBytes (bs : List Byte) (off kind : Nat) (v : Word) :
    (patchBytes bs off kind v).length = patchSize kind := by
  rw [patchBytes, patchSize]
  by_cases h1 : kind = 1
  · rw [if_pos h1, if_pos h1, length_leBytes]
  · rw [if_neg h1, if_neg h1]
    by_cases h2 : kind = 2
    · rw [if_pos h2, if_pos h2, length_leBytes]
    · rw [if_neg h2, if_neg h2, bytesOfWord_eq_leBytes, length_leBytes]

theorem patch_eq (bs : List Byte) (off kind : Nat) (v : Word) :
    patch bs off kind v = if bs.length < off + patchSize kind then none else some (splice bs off (patchBytes bs off kind v)) := by
  rw [patchBytes, apply_ite (splice bs off), apply_ite (splice bs off), apply_ite some, apply_ite some]
  rfl

/-- R259: where the patched bytes are in the section, the patch gives a section of the same length that holds the value,
and every byte outside them stays. -/
theorem patch_eq_some {bs : List Byte} {off kind : Nat} (v : Word) (h : off + patchSize kind ≤ bs.length) :
    ∃ r, patch bs off kind v = some r ∧ r.length = bs.length
      ∧ (∀ j, j < off ∨ off + patchSize kind ≤ j → r[j]? = bs[j]?)
      ∧ (kind = 1 → field r off 8 = v.toNat) ∧ (kind = 2 → field r off 4 = v.toNat % 2 ^ 32)
      ∧ (3 ≤ kind → wordOfBytes (r.drop off) = patchWord kind v (wordOfBytes (bs.drop off))) := by
  have hlen := length_patchBytes bs off kind v
  have hin : off + (patchBytes bs off kind v).length ≤ bs.length := by rwa [hlen]
  have hoff : off ≤ bs.length := by omega
  refine ⟨_, by rw [patch_eq, if_neg (Nat.not_lt.mpr h)], splice_length hin, fun j hj => splice_out hin (by rwa [hlen]), ?_, ?_,
    fun hk => wordOfBytes_of_take ?_⟩
  · rintro rfl
    exact (field_splice_leBytes 8 v.toNat hoff).trans (Nat.mod_eq_of_lt v.isLt)
  · rintro rfl
    exact field_splice_leBytes 4 v.toNat hoff
  · have hnew : patchBytes bs off kind v = bytesOfWord (patchWord kind v (wordOfBytes (bs.drop off))) := by
      rw [patchBytes, if_neg (by omega), if_neg (by omega)]
    have htwelve : (patchBytes bs off kind v).length = 12 := by rw [hlen, patchSize, if_neg (by omega), if_neg (by omega)]
    rw [← hnew, ← htwelve]
    exact take_drop_splice hoff

/-! ## Linking (R260, R261) -/

/-- A map over a list that has a result had one for each element. -/
theorem exists_of_mapM_eq_some {α β : Type} {f : α → Option β} {l : List α} {bs : List β} (h : l.mapM f = some bs) {a : α}
    (ha : a ∈ l) : ∃ b, f a = some b := by
  induction l generalizing bs with
  | nil => cases ha
  | cons x l ih =>
    simp only [List.mapM_cons, Option.bind_eq_bind, Option.bind_eq_some_iff] at h
    obtain ⟨b, hx, cs, hl, -⟩ := h
    rcases List.mem_cons.mp ha with rfl | hmem
    · exact ⟨b, hx⟩
    · exact ih hl hmem

/-- A fold over a list that has a result had one at each element. -/
theorem exists_of_foldlM_eq_some {α β : Type} {f : β → α → Option β} {l : List α} {b c : β} (h : l.foldlM f b = some c)
    {a : α} (ha : a ∈ l) : ∃ d e, f d a = some e := by
  induction l generalizing b with
  | nil => cases ha
  | cons x l ih =>
    simp only [List.foldlM_cons, Option.bind_eq_bind, Option.bind_eq_some_iff] at h
    obtain ⟨e, hx, hl⟩ := h
    rcases List.mem_cons.mp ha with rfl | hmem
    · exact ⟨b, e, hx⟩
    · exact ih hl hmem

section
variable {base : Nat} {ins : List Input} {m : Obj}

/-- Where a section's contents are relocated, each of its relocations has a value that passes its check. -/
theorem exists_relValue_of_relocated {ads : List (Nat × Nat × Nat)} {o i : Nat} {s : Sec} {bs : List Byte} {x : Input} {r : Rel}
    (h : relocated ins ads o i s = some bs) (hx : ins[o]? = some x) (hr : r ∈ x.obj.rels) (hi : r.sect = i) :
    ∃ a v, finalAddr ins ads o r.sym = some a
      ∧ relValue r.kind (BitVec.ofNat 64 a) r.add (BitVec.ofNat 64 ((addrOf ads o i).getD 0 + r.off)) = some v := by
  simp only [relocated, Option.bind_eq_bind, Option.bind_eq_some_iff] at h
  obtain ⟨y, hy, hfold⟩ := h
  obtain rfl : x = y := Option.some.inj (hx.symm.trans hy)
  have hmem : r ∈ x.obj.rels.filter (·.sect == i) := List.mem_filter.mpr ⟨hr, by simpa using hi⟩
  obtain ⟨_, _, hstep⟩ := exists_of_foldlM_eq_some hfold hmem
  simp only [Option.bind_eq_some_iff] at hstep
  obtain ⟨a, ha, v, hv, -⟩ := hstep
  exact ⟨a, v, ha, hv⟩

/-- The undefined extern names of the inputs, none of which kld admits (R261). -/
theorem not_any_undefined_iff :
    (ins.any fun x => x.obj.syms.any fun y => y.bind == 2 && !((globals ins).any (·.1 == x.obj.str y.name))) = false
      ↔ ∀ x ∈ ins, ∀ y ∈ x.obj.syms, y.bind = 2 → ∃ g ∈ globals ins, g.1 = x.obj.str y.name := by
  simp

/-- What a linked image meets, and what was relocated for it (R260, R261). -/
theorem link_eq_some (h : link base ins = some m) :
    (m.linked = true ∧ m.base = base ∧ m.rels = []) ∧ ((globals ins).map (·.1)).Nodup
      ∧ (∀ x ∈ ins, ∀ y ∈ x.obj.syms, y.bind = 2 → ∃ g ∈ globals ins, g.1 = x.obj.str y.name)
      ∧ ∀ z ∈ outOrder ins ++ ofKind ins kKinfo, z.2.2.kind ≠ kLocal →
          ∃ bs, relocated ins (addresses ins base) z.1 z.2.1 z.2.2 = some bs := by
  simp only [link, Option.ite_none_left_eq_some, Option.bind_eq_bind, Option.bind_eq_some_iff] at h
  obtain ⟨-, hnodup, hextern, out, hout, ki, hki, -, hm⟩ := h
  obtain rfl := Option.some.inj hm
  refine ⟨⟨rfl, rfl, rfl⟩, Classical.not_not.mp hnodup, not_any_undefined_iff.mp (Bool.eq_false_iff.mpr hextern), fun z hz hkind => ?_⟩
  rcases List.mem_append.mp hz with hz | hz
  · obtain ⟨b, hb⟩ := exists_of_mapM_eq_some hout hz
    rw [if_neg hkind] at hb
    obtain ⟨bs, hbs, -⟩ := Option.bind_eq_some_iff.mp hb
    exact ⟨bs, hbs⟩
  · obtain ⟨b, hb⟩ := exists_of_mapM_eq_some hki hz
    obtain ⟨bs, hbs, -⟩ := Option.map_eq_some_iff.mp hb
    exact ⟨bs, hbs⟩
end

/-- Settles O60: each kind by its own equation, a patch by the bytes it replaces, an image by what the link checked. -/
theorem relocationsAndLinking : Obligations.RelocationsAndLinking := by
  refine ⟨fun k s a p => ⟨rfl, relValue_abs32 s a p, rfl, relValue_hi32 s a p, relValue_imm17 s a p, fun kd n hkd => ?_,
      fun hk => ⟨relValue_eq_none_of_kind hk s a p, fun f o ho => readRel_eq_none_of_kind (by rwa [ho])⟩⟩,
    fun r hoff hsect hlo hhi hsym => readRel_entry hoff hsect hlo hhi hsym,
    fun w v i hi => ⟨fun k hk => getLsbD_patchWord_short hk v w hi, fun k hk => getLsbD_patchWord_long hk v w hi⟩,
    fun bs off k v _ _ => ⟨fun h => by rw [patch_eq]; exact if_pos h, fun h => patch_eq_some v h⟩, fun base ins m h => ?_⟩
  · rw [relValue_pc s a p hkd]
    exact ⟨pcUnits_eq_some, pcUnits_eq_none⟩
  · obtain ⟨⟨hlinked, hbase, hrels⟩, hnodup, hextern, hrelocated⟩ := link_eq_some h
    refine ⟨hlinked, hbase, hrels, hnodup, hextern, fun z hz hkind x hx r hr hsect => ?_⟩
    obtain ⟨bs, hbs⟩ := hrelocated z hz hkind
    exact exists_relValue_of_relocated hbs hx hr hsect

end Kof
end Sys2Proof
end

section
/-!
SUPPORT. How an instruction of the shared scalar forms yields its result, and that a word decodes to nothing but well-formed
instructions (R242).
-/
namespace Sys2Proof
open Machine Claims

/-- R242: what a word decodes to has passed the type, selector and operand checks. -/
theorem wf_of_decode {w : BitVec 96} {i : Instr} (h : decode w = some i) : i.wf = true := by
  simp only [decode, Option.bind_eq_bind, Option.bind_eq_some_iff, Option.ite_none_right_eq_some] at h
  obtain ⟨f, -, j, -, hwf, hj⟩ := h
  exact Option.some.inj hj ▸ hwf

/-- A checked instruction of layout I has a type its row admits. -/
theorem OpI.ty_of_dab {o : OpI} {d a b ty : Bool} (h : o.dab d a b ty = true) : ty = true := by
  simp only [OpI.dab, Bool.and_eq_true] at h
  obtain ⟨⟨-, hty⟩, -⟩ := h
  exact hty

section
variable {i : Instr} {s : State} {d a b : Opd} {x y z w : Word} {k : Ctx}

theorem yields_of_alu1 {f : Word → Word} (hd : Dirs s d a a) (hv : Reads1 s a x k)
    (he : exec i s = s.finish (s.alu1 d a f)) (hw : f x = w) : Yields i s k d w 0 := by
  subst hw
  intro hr
  rw [he]
  exact State.alu1_completes hd hv hr

theorem yields_of_alu2 {f : Word → Word → Word} (hd : Dirs s d a b) (hv : Reads2 s a b x y k)
    (he : exec i s = s.finish (s.alu2 d a b f)) (hw : f x y = w) : Yields i s k d w 0 := by
  subst hw
  intro hr
  rw [he]
  exact State.alu2_completes hd hv hr

theorem yields_of_alu3 {f : Word → Word → Word → Word} (hd : Dirs s d a b) (hv : Reads3 s d a b x y z k)
    (he : exec i s = s.finish (s.alu3 d a b f)) (hw : f x y z = w) : Yields i s k d w 0 := by
  subst hw
  intro hr
  rw [he]
  exact State.alu3_completes hd hv hr
end

end Sys2Proof
end

section
/-!
SUPPORT. The integers a type reads from a word and the word it writes for an integer (R262): writing depends on the integer
modulo 2^w only, so that a result may be computed on whole words and narrowed at the end.
-/
namespace Sys2Proof
open Machine Claims

namespace IntTy

theorem width_cases (t : IntTy) : t.width = 32 ∨ t.width = 64 := by cases t <;> simp [width]

theorem eq_of_isW {t : IntTy} (h : t.isW = true) : t = .s32 ∨ t = .s64 := by simpa [isW] using h

theorem raw_eq (t : IntTy) (x : Word) : t.raw x = x.toNat % 2 ^ t.width := rfl

/-- The word written for an integer is determined modulo 2^w. -/
theorem res_congr {t : IntTy} {u v : Int} (h : u % 2 ^ t.width = v % 2 ^ t.width) : t.res u = t.res v := by
  have hcut : BitVec.ofInt t.width u = BitVec.ofInt t.width v := by
    apply BitVec.eq_of_toNat_eq
    rw [BitVec.toNat_ofInt, BitVec.toNat_ofInt]
    exact congrArg Int.toNat (by exact_mod_cast h)
  cases t
  case s32 => exact congrArg (BitVec.signExtend 64) hcut
  case z32 => exact congrArg (BitVec.zeroExtend 64) hcut
  case s64 => exact hcut
  case z64 => exact hcut

/-- RES is the narrowed 64-bit image of the integer. -/
theorem res_eq_narrow_ofInt (t : IntTy) (v : Int) : t.res v = narrow t (BitVec.ofInt 64 v) := by
  have hcut : (BitVec.ofInt 64 v).truncate 32 = BitVec.ofInt 32 v := by
    apply BitVec.eq_of_toNat_eq
    rw [BitVec.toNat_setWidth, BitVec.toNat_ofInt, BitVec.toNat_ofInt]
    omega
  cases t
  case s32 => exact (congrArg (BitVec.signExtend 64) hcut).symm
  case z32 => exact (congrArg (BitVec.zeroExtend 64) hcut).symm
  case s64 => rfl
  case z64 => rfl

theorem res_eq_narrow {t : IntTy} {v u : Int} (h : v % 2 ^ t.width = u % 2 ^ t.width) : t.res v = narrow t (BitVec.ofInt 64 u) :=
  (res_congr h).trans (t.res_eq_narrow_ofInt u)

/-- SRC is the word's integer modulo 2^w. -/
theorem src_emod (t : IntTy) (x : Word) : t.src x % 2 ^ t.width = x.toInt % 2 ^ t.width := by
  cases t
  case s32 =>
    show (x.truncate 32).toInt % 4294967296 = x.toInt % 4294967296
    rw [BitVec.toInt_eq_toNat_cond, BitVec.toInt_eq_toNat_cond, BitVec.toNat_setWidth]
    split <;> split <;> omega
  case z32 =>
    show ((x.truncate 32).toNat : Int) % 4294967296 = x.toInt % 4294967296
    rw [BitVec.toInt_eq_toNat_cond, BitVec.toNat_setWidth]
    split <;> omega
  case s64 => rfl
  case z64 =>
    show (x.toNat : Int) % 18446744073709551616 = x.toInt % 18446744073709551616
    rw [BitVec.toInt_eq_toNat_cond]
    split <;> omega

/-- SRC of the narrowed word, as the type reads it. -/
theorem src_eq (t : IntTy) (x : Word) :
    t.src x = if t.signed then (narrow t x).toInt else ((narrow t x).toNat : Int) := by
  cases t
  case s32 => exact (BitVec.toInt_signExtend_of_le (by decide)).symm
  case z32 =>
    show _ = (((x.truncate 32).zeroExtend 64).toNat : Int)
    rw [BitVec.toNat_setWidth, Nat.mod_eq_of_lt (by have := (x.truncate 32).isLt; omega)]
    rfl
  case s64 => rfl
  case z64 => rfl

theorem res_src (t : IntTy) (x : Word) : t.res (t.src x) = narrow t x := by
  rw [res_eq_narrow (t.src_emod x), BitVec.ofInt_toInt]

theorem src_inj {t : IntTy} {x y : Word} : t.src x = t.src y ↔ narrow t x = narrow t y := by
  refine ⟨fun h => by rw [← res_src, h, res_src], fun h => by rw [src_eq, src_eq, h]⟩

theorem res_zero (t : IntTy) : t.res 0 = 0 := by cases t <;> rfl
theorem src_zero (t : IntTy) : t.src 0 = 0 := by cases t <;> rfl
theorem narrow_zero (t : IntTy) : narrow t 0 = 0 := by cases t <;> rfl

theorem src_eq_zero {t : IntTy} {x : Word} : t.src x = 0 ↔ narrow t x = 0 := by
  rw [← t.src_zero, src_inj, narrow_zero]

theorem below_eq (t : IntTy) (x y : Word) : below t x y = decide (t.src x ≤ t.src y) := by
  rw [below, src_eq, src_eq]
  cases t.signed
  · simp [BitVec.ule_eq_decide]
  · simp [BitVec.sle_eq_decide]

/-! ## Sums and products (R266) -/

section
variable (t : IntTy) (x y z : Word)

theorem src_add_emod : (t.src x + t.src y) % 2 ^ t.width = (x.toInt + y.toInt) % 2 ^ t.width := by
  rw [Int.add_emod, src_emod, src_emod, ← Int.add_emod]

theorem src_sub_emod : (t.src x - t.src y) % 2 ^ t.width = (x.toInt - y.toInt) % 2 ^ t.width := by
  rw [Int.sub_emod, src_emod, src_emod, ← Int.sub_emod]

theorem src_mul_emod : (t.src x * t.src y) % 2 ^ t.width = (x.toInt * y.toInt) % 2 ^ t.width := by
  rw [Int.mul_emod, src_emod, src_emod, ← Int.mul_emod]

theorem src_mul_add_emod :
    (t.src z + t.src x * t.src y) % 2 ^ t.width = (z.toInt + x.toInt * y.toInt) % 2 ^ t.width := by
  rw [Int.add_emod, src_emod, src_mul_emod, ← Int.add_emod]

theorem res_add : t.res (t.src x + t.src y) = narrow t (x + y) := by
  rw [res_eq_narrow (t.src_add_emod x y), BitVec.ofInt_add, BitVec.ofInt_toInt, BitVec.ofInt_toInt]

theorem res_sub : t.res (t.src x - t.src y) = narrow t (x - y) := by
  rw [res_eq_narrow (t.src_sub_emod x y), Int.sub_eq_add_neg, BitVec.ofInt_add, BitVec.ofInt_neg,
    BitVec.ofInt_toInt, BitVec.ofInt_toInt, BitVec.sub_eq_add_neg]

theorem res_neg : t.res (0 - t.src x) = narrow t (0 - x) := by
  simpa only [src_zero] using t.res_sub 0 x

theorem res_mul : t.res (t.src x * t.src y) = narrow t (x * y) := by
  rw [res_eq_narrow (t.src_mul_emod x y), BitVec.ofInt_mul, BitVec.ofInt_toInt, BitVec.ofInt_toInt]

theorem res_mul_add : t.res (t.src z + t.src x * t.src y) = narrow t (z + x * y) := by
  rw [res_eq_narrow (t.src_mul_add_emod x y z), BitVec.ofInt_add, BitVec.ofInt_mul,
    BitVec.ofInt_toInt, BitVec.ofInt_toInt, BitVec.ofInt_toInt]

/-- The choice of one of two sources. -/
theorem res_ite (p : Prop) [Decidable p] : t.res (if p then t.src x else t.src y) = narrow t (if p then x else y) := by
  split <;> exact t.res_src _

/-- A source at twice the width is its value there. -/
theorem wide_eq : wide t x = BitVec.ofInt 128 (t.src x) := by
  rw [wide, src_eq]
  cases t.signed
  · exact (BitVec.ofNat_toNat 128 _).symm.trans (BitVec.ofInt_natCast 128 _).symm
  · rfl

/-- The upper half of the exact product. -/
theorem res_mul_high :
    t.res (t.src x * t.src y / 2 ^ t.width) = narrow t (((wide t x * wide t y) >>> t.width).truncate 64) := by
  rw [wide_eq, wide_eq, ← BitVec.ofInt_mul]
  generalize t.src x * t.src y = p
  have hcut : ((BitVec.ofInt 128 p) >>> t.width).truncate 64
      = BitVec.ofInt 64 (((p % 2 ^ 128).toNat / 2 ^ t.width : Nat) : Int) := by
    rw [BitVec.ofInt_natCast]
    apply BitVec.eq_of_toNat_eq
    rw [BitVec.toNat_setWidth, BitVec.toNat_ushiftRight, BitVec.toNat_ofInt, BitVec.toNat_ofNat, Nat.shiftRight_eq_div_pow]
    rfl
  rw [hcut]
  refine res_eq_narrow ?_
  rcases t.width_cases with h | h <;> rw [h] <;> omega

/-- The absolute value of a signed source. -/
theorem res_abs (h : t.signed = true) :
    t.res (if 0 ≤ t.src x then t.src x else 0 - t.src x) = narrow t (if (narrow t x).slt 0 then 0 - x else x) := by
  have hneg : (narrow t x).slt 0 = decide (t.src x < 0) := by rw [BitVec.slt_eq_decide, src_eq, if_pos h]; rfl
  rw [hneg]
  by_cases hx : t.src x < 0
  · rw [if_neg (by omega), if_pos (decide_eq_true hx), res_neg]
  · rw [if_pos (by omega), if_neg (by simpa using hx), res_src]
end

/-! ## Bits (R262, R270) -/

theorem testBit_raw (t : IntTy) (x : Word) (i : Nat) : (t.raw x).testBit i = (decide (i < t.width) && x.getLsbD i) := by
  rw [raw_eq, Nat.testBit_mod_two_pow, BitVec.testBit_toNat]

theorem res_natCast_eq_narrow {t : IntTy} {n : Nat} {w : Word} (h : ∀ i, i < t.width → n.testBit i = w.getLsbD i) :
    t.res n = narrow t w := by
  have hmod : n % 2 ^ t.width = w.toNat % 2 ^ t.width := by
    apply Nat.eq_of_testBit_eq
    intro i
    rw [Nat.testBit_mod_two_pow, Nat.testBit_mod_two_pow, BitVec.testBit_toNat]
    by_cases hi : i < t.width
    · rw [h i hi]
    · simp [hi]
  have hcongr : (n : Int) % 2 ^ t.width = (w.toNat : Int) % 2 ^ t.width := by exact_mod_cast hmod
  rw [res_eq_narrow hcongr, BitVec.ofInt_natCast, BitVec.ofNat_toNat, BitVec.setWidth_eq]

end IntTy
end Sys2Proof
end

section
/-!
SUPPORT. Bit fields (R271): position and effective length of the field a source names, and the bits of the words that BFX
and BFI make.
-/
namespace Sys2Proof
open Machine Claims

theorem testBit_notBits (w v i : Nat) : (notBits w v).testBit i = (decide (i < w) && !v.testBit i) := by
  have hlt : v % 2 ^ w < 2 ^ w := Nat.mod_lt _ (Nat.two_pow_pos w)
  rw [notBits, Nat.sub_sub, Nat.add_comm 1, Nat.testBit_two_pow_sub_succ hlt, Nat.testBit_mod_two_pow]
  by_cases h : i < w <;> simp [h]

theorem fieldPos_eq (y : Word) : fieldPos y = y.toNat % 64 := by
  simp [fieldPos]

theorem fieldLen_eq (t : IntTy) (y : Word) :
    fieldLen t y = if t.width ≤ fieldPos y then 0 else min (y.toNat / 256 % 128) (t.width - fieldPos y) := by
  simp [fieldLen, Nat.shiftRight_eq_div_pow]

/-- There is no field exactly where its place is outside the word or its length is zero. -/
theorem fieldLen_eq_zero {t : IntTy} {y : Word} :
    fieldLen t y = 0 ↔ t.width ≤ y.toNat % 64 ∨ y.toNat / 256 % 128 = 0 := by
  rw [fieldLen_eq, fieldPos_eq]
  split <;> omega

theorem fieldLen_of_ne_zero {t : IntTy} {y : Word} (h : fieldLen t y ≠ 0) :
    fieldLen t y = min (y.toNat / 256 % 128) (t.width - fieldPos y) := by
  rw [fieldLen_eq] at h ⊢
  exact if_neg fun hw => h (if_pos hw)

theorem fieldPos_add_fieldLen_le {t : IntTy} {y : Word} (h : fieldLen t y ≠ 0) : fieldPos y + fieldLen t y ≤ t.width := by
  rw [fieldLen_eq] at h ⊢
  split at h
  · exact absurd rfl h
  · rw [if_neg ‹_›]; omega

/-- Bits of the mask of a field. -/
theorem testBit_fieldMask (len pos i : Nat) : ((2 ^ len - 1) <<< pos).testBit i = decide (pos ≤ i ∧ i < pos + len) := by
  rw [Nat.testBit_shiftLeft, Nat.testBit_two_pow_sub_one, ← Bool.decide_and]
  congr 1
  simp
  omega

section
variable {t : IntTy}

theorem bfiVal_eq (t : IntTy) (a d : Nat) (y : Word) : bfiVal t.width a y.toNat d =
    if fieldLen t y = 0 then d
    else (d &&& notBits t.width ((2 ^ fieldLen t y - 1) <<< fieldPos y))
      ||| ((a <<< fieldPos y) &&& ((2 ^ fieldLen t y - 1) <<< fieldPos y)) := by
  by_cases h : fieldLen t y = 0
  · rw [if_pos h]
    exact if_pos (fieldLen_eq_zero.mp h)
  · rw [if_neg h, fieldLen_of_ne_zero h, fieldPos_eq]
    exact if_neg (mt fieldLen_eq_zero.mpr h)

/-- BFI takes the bits of the field from A and the others from D. -/
theorem testBit_bfiVal (a d : Nat) (y : Word) {i : Nat} (hi : i < t.width) :
    (bfiVal t.width a y.toNat d).testBit i =
      if fieldPos y ≤ i ∧ i < fieldPos y + fieldLen t y then a.testBit (i - fieldPos y) else d.testBit i := by
  rw [bfiVal_eq]
  by_cases h : fieldLen t y = 0
  · rw [if_pos h, h, if_neg (by omega)]
  · rw [if_neg h, Nat.testBit_or, Nat.testBit_and, Nat.testBit_and, testBit_notBits, testBit_fieldMask, Nat.testBit_shiftLeft]
    by_cases hf : fieldPos y ≤ i ∧ i < fieldPos y + fieldLen t y <;> simp [hf, hi]

theorem res_bfiVal {x y z r : Word}
    (hr : ∀ i, i < t.width → r.getLsbD i =
      if fieldPos y ≤ i ∧ i < fieldPos y + fieldLen t y then x.getLsbD (i - fieldPos y) else z.getLsbD i) :
    t.res (bfiVal t.width (t.raw x) y.toNat (t.raw z) : Nat) = narrow t r := by
  refine IntTy.res_natCast_eq_narrow fun i hi => ?_
  rw [testBit_bfiVal _ _ _ hi, hr i hi, IntTy.testBit_raw, IntTy.testBit_raw]
  simp [hi, show i - fieldPos y < t.width by omega]
end

/-- Settles O7: each result is computed on whole words and narrowed, IMULH's on words of twice the width, BFI's bit by bit. -/
theorem integerArithmetic : Obligations.IntegerArithmetic := by
  refine ⟨fun s o x k => ⟨fun y hd hv => ⟨?_, ?_, ?_, ?_, ?_, ?_⟩, fun hd hv => ⟨?_, fun hs => ?_⟩⟩,
    fun s o x y z k hd hv => ⟨?_, fun r hr => ?_⟩, fun w o h => ?_⟩
  · exact yields_of_alu2 hd hv rfl (o.ty.res_add x y)
  · exact yields_of_alu2 hd hv rfl (o.ty.res_sub x y)
  · exact yields_of_alu2 hd hv rfl (o.ty.res_mul x y)
  · exact yields_of_alu2 hd hv rfl (o.ty.res_mul_high x y)
  · exact yields_of_alu2 hd hv rfl (by simpa [IntTy.below_eq] using o.ty.res_ite x y _)
  · exact yields_of_alu2 hd hv rfl (by simpa [IntTy.below_eq] using o.ty.res_ite y x _)
  · exact yields_of_alu1 hd hv rfl (o.ty.res_neg x)
  · exact yields_of_alu1 hd hv rfl (o.ty.res_abs x hs)
  · exact yields_of_alu3 hd hv rfl (o.ty.res_mul_add x y z)
  · exact yields_of_alu3 hd hv rfl (res_bfiVal hr)
  · have hwf : o.wf1 o.ty.isW = true := h.elim wf_of_decode wf_of_decode
    exact IntTy.eq_of_isW (OpI.ty_of_dab hwf)
end Sys2Proof
end

section
/-!
SUPPORT. Division (R267): a quotient and a remainder that has the sign of the dividend are those of the division rounded
toward zero.
-/
namespace Sys2Proof
open Machine Claims

theorem tdiv_tmod_unique {a b q r : Int} (hb : b ≠ 0) (h : a = q * b + r) (hr : r.natAbs < b.natAbs)
    (hs : r = 0 ∨ (0 < r ↔ 0 < a)) : a.tdiv b = q ∧ a.tmod b = r := by
  have hsum : r + b * q = a := by rw [h, Int.mul_comm]; omega
  by_cases ha : 0 < a
  · exact (Int.tdiv_tmod_unique (by omega) hb).mpr ⟨hsum, by omega, by omega⟩
  · exact (Int.tdiv_tmod_unique' (by omega) hb).mpr ⟨hsum, by omega, by omega⟩

theorem divRem_zero (t : IntTy) (a : Int) : divRem t a 0 = (if t.signed then -1 else 2 ^ t.width - 1, a) := if_pos rfl

theorem divRem_overflow {t : IntTy} (h : t.signed = true) :
    divRem t (-2 ^ (t.width - 1)) (-1) = (-2 ^ (t.width - 1), 0) := by
  rw [divRem, if_neg (by decide)]
  exact if_pos ⟨h, rfl, rfl⟩

theorem divRem_of_ne_zero {t : IntTy} {a b : Int} (hb : b ≠ 0)
    (h : ¬ (t.signed = true ∧ a = -2 ^ (t.width - 1) ∧ b = -1)) : divRem t a b = (a.tdiv b, a.tmod b) := by
  rw [divRem, if_neg hb, if_neg h, Int.tmod_def, Int.mul_comm]

section
variable {t : IntTy} {x y : Word}

/-- A division by zero gives all ones and the dividend. -/
theorem res_divRem_zero (h : narrow t y = 0) :
    t.res (divRem t (t.src x) (t.src y)).1 = narrow t (BitVec.allOnes 64)
      ∧ t.res (divRem t (t.src x) (t.src y)).2 = narrow t x := by
  rw [IntTy.src_eq_zero.mpr h, divRem_zero]
  refine ⟨?_, t.res_src x⟩
  have hones : (if t.signed then -1 else 2 ^ t.width - 1 : Int) % 2 ^ t.width = -1 % 2 ^ t.width := by
    split
    · rfl
    · rw [Int.sub_eq_add_neg, Int.add_emod, Int.emod_self, Int.zero_add, Int.emod_emod]
  rw [show BitVec.allOnes 64 = BitVec.ofInt 64 (-1) by decide]
  exact IntTy.res_eq_narrow hones

/-- The least integer of a signed type over −1 overflows to the dividend, without a remainder. -/
theorem res_divRem_overflow (hs : t.signed = true) (hx : t.src x = -2 ^ (t.width - 1)) (hy : t.src y = -1) :
    t.res (divRem t (t.src x) (t.src y)).1 = narrow t x ∧ t.res (divRem t (t.src x) (t.src y)).2 = 0 := by
  rw [hy, hx, divRem_overflow hs]
  exact ⟨hx ▸ t.res_src x, t.res_zero⟩

/-- The results of a division by another divisor are quotient and remainder modulo 2^w, the overflow included. -/
theorem res_divRem {a b q r : Int} (hb : b ≠ 0) (h : a = q * b + r) (hr : r.natAbs < b.natAbs)
    (hs : r = 0 ∨ (0 < r ↔ 0 < a)) :
    t.res (divRem t a b).1 = narrow t (BitVec.ofInt 64 q) ∧ t.res (divRem t a b).2 = narrow t (BitVec.ofInt 64 r) := by
  by_cases hov : t.signed = true ∧ a = -2 ^ (t.width - 1) ∧ b = -1
  · obtain ⟨hsg, rfl, rfl⟩ := hov
    rw [divRem_overflow hsg]
    obtain rfl : r = 0 := by omega
    obtain rfl : q = 2 ^ (t.width - 1) := by omega
    have hq : (-2 ^ (t.width - 1) : Int) % 2 ^ t.width = 2 ^ (t.width - 1) % 2 ^ t.width := by
      rcases t.width_cases with hw | hw <;> rw [hw] <;> decide
    exact ⟨IntTy.res_eq_narrow hq, t.res_eq_narrow_ofInt 0⟩
  · obtain ⟨rfl, rfl⟩ := tdiv_tmod_unique hb h hr hs
    rw [divRem_of_ne_zero hb hov]
    exact ⟨t.res_eq_narrow_ofInt _, t.res_eq_narrow_ofInt _⟩

theorem src_eq_toInt (hs : t.signed = true) (x : Word) : t.src x = (narrow t x).toInt := (t.src_eq x).trans (if_pos hs)

theorem toInt_signed_least (hs : t.signed = true) : (signed t (1 <<< (t.width - 1))).toInt = -2 ^ (t.width - 1) := by
  cases t
  case s32 => decide
  case s64 => decide
  case z32 => cases hs
  case z64 => cases hs
end

/-- Settles O8: by the divisor, and by the uniqueness of the quotient that is rounded toward zero. -/
theorem division : Obligations.Division := by
  intro s o x y k hd hv
  refine ⟨fun hy => ?_, fun hs hx hy => ?_, fun q r hy hx hlt hsign => ?_⟩
  · obtain ⟨hq, hr⟩ := res_divRem_zero (x := x) hy
    exact ⟨yields_of_alu2 hd hv rfl hq, yields_of_alu2 hd hv rfl hr⟩
  · have hx' : o.ty.src x = -2 ^ (o.ty.width - 1) := by rw [src_eq_toInt hs, hx, toInt_signed_least hs]
    have hy' : o.ty.src y = -1 := by rw [src_eq_toInt hs, hy]; decide
    obtain ⟨hq, hr⟩ := res_divRem_overflow hs hx' hy'
    exact ⟨yields_of_alu2 hd hv rfl hq, yields_of_alu2 hd hv rfl hr⟩
  · obtain ⟨hq, hr⟩ := res_divRem (t := o.ty) hy hx hlt hsign
    exact ⟨yields_of_alu2 hd hv rfl hq, yields_of_alu2 hd hv rfl hr⟩
end Sys2Proof
end

section
/-!
SUPPORT. Comparisons, and the counts of bits (R268, R269): the number of leading and of trailing zeros is the one place where
a first bit stands, the reversed word is known bit by bit.
-/
namespace Sys2Proof
open Machine Claims

section
variable {s : State} {d a b : Opd} {x y : Word} {k : Ctx}

theorem Machine.Ctx.onlyQs_of_reads2 (hv : Reads2 s a b x y k) : s.me.OnlyQs k := by
  obtain ⟨c, ha, hb⟩ := hv
  exact (Ctx.val_onlyQs ha).trans (Ctx.val_onlyQs hb)

/-- A comparison whose destination takes its truth writes its predicate too, and the next instruction follows. -/
theorem Machine.State.wrCond_eq_ok {s u : State} {t : Bool} (p : Fin 8) (h : s.wr d (if t then 1 else 0) = .ok u) :
    s.wrCond d p t = .ok (u.modMe fun c => (c.setPB p.val t).advance) := by
  rw [State.wrCond, h]
  simp [State.advance, bind, Except.bind, pure, Except.pure]

theorem exec_icmp {u : State} {o : OpI} {c : Cond} {dp : Fin 8} {t : Bool} (hd : Dirs s o.d o.a o.b)
    (hv : Reads2 s o.a o.b x y k) (ht : intCond c (o.ty.src x) (o.ty.src y) = t)
    (hu : (s.commitQ k).wr o.d (if t then 1 else 0) = .ok u) :
    exec (.icmp c dp o) s = .next (u.modMe fun c => (c.setPB dp.val t).advance) := by
  have hw := State.wrCond_eq_ok dp hu
  rw [← State.setMe_onlyQs (Ctx.onlyQs_of_reads2 hv)] at hw
  obtain ⟨c', ha, hb⟩ := hv
  show execIcmp c dp o s = _
  simp [execIcmp, State.dirs_ok hd, ha, hb, ht, hw, State.finish, bind, Except.bind]
end

/-- The truth of an integer comparison by the narrowed sources and their order. -/
theorem intCond_eq_iff {t : IntTy} {c : Cond} {x y : Word} : intCond c (t.src x) (t.src y) = true ↔ match c with
    | .eq => narrow t x = narrow t y
    | .ne => narrow t x ≠ narrow t y
    | .le => below t x y = true
    | .ge => below t y x = true
    | .lt => below t y x = false
    | .gt => below t x y = false
    | .un | .ord => False := by
  cases c <;> simp [intCond, IntTy.src_inj, IntTy.below_eq]

/-! ## Counts of bits -/

/-- Leading zeros: the first set bit stands n places below the top. -/
theorem clzFrom_eq {w v n : Nat} (hn : n ≤ w) (hz : ∀ i, i < n → v.testBit (w - 1 - i) = false)
    (ho : n < w → v.testBit (w - 1 - n) = true) : clzFrom w v = n := by
  induction w generalizing n with
  | zero => rw [clzFrom]; omega
  | succ w ih =>
    rw [clzFrom]
    cases n with
    | zero => rw [if_pos (by simpa using ho)]
    | succ n =>
      have htop : v.testBit w = false := by simpa using hz 0 (by omega)
      rw [htop, if_neg (by decide), ih (n := n) (by omega) (fun i hi => ?_) fun hlt => ?_, Nat.add_comm]
      · rw [← hz (i + 1) (by omega)]; congr 1; omega
      · rw [← ho (by omega)]; congr 1; omega

/-- Trailing zeros: the first set bit stands in place n. -/
theorem ctzFrom_eq {w v n : Nat} (hn : n ≤ w) (hz : ∀ i, i < n → v.testBit i = false) (ho : n < w → v.testBit n = true) :
    ctzFrom w v = n := by
  induction w generalizing v n with
  | zero => rw [ctzFrom]; omega
  | succ w ih =>
    rw [ctzFrom]
    cases n with
    | zero => rw [if_pos (ho (by omega))]
    | succ n =>
      rw [hz 0 (by omega), if_neg (by decide), ih (n := n) (by omega) (fun i hi => ?_) fun hlt => ?_, Nat.add_comm]
      · rw [Nat.testBit_div_two, hz (i + 1) (by omega)]
      · rw [Nat.testBit_div_two, ho (by omega)]

theorem popCount_eq (w v : Nat) : popCount w v = ((List.range w).filter fun i => v.testBit i).length := by
  induction w with
  | zero => rfl
  | succ w ih =>
    rw [popCount, ih, List.range_succ, List.filter_append, List.length_append, Nat.add_comm]
    cases h : v.testBit w <;> simp [h]

theorem popCount_le (w v : Nat) : popCount w v ≤ w := by
  rw [popCount_eq]
  exact Nat.le_trans (List.length_filter_le _ _) (Nat.le_of_eq List.length_range)

theorem bitReverse_lt (w v : Nat) : bitReverse w v < 2 ^ w := by
  induction w generalizing v with
  | zero => simp [bitReverse]
  | succ w ih =>
    have hrest := ih (v / 2)
    have htop : (v.testBit 0).toNat * 2 ^ w ≤ 2 ^ w := by cases v.testBit 0 <;> simp
    rw [bitReverse, Nat.pow_succ]
    omega

/-- Bit i of the reversed word is the i-th from the top. -/
theorem testBit_bitReverse {w v i : Nat} (hi : i < w) : (bitReverse w v).testBit i = v.testBit (w - 1 - i) := by
  induction w generalizing v i with
  | zero => omega
  | succ w ih =>
    have hlow := bitReverse_lt w (v / 2)
    rw [bitReverse, Nat.mul_comm, Nat.testBit_two_pow_mul_add _ hlow]
    by_cases h : i < w
    · rw [if_pos h, ih h, Nat.testBit_div_two]
      congr 1
      omega
    · obtain rfl : i = w := by omega
      rw [if_neg h, Nat.sub_self, Nat.testBit_bool_toNat]
      simp

/-- A number below 2^31 is written as itself by every type. -/
theorem IntTy.res_natCast_of_lt {t : IntTy} {n : Nat} (h : n < 2 ^ 31) : t.res n = BitVec.ofNat 64 n := by
  have hneg : (BitVec.ofNat 32 n).msb = false := by
    rw [BitVec.msb_eq_false_iff_two_mul_lt, BitVec.toNat_ofNat]
    omega
  have hcut : (BitVec.ofNat 32 n).zeroExtend 64 = BitVec.ofNat 64 n := by
    apply BitVec.eq_of_toNat_eq
    rw [BitVec.toNat_setWidth, BitVec.toNat_ofNat, BitVec.toNat_ofNat]
    omega
  cases t
  case s32 =>
    show (BitVec.ofInt 32 n).signExtend 64 = _
    rw [BitVec.ofInt_natCast, BitVec.signExtend_eq_setWidth_of_msb_false hneg]
    exact hcut
  case z32 =>
    show (BitVec.ofInt 32 n).zeroExtend 64 = _
    rw [BitVec.ofInt_natCast]
    exact hcut
  case s64 => exact BitVec.ofInt_natCast 64 n
  case z64 => exact BitVec.ofInt_natCast 64 n

section
variable {t : IntTy} {x : Word} {n : Nat}

theorem IntTy.testBit_raw_of_lt {i : Nat} (hi : i < t.width) : (t.raw x).testBit i = x.getLsbD i := by
  rw [IntTy.testBit_raw, decide_eq_true hi, Bool.true_and]

theorem IntTy.lt_of_le_width (h : n ≤ t.width) : n < 2 ^ 31 := by
  rcases t.width_cases with hw | hw <;> omega

theorem res_clzFrom (hn : n ≤ t.width) (hz : ∀ i, i < n → x.getLsbD (t.width - 1 - i) = false)
    (ho : n < t.width → x.getLsbD (t.width - 1 - n) = true) : t.res (clzFrom t.width (t.raw x) : Nat) = BitVec.ofNat 64 n := by
  rw [clzFrom_eq hn (fun i hi => ?_) fun hlt => ?_, IntTy.res_natCast_of_lt (IntTy.lt_of_le_width hn)]
  · rw [IntTy.testBit_raw_of_lt (by omega), hz i hi]
  · rw [IntTy.testBit_raw_of_lt (by omega), ho hlt]

theorem res_ctzFrom (hn : n ≤ t.width) (hz : ∀ i, i < n → x.getLsbD i = false)
    (ho : n < t.width → x.getLsbD n = true) : t.res (ctzFrom t.width (t.raw x) : Nat) = BitVec.ofNat 64 n := by
  rw [ctzFrom_eq hn (fun i hi => ?_) fun hlt => ?_, IntTy.res_natCast_of_lt (IntTy.lt_of_le_width hn)]
  · rw [IntTy.testBit_raw_of_lt (by omega), hz i hi]
  · rw [IntTy.testBit_raw_of_lt hlt, ho hlt]

theorem res_popCount : t.res (popCount t.width (t.raw x) : Nat)
    = BitVec.ofNat 64 ((List.range t.width).filter fun i => x.getLsbD i).length := by
  rw [IntTy.res_natCast_of_lt (IntTy.lt_of_le_width (popCount_le _ _)), popCount_eq]
  congr 2
  exact List.filter_congr fun i hi => IntTy.testBit_raw_of_lt (List.mem_range.mp hi)

theorem res_bitReverse {r : Word} (hr : ∀ i, i < t.width → r.getLsbD i = x.getLsbD (t.width - 1 - i)) :
    t.res (bitReverse t.width (t.raw x) : Nat) = narrow t r := by
  refine IntTy.res_natCast_eq_narrow fun i hi => ?_
  rw [testBit_bitReverse hi, IntTy.testBit_raw_of_lt (by omega), hr i hi]
end

/-- A shift to the left multiplies by a power of two. -/
theorem shiftLeft_eq_mul_two_pow (y : Word) (n : Nat) : y <<< n = y * BitVec.ofNat 64 (2 ^ n) := by
  apply BitVec.eq_of_toNat_eq
  rw [BitVec.toNat_shiftLeft, BitVec.toNat_mul, BitVec.toNat_ofNat, Nat.mul_mod_mod, Nat.shiftLeft_eq]

/-- Settles O9: the comparison by the sources' integers, the counts by the place of the first set bit. -/
theorem compareSelectAndCount : Obligations.CompareSelectAndCount := by
  refine ⟨fun s o c dp x y k b u hd hv hun hord hb hu => ?_,
    fun s o x k => ⟨fun y dp sh hd hv => ⟨?_, ?_⟩, fun hd hv => ⟨fun n hn hz ho => ?_, fun n hn hz ho => ?_, ?_, fun r hr => ?_⟩⟩,
    fun w o => ⟨fun dp => ⟨fun h => ?_, fun h => ?_⟩, fun sh h => ?_, fun i hi h => ?_⟩⟩
  · exact exec_icmp hd hv (Bool.eq_iff_iff.mpr (intCond_eq_iff.trans hb.symm)) hu
  · exact yields_of_alu2 hd hv rfl (o.ty.res_ite x y _)
  · exact yields_of_alu2 hd hv rfl (congrArg (x + ·) (shiftLeft_eq_mul_two_pow y sh.val))
  · exact yields_of_alu1 hd hv rfl (res_clzFrom hn hz ho)
  · exact yields_of_alu1 hd hv rfl (res_ctzFrom hn hz ho)
  · exact yields_of_alu1 hd hv rfl res_popCount
  · exact yields_of_alu1 hd hv rfl (res_bitReverse hr)
  · exact absurd (OpI.ty_of_dab (wf_of_decode h)) (by decide)
  · exact absurd (OpI.ty_of_dab (wf_of_decode h)) (by decide)
  · exact eq_of_beq (OpI.ty_of_dab (wf_of_decode h))
  · have hwf : o.wf1 o.ty.isW = true := by
      simp only [List.mem_cons, List.not_mem_nil, or_false] at hi
      rcases hi with rfl | rfl | rfl | rfl <;> exact wf_of_decode h
    exact IntTy.eq_of_isW (OpI.ty_of_dab hwf)
end Sys2Proof
end

section
/-!
SUPPORT. Logic, shifts and fields (R270 to R273): a result bit by bit, from the low w bits of the sources.
-/
namespace Sys2Proof
open Machine Claims

/-- A signed number of w bits is the integer of the w-bit word. -/
theorem toSigned_eq_toInt {w : Nat} (hw : 0 < w) (v : Nat) : toSigned w v = (BitVec.ofNat w v).toInt := by
  obtain ⟨n, rfl⟩ : ∃ n, w = n + 1 := ⟨w - 1, by omega⟩
  rw [BitVec.toInt_eq_toNat_cond, BitVec.toNat_ofNat, toSigned]
  refine ite_congr (propext ?_) (fun _ => rfl) fun _ => rfl
  rw [Nat.add_sub_cancel, Nat.pow_succ]
  omega

section
variable {t : IntTy} (x y : Word)

/-- The count of a shift, modulo w, needs only the low w bits. -/
theorem IntTy.raw_mod_width (t : IntTy) (y : Word) : t.raw y % t.width = y.toNat % t.width := by
  rw [IntTy.raw_eq]
  exact Nat.mod_mod_of_dvd _ (by rcases t.width_cases with h | h <;> rw [h] <;> decide)

theorem IntTy.width_pos (t : IntTy) : 0 < t.width := by rcases t.width_cases with h | h <;> omega
theorem IntTy.width_le (t : IntTy) : t.width ≤ 64 := by rcases t.width_cases with h | h <;> omega

/-- The low w bits with zeros above. -/
theorem getLsbD_low (t : IntTy) (x : Word) {i : Nat} : (low t x).getLsbD i = (decide (i < t.width) && x.getLsbD i) := by
  rw [low]
  split
  · next h =>
    rw [BitVec.getLsbD_setWidth, BitVec.getLsbD_setWidth, h]
    by_cases hi : i < 32
    · simp [hi, show i < 64 by omega]
    · simp [hi]
  · next h =>
    rw [t.width_cases.resolve_left h]
    by_cases hi : i < 64
    · simp [hi]
    · simp [hi, BitVec.getLsbD_of_ge x i (by omega)]

/-- The low w bits with their sign are the signed number they stand for. -/
theorem toInt_signed (t : IntTy) (x : Word) : (signed t x).toInt = toSigned t.width (t.raw x) := by
  rw [toSigned_eq_toInt t.width_pos, IntTy.raw_eq, signed]
  have hraw : BitVec.ofNat t.width (x.toNat % 2 ^ t.width) = x.truncate t.width := by
    apply BitVec.eq_of_toNat_eq
    rw [BitVec.toNat_ofNat, Nat.mod_mod, BitVec.toNat_setWidth]
  rw [hraw]
  rcases t.width_cases with h | h <;> rw [h]
  · exact BitVec.toInt_signExtend_of_le (by decide)
  · exact congrArg BitVec.toInt (BitVec.setWidth_eq x).symm

/-- The low w bits turned left by less than w. -/
theorem getLsbD_turned (t : IntTy) (x : Word) {n i : Nat} (hn : n < t.width) (hi : i < t.width) :
    (turned t x n).getLsbD i = if i < n then x.getLsbD (t.width - n + i) else x.getLsbD (i - n) := by
  rw [turned]
  split
  · next h =>
    rw [h] at hn hi ⊢
    rw [BitVec.getLsbD_setWidth, BitVec.getLsbD_rotateLeft, Nat.mod_eq_of_lt hn]
    by_cases hlt : i < n
    · simp [hlt, show i < 64 by omega, BitVec.getLsbD_setWidth, show 32 - n + i < 32 by omega]
    · simp [hlt, hi, show i < 64 by omega, BitVec.getLsbD_setWidth, show i - n < 32 by omega]
  · next h =>
    rw [t.width_cases.resolve_left h] at hn hi ⊢
    rw [BitVec.getLsbD_rotateLeft, Nat.mod_eq_of_lt hn]
    by_cases hlt : i < n
    · simp [hlt]
    · simp [hlt, hi]

/-! ## The results of R270 -/

theorem res_and : t.res (t.raw x &&& t.raw y : Nat) = narrow t (x &&& y) :=
  IntTy.res_natCast_eq_narrow fun i hi => by
    rw [Nat.testBit_and, BitVec.getLsbD_and, IntTy.testBit_raw_of_lt hi, IntTy.testBit_raw_of_lt hi]

theorem res_or : t.res (t.raw x ||| t.raw y : Nat) = narrow t (x ||| y) :=
  IntTy.res_natCast_eq_narrow fun i hi => by
    rw [Nat.testBit_or, BitVec.getLsbD_or, IntTy.testBit_raw_of_lt hi, IntTy.testBit_raw_of_lt hi]

theorem res_xor : t.res (t.raw x ^^^ t.raw y : Nat) = narrow t (x ^^^ y) :=
  IntTy.res_natCast_eq_narrow fun i hi => by
    rw [Nat.testBit_xor, BitVec.getLsbD_xor, IntTy.testBit_raw_of_lt hi, IntTy.testBit_raw_of_lt hi]

/-- NOT of the low w bits. -/
theorem testBit_notBits_raw {i : Nat} (hi : i < t.width) : (notBits t.width (t.raw y)).testBit i = (~~~y).getLsbD i := by
  rw [testBit_notBits, IntTy.testBit_raw_of_lt hi, BitVec.getLsbD_not, decide_eq_true hi,
    decide_eq_true (Nat.lt_of_lt_of_le hi t.width_le)]

theorem res_andn : t.res (t.raw x &&& notBits t.width (t.raw y) : Nat) = narrow t (x &&& ~~~y) :=
  IntTy.res_natCast_eq_narrow fun i hi => by
    rw [Nat.testBit_and, BitVec.getLsbD_and, IntTy.testBit_raw_of_lt hi, testBit_notBits_raw y hi]

theorem res_orn : t.res (t.raw x ||| notBits t.width (t.raw y) : Nat) = narrow t (x ||| ~~~y) :=
  IntTy.res_natCast_eq_narrow fun i hi => by
    rw [Nat.testBit_or, BitVec.getLsbD_or, IntTy.testBit_raw_of_lt hi, testBit_notBits_raw y hi]

theorem res_shl : t.res (t.raw x <<< (t.raw y % t.width) : Nat) = narrow t (x <<< (y.toNat % t.width)) :=
  IntTy.res_natCast_eq_narrow fun i hi => by
    rw [IntTy.raw_mod_width, Nat.testBit_shiftLeft, BitVec.getLsbD_shiftLeft, IntTy.testBit_raw_of_lt (by omega),
      decide_eq_true (Nat.lt_of_lt_of_le hi t.width_le), Bool.true_and]
    by_cases hlt : i < y.toNat % t.width
    · simp [hlt, Nat.not_le.mpr hlt]
    · simp [hlt, Nat.not_lt.mp hlt]

theorem res_shr : t.res (t.raw x >>> (t.raw y % t.width) : Nat) = narrow t (low t x >>> (y.toNat % t.width)) :=
  IntTy.res_natCast_eq_narrow fun i _ => by
    rw [IntTy.raw_mod_width, Nat.testBit_shiftRight, BitVec.getLsbD_ushiftRight, IntTy.testBit_raw, getLsbD_low]

theorem res_sar : t.res (toSigned t.width (t.raw x) / (2 ^ (t.raw y % t.width) : Nat))
    = narrow t ((signed t x).sshiftRight (y.toNat % t.width)) := by
  rw [IntTy.res_eq_narrow_ofInt, IntTy.raw_mod_width, ← toInt_signed, ← Int.shiftRight_eq_div_pow, ← BitVec.toInt_sshiftRight,
    BitVec.ofInt_toInt]

theorem res_rol : t.res ((t.raw x <<< (t.raw y % t.width)) % 2 ^ t.width ||| t.raw x >>> (t.width - t.raw y % t.width) : Nat)
    = narrow t (turned t x (y.toNat % t.width)) := by
  rw [IntTy.raw_mod_width]
  have hn : y.toNat % t.width < t.width := Nat.mod_lt _ t.width_pos
  generalize y.toNat % t.width = n at hn ⊢
  refine IntTy.res_natCast_eq_narrow fun i hi => ?_
  rw [getLsbD_turned t x hn hi, Nat.testBit_or, Nat.testBit_mod_two_pow, Nat.testBit_shiftLeft, Nat.testBit_shiftRight,
    IntTy.testBit_raw, IntTy.testBit_raw]
  by_cases hlt : i < n
  · simp [hlt, show ¬ n ≤ i by omega, show t.width - n + i < t.width by omega]
  · simp [hlt, hi, show n ≤ i by omega, show i - n < t.width by omega, show ¬ t.width - n + i < t.width by omega]

/-! ## The field of BFX (R271) -/

theorem bfxVal_eq (t : IntTy) (a : Nat) (y : Word) : bfxVal t a y.toNat =
    if fieldLen t y = 0 then 0
    else if t.signed then toSigned (fieldLen t y) ((a >>> fieldPos y) % 2 ^ fieldLen t y)
    else ((a >>> fieldPos y) % 2 ^ fieldLen t y : Nat) := by
  by_cases h : fieldLen t y = 0
  · rw [if_pos h]
    exact if_pos (fieldLen_eq_zero.mp h)
  · rw [if_neg h, fieldLen_of_ne_zero h, fieldPos_eq]
    exact if_neg (mt fieldLen_eq_zero.mpr h)

/-- Bits of a number of l bits, extended with its sign or with zeros. -/
theorem getLsbD_ofInt_field {l : Nat} (hl : 0 < l) (sg : Bool) (f : Nat) {i : Nat} (hi : i < 64) :
    (BitVec.ofInt 64 (if sg then toSigned l (f % 2 ^ l) else (f % 2 ^ l : Nat))).getLsbD i =
      if i < l then f.testBit i else sg && f.testBit (l - 1) := by
  cases sg
  · rw [if_neg (by decide), BitVec.ofInt_natCast, BitVec.getLsbD_ofNat, Nat.testBit_mod_two_pow]
    by_cases h : i < l <;> simp [h, hi]
  · rw [if_pos rfl, toSigned_eq_toInt hl]
    show ((BitVec.ofNat l (f % 2 ^ l)).signExtend 64).getLsbD i = _
    rw [BitVec.getLsbD_signExtend, BitVec.getLsbD_ofNat, BitVec.msb_eq_getLsbD_last, BitVec.getLsbD_ofNat,
      Nat.testBit_mod_two_pow, Nat.testBit_mod_two_pow]
    by_cases h : i < l <;> simp [h, hi, show l - 1 < l by omega]

theorem res_bfxVal {r : Word} (hr : ∀ i, i < 64 → r.getLsbD i =
      if fieldLen t y = 0 then false
      else if i < fieldLen t y then x.getLsbD (fieldPos y + i)
      else t.signed && x.getLsbD (fieldPos y + fieldLen t y - 1)) :
    t.res (bfxVal t (t.raw x) y.toNat) = narrow t r := by
  rw [IntTy.res_eq_narrow_ofInt]
  congr 1
  apply BitVec.eq_of_getLsbD_eq
  intro i hi
  rw [hr i hi, bfxVal_eq]
  by_cases h : fieldLen t y = 0
  · rw [if_pos h, if_pos h]
    simp
  · have hin := fieldPos_add_fieldLen_le h
    have hlast : fieldPos y + (fieldLen t y - 1) = fieldPos y + fieldLen t y - 1 := by omega
    rw [if_neg h, if_neg h, getLsbD_ofInt_field (by omega) _ _ hi, Nat.testBit_shiftRight, Nat.testBit_shiftRight, hlast,
      IntTy.testBit_raw_of_lt (i := fieldPos y + fieldLen t y - 1) (by omega)]
    split
    · rw [IntTy.testBit_raw_of_lt (by omega)]
    · rfl

/-- The low n bits with zeros above, as a mask (R272). -/
theorem zeroExtend_truncate_eq_and (n : Nat) {m : Word} (hm : m = BitVec.ofNat 64 (2 ^ n - 1)) :
    (x.truncate n).zeroExtend 64 = x &&& m := by
  subst hm
  apply BitVec.eq_of_getLsbD_eq
  intro i hi
  rw [BitVec.getLsbD_and, BitVec.getLsbD_ofNat, Nat.testBit_two_pow_sub_one, BitVec.getLsbD_setWidth, BitVec.getLsbD_setWidth]
  cases x.getLsbD i <;> simp [hi]

/-- A long immediate of MOVHI lies in the high half already (R272). -/
theorem movhiImm_long_and_high (i : BitVec 32) : movhiImm (.long i) &&& (0xFFFFFFFF00000000 : Word) = i.zeroExtend 64 <<< 32 := by
  show i.zeroExtend 64 <<< 32 &&& (0xFFFFFFFF00000000 : Word) = _
  rw [show (0xFFFFFFFF00000000 : Word) = BitVec.ofNat 64 (2 ^ 32 - 1) <<< 32 by decide, ← BitVec.shiftLeft_and_distrib,
    ← zeroExtend_truncate_eq_and _ 32 rfl]
  congr 2
  exact BitVec.setWidth_setWidth_of_le _ (by decide) |>.trans (BitVec.setWidth_eq i)
end

/-- Settles O10: each result bit by bit, the arithmetic shift and the field of BFX by the integer they stand for. -/
theorem bitwiseShiftsAndFields : Obligations.BitwiseShiftsAndFields := by
  refine ⟨fun s o x y k hd hv => ⟨?_, ?_, ?_, ?_, ?_, ?_, ?_, ?_, ?_⟩,
    fun s o x k => ⟨fun y hd hv => ⟨fun r hr => ?_, ?_, ?_, ?_, ?_, ?_, ?_⟩,
      fun hd hv => ⟨?_, ?_, ?_, ?_, ?_, ?_, ?_, ?_, fun i hi => ?_, fun i hi => ?_⟩, fun hd hv => ?_⟩, fun w o i hi h => ?_⟩
  · exact yields_of_alu2 hd hv rfl (res_and x y)
  · exact yields_of_alu2 hd hv rfl (res_or x y)
  · exact yields_of_alu2 hd hv rfl (res_xor x y)
  · exact yields_of_alu2 hd hv rfl (res_andn x y)
  · exact yields_of_alu2 hd hv rfl (res_orn x y)
  · exact yields_of_alu2 hd hv rfl (res_shl x y)
  · exact yields_of_alu2 hd hv rfl (res_shr x y)
  · exact yields_of_alu2 hd hv rfl (res_sar x y)
  · exact yields_of_alu2 hd hv rfl (res_rol x y)
  · exact yields_of_alu2 hd hv rfl (res_bfxVal x y hr)
  iterate 6 exact yields_of_alu2 hd hv rfl rfl
  iterate 3 exact yields_of_alu1 hd hv rfl rfl
  · exact yields_of_alu1 hd hv rfl (zeroExtend_truncate_eq_and x 8 (by decide))
  · exact yields_of_alu1 hd hv rfl (zeroExtend_truncate_eq_and x 16 (by decide))
  · exact yields_of_alu1 hd hv rfl (zeroExtend_truncate_eq_and x 32 (by decide))
  · exact yields_of_alu1 hd hv rfl rfl
  · exact yields_of_alu1 hd hv rfl rfl
  · exact yields_of_alu1 hd hv rfl (by rw [hi]; rfl)
  · exact yields_of_alu1 hd hv rfl (by rw [hi, movhiImm_long_and_high])
  · exact yields_of_alu1 hd hv rfl rfl
  · have hty : o.ty.isW = true := by
      simp only [List.mem_cons, List.not_mem_nil, or_false] at hi
      rcases hi with rfl | rfl | rfl | rfl | rfl | rfl | rfl | rfl | rfl <;> exact OpI.ty_of_dab (wf_of_decode h)
    exact IntTy.eq_of_isW hty
end Sys2Proof
end

section
/-!
SUPPORT. How an instruction of the shared floating forms yields its result and flags, and conversions (R263, R277): an integer
of a type is written to x(D) as itself.
-/
namespace Sys2Proof
open Machine Claims

section
variable {i : Instr} {s : State} {d a b : Opd} {x y z w : Word} {k : Ctx} {r fl : Nat}

theorem yields_of_fpu1 {f : Nat → Flagged} (hd : Dirs s d a a) (hv : Reads1 s a x k)
    (he : exec i s = s.finish (s.fpu1 d a f)) (hw : BitVec.ofNat 64 (f x.toNat).1 = w) (hfl : (f x.toNat).2 = fl) :
    Yields i s k d w fl := by
  subst hw hfl
  intro hr
  rw [he]
  exact State.fpu1_completes hd hv hr

theorem yieldsF_of_fpu1 {f : Nat → Flagged} (hd : Dirs s d a a) (hv : Reads1 s a x k)
    (he : exec i s = s.finish (s.fpu1 d a f)) (hr : f x.toNat = (r, fl)) : YieldsF i s k d r fl :=
  yields_of_fpu1 hd hv he (by rw [hr]) (by rw [hr])

theorem yieldsF_of_fpu2 {f : Nat → Nat → Flagged} (hd : Dirs s d a b) (hv : Reads2 s a b x y k)
    (he : exec i s = s.finish (s.fpu2 d a b f)) (hr : f x.toNat y.toNat = (r, fl)) : YieldsF i s k d r fl := by
  intro hroom
  rw [he]
  have hc := State.fpu2_completes (f := f) hd hv
  rw [hr] at hc
  exact hc hroom

theorem yieldsF_of_fpu3 {f : Nat → Nat → Nat → Flagged} (hd : Dirs s d a b) (hv : Reads3 s d a b x y z k)
    (he : exec i s = s.finish (s.fpu3 d a b f)) (hr : f x.toNat y.toNat z.toNat = (r, fl)) : YieldsF i s k d r fl := by
  intro hroom
  rw [he]
  have hc := State.fpu3_completes (f := f) hd hv
  rw [hr] at hc
  exact hc hroom
end

/-! ## Conversions -/

section
variable {src dst t : Esz} {f g : Fmt}

theorem convert_int_float (hs : src.fmt? = none) (hd : dst.fmt? = some f) (rm : Rm) (v : Nat) :
    convert src dst rm v = f.rnd rm (decide (src.toInt v < 0)) (src.toInt v).natAbs 0 false := by
  rw [convert, hs, hd]

theorem convert_float_float (hs : src.fmt? = some g) (hd : dst.fmt? = some f) (rm : Rm) (v : Nat) :
    convert src dst rm v = f.rndV rm (g.val v) := by
  rw [convert, hs, hd]

theorem convert_float_int (hs : src.fmt? = some g) (hd : dst.fmt? = none) (rm : Rm) (v : Nat) :
    convert src dst rm v = toIntTy dst rm (g.val v) := by
  rw [convert, hs, hd]

/-- A floating pattern is written with zeros above. -/
theorem cvtWord_of_float (h : t.fmt? = some f) (r : Flagged) : cvtWord t r = r := by
  have hs : t.isS = false := by cases t <;> simp_all [Esz.isS, Esz.fmt?]
  rw [cvtWord, hs]
  rfl

theorem ofNat_mod64 (v : Int) : BitVec.ofNat 64 (mod64 v) = BitVec.ofInt 64 v := by
  apply BitVec.eq_of_toNat_eq
  rw [BitVec.toNat_ofNat, BitVec.toNat_ofInt, mod64]
  omega

/-- The range of an integer type of at most 64 bits, as its signedness gives it. -/
theorem Esz.range_cases (h : t.fmt? = none) (hw : t.width ≤ 64) :
    0 < t.width ∧ ((t.isS = true ∧ t.lo = -2 ^ (t.width - 1) ∧ t.hi = 2 ^ (t.width - 1) - 1)
      ∨ (t.isS = false ∧ t.lo = 0 ∧ t.hi = 2 ^ t.width - 1)) := by
  cases t <;> simp_all [Esz.width, Esz.isS, Esz.lo, Esz.hi, Esz.fmt?]

theorem Esz.lo_le_zero (t : Esz) : t.lo ≤ 0 := by
  rw [Esz.lo]
  split
  · exact Int.neg_nonpos_of_nonneg (Int.natCast_nonneg _)
  · exact Int.le_refl 0

theorem Esz.zero_le_hi (t : Esz) : 0 ≤ t.hi := by
  rw [Esz.hi]
  split <;> exact Int.sub_nonneg_of_le (by exact_mod_cast Nat.one_le_two_pow)

/-- No type of at most 64 bits reaches 2^64. -/
theorem Esz.range_bounds (hw : t.width ≤ 64) : -2 ^ 64 < t.lo ∧ t.hi < 2 ^ 64 := by
  cases t
  case v64 => exact absurd hw (by decide)
  case l128 => exact absurd hw (by decide)
  all_goals decide

/-- An integer in a type's range is written to x(D) as itself. -/
theorem ofNat_cvtWord_lowBits (h : t.fmt? = none) (hw : t.width ≤ 64) {v : Int} (hlo : t.lo ≤ v) (hhi : v ≤ t.hi)
    (fl : Nat) : BitVec.ofNat 64 (cvtWord t (lowBits t.width v, fl)).1 = BitVec.ofInt 64 v := by
  obtain ⟨hpos, ⟨hs, hl, hh⟩ | ⟨hs, hl, hh⟩⟩ := Esz.range_cases h hw
  · have hcut : BitVec.ofNat t.width (lowBits t.width v) = BitVec.ofInt t.width v := by
      apply BitVec.eq_of_toNat_eq
      rw [BitVec.toNat_ofNat, BitVec.toNat_ofInt, lowBits, Nat.mod_eq_of_lt]
      have := Int.emod_lt_of_pos v (show (0 : Int) < (2 ^ t.width : Nat) by exact_mod_cast Nat.two_pow_pos _)
      have := Int.emod_nonneg v (show ((2 ^ t.width : Nat) : Int) ≠ 0 by exact_mod_cast Nat.ne_of_gt (Nat.two_pow_pos _))
      omega
    have hself : toSigned t.width (lowBits t.width v) = v := by
      rw [toSigned_eq_toInt hpos, hcut, BitVec.toInt_ofInt_eq_self hpos (by omega) (by omega)]
    rw [cvtWord, if_pos hs]
    simp only [hself]
    exact ofNat_mod64 v
  · rw [cvtWord, hs, if_neg (by decide)]
    have hmod : v % ((2 ^ t.width : Nat) : Int) = v := Int.emod_eq_of_lt (by omega) (by push_cast; omega)
    obtain ⟨n, rfl⟩ := Int.eq_ofNat_of_zero_le (show 0 ≤ v by omega)
    show BitVec.ofNat 64 (lowBits t.width (n : Int)) = _
    rw [lowBits, hmod, BitVec.ofInt_natCast]
    rfl

theorem cvtWord_flags (t : Esz) (r : Flagged) : (cvtWord t r).2 = r.2 := by
  rw [cvtWord]
  split <;> rfl

theorem sat_of_lt {lo hi v : Int} (h : v < lo) : sat lo hi v = lo := if_pos h
theorem sat_of_gt {lo hi v : Int} (hr : lo ≤ hi) (h : hi < v) : sat lo hi v = hi := by
  rw [sat, if_neg (by omega), if_pos h]

/-- A magnitude of 2^71 and more is beyond every type. -/
theorem roundInt_of_big (rm : Rm) (n : Bool) {m : Nat} {e : Int} (he : 70 < e) (hm : m ≠ 0) :
    2 ^ 71 ≤ (if n then -(roundInt rm n m e).1 else (roundInt rm n m e).1) := by
  have hbig : 2 ^ 71 ≤ m <<< e.toNat := by
    rw [Nat.shiftLeft_eq]
    calc 2 ^ 71 ≤ 2 ^ e.toNat := Nat.pow_le_pow_right (by decide) (by omega)
      _ ≤ m * 2 ^ e.toNat := Nat.le_mul_of_pos_left _ (Nat.pos_of_ne_zero hm)
  have hr : (roundInt rm n m e).1 = if n then -((m <<< e.toNat : Nat) : Int) else ((m <<< e.toNat : Nat) : Int) := by
    rw [roundInt, if_pos (show 0 ≤ e by omega)]
  have hbig' : (2 ^ 71 : Int) ≤ ((m <<< e.toNat : Nat) : Int) := by exact_mod_cast hbig
  rw [hr]
  cases n
  · exact hbig'
  · rw [if_pos rfl, if_pos rfl, Int.neg_neg]
    exact hbig'

/-- A finite value is rounded to an integer, and saturates outside the type's range (R277). -/
theorem toIntTy_fin (hw : t.width ≤ 64) {rm : Rm} {n : Bool} {m : Nat} {e i : Int} {z : Bool}
    (hr : roundInt rm n m e = (i, z)) : toIntTy t rm (.fin n m e) =
      if i < t.lo then (lowBits t.width t.lo, fNV)
      else if t.hi < i then (lowBits t.width t.hi, fNV)
      else (lowBits t.width i, if z then fNX else 0) := by
  have hzero := t.lo_le_zero
  have hzero' := t.zero_le_hi
  rw [toIntTy]
  split
  · next hbig =>
    obtain ⟨he, hm⟩ := hbig
    obtain ⟨hlo, hhi⟩ := Esz.range_bounds hw
    have hout := roundInt_of_big rm n he hm
    rw [hr] at hout
    cases n
    · rw [if_neg (by decide)] at hout ⊢
      rw [if_neg (by simp only at hout; omega), if_pos (by simp only at hout; omega)]
    · rw [if_pos rfl] at hout ⊢
      rw [if_pos (by simp only at hout; omega)]
  · rw [hr]
    by_cases hlo : i < t.lo
    · simp only [hlo, true_or, if_true, sat_of_lt hlo]
    · by_cases hhi : t.hi < i
      · have hsat : sat t.lo t.hi i = t.hi := sat_of_gt (by omega) hhi
        simp only [hlo, hhi, or_true, if_true, if_false, hsat]
      · simp only [hlo, hhi, or_self, if_false]
end

section
variable {s : State} {o : OpV} {src : Esz} {x : Word} {k : Ctx} {f g : Fmt}

/-- FCVT to a floating type writes the converted pattern. -/
theorem yieldsF_fcvt_float (hd : Dirs s o.d o.a o.a) (hv : Reads1 s o.a x k) (hf : o.et.fmt? = some f) {r : Flagged}
    (hr : convert src o.et o.rm x.toNat = r) : YieldsF (.fcvt src o) s k o.d r.1 r.2 :=
  yieldsF_of_fpu1 hd hv rfl ((cvtWord_of_float hf _).trans hr)

/-- FCVT to an integer type writes the integer. -/
theorem yields_fcvt_int (hd : Dirs s o.d o.a o.a) (hv : Reads1 s o.a x k) (hn : o.et.fmt? = none) (hw : o.et.width ≤ 64)
    {v : Int} {fl : Nat} (hr : convert src o.et o.rm x.toNat = (lowBits o.et.width v, fl)) (hlo : o.et.lo ≤ v)
    (hhi : v ≤ o.et.hi) : Yields (.fcvt src o) s k o.d (BitVec.ofInt 64 v) fl :=
  yields_of_fpu1 hd hv rfl (by rw [hr, ofNat_cvtWord_lowBits hn hw hlo hhi]) (by rw [hr, cvtWord_flags])
end

theorem OpV.ty_of_wfFp1 {o : OpV} {ty : Bool} (h : o.wfFp1 ty = true) : ty = true := by
  simp only [OpV.wfFp1, Bool.and_eq_true] at h
  obtain ⟨⟨⟨⟨-, hty⟩, -⟩, -⟩, -⟩ := h
  exact hty

/-- Settles O13: by the kinds of the two types, then by the kind of the value. -/
theorem floatConvert : Obligations.FloatConvert := by
  refine fun o src => ⟨fun w h => ?_, fun s x k hd hv => ⟨fun f hf hs => ?_, fun f g hf hg => ⟨fun ha => ?_, fun n ha => ?_,
    fun n c e ha => ?_⟩, fun g hn hw hg => ⟨fun ha => ?_, fun n ha => ?_, fun n c e i z ha hr => ?_⟩⟩⟩
  · simpa [and_assoc] using OpV.ty_of_wfFp1 (wf_of_decode h)
  · exact yieldsF_fcvt_float hd hv hf (convert_int_float hs hf o.rm x.toNat)
  · exact yieldsF_fcvt_float hd hv hf (r := (f.nan, 0)) (by rw [convert_float_float hg hf, ha]; rfl)
  · exact yieldsF_fcvt_float hd hv hf (r := (f.inf n, 0)) (by rw [convert_float_float hg hf, ha]; rfl)
  · exact yieldsF_fcvt_float hd hv hf (by rw [convert_float_float hg hf, ha]; rfl)
  all_goals
    have hlo := o.et.lo_le_zero
    have hhi := o.et.zero_le_hi
    have hto := convert_float_int hg hn o.rm x.toNat
    rw [ha] at hto
  · exact yields_fcvt_int (v := 0) hd hv hn hw (hto.trans (by simp [toIntTy, lowBits])) hlo hhi
  · exact yields_fcvt_int hd hv hn hw hto (by split <;> omega) (by split <;> omega)
  · rw [toIntTy_fin hw hr] at hto
    split
    · next h => exact yields_fcvt_int hd hv hn hw (hto.trans (if_pos h)) (Int.le_refl _) (by omega)
    · next h =>
      rw [if_neg h] at hto
      split
      · next h' => exact yields_fcvt_int hd hv hn hw (hto.trans (if_pos h')) (by omega) (Int.le_refl _)
      · next h' => exact yields_fcvt_int hd hv hn hw (hto.trans (if_neg h')) (by omega) (by omega)
end Sys2Proof
end

section
/-!
SUPPORT. Values of floating patterns (R203): a pattern below its format's width is determined by its value, and two finite
values of one sign and magnitude are the same.
-/
namespace Sys2Proof
open Machine Claims

namespace Machine

/-- The pattern a value stands for, at its format's width. -/
def FVal.pattern (f : Fmt) : FVal → Nat
  | .nan => f.nan
  | .inf n => f.inf n
  | .fin n m e => f.zero n + (if m < 2 ^ f.fb then m else (e - (f.emin - f.fb) + 1).toNat * 2 ^ f.fb + (m - 2 ^ f.fb))

/-- Sign, exponent and fraction make up the pattern. -/
theorem Fmt.pattern_parts (f : Fmt) (w : Nat) :
    w % 2 ^ f.width = w / 2 ^ (f.eb + f.fb) % 2 * 2 ^ (f.eb + f.fb) + (w / 2 ^ f.fb % 2 ^ f.eb * 2 ^ f.fb + w % 2 ^ f.fb) := by
  have hsign : w % 2 ^ f.width = w % 2 ^ (f.eb + f.fb) + 2 ^ (f.eb + f.fb) * (w / 2 ^ (f.eb + f.fb) % 2) := by
    rw [Fmt.width, Nat.pow_succ, Nat.mod_mul]
  have hrest : w % 2 ^ (f.eb + f.fb) = w % 2 ^ f.fb + 2 ^ f.fb * (w / 2 ^ f.fb % 2 ^ f.eb) := by
    rw [Nat.add_comm f.eb, Nat.pow_add, Nat.mod_mul]
  rw [hsign, hrest, Nat.mul_comm (2 ^ f.fb), Nat.mul_comm (2 ^ (f.eb + f.fb))]
  omega

/-- The sign bit as a number. -/
theorem toNat_signBit (n : Nat) : (n % 2 == 1).toNat = n % 2 := by
  rcases Nat.mod_two_eq_zero_or_one n with h | h <;> rw [h] <;> rfl

/-- A pattern is the one its value stands for. -/
theorem Fmt.pattern_val {f : Fmt} {w : Nat} (h : f.val w ≠ .nan) : w % 2 ^ f.width = (f.val w).pattern f := by
  have hfr : w % 2 ^ f.fb < 2 ^ f.fb := Nat.mod_lt _ (Nat.two_pow_pos _)
  rw [Fmt.pattern_parts, ← toNat_signBit]
  unfold Fmt.val at h ⊢
  simp only at h ⊢
  split
  · next hmax =>
    rw [if_pos hmax] at h
    split
    · next hz =>
      rw [hmax, hz]
      rfl
    · next hz => exact absurd (if_neg hz) h
  · split
    · next hz => simp [FVal.pattern, Fmt.zero, hz, hfr]
    · next hz =>
      have hex : (f.emin - f.fb + ((w / 2 ^ f.fb % 2 ^ f.eb - 1 : Nat) : Int) - (f.emin - f.fb) + 1).toNat
          = w / 2 ^ f.fb % 2 ^ f.eb := by omega
      rw [FVal.pattern, hex, if_neg (by omega), Nat.add_sub_cancel_left]
      rfl

/-- Two patterns of one value, not a NaN, are the same at the format's width. -/
theorem Fmt.pattern_inj {f : Fmt} {v w : Nat} (h : f.val v = f.val w) (hn : f.val w ≠ .nan) :
    v % 2 ^ f.width = w % 2 ^ f.width := by
  rw [Fmt.pattern_val hn, Fmt.pattern_val (h ▸ hn), h]

/-- A finite value has at most fb + 1 bits, and fb + 1 of them above the least exponent. -/
theorem Fmt.val_fin_bounds {f : Fmt} {w : Nat} {n : Bool} {m : Nat} {e : Int} (h : f.val w = .fin n m e) :
    m < 2 ^ (f.fb + 1) ∧ f.emin - f.fb ≤ e ∧ (f.emin - f.fb < e → 2 ^ f.fb ≤ m) := by
  have hfr : w % 2 ^ f.fb < 2 ^ f.fb := Nat.mod_lt _ (Nat.two_pow_pos _)
  have hsucc : 2 ^ (f.fb + 1) = 2 ^ f.fb + 2 ^ f.fb := by rw [Nat.pow_succ]; omega
  unfold Fmt.val at h
  simp only at h
  split at h
  · split at h <;> cases h
  · split at h
    · obtain ⟨-, rfl, rfl⟩ := FVal.fin.inj h
      exact ⟨by omega, Int.le_refl _, fun hlt => absurd hlt (Int.lt_irrefl _)⟩
    · obtain ⟨-, rfl, rfl⟩ := FVal.fin.inj h
      exact ⟨by omega, by omega, fun _ => by omega⟩

/-- Of two finite values of one magnitude neither exponent is the greater. -/
theorem Fmt.exp_le_of_magnitude {f : Fmt} {v w : Nat} {n p : Bool} {m q : Nat} {e j : Int} (hv : f.val v = .fin n m e)
    (hw : f.val w = .fin p q j) (h : m * 2 ^ (e - min e j).toNat = q * 2 ^ (j - min e j).toNat) : j ≤ e := by
  obtain ⟨hm, hle, -⟩ := Fmt.val_fin_bounds hv
  obtain ⟨-, -, hbig⟩ := Fmt.val_fin_bounds hw
  refine Int.not_lt.mp fun hlt => ?_
  have hq := hbig (by omega)
  obtain ⟨d, hd⟩ : ∃ d, (j - min e j).toNat = d + 1 := ⟨(j - min e j).toNat - 1, by omega⟩
  rw [hd, show (e - min e j).toNat = 0 by omega, Nat.pow_zero, Nat.mul_one, Nat.pow_succ] at h
  have hge : 2 ^ f.fb * 2 ≤ q * (2 ^ d * 2) :=
    calc 2 ^ f.fb * 2 ≤ q * 2 := Nat.mul_le_mul_right 2 hq
      _ ≤ q * (2 ^ d * 2) := Nat.mul_le_mul_left q (Nat.le_mul_of_pos_left 2 (Nat.two_pow_pos d))
  rw [Nat.pow_succ] at hm
  omega

/-- Two finite values of one magnitude are written alike. -/
theorem Fmt.fin_inj {f : Fmt} {v w : Nat} {n p : Bool} {m q : Nat} {e j : Int} (hv : f.val v = .fin n m e)
    (hw : f.val w = .fin p q j) (h : m * 2 ^ (e - min e j).toNat = q * 2 ^ (j - min e j).toNat) : m = q ∧ e = j := by
  have hej := Fmt.exp_le_of_magnitude hv hw h
  have hje := Fmt.exp_le_of_magnitude hw hv (by rw [Int.min_comm]; exact h.symm)
  obtain rfl : e = j := by omega
  simpa using h

end Machine
end Sys2Proof
end

section
/-!
SUPPORT. Sums, products and orders of floating values (R274 to R276), case by case, and the root bit by bit.
-/
namespace Sys2Proof
open Machine Claims

/-- A signed magnitude over a lower exponent. -/
theorem valueAt_fin (n : Bool) (m : Nat) (e l : Int) :
    valueAt (.fin n m e) l = if n then -((m <<< (e - l).toNat : Nat) : Int) else ((m <<< (e - l).toNat : Nat) : Int) := by
  rw [valueAt, Nat.shiftLeft_eq]
  cases n <;> simp

theorem sumExact_eq (n p : Bool) (m q : Nat) (e j : Int) :
    sumExact n m e p q j = (valueAt (.fin n m e) (min e j) + valueAt (.fin p q j) (min e j), min e j) := by
  rw [valueAt_fin, valueAt_fin]
  rfl

theorem valueAt_negate (n : Bool) (m : Nat) (e l : Int) : valueAt (.fin (!n) m e) l = - valueAt (.fin n m e) l := by
  rw [valueAt_fin, valueAt_fin]
  cases n <;> simp

namespace Machine

section
variable (f : Fmt) (rm : Rm)

theorem Fmt.addV_nan_left (v : FVal) : f.addV rm .nan v = (f.nan, 0) := by cases v <;> rfl
theorem Fmt.addV_nan_right (v : FVal) : f.addV rm v .nan = (f.nan, 0) := by cases v <;> rfl
theorem Fmt.addV_inf_inf (n p : Bool) : f.addV rm (.inf n) (.inf p) = if n = p then (f.inf n, 0) else (f.nan, fNV) := rfl
theorem Fmt.addV_inf_fin (n p : Bool) (q : Nat) (j : Int) : f.addV rm (.inf n) (.fin p q j) = (f.inf n, 0) := rfl
theorem Fmt.addV_fin_inf (n p : Bool) (m : Nat) (e : Int) : f.addV rm (.fin n m e) (.inf p) = (f.inf p, 0) := rfl

section
variable {n p : Bool} {m q : Nat} {e j : Int}

theorem Fmt.addV_fin (h : valueAt (.fin n m e) (min e j) + valueAt (.fin p q j) (min e j) ≠ 0) :
    f.addV rm (.fin n m e) (.fin p q j)
      = f.rnd rm (decide (valueAt (.fin n m e) (min e j) + valueAt (.fin p q j) (min e j) < 0))
          (valueAt (.fin n m e) (min e j) + valueAt (.fin p q j) (min e j)).natAbs (min e j) false := by
  rw [Fmt.addV, sumExact_eq]
  exact if_neg h

theorem Fmt.addV_fin_zero (h : valueAt (.fin n m e) (min e j) + valueAt (.fin p q j) (min e j) = 0) :
    f.addV rm (.fin n m e) (.fin p q j) = (f.zero (if m = 0 ∧ q = 0 ∧ n = p then p else rm == .rdn), 0) := by
  have hsign : (if m = 0 ∧ q = 0 ∧ n = p then n else rm == .rdn) = (if m = 0 ∧ q = 0 ∧ n = p then p else rm == .rdn) := by
    split
    · next hz =>
      obtain ⟨-, -, rfl⟩ := hz
      rfl
    · rfl
  rw [Fmt.addV, sumExact_eq, ← hsign]
  exact if_pos h
end

/-- FFMA of factors with a product adds it to D and rounds once. -/
theorem Fmt.fma_of_mulV {x y : Nat} {p : FVal} (h : mulV (f.val x) (f.val y) = (p, 0)) (z : Nat) :
    f.fma rm x y z = f.addV rm p (f.val z) := by
  rw [Fmt.fma, h]
  rfl

/-- FFMA of factors without a product is invalid whatever D is. -/
theorem Fmt.fma_of_invalid {x y : Nat} (h : mulV (f.val x) (f.val y) = (.nan, fNV)) (z : Nat) :
    f.fma rm x y z = (f.nan, fNV) := by
  rw [Fmt.fma, h]
  rfl
end

theorem mulV_nan {a b : FVal} (h : a = .nan ∨ b = .nan) : mulV a b = (.nan, 0) := by
  rcases h with rfl | rfl
  · cases b <;> rfl
  · cases a <;> rfl

theorem mulV_fin {a b : FVal} {n m : Bool} {c g : Nat} {e h : Int} (ha : a = .fin n c e) (hb : b = .fin m g h) :
    mulV a b = (.fin (n != m) (c * g) (e + h), 0) := by
  rw [ha, hb]
  rfl

/-- A product with an infinite factor and no zero one is infinite. -/
theorem mulV_inf {a b : FVal} {n m : Bool} (h : (a = .inf n ∧ b = .inf m) ∨ (∃ g h, a = .inf n ∧ b = .fin m g h ∧ g ≠ 0)
    ∨ (∃ c e, a = .fin n c e ∧ c ≠ 0 ∧ b = .inf m)) : mulV a b = (.inf (n != m), 0) := by
  rcases h with ⟨rfl, rfl⟩ | ⟨g, h, rfl, rfl, hg⟩ | ⟨c, e, rfl, hc, rfl⟩
  · rfl
  · exact if_neg hg
  · exact if_neg hc

/-- Zero times infinity has no product. -/
theorem mulV_zero_inf {a b : FVal} (h : (∃ n m e, a = .inf n ∧ b = .fin m 0 e) ∨ (∃ n m e, a = .fin m 0 e ∧ b = .inf n)) :
    mulV a b = (.nan, fNV) := by
  rcases h with ⟨n, m, e, rfl, rfl⟩ | ⟨n, m, e, rfl, rfl⟩ <;> rfl

/-! ## Order -/

/-- Two numbers compare as less just when the first lies below. -/
theorem FVal.cmp_eq_lt_iff {a b : FVal} (ha : a ≠ .nan) (hb : b ≠ .nan) : a.cmp b = .lt ↔ Below a b := by
  cases a with
  | nan => exact absurd rfl ha
  | inf n =>
    cases b with
    | nan => exact absurd rfl hb
    | inf p => cases n <;> cases p <;> simp [FVal.cmp, Below]
    | fin p q j => cases n <;> simp [FVal.cmp, Below]
  | fin n m e =>
    cases b with
    | nan => exact absurd rfl hb
    | inf p => cases p <;> simp [FVal.cmp, Below]
    | fin p q j =>
      simp only [FVal.cmp, sumExact_eq, valueAt_negate, Below]
      generalize valueAt (.fin n m e) (min e j) = v
      generalize valueAt (.fin p q j) (min e j) = w
      by_cases hlt : v + -w < 0
      · rw [if_pos hlt]; exact iff_of_true rfl (by omega)
      · rw [if_neg hlt]; split <;> simp <;> omega

/-- The comparison the other way round. -/
theorem FVal.cmp_swap {a b : FVal} (ha : a ≠ .nan) (hb : b ≠ .nan) : b.cmp a = (a.cmp b).swap := by
  cases a with
  | nan => exact absurd rfl ha
  | inf n =>
    cases b with
    | nan => exact absurd rfl hb
    | inf p => cases n <;> cases p <;> rfl
    | fin p q j => cases n <;> rfl
  | fin n m e =>
    cases b with
    | nan => exact absurd rfl hb
    | inf p => cases p <;> rfl
    | fin p q j =>
      simp only [FVal.cmp, sumExact_eq, valueAt_negate, Int.min_comm j e]
      generalize valueAt (.fin n m e) (min e j) = v
      generalize valueAt (.fin p q j) (min e j) = w
      rcases Int.lt_trichotomy v w with h | h | h
      · rw [if_neg (by omega), if_neg (by omega), if_pos (by omega)]; rfl
      · rw [if_neg (by omega), if_pos (by omega), if_neg (by omega), if_pos (by omega)]; rfl
      · rw [if_pos (by omega), if_neg (by omega), if_neg (by omega)]; rfl

theorem FVal.cmp_eq_gt_iff {a b : FVal} (ha : a ≠ .nan) (hb : b ≠ .nan) : a.cmp b = .gt ↔ Below b a := by
  rw [← FVal.cmp_eq_lt_iff hb ha, FVal.cmp_swap ha hb]
  cases a.cmp b <;> decide

theorem FVal.cmp_eq_eq_iff {a b : FVal} (ha : a ≠ .nan) (hb : b ≠ .nan) : a.cmp b = .eq ↔ ¬ Below a b ∧ ¬ Below b a := by
  rw [← FVal.cmp_eq_lt_iff ha hb, ← FVal.cmp_eq_gt_iff ha hb]
  cases a.cmp b <;> simp

/-- Two patterns of one sign whose values are not ordered have the same value. -/
theorem Fmt.val_eq_of_cmp_eq {f : Fmt} {x y : Nat} (hx : f.val x ≠ .nan) (hy : f.val y ≠ .nan)
    (h : (f.val x).cmp (f.val y) = .eq) (hs : (f.val x).neg? = (f.val y).neg?) : f.val x = f.val y := by
  cases ha : f.val x with
  | nan => exact absurd ha hx
  | inf n =>
    cases hb : f.val y with
    | nan => exact absurd hb hy
    | inf p => rw [ha, hb] at hs; exact congrArg FVal.inf hs
    | fin p q j => rw [ha, hb] at h; cases n <;> cases h
  | fin n m e =>
    cases hb : f.val y with
    | nan => exact absurd hb hy
    | inf p => rw [ha, hb] at h; cases p <;> cases h
    | fin p q j =>
      rw [ha, hb] at h hs
      obtain rfl : n = p := hs
      have hmag : m * 2 ^ (e - min e j).toNat = q * 2 ^ (j - min e j).toNat := by
        obtain ⟨hlt, hgt⟩ := (FVal.cmp_eq_eq_iff (by simp) (by simp)).mp h
        simp only [Below, Int.min_comm j e] at hlt hgt
        rw [valueAt_fin, valueAt_fin, Nat.shiftLeft_eq, Nat.shiftLeft_eq] at hlt hgt
        generalize m * 2 ^ (e - min e j).toNat = u at hlt hgt ⊢
        generalize q * 2 ^ (j - min e j).toNat = v at hlt hgt ⊢
        cases n <;> simp only [if_true, Bool.false_eq_true, if_false] at hlt hgt <;> omega
      obtain ⟨rfl, rfl⟩ := Fmt.fin_inj ha hb hmag
      rfl

end Machine
end Sys2Proof
end

section
/-!
SUPPORT. FMIN, FMAX, FCMP and FSQRT (R274 to R276) by the order of their values and by the root of the shifted magnitude.
-/
namespace Sys2Proof
open Machine Claims

namespace Machine

/-! ## Choices (R275) -/

/-- Whether FMIN chooses the first of two numbers: it is the lesser, or −0 beside +0. -/
def FVal.before (a b : FVal) : Bool := a.cmp b == .lt || (a.cmp b == .eq && (a.neg? && !b.neg?))

theorem FVal.before_of_lt {a b : FVal} (h : a.cmp b = .lt) : a.before b = true := by rw [FVal.before, h]; rfl
theorem FVal.before_of_gt {a b : FVal} (h : a.cmp b = .gt) : a.before b = false := by rw [FVal.before, h]; rfl
theorem FVal.before_of_eq {a b : FVal} (h : a.cmp b = .eq) : a.before b = (a.neg? && !b.neg?) := by rw [FVal.before, h]; rfl

section
variable {f : Fmt} {x y : Nat}

theorem Fmt.minmax_of_nan (h : f.val x = .nan ∨ f.val y = .nan) (mx : Bool) : f.minmax mx x y = f.nan := by
  have hnan : ((f.val x).isNan || (f.val y).isNan) = true := by rcases h with h | h <;> simp [h, FVal.isNan]
  rw [Fmt.minmax]
  exact if_pos hnan

theorem FVal.isNan_of_ne {v : FVal} (h : v ≠ .nan) : v.isNan = false := by
  cases v
  case nan => exact absurd rfl h
  all_goals rfl

/-- The choice between two numbers that FMIN makes, and FMAX the other way. -/
theorem Fmt.minmax_of_num (hx : f.val x ≠ .nan) (hy : f.val y ≠ .nan) (mx : Bool) :
    f.minmax mx x y = if (f.val x).before (f.val y) != mx then x % 2 ^ f.width else y % 2 ^ f.width := by
  have hnan : ((f.val x).isNan || (f.val y).isNan) = false := by
    rw [FVal.isNan_of_ne hx, FVal.isNan_of_ne hy, Bool.or_self]
  simp only [Fmt.minmax, hnan, Bool.false_eq_true, if_false]
  refine ite_congr (congrArg (fun lt => (lt != mx) = true) ?_) (fun _ => rfl) fun _ => rfl
  rw [FVal.before]
  cases (f.val x).cmp (f.val y) <;> rfl

/-- Of two patterns of one value either choice is the same. -/
theorem Fmt.minmax_of_cmp_eq (hx : f.val x ≠ .nan) (hy : f.val y ≠ .nan) (h : (f.val x).cmp (f.val y) = .eq)
    (hs : (f.val x).neg? = (f.val y).neg?) (mx : Bool) :
    f.minmax mx x y = x % 2 ^ f.width ∧ f.minmax mx x y = y % 2 ^ f.width := by
  have hpat := Fmt.pattern_inj (Fmt.val_eq_of_cmp_eq hx hy h hs) hy
  rw [Fmt.minmax_of_num hx hy, hpat, ite_self]
  exact ⟨rfl, rfl⟩

/-- Two zeros compare equal, whatever their signs. -/
theorem Fmt.cmp_of_zeros (hx : (f.val x).isZero = true) (hy : (f.val y).isZero = true) :
    (f.val x).cmp (f.val y) = .eq := by
  obtain ⟨n, e, ha⟩ : ∃ n e, f.val x = .fin n 0 e := by
    revert hx
    cases f.val x <;> simp [FVal.isZero]
  obtain ⟨p, j, hb⟩ : ∃ n e, f.val y = .fin n 0 e := by
    revert hy
    cases f.val y <;> simp [FVal.isZero]
  rw [ha, hb, FVal.cmp_eq_eq_iff (by simp) (by simp)]
  simp [Below, valueAt]

/-- The lesser of two numbers, or a negative zero beside a zero, is chosen by FMIN and left by FMAX. -/
theorem Fmt.minmax_of_before (hx : f.val x ≠ .nan) (hy : f.val y ≠ .nan) (h : Below (f.val x) (f.val y)
    ∨ ((f.val x).isZero = true ∧ (f.val y).isZero = true ∧ (f.val x).neg? = true)) :
    f.minmax false x y = x % 2 ^ f.width ∧ f.minmax true x y = y % 2 ^ f.width := by
  rcases h with h | ⟨hzx, hzy, hneg⟩
  · rw [Fmt.minmax_of_num hx hy, Fmt.minmax_of_num hx hy, FVal.before_of_lt ((FVal.cmp_eq_lt_iff hx hy).mpr h)]
    exact ⟨rfl, rfl⟩
  · have heq := Fmt.cmp_of_zeros hzx hzy
    cases hs : (f.val y).neg?
    · rw [Fmt.minmax_of_num hx hy, Fmt.minmax_of_num hx hy, FVal.before_of_eq heq, hneg, hs]
      exact ⟨rfl, rfl⟩
    · obtain ⟨hmin, -⟩ := Fmt.minmax_of_cmp_eq hx hy heq (hneg.trans hs.symm) false
      obtain ⟨-, hmax⟩ := Fmt.minmax_of_cmp_eq hx hy heq (hneg.trans hs.symm) true
      exact ⟨hmin, hmax⟩

/-- The same with the operands in the other order. -/
theorem Fmt.minmax_of_after (hx : f.val x ≠ .nan) (hy : f.val y ≠ .nan) (h : Below (f.val y) (f.val x)
    ∨ ((f.val x).isZero = true ∧ (f.val y).isZero = true ∧ (f.val y).neg? = true)) :
    f.minmax false x y = y % 2 ^ f.width ∧ f.minmax true x y = x % 2 ^ f.width := by
  rw [Fmt.minmax_of_num hx hy, Fmt.minmax_of_num hx hy]
  rcases h with h | ⟨hzx, hzy, hneg⟩
  · rw [FVal.before_of_gt ((FVal.cmp_eq_gt_iff hx hy).mpr h)]
    exact ⟨rfl, rfl⟩
  · rw [FVal.before_of_eq (Fmt.cmp_of_zeros hzx hzy), hneg, Bool.not_true, Bool.and_false]
    exact ⟨rfl, rfl⟩

/-! ## Comparisons (R276) -/

theorem Fmt.compare_of_nan (h : f.val x = .nan ∨ f.val y = .nan) (c : Cond) :
    f.compare c x y = (decide (c = .ne ∨ c = .un), if c ∈ [Cond.lt, .le, .gt, .ge] then fNV else 0) := by
  have hnan : ((f.val x).isNan || (f.val y).isNan) = true := by rcases h with h | h <;> simp [h, FVal.isNan]
  unfold Fmt.compare
  exact (if_pos hnan).trans (by cases c <;> rfl)

theorem Fmt.compare_of_num (hx : f.val x ≠ .nan) (hy : f.val y ≠ .nan) (c : Cond) :
    (f.compare c x y).2 = 0 ∧ ((f.compare c x y).1 = true ↔ match c with
      | .eq => ¬ Below (f.val x) (f.val y) ∧ ¬ Below (f.val y) (f.val x)
      | .ne => Below (f.val x) (f.val y) ∨ Below (f.val y) (f.val x)
      | .lt => Below (f.val x) (f.val y)
      | .le => ¬ Below (f.val y) (f.val x)
      | .gt => Below (f.val y) (f.val x)
      | .ge => ¬ Below (f.val x) (f.val y)
      | .un => False
      | .ord => True) := by
  have hnan : ((f.val x).isNan || (f.val y).isNan) = false := by
    rw [FVal.isNan_of_ne hx, FVal.isNan_of_ne hy, Bool.or_self]
  simp only [Fmt.compare, hnan, Bool.false_eq_true, if_false, ← FVal.cmp_eq_lt_iff hx hy, ← FVal.cmp_eq_gt_iff hx hy]
  cases c <;> cases (f.val x).cmp (f.val y) <;> simp
end

/-! ## The root (R274) -/

/-- The root found bit by bit: it brackets its number whenever its start and its width do. -/
theorem isqrt_bounds {k n r : Nat} (hlo : r * r ≤ n) (hhi : n < (r + 2 ^ k) * (r + 2 ^ k)) :
    isqrt k n r * isqrt k n r ≤ n ∧ n < (isqrt k n r + 1) * (isqrt k n r + 1) := by
  induction k generalizing r with
  | zero => exact ⟨hlo, hhi⟩
  | succ k ih =>
    rw [isqrt]
    rw [Nat.pow_succ, Nat.mul_two, ← Nat.add_assoc] at hhi
    by_cases h : (r + 2 ^ k) * (r + 2 ^ k) ≤ n
    · simp only [h, if_true]
      exact ih h hhi
    · simp only [h, if_false]
      exact ih hlo (Nat.not_le.mp h)

theorem isqrt_eq {n r : Nat} (hn : n < 2 ^ 100) (hlo : r * r ≤ n) (hhi : n < (r + 1) * (r + 1)) : isqrt 50 n 0 = r := by
  have hb := isqrt_bounds (k := 50) (n := n) (r := 0) (Nat.zero_le n) (by rw [Nat.zero_add, ← Nat.pow_add]; exact hn)
  obtain ⟨hlo', hhi'⟩ := hb
  have hle := Nat.mul_self_lt_mul_self_iff.mp (Nat.lt_of_le_of_lt hlo' hhi)
  have hge := Nat.mul_self_lt_mul_self_iff.mp (Nat.lt_of_le_of_lt hlo hhi')
  omega

/-- The magnitude and exponent FSQRT takes the root of: an even exponent. -/
theorem evenExp_eq (m : Nat) (e : Int) :
    (if e % 2 = 0 then (m, e) else (2 * m, e - 1)) = (m * 2 ^ (e % 2).toNat, e - e % 2) := by
  rcases Int.emod_two_eq e with h | h <;> rw [h]
  · simp
  · simp [Nat.mul_comm]

section
variable {f : Fmt} {rm : Rm} {x : Nat} {n : Bool} {c : Nat} {e : Int}

theorem Fmt.sqrt_zero (h : f.val x = .fin n c e) (hc : c = 0) : f.sqrt rm x = (f.zero n, 0) := by
  rw [Fmt.sqrt, h]
  exact if_pos hc

theorem Fmt.sqrt_neg (h : f.val x = .fin n c e) (hc : c ≠ 0) (hn : n = true) : f.sqrt rm x = (f.nan, fNV) := by
  rw [Fmt.sqrt, h]
  exact (if_neg hc).trans (if_pos hn)

/-- The root of a positive number, rounded once. -/
theorem Fmt.sqrt_pos (h : f.val x = .fin n c e) (hc : c ≠ 0) (hn : n = false) (hf : f.fb ≤ 23) {r : Nat}
    (hlo : r * r ≤ (c * 2 ^ (e % 2).toNat) * 2 ^ 64) (hhi : (c * 2 ^ (e % 2).toNat) * 2 ^ 64 < (r + 1) * (r + 1)) :
    f.sqrt rm x = f.rnd rm false r (e / 2 - 32) (r * r != (c * 2 ^ (e % 2).toNat) * 2 ^ 64) := by
  obtain ⟨hm, -, -⟩ := Fmt.val_fin_bounds h
  have hpow : 2 ^ (f.fb + 1) ≤ 2 ^ 24 := Nat.pow_le_pow_right (by decide) (by omega)
  have hbound : (c * 2 ^ (e % 2).toNat) * 2 ^ 64 < 2 ^ 100 := by
    have htwo : 2 ^ (e % 2).toNat ≤ 2 ^ 1 := Nat.pow_le_pow_right (by decide) (by omega)
    calc c * 2 ^ (e % 2).toNat * 2 ^ 64 ≤ 2 ^ 24 * 2 ^ 1 * 2 ^ 64 :=
          Nat.mul_le_mul_right _ (Nat.mul_le_mul (Nat.le_trans (Nat.le_of_lt hm) hpow) htwo)
      _ < 2 ^ 100 := by decide
  have hhalf : (e - e % 2) / 2 = e / 2 := by omega
  rw [Fmt.sqrt, h]
  simp only [hc, hn, Bool.false_eq_true, if_false, evenExp_eq, Nat.shiftLeft_eq, isqrt_eq hbound hlo hhi, hhalf]
end

end Machine

section
variable {s : State} {k : Ctx} {x y : Word}

/-- A comparison raises its flags, writes its truth and then its predicate, and the next instruction follows. -/
theorem exec_fcmp {u : State} {o : OpV} {c : Cond} {b : Bool} {fl : Nat} (hd : Dirs s o.d o.a o.b)
    (hv : Reads2 s o.a o.b x y k) (ht : (OpV.fmt o).compare c x.toNat y.toNat = (b, fl))
    (hu : ((s.commitQ k).modMe fun c => c.raiseFlags fl).wr o.d (if b then 1 else 0) = .ok u) :
    exec (.fcmp c o) s = .next (u.modMe fun c => (c.setPB o.lp.val b).advance) := by
  have hw := State.wrCond_eq_ok o.lp hu
  rw [← State.setMe_onlyQs (Ctx.onlyQs_of_reads2 hv), State.setMe_modMe] at hw
  obtain ⟨c', ha, hb⟩ := hv
  show execFcmp c o s = _
  simp [execFcmp, State.dirs_ok hd, ha, hb, ht, hw, State.finish, bind, Except.bind]
end

theorem OpV.fmt_of_fp32 {o : OpV} (h : o.et = .fp32) : OpV.fmt o = fp32 := by rw [OpV.fmt, h]; rfl

/-- The class bits, from the value (R278). -/
theorem two_pow_cls (f : Fmt) (x : Nat) : 2 ^ f.cls x = match f.val x with
    | .nan => 256 | .inf true => 1 | .inf false => 128
    | .fin n c _ => if c = 0 then (if n then 8 else 16)
                    else if c < 2 ^ f.fb then (if n then 4 else 32) else (if n then 2 else 64) := by
  rw [Fmt.cls]
  cases f.val x with
  | nan => rfl
  | inf n => cases n <;> rfl
  | fin n c e =>
    simp only
    split
    · cases n <;> rfl
    · split <;> cases n <;> rfl

section
variable {s : State} {o : OpV} {x y z : Word} {k : Ctx} {p : FVal} {r fl u v : Nat}

/-- FFMA of factors with a product yields its sum with D. -/
theorem yieldsF_ffma (hd : Dirs s o.d o.a o.b) (hv : Reads3 s o.d o.a o.b x y z k)
    (hmul : mulV ((OpV.fmt o).val x.toNat) ((OpV.fmt o).val y.toNat) = (p, 0))
    (hadd : (OpV.fmt o).addV o.rm p ((OpV.fmt o).val z.toNat) = (r, fl)) : YieldsF (.ffma o) s k o.d r fl :=
  yieldsF_of_fpu3 hd hv rfl ((Fmt.fma_of_mulV _ _ hmul _).trans hadd)

/-- FMIN and FMAX yield their choices without a flag. -/
theorem yieldsF_fmin_fmax (hd : Dirs s o.d o.a o.b) (hv : Reads2 s o.a o.b x y k)
    (hmin : (OpV.fmt o).minmax false x.toNat y.toNat = u) (hmax : (OpV.fmt o).minmax true x.toNat y.toNat = v) :
    YieldsF (.fmin o) s k o.d u 0 ∧ YieldsF (.fmax o) s k o.d v 0 :=
  ⟨yieldsF_of_fpu2 hd hv rfl (congrArg (·, 0) hmin), yieldsF_of_fpu2 hd hv rfl (congrArg (·, 0) hmax)⟩
end

/-- Settles O12: each instruction by the kinds of its operands' values. -/
theorem floatRootsChoicesAndCompares : Obligations.FloatRootsChoicesAndCompares := by
  refine ⟨fun s o x k => ⟨fun y z hd hv => ⟨fun n c e m g h p q j ha hb hz => ⟨fun hne => ?_, fun h0 => ?_⟩, fun n m h => ?_,
      fun n c e m g h ha hb => ?_, fun h => ?_, fun h => ?_⟩,
    fun hd hv => ⟨fun ha => ?_, fun ha => ?_, fun ha => ?_, fun n c e ha => ⟨fun hc => ?_, fun hc hn => ?_,
      fun r hc hn hf hlo hhi => ?_⟩, ?_⟩,
    fun y hd hv => ⟨fun h => ?_, fun ha hb h => ?_, fun ha hb h => ?_, fun ha hb hlt hgt hs => ?_⟩⟩,
    fun s o c x y k b fl u hd hv h hu => ?_⟩
  · exact yieldsF_ffma hd hv (mulV_fin ha hb) (by rw [hz, Fmt.addV_fin _ _ hne])
  · exact yieldsF_ffma hd hv (mulV_fin ha hb) (by rw [hz, Fmt.addV_fin_zero _ _ h0])
  · have hmul := mulV_inf h
    refine ⟨fun p q j hz => ?_, fun p hz => ⟨fun hp => ?_, fun hp => ?_⟩, fun hz => ?_⟩
    · exact yieldsF_ffma hd hv hmul (by rw [hz, Fmt.addV_inf_fin])
    · exact yieldsF_ffma hd hv hmul (by rw [hz, Fmt.addV_inf_inf, if_pos hp.symm, hp])
    · exact yieldsF_ffma hd hv hmul (by rw [hz, Fmt.addV_inf_inf, if_neg (Ne.symm hp)])
    · exact yieldsF_ffma hd hv hmul (by rw [hz, Fmt.addV_nan_right])
  · refine ⟨fun p hz => ?_, fun hz => ?_⟩
    · exact yieldsF_ffma hd hv (mulV_fin ha hb) (by rw [hz, Fmt.addV_fin_inf])
    · exact yieldsF_ffma hd hv (mulV_fin ha hb) (by rw [hz, Fmt.addV_nan_right])
  · exact yieldsF_of_fpu3 hd hv rfl (Fmt.fma_of_invalid _ _ (mulV_zero_inf h) _)
  · exact yieldsF_ffma hd hv (mulV_nan h) (Fmt.addV_nan_left _ _ _)
  · exact yieldsF_of_fpu1 hd hv rfl (by rw [Fmt.sqrt, ha])
  · exact yieldsF_of_fpu1 hd hv rfl (by rw [Fmt.sqrt, ha]; rfl)
  · exact yieldsF_of_fpu1 hd hv rfl (by rw [Fmt.sqrt, ha]; rfl)
  · exact yieldsF_of_fpu1 hd hv rfl (Fmt.sqrt_zero ha hc)
  · exact yieldsF_of_fpu1 hd hv rfl (Fmt.sqrt_neg ha hc hn)
  · exact yieldsF_of_fpu1 hd hv rfl (Fmt.sqrt_pos ha hc hn (by rw [OpV.fmt_of_fp32 hf]; decide) hlo hhi)
  · exact yieldsF_of_fpu1 hd hv rfl (congrArg (·, 0) (two_pow_cls _ _))
  · exact yieldsF_fmin_fmax hd hv (Fmt.minmax_of_nan h _) (Fmt.minmax_of_nan h _)
  · obtain ⟨hmin, hmax⟩ := Fmt.minmax_of_before ha hb h
    exact yieldsF_fmin_fmax hd hv hmin hmax
  · obtain ⟨hmin, hmax⟩ := Fmt.minmax_of_after ha hb h
    exact yieldsF_fmin_fmax hd hv hmin hmax
  · have heq := (FVal.cmp_eq_eq_iff ha hb).mpr ⟨hlt, hgt⟩
    obtain ⟨-, hmin⟩ := Fmt.minmax_of_cmp_eq ha hb heq hs false
    obtain ⟨hmax, -⟩ := Fmt.minmax_of_cmp_eq ha hb heq hs true
    exact yieldsF_fmin_fmax hd hv hmin hmax
  · obtain ⟨hnan, hnum⟩ := h
    refine exec_fcmp hd hv ?_ hu
    by_cases hn : (OpV.fmt o).val x.toNat = .nan ∨ (OpV.fmt o).val y.toNat = .nan
    · obtain ⟨hb, hfl⟩ := hnan hn
      rw [Fmt.compare_of_nan hn, hfl]
      exact congrArg (·, _) (Bool.eq_iff_iff.mpr (decide_eq_true_iff.trans hb.symm))
    · obtain ⟨hx, hy⟩ := not_or.mp hn
      obtain ⟨hfl, hb⟩ := hnum hx hy
      obtain ⟨hfl', hb'⟩ := Fmt.compare_of_num hx hy c
      exact Prod.ext (Bool.eq_iff_iff.mpr (hb'.trans hb.symm)) (hfl'.trans hfl.symm)
end Sys2Proof
end
